-- ==== Sys2Proof/Word.lean ====
section
/-! DEFINITION. The widths of the manual that are used everywhere: bytes of a wire format, and the 32-bit
counts that go from 2^32 - 1 to 0 on their next increment (R5, R65, R82, R184). -/

namespace Sys2Proof

/-- One byte of a wire format (R198). -/
abbrev Byte := BitVec 8

/-- A 32-bit count that wraps (R5, R65, R82, R184). -/
abbrev Count32 := BitVec 32

/-- A programme lane, 0 to 7 (00 §1.1). -/
abbrev LaneNo := Fin 8

/-- A recall slot, 0 or 1 (R175). -/
abbrev SlotNo := Fin 2

/-- Station time at an event: `none` is "unset" (00 §4.1). -/
abbrev Time := Option Nat

/-- The largest value of a 32-bit count. -/
def maxCount32 : Nat := 4294967295

/-- The largest station time, 2^48 - 1 (R188). -/
def maxStation : Nat := 281474976710655

end Sys2Proof
end

