-- ==== Sys2Proof/Config.lean ====
section
/-! DEFINITION. What the manual leaves open and the model does not fix: free values with no body (log 6 to 8). -/

namespace Sys2Proof

/-- The enumerations whose byte codes in records and replies Section 12 does not list. -/
inductive CodeTable where
  | carriage | closeCause | outcome | checkResult | findingKind | findingState | bufferState | allocState
  | extentState | slotState | mode | configTimer | holdOff | storeState | monitorStatus | noticeKind
  | liveness
  deriving DecidableEq, Repr

/-- FREE VALUE (log 7): the byte that stands for the i-th member of an enumeration whose codes the manual
does not give. -/
opaque Config.code (table : CodeTable) (i : Nat) : Byte

/-- FREE VALUE (log 6): a choice of one thing out of two whose order the manual leaves open, read at `freeCount`. -/
opaque Config.freeBit (n : Nat) : Bool

/-- FREE VALUE (log 6): a choice among several things whose order the manual leaves open, read at `freeCount`. -/
opaque Config.freePick (n : Nat) : Nat

/-- FREE VALUE (log 8): what a 32-bit number becomes when it would pass 2^32 - 1 and the manual does not say
(a copy number or format generation of R144, a cell sequence number or count of R179). -/
opaque Config.past32 (n : Nat) : Nat

end Sys2Proof
end

