-- ==== Sys2Proof/Syntax.lean ====
section
/-! DEFINITION. The commands of the LX-8: one constructor of `Instr` for each row of spec/opcode_table.json,
with the operands the outside gives it. Cells and frames come as the bytes on the wire (R199, R200). A request
row stands for a SEND exchange with a whole, well-formed frame of that request (log 30); its operands are the
fields of Table 12-2 as sent, before any range check. -/

namespace Sys2Proof

/-- Which of a lane's two carriage conditions a grace timer belongs to (R114). -/
inductive LaneCondition where
  | lost | drift
  deriving DecidableEq, Repr

/-- Completion of an IDENTIFY (Table 8-1). -/
inductive IdentifyResult where
  | ok (count : Nat)
  | fail
  deriving DecidableEq, Repr

/-- Completion of a READ PAGE (Table 8-1). -/
inductive ReadResult where
  | ok (page : List Byte)
  | erased
  | fail
  deriving DecidableEq, Repr

/-- The fields of a LANE request, in the order R189 lists them (33 bytes in Table 12-2). -/
structure LaneFields where
  lane : Nat
  enabled : Nat
  gapTimeout : Nat
  rateLow : Nat
  rateHigh : Nat
  silence : Int
  keepalive : Nat
  lateLimit : Nat
  earlyLimit : Nat
  lostGrace : Nat
  lostSeverity : Nat
  driftGrace : Nat
  driftSeverity : Nat
  holdOnBreach : Nat
  preRoll : Nat
  postRoll : Nat
  deriving DecidableEq, Repr

/-- The entry form of a FILT request (R63). -/
structure FilterEntryFields where
  lane : Nat
  entry : Nat
  enabled : Nat
  value : Nat
  mask : Nat
  sense : Nat
  deriving DecidableEq, Repr

/-- The fields of a RULE request: the set, then Table 6-1 in order (R102). `severities` is the last byte. -/
structure RuleFields where
  set : Nat
  target : Int
  tolerance : Int
  shortCeiling : Option Int
  relativeCeiling : Option Int
  peakCeiling : Option Int
  minCoverage : Nat
  gapLimit : Nat
  deadAirLimit : Nat
  lateLimit : Nat
  grace : Nat
  holdOnBreach : Nat
  preRoll : Nat
  postRoll : Nat
  severities : Nat
  deriving DecidableEq, Repr

/-- A directed range as an XMAP request carries it (R156). -/
structure DirectedFields where
  lo : Nat
  hi : Nat
  lane : Nat
  deriving DecidableEq, Repr

/-- The fields of a DSEV request (R105, R164). -/
structure SeverityFields where
  stalled : Nat
  short : Nat
  storeLost : Nat
  floorDays : Nat
  deriving DecidableEq, Repr

/-- A request as a dispatched frame names it: one constructor for each request row of the table. -/
inductive Request where
  | conf
  | runm
  | timeAbsolute (time : Nat)
  | timeStep (step : Nat)
  | save
  | fmat
  | rsta
  | lrst (lane : Nat)
  | lane (f : LaneFields)
  | filtEntry (f : FilterEntryFields)
  | filtPassAll (lane flag : Nat)
  | rule (f : RuleFields)
  | rmap (lane kind set : Nat)
  | xmapDistributed (lo hi : Nat)
  | xmapDirected (number : Nat) (range : Option DirectedFields)
  | xmapPooling (lane target : Nat)
  | dsev (f : SeverityFields)
  | alrm (protocol timeout : Nat)
  | setr (group index : Nat)
  | stat (target : Nat)
  | metr (lane : Nat)
  | verd (start : Nat)
  | find (start : Nat)
  | note
  | capt (lane : Nat)
  | extnByNumber (number : Nat)
  | extnByLaneTime (lane time : Nat)
  | hlst (start : Nat)
  | ackfSingle (id : Nat)
  | ackfAllUpTo (id : Nat)
  | hold (lane start : Nat) (stop : Option Nat)
  | hrel (id : Nat)
  | rcal (lane t1 t0 slot : Nat)
  | rstp (slot : Nat)
  deriving DecidableEq, Repr

/-- One command of the LX-8: one constructor for each row of spec/opcode_table.json. INCOMPLETE_FRAME, DROPPED_FRAME,
REJECT_REPLY and UNKNOWN_TAG carry the whole exchange as the host shifts it in, its first byte included (R183); COLLECT
carries the number of bytes clocked out after the link status (R187; log 30). -/
inductive Instr where
  | inboundCell (lane : LaneNo) (bytes : List Byte)
  | exportHoldCell (bytes : List Byte)
  | exportHoldExpiry
  | exportCellSent
  | gapTimerExpiry (lane : LaneNo)
  | rateWindowCompletion (lane : LaneNo)
  | holdOffResend (lane : LaneNo)
  | keepaliveExpiry (lane : LaneNo)
  | laneGraceExpiry (lane : LaneNo) (which : LaneCondition)
  | configTimerExpiry
  | swapTimerExpiry
  | retryTimerExpiry
  | storeIssue
  | storeTimeout
  | identifyRetry
  | identifyCompletion (result : IdentifyResult)
  | laneProgramCompletion (ok : Bool)
  | systemProgramCompletion (ok : Bool)
  | systemEraseCompletion (ok : Bool)
  | laneEraseCompletion (ok : Bool)
  | formatEraseCompletion (ok : Bool)
  | scanReadCompletion (result : ReadResult)
  | recallReadCompletion (result : ReadResult)
  | coldReset
  | warmResetComplete
  | incompleteFrame (bytes : List Byte)
  | droppedFrame (bytes : List Byte)
  | rejectReply (bytes : List Byte)
  | unknownTag (bytes : List Byte)
  | collect (clocked : Nat)
  | conf (seq : Byte)
  | runm (seq : Byte)
  | timeAbsolute (seq : Byte) (time : Nat)
  | timeStep (seq : Byte) (step : Nat)
  | save (seq : Byte)
  | fmat (seq : Byte)
  | rsta (seq : Byte)
  | lrst (seq : Byte) (lane : Nat)
  | lane (seq : Byte) (f : LaneFields)
  | filtEntry (seq : Byte) (f : FilterEntryFields)
  | filtPassAll (seq : Byte) (lane flag : Nat)
  | rule (seq : Byte) (f : RuleFields)
  | rmap (seq : Byte) (lane kind set : Nat)
  | xmapDistributed (seq : Byte) (lo hi : Nat)
  | xmapDirected (seq : Byte) (number : Nat) (range : Option DirectedFields)
  | xmapPooling (seq : Byte) (lane target : Nat)
  | dsev (seq : Byte) (f : SeverityFields)
  | alrm (seq : Byte) (protocol timeout : Nat)
  | setr (seq : Byte) (group index : Nat)
  | stat (seq : Byte) (target : Nat)
  | metr (seq : Byte) (lane : Nat)
  | verd (seq : Byte) (start : Nat)
  | find (seq : Byte) (start : Nat)
  | note (seq : Byte)
  | capt (seq : Byte) (lane : Nat)
  | extnByNumber (seq : Byte) (number : Nat)
  | extnByLaneTime (seq : Byte) (lane time : Nat)
  | hlst (seq : Byte) (start : Nat)
  | ackfSingle (seq : Byte) (id : Nat)
  | ackfAllUpTo (seq : Byte) (id : Nat)
  | hold (seq : Byte) (lane start : Nat) (stop : Option Nat)
  | hrel (seq : Byte) (id : Nat)
  | rcal (seq : Byte) (lane t1 t0 slot : Nat)
  | rstp (seq : Byte) (slot : Nat)
  deriving DecidableEq, Repr

/-- The request a request row carries with its sequence tag; none for the rows that are not requests. -/
def Instr.request : Instr → Option (Byte × Request)
  | .conf q => some (q, .conf)
  | .runm q => some (q, .runm)
  | .timeAbsolute q t => some (q, .timeAbsolute t)
  | .timeStep q d => some (q, .timeStep d)
  | .save q => some (q, .save)
  | .fmat q => some (q, .fmat)
  | .rsta q => some (q, .rsta)
  | .lrst q l => some (q, .lrst l)
  | .lane q f => some (q, .lane f)
  | .filtEntry q f => some (q, .filtEntry f)
  | .filtPassAll q l v => some (q, .filtPassAll l v)
  | .rule q f => some (q, .rule f)
  | .rmap q l k n => some (q, .rmap l k n)
  | .xmapDistributed q a b => some (q, .xmapDistributed a b)
  | .xmapDirected q n r => some (q, .xmapDirected n r)
  | .xmapPooling q l t => some (q, .xmapPooling l t)
  | .dsev q f => some (q, .dsev f)
  | .alrm q p t => some (q, .alrm p t)
  | .setr q g i => some (q, .setr g i)
  | .stat q t => some (q, .stat t)
  | .metr q l => some (q, .metr l)
  | .verd q n => some (q, .verd n)
  | .find q n => some (q, .find n)
  | .note q => some (q, .note)
  | .capt q l => some (q, .capt l)
  | .extnByNumber q n => some (q, .extnByNumber n)
  | .extnByLaneTime q l t => some (q, .extnByLaneTime l t)
  | .hlst q n => some (q, .hlst n)
  | .ackfSingle q n => some (q, .ackfSingle n)
  | .ackfAllUpTo q n => some (q, .ackfAllUpTo n)
  | .hold q l a b => some (q, .hold l a b)
  | .hrel q n => some (q, .hrel n)
  | .rcal q l t1 t0 n => some (q, .rcal l t1 t0 n)
  | .rstp q n => some (q, .rstp n)
  | .inboundCell _ _ => none
  | .exportHoldCell _ => none
  | .exportHoldExpiry => none
  | .exportCellSent => none
  | .gapTimerExpiry _ => none
  | .rateWindowCompletion _ => none
  | .holdOffResend _ => none
  | .keepaliveExpiry _ => none
  | .laneGraceExpiry _ _ => none
  | .configTimerExpiry => none
  | .swapTimerExpiry => none
  | .retryTimerExpiry => none
  | .storeIssue => none
  | .storeTimeout => none
  | .identifyRetry => none
  | .identifyCompletion _ => none
  | .laneProgramCompletion _ => none
  | .systemProgramCompletion _ => none
  | .systemEraseCompletion _ => none
  | .laneEraseCompletion _ => none
  | .formatEraseCompletion _ => none
  | .scanReadCompletion _ => none
  | .recallReadCompletion _ => none
  | .coldReset => none
  | .warmResetComplete => none
  | .incompleteFrame _ => none
  | .droppedFrame _ => none
  | .rejectReply _ => none
  | .unknownTag _ => none
  | .collect _ => none

end Sys2Proof
end

