-- ==== Sys2Proof/WellFormed.lean ====
section
/-! DEFINITION. Which command terms can be sent: every field fits the width that Section 12 gives it, and a page
read from the store has its 16,384 bytes (R134, R200). The machine does not consult these checks: a term outside
them is one that no wire can carry. -/

namespace Sys2Proof

/-- Fits one byte. -/
def fits8 (n : Nat) : Bool := n < 256
/-- Fits two bytes. -/
def fits16 (n : Nat) : Bool := n < 65536
/-- Fits four bytes. -/
def fits32 (n : Nat) : Bool := n < 4294967296
/-- Fits a station time, six bytes (R198). -/
def fits48 (n : Nat) : Bool := n < 281474976710656
/-- Fits a 16-bit two's complement number of tenths (R198). -/
def fitsTenths (z : Int) : Bool := -32768 ≤ z && z ≤ 32767

/-- An absent field always fits. -/
def optionFits {α : Type} (p : α → Bool) : Option α → Bool
  | none => true
  | some x => p x

/-- A completion's page is whole: 16,384 bytes (Table 8-1). -/
def ReadResult.wellFormed : ReadResult → Bool
  | .ok page => page.length == 16384
  | .erased => true
  | .fail => true

def LaneFields.wellFormed (f : LaneFields) : Bool :=
  fits8 f.lane && fits8 f.enabled && fits16 f.gapTimeout && fits16 f.rateLow && fits16 f.rateHigh
    && fitsTenths f.silence && fits16 f.keepalive && fits16 f.lateLimit && fits32 f.earlyLimit
    && fits32 f.lostGrace && fits8 f.lostSeverity && fits32 f.driftGrace && fits8 f.driftSeverity
    && fits8 f.holdOnBreach && fits16 f.preRoll && fits16 f.postRoll

def FilterEntryFields.wellFormed (f : FilterEntryFields) : Bool :=
  fits8 f.lane && fits8 f.entry && fits8 f.enabled && fits16 f.value && fits16 f.mask && fits8 f.sense

def RuleFields.wellFormed (f : RuleFields) : Bool :=
  fits8 f.set && fitsTenths f.target && fitsTenths f.tolerance && optionFits fitsTenths f.shortCeiling
    && optionFits fitsTenths f.relativeCeiling && optionFits fitsTenths f.peakCeiling
    && fits16 f.minCoverage && fits16 f.gapLimit && fits16 f.deadAirLimit && fits32 f.lateLimit
    && fits16 f.grace && fits8 f.holdOnBreach && fits16 f.preRoll && fits16 f.postRoll
    && fits8 f.severities

def DirectedFields.wellFormed (f : DirectedFields) : Bool :=
  fits32 f.lo && fits32 f.hi && fits8 f.lane

def SeverityFields.wellFormed (f : SeverityFields) : Bool :=
  fits8 f.stalled && fits8 f.short && fits8 f.storeLost && fits16 f.floorDays

/-- Every field of a request fits its width in Table 12-2. -/
def Request.wellFormed : Request → Bool
  | .conf => true
  | .runm => true
  | .timeAbsolute t => fits48 t
  | .timeStep d => fits32 d
  | .save => true
  | .fmat => true
  | .rsta => true
  | .lrst l => fits8 l
  | .lane f => f.wellFormed
  | .filtEntry f => f.wellFormed
  | .filtPassAll l v => fits8 l && fits8 v
  | .rule f => f.wellFormed
  | .rmap l k n => fits8 l && fits8 k && fits8 n
  | .xmapDistributed a b => fits32 a && fits32 b
  | .xmapDirected n r => fits8 n && optionFits DirectedFields.wellFormed r
  | .xmapPooling l t => fits8 l && fits8 t
  | .dsev f => f.wellFormed
  | .alrm p t => fits8 p && fits16 t
  | .setr g i => fits8 g && fits8 i
  | .stat t => fits8 t
  | .metr l => fits8 l
  | .verd n => fits32 n
  | .find n => fits32 n
  | .note => true
  | .capt l => fits8 l
  | .extnByNumber n => fits32 n
  | .extnByLaneTime l t => fits8 l && fits48 t
  | .hlst n => fits16 n
  | .ackfSingle n => fits32 n
  | .ackfAllUpTo n => fits32 n
  | .hold l a b => fits8 l && fits48 a && optionFits fits48 b
  | .hrel n => fits16 n
  | .rcal l t1 t0 n => fits8 l && fits48 t1 && fits48 t0 && fits8 n
  | .rstp n => fits8 n

/-- A command that its sender can send. -/
def Instr.wellFormed : Instr → Bool
  | .scanReadCompletion r => r.wellFormed
  | .recallReadCompletion r => r.wellFormed
  | i => match i.request with
    | some (_, r) => r.wellFormed
    | none => true

end Sys2Proof
end

