-- ==== Sys2Proof/Decode.lean ====
section
/-! DEFINITION. Words of the opcode table. No row of spec/opcode_table.json gives bits: the part has no instruction
words, its commands are cells, frames, completions and timer events (00 §1.2). So no word spells a command. -/

namespace Sys2Proof

/-- The command that a word spells by the table's bits: none, for the table gives no row bits. -/
def decodeTableWord (_nbits _w : Nat) : Option Instr := none

end Sys2Proof
end

