-- ==== Sys2Proof/Machine/State.lean ====
section
/-! DEFINITION. The state of the LX-8, block by block (Table 1 of the overview), as plain data; the reasons a step can
stop; and the machine right after a cold reset. A timer holds its expiry on the reference clock, or none while it
is stopped. -/

namespace Sys2Proof.Machine

/-! ### Lane Intake Unit (Section 1) -/

/-- Carriage states (R7 to R10). -/
inductive Carriage where
  | absent | acquiring | present | drift | lost
  deriving DecidableEq, Repr

/-- Layout codes of an AUDIO cell (Table 12-1). -/
inductive Layout where
  | mono | stereo | surround
  deriving DecidableEq, Repr

/-- The rate window while it runs: its start on the reference clock and its count (R9). -/
structure RateWindow where
  start : Nat
  count : Nat
  deriving DecidableEq, Repr

/-- Intake counters (R5). -/
structure IntakeCounters where
  audio : Count32
  caption : Count32
  proxy : Count32
  mark : Count32
  disabled : Count32
  cut : Count32
  check : Count32
  lane : Count32
  kind : Count32
  length : Count32
  stale : Count32
  discontinuities : Count32
  holdsSent : Count32
  deriving DecidableEq, Repr

/-- The cell assembly buffer: the bytes stored, and whether payload bytes came beyond the maximum (R1). -/
structure Assembly where
  bytes : List Byte
  cut : Bool
  deriving DecidableEq, Repr

/-- One Lane Intake Unit (R1 to R21). -/
structure Liu where
  carriage : Carriage
  run : Nat
  runLast : Nat
  gapTimer : Option Nat
  window : Option RateWindow
  lastCount : Option Nat
  openTile : Option Nat
  lossTile : Option Nat
  holdOff : Bool
  resend : Option Nat
  counters : IntakeCounters
  assembly : Assembly
  deriving DecidableEq, Repr

/-! ### Loudness Engine (Section 2) -/

/-- The two previous inputs and outputs of one filter section (R23). -/
structure SectionState where
  u1 : Rat
  u2 : Rat
  y1 : Rat
  y2 : Rat
  deriving DecidableEq, Repr

/-- Filter state of one channel position: high shelf, then low cut (Table 2-2). -/
structure PositionFilter where
  shelf : SectionState
  lowCut : SectionState
  deriving DecidableEq, Repr

/-- Filter states of the six channel positions (Table 2-1). -/
structure Filters where
  c : PositionFilter
  l : PositionFilter
  r : PositionFilter
  lfe : PositionFilter
  ls : PositionFilter
  rs : PositionFilter
  deriving DecidableEq, Repr

/-- Open tile accumulator (R27). -/
structure TileAcc where
  tile : Nat
  good : Nat
  energy : Rat
  peak : Nat
  deriving DecidableEq, Repr

/-- An entry of the tile history or of a block window: a void entry has no power (R32, Table 3-1). -/
structure TileEntry where
  tile : Nat
  power : Option Rat
  deriving DecidableEq, Repr

/-- A loudness in tenths with its stale flag. -/
structure Windowed where
  value : Int
  stale : Bool
  deriving DecidableEq, Repr

/-- A tile record (Table 2-4). The void flag is "no tile power"; the lane is the lane it is kept for. -/
structure TileRecord where
  tile : Nat
  closeTime : Time
  good : Nat
  power : Option Rat
  loudness : Option Int
  momentary : Windowed
  shortTerm : Windowed
  peak : Int
  silent : Bool
  alive : Bool
  segId : Option Nat
  deriving DecidableEq, Repr

/-- The void flag of a tile record (R28, R38). -/
def TileRecord.void (r : TileRecord) : Bool := r.power.isNone

/-- Loudness Engine state of one lane (Table 2-1), with the newest tile record METR reads (R40). -/
structure LeLane where
  filters : Filters
  lastLayout : Option Layout
  acc : Option TileAcc
  history : List TileEntry
  momentary : Windowed
  shortTerm : Windowed
  newest : Option TileRecord
  deriving DecidableEq, Repr

/-! ### Caption Checker (Section 4) -/

/-- A caption page (Table 4-1). -/
structure CaptionPage where
  pageId : Nat
  presentation : Nat
  duration : Nat
  clears : Bool
  keepalive : Bool
  rows : List (List Byte)
  deriving DecidableEq, Repr

/-- The latest accepted page with its acceptance time (R64). -/
structure LatestPage where
  page : CaptionPage
  accepted : Time
  deriving DecidableEq, Repr

/-- Caption Checker state of one lane (R64 to R66). -/
structure CcLane where
  live : Bool
  keepalive : Option Nat
  latest : Option LatestPage
  lastAcceptance : Option Time
  accepted : Count32
  rejected : Count32
  late : Count32
  early : Count32
  deriving DecidableEq, Repr

/-! ### Segment Tracker (Sections 3 and 5) -/

/-- Segment kinds (Table 5-1). -/
inductive SegKind where
  | programme | commercial | promotion | junction
  deriving DecidableEq, Repr

/-- Subtitle obligations (Table 5-1). -/
inductive Duty where
  | required | exempt
  deriving DecidableEq, Repr

/-- What a mark's kind field names: a segment kind, or END (Table 5-1). -/
inductive MarkKind where
  | segment (k : SegKind)
  | finish
  deriving DecidableEq, Repr

/-- A queued mark: the duty byte is kept as sent, since END does not use it (R79, R82). -/
structure Mark where
  segId : Nat
  kind : MarkKind
  dutyCode : Byte
  effTile : Nat
  deriving DecidableEq, Repr

/-- Identity of a segment. -/
structure Identity where
  segId : Nat
  kind : SegKind
  duty : Duty
  deriving DecidableEq, Repr

/-- Gating state of a segment (Table 3-1). `bins` has 901 counts. -/
structure Gating where
  window : List TileEntry
  gated : Nat
  below : Nat
  bins : List Nat
  deriving DecidableEq, Repr

/-- Caption counters of a segment (Table 4-4); the duty stands in the identity. -/
structure CaptionCounters where
  dutyTiles : Nat
  aliveTiles : Nat
  rejected : Nat
  late : Nat
  early : Nat
  deriving DecidableEq, Repr

/-- Open segment context (Table 5-2). -/
structure SegCtx where
  ident : Identity
  ruleSet : Option (Fin 16)
  continuation : Bool
  openTime : Time
  firstTile : Option Nat
  lastTile : Option Nat
  tiles : Nat
  voids : Nat
  maxShort : Option Int
  maxPeak : Option Int
  gating : Gating
  captions : CaptionCounters
  deriving DecidableEq, Repr

/-- Segment Tracker state of one lane. -/
structure StLane where
  queue : List Mark
  lastOpened : Option Nat
  seg : Option SegCtx
  reference : Option Int
  remembered : Option Identity
  queued : Count32
  replaced : Count32
  superseded : Count32
  invalid : Count32
  deriving DecidableEq, Repr

/-- Close causes (Table 5-3). -/
inductive CloseCause where
  | nextMark | endMark | maxLength | configEntry | laneReset
  deriving DecidableEq, Repr

/-- Result of one verdict check (R91). -/
inductive CheckResult where
  | pass | fail | skipped
  deriving DecidableEq, Repr

/-- Outcome of a verdict (R97). -/
inductive VerdictOutcome where
  | pass | breach | unjudged
  deriving DecidableEq, Repr

/-- The five check results of a judged segment (R91). -/
structure CheckResults where
  loudnessTarget : CheckResult
  peakCeiling : CheckResult
  relativeCeiling : CheckResult
  coverage : CheckResult
  lateCaptions : CheckResult
  deriving DecidableEq, Repr

/-- Verdict record (Table 5-4). An UNMEASURED integrated loudness is `none`. -/
structure Verdict where
  seq : Nat
  lane : LaneNo
  ident : Identity
  ruleSet : Option (Fin 16)
  continuation : Bool
  firstTile : Option Nat
  lastTile : Option Nat
  openTime : Time
  closeTime : Time
  cause : CloseCause
  tiles : Nat
  voids : Nat
  gated : Nat
  below : Nat
  integrated : Option Int
  maxShort : Option Int
  maxPeak : Option Int
  dutyTiles : Nat
  aliveTiles : Nat
  coverage : Option Nat
  late : Nat
  early : Nat
  rejected : Nat
  referenceUsed : Option Int
  checks : Option CheckResults
  outcome : VerdictOutcome
  deriving DecidableEq, Repr

/-- Verdict log and verdict sequence number (R98, R99). -/
structure Verdicts where
  log : List Verdict
  next : Nat
  deriving DecidableEq, Repr

/-! ### Compliance Monitor (Sections 6 and 7) -/

/-- Severities (R106). -/
inductive Severity where
  | advisory | breach
  deriving DecidableEq, Repr

/-- Finding kinds (Table 6-4). -/
inductive FindingKind where
  | loudnessTarget | peakCeiling | relativeCeiling | coverage | lateCaptions
  | deadAir | captionGap | stCeiling
  | laneLost | laneDrift
  | archiveStalled | retentionShort | storeLost
  | lateMark | markOverflow | storeFault | configTimeout | settingsDefaulted
  deriving DecidableEq, Repr

/-- Finding states (R107). -/
inductive FindingState where
  | pending | active | ended | withdrawn
  deriving DecidableEq, Repr

/-- Finding record (Table 6-3). A lane of `none` is DEVICE. -/
structure Finding where
  id : Nat
  lane : Option LaneNo
  kind : FindingKind
  severity : Severity
  state : FindingState
  acked : Bool
  segId : Option Nat
  opened : Time
  activated : Option Time
  ended : Option Time
  measured : Option Int
  limit : Option Int
  holdId : Option Nat
  unheld : Bool
  deriving DecidableEq, Repr

/-- Condition state of DEAD_AIR or CAPTION_GAP (Table 6-6). -/
structure RunCond where
  run : Nat
  start : Time
  grace : Nat
  finding : Option Finding
  deriving DecidableEq, Repr

/-- Condition state of ST_CEILING (Table 6-6). -/
structure OverCond where
  isOver : Bool
  start : Time
  grace : Nat
  finding : Option Finding
  deriving DecidableEq, Repr

/-- The watched segment of a lane with its condition state (R108). -/
structure Watched where
  ident : Identity
  ruleSet : Option (Fin 16)
  deadAir : RunCond
  captionGap : RunCond
  stCeiling : OverCond
  deriving DecidableEq, Repr

/-- Monitor status (R120). -/
inductive Status where
  | normal | alert | breach
  deriving DecidableEq, Repr

/-- One lane-level carriage condition: its open finding and its grace timer (R114). -/
structure LaneCond where
  finding : Option Finding
  grace : Option Nat
  deriving DecidableEq, Repr

/-- Compliance Monitor state of one lane. -/
structure CmLane where
  watched : Option Watched
  lost : LaneCond
  drift : LaneCond
  stalledFinding : Option Finding
  shortFinding : Option Finding
  status : Status
  deriving DecidableEq, Repr

/-- Device-wide finding state (R106, R115, R117, R120). A `nextId` of 0 says every id has been issued. -/
structure CmDevice where
  log : List Finding
  nextId : Nat
  storeLost : Option Finding
  status : Status
  deriving DecidableEq, Repr

/-- Monitor modes (Section 7). -/
inductive Mode where
  | run | config
  deriving DecidableEq, Repr

/-- The config timer (R125). -/
inductive ConfigTimer where
  | stopped
  | running (expiry : Nat)
  | paused (remaining : Nat)
  deriving DecidableEq, Repr

/-- Alarm protocols (R129). -/
inductive Protocol where
  | steady | paired
  deriving DecidableEq, Repr

/-- Pair phases (R131). -/
inductive Phase where
  | aHigh | bHigh
  deriving DecidableEq, Repr

/-- Mode and alarm line state (Table 7-1); a line is true while high. The protocol set and the config timeout
stand in the settings. -/
structure Alarm where
  mode : Mode
  configTimer : ConfigTimer
  inForce : Protocol
  overall : Status
  phase : Phase
  swap : Option Nat
  lineA : Bool
  lineB : Bool
  deriving DecidableEq, Repr

/-! ### Settings (Section 11.6) -/

/-- The settings of one lane (Tables 1-5, 4-3, 6-2 and R35). -/
structure LaneSettings where
  enabled : Bool
  gapTimeout : Nat
  rateLow : Nat
  rateHigh : Nat
  silence : Int
  keepalive : Nat
  lateLimit : Nat
  earlyLimit : Nat
  lostGrace : Nat
  lostSeverity : Severity
  driftGrace : Nat
  driftSeverity : Severity
  holdOnBreach : Bool
  preRoll : Nat
  postRoll : Nat
  deriving DecidableEq, Repr

/-- What a match of a filter entry means (Table 4-2). -/
inductive Sense where
  | accept | reject
  deriving DecidableEq, Repr

/-- A filter entry (Table 4-2). -/
structure FilterEntry where
  enabled : Bool
  value : BitVec 16
  mask : BitVec 16
  sense : Sense
  deriving DecidableEq, Repr

/-- A lane's filter table and pass-all flag (R63). -/
structure FilterTable where
  entries : Vector FilterEntry 8
  passAll : Bool
  deriving DecidableEq, Repr

/-- Severity of each check kind of a rule set (Table 6-1). -/
structure CheckSeverities where
  loudnessTarget : Severity
  stCeiling : Severity
  relativeCeiling : Severity
  peakCeiling : Severity
  coverage : Severity
  captionGap : Severity
  lateCaptions : Severity
  deadAir : Severity
  deriving DecidableEq, Repr

/-- A rule set (Table 6-1). -/
structure RuleSet where
  target : Int
  tolerance : Int
  shortCeiling : Option Int
  relativeCeiling : Option Int
  peakCeiling : Option Int
  minCoverage : Nat
  gapLimit : Nat
  deadAirLimit : Nat
  lateLimit : Nat
  grace : Nat
  holdOnBreach : Bool
  preRoll : Nat
  postRoll : Nat
  severities : CheckSeverities
  deriving DecidableEq, Repr

/-- A lane's four entries of the lane rule map (R103); `none` is NONE. -/
structure RuleMapRow where
  programme : Option (Fin 16)
  commercial : Option (Fin 16)
  promotion : Option (Fin 16)
  junction : Option (Fin 16)
  deriving DecidableEq, Repr

/-- A directed range of the extent map (Table 9-1). -/
structure DirectedRange where
  lo : Nat
  hi : Nat
  lane : LaneNo
  deriving DecidableEq, Repr

/-- The extent map (Table 9-1). -/
structure ExtentMap where
  lo : Nat
  hi : Nat
  directed : Vector (Option DirectedRange) 4
  pooling : Vector (Option LaneNo) 8
  deriving DecidableEq, Repr

/-- The device severity table (R105). -/
structure DeviceSeverities where
  stalled : Severity
  short : Severity
  storeLost : Severity
  deriving DecidableEq, Repr

/-- The settings image: the whole of the host's settings (Section 11.6). -/
structure Settings where
  lanes : Vector LaneSettings 8
  filters : Vector FilterTable 8
  rules : Vector RuleSet 16
  ruleMap : Vector RuleMapRow 8
  extentMap : ExtentMap
  severities : DeviceSeverities
  floorDays : Nat
  protocolSet : Protocol
  configTimeout : Nat
  deriving DecidableEq, Repr

/-! ### Archive Controller (Sections 8 to 10) -/

/-- An archive record: kind code, record time and content (R201). -/
structure Record where
  kind : Byte
  time : Nat
  content : List Byte
  deriving DecidableEq, Repr

/-- Page buffer states (R138). -/
inductive BufferState where
  | free | filling | waiting | programming
  deriving DecidableEq, Repr

/-- A page buffer: its records, the stamp of the moment it became WAITING, and whether a flush seals the extent when
its program completes OK (R138, R150). -/
structure PageBuffer where
  state : BufferState
  records : List Record
  ready : Nat
  sealAfter : Bool
  deriving DecidableEq, Repr

/-- Pending gap counts and the span of their times (R139). -/
structure GapCounts where
  proxy : Nat
  caption : Nat
  mark : Nat
  tile : Nat
  verdict : Nat
  finding : Nat
  earliest : Option Nat
  latest : Option Nat
  deriving DecidableEq, Repr

/-- The lane's OPEN extent as its write point: the header's open time and generation, whether the header has been
programmed, and the stamp of the moment the header became ready (R140). -/
structure WritePoint where
  ext : Nat
  openTime : Nat
  generation : Nat
  headerDone : Bool
  ready : Nat
  deriving DecidableEq, Repr

/-- Allocation states (R157). -/
inductive AllocState where
  | idle
  | wanted
  | chosen (ext : Nat)
  | writing (w : WritePoint)
  deriving DecidableEq, Repr

/-- A seal offered for programming (R141): its place, what it holds, and the stamp of the moment it became ready. -/
structure PendingSeal where
  ext : Nat
  page : Nat
  first : Nat
  last : Nat
  pages : Nat
  ready : Nat
  deriving DecidableEq, Repr

/-- Archive Controller state of one lane. -/
structure AcLane where
  buffers : Vector PageBuffer 4
  gaps : GapCounts
  alloc : AllocState
  seals : List PendingSeal
  stalled : Bool
  short : Bool
  deriving DecidableEq, Repr

/-- Extent states (Table 8-3). -/
inductive ExtentState where
  | system | free | erasing | opened | sealed | retired
  deriving DecidableEq, Repr

/-- Extent record (Section 8.3). -/
structure Extent where
  no : Nat
  state : ExtentState
  tag : Option LaneNo
  first : Option Nat
  last : Option Nat
  pages : Nat
  faulty : Bool
  deriving DecidableEq, Repr

/-- Origin of a hold (Table 10-1). -/
inductive HoldOrigin where
  | host
  | finding (id : Nat)
  deriving DecidableEq, Repr

/-- A hold (Table 10-1). `restored` marks a hold entered from the kept copy until the scan ends (R174). -/
structure Hold where
  id : Nat
  lane : LaneNo
  start : Nat
  stop : Option Nat
  origin : HoldOrigin
  restored : Bool
  deriving DecidableEq, Repr

/-- The hold table, in order of id, and the next hold id (R167). -/
structure HoldTable where
  table : List Hold
  next : Nat
  deriving DecidableEq, Repr

/-- What a copy in the system extent carries (R144). -/
inductive CopyContent where
  | image (s : Settings)
  | holds (t : HoldTable)
  deriving DecidableEq, Repr

/-- A system extent write (R145). `isSave` marks the copy of a SAVE (R195). -/
structure SysWrite where
  copyNo : Nat
  generation : Nat
  content : CopyContent
  isSave : Bool
  deriving DecidableEq, Repr

/-- The system extent (R144). -/
structure SysExtent where
  appendPage : Option Nat
  nextCopy : Nat
  generation : Nat
  saved : Option Settings
  queue : List SysWrite
  deriving DecidableEq, Repr

/-- The best copies found so far in the first phase of the scan (R146). -/
structure Found where
  image : Option (Nat × Settings)
  holds : Option (Nat × HoldTable)
  newest : Option (Nat × Nat)
  deriving DecidableEq, Repr

/-- The place of the second phase of the scan within one extent (R147). -/
inductive ScanStage where
  | header
  | sealPage (tag : LaneNo) (first : Nat)
  | content (tag : LaneNo) (first page : Nat) (last : Nat)
  deriving DecidableEq, Repr

/-- The scan (R146, R147). -/
inductive Scan where
  | awaiting
  | system (page : Nat) (found : Found)
  | extents (ext : Nat) (stage : ScanStage) (defaulted : Bool)
  | done
  deriving DecidableEq, Repr

/-- Recall slot states (Table 10-2). -/
inductive SlotState where
  | idle | running | paused | done | aborted
  deriving DecidableEq, Repr

/-- The end marker of a recall (R175). -/
structure EndMarker where
  first : Nat
  ext : Nat
  limit : Nat
  deriving DecidableEq, Repr

/-- A recall's request (R175). -/
structure RecallRequest where
  lane : LaneNo
  t0 : Nat
  t1 : Nat
  deriving DecidableEq, Repr

/-- What a recall does when its slot page has been sent (R177). -/
inductive AfterPage where
  | more | choose | finish
  deriving DecidableEq, Repr

/-- Causes carried by RECALL_END (Table 12-1 payloads). -/
inductive EndCause where
  | none | rstp | laneReset | warmReset
  deriving DecidableEq, Repr

/-- A RECALL_END waiting to be sent: its cause says the outcome (R181, R182). -/
structure EndCell where
  cause : EndCause
  exported : Nat
  unreadable : Nat
  p : Nat
  deriving DecidableEq, Repr

/-- A recall slot (Table 10-2). -/
structure Slot where
  state : SlotState
  request : Option RecallRequest
  marker : Option EndMarker
  p : Option Nat
  position : Option (Nat × Nat)
  page : List Record
  after : AfterPage
  seq : Nat
  exported : Nat
  unreadable : Nat
  endCell : Option EndCell
  endSent : Bool
  noticeTaken : Bool
  deriving DecidableEq, Repr

/-- The export cell being sent. `live` is false once a warm reset has discarded its recall (R182). -/
structure Sending where
  slot : SlotNo
  isEnd : Bool
  live : Bool
  deriving DecidableEq, Repr

/-- Export link: hold state with its expiry (R17), the cell being sent and the slot of the most recent cell (R179). -/
structure RecallLink where
  hold : Option Nat
  sending : Option Sending
  lastSlot : Option SlotNo
  deriving DecidableEq, Repr

/-- A warm reset in progress: the lanes whose hold-off was ON when it began (R20), and whether a store outage has cut
the flush short (R151). -/
structure Warm where
  holdOff : Vector Bool 8
  cut : Bool
  deriving DecidableEq, Repr

/-! ### Store Port (Section 8.1) -/

/-- Which page of a lane's extent a program writes (R135). -/
inductive LanePage where
  | header (openTime first generation : Nat)
  | content (buffer : Fin 4)
  | sealPage (x : PendingSeal)
  deriving DecidableEq, Repr

/-- Store operations (Table 8-1), by the work they belong to (R135). -/
inductive StoreOp where
  | identify
  | sysProgram (page : Nat) (w : SysWrite)
  | sysErase
  | scanRead (ext page : Nat)
  | laneProgram (lane : LaneNo) (what : LanePage) (ext page : Nat)
  | laneErase (lane : LaneNo) (ext : Nat)
  | formatErase (ext : Nat)
  | recallRead (slot : SlotNo) (ext page : Nat)
  deriving DecidableEq, Repr

/-- An operation with the mark that its completion is to be discarded (R148, R151, R182). -/
structure StoreJob where
  op : StoreOp
  discard : Bool
  deriving DecidableEq, Repr

/-- The operation in flight and the moment it was issued (R134). -/
structure InFlight where
  job : StoreJob
  issued : Nat
  deriving DecidableEq, Repr

/-- An erase waiting in class 4: for a lane's choice, or of a format (R135). -/
structure EraseWait where
  ext : Nat
  lane : Option LaneNo
  deriving DecidableEq, Repr

/-- The Store Port (R134 to R136). -/
structure StorePort where
  up : Bool
  inFlight : Option InFlight
  interrupted : Option StoreJob
  count : Option Nat
  returned : Option Nat
  nextIdentify : Option Nat
  erases : List EraseWait
  lastRecall : Option SlotNo
  deriving DecidableEq, Repr

/-! ### Control Link Interface (Section 11) -/

/-- Link states (Table 11-2). -/
inductive LinkState where
  | ready | taking | working | replying
  deriving DecidableEq, Repr

/-- The control link: its state, its request and reply buffers and its counters (R184). -/
structure Link where
  state : LinkState
  request : List Byte
  reply : List Byte
  incomplete : Count32
  dropped : Count32
  rejected : Count32
  deriving DecidableEq, Repr

/-- Pending notice set (Table 11-6): one flag for each entry it can hold; SAVE_DONE carries its result. -/
structure Notices where
  carriage : Vector Bool 8
  caption : Vector Bool 8
  finding : Vector Bool 8
  deviceFinding : Bool
  verdict : Bool
  recallEnd : Vector Bool 2
  saveDone : Option Bool
  formatDone : Bool
  scanDone : Bool
  logFull : Bool
  configTimeout : Bool
  deriving DecidableEq, Repr

/-- MODEL (log 5): what the part puts on one of its links. -/
inductive Emission where
  | laneCell (lane : LaneNo) (bytes : List Byte)
  | exportCell (bytes : List Byte)
  | storeOp (op : StoreOp) (page : List Byte)
  | shiftedOut (bytes : List Byte)
  deriving DecidableEq, Repr

/-! ### The whole part -/

/-- The state of the LX-8. The first five fields are the model's own (log 1, 2, 5, 6); `station` is station time. -/
structure State where
  pending : List Instr
  clock : Nat
  freeCount : Nat
  emitted : List Emission
  stamp : Nat
  attemptDue : Bool
  station : Time
  liu : Vector Liu 8
  le : Vector LeLane 8
  cc : Vector CcLane 8
  st : Vector StLane 8
  verdicts : Verdicts
  cm : Vector CmLane 8
  dev : CmDevice
  alarm : Alarm
  settings : Settings
  ac : Vector AcLane 8
  extents : List Extent
  sys : SysExtent
  scan : Scan
  format : Option Nat
  holds : HoldTable
  slots : Vector Slot 2
  exportLink : RecallLink
  retry : Option Nat
  warm : Option Warm
  store : StorePort
  link : Link
  notices : Notices
  saveInFlight : Bool
  deriving DecidableEq, Repr

/-- Why a step can stop with a fault: never. The manual has no event or request that stops the part (log 28);
so the type has no constructor, which is safe: no claim can lean on a fault. -/
inductive Fault where
  deriving DecidableEq, Repr

/-- Why a command can have no meaning. -/
inductive Refusal where
  /-- Raised only by a row of `exec` whose meaning is not written yet (safe: nothing is claimed of it). No row of
  this model is left so. -/
  | notModelled (mnemonic : String)
  deriving DecidableEq, Repr

/-! ### The values of a cold reset -/

/-- Counters at 0 (R5). -/
def IntakeCounters.zero : IntakeCounters := ⟨0, 0, 0, 0, 0, 0, 0, 0, 0, 0, 0, 0, 0⟩

/-- R19. -/
def Liu.reset : Liu where
  carriage := .absent
  run := 0
  runLast := 0
  gapTimer := none
  window := none
  lastCount := none
  openTile := none
  lossTile := none
  holdOff := false
  resend := none
  counters := .zero
  assembly := ⟨[], false⟩

/-- A filter section at rest (R24). -/
def SectionState.zero : SectionState := ⟨0, 0, 0, 0⟩

/-- A channel position at rest (R24). -/
def PositionFilter.zero : PositionFilter := ⟨.zero, .zero⟩

/-- Every channel position at rest (R24, R41). -/
def Filters.zero : Filters := ⟨.zero, .zero, .zero, .zero, .zero, .zero⟩

/-- -99.9 LUFS, stale (Table 2-1). -/
def Windowed.cleared : Windowed := ⟨-999, true⟩

/-- R41. -/
def LeLane.reset : LeLane where
  filters := .zero
  lastLayout := none
  acc := none
  history := []
  momentary := .cleared
  shortTerm := .cleared
  newest := none

/-- R76. -/
def CcLane.reset : CcLane where
  live := false
  keepalive := none
  latest := none
  lastAcceptance := none
  accepted := 0
  rejected := 0
  late := 0
  early := 0

/-- R100. -/
def StLane.reset : StLane where
  queue := []
  lastOpened := none
  seg := none
  reference := none
  remembered := none
  queued := 0
  replaced := 0
  superseded := 0
  invalid := 0

/-- R100. -/
def Verdicts.reset : Verdicts := ⟨[], 1⟩

/-- R122. -/
def CmLane.reset : CmLane where
  watched := none
  lost := ⟨none, none⟩
  drift := ⟨none, none⟩
  stalledFinding := none
  shortFinding := none
  status := .normal

/-- R122. -/
def CmDevice.reset : CmDevice := ⟨[], 1, none, .normal⟩

/-- R132, R133, Table 7-1. -/
def Alarm.reset : Alarm where
  mode := .run
  configTimer := .stopped
  inForce := .steady
  overall := .normal
  phase := .aHigh
  swap := none
  lineA := false
  lineB := false

/-- Defaults of Tables 1-5, 4-3, 6-2 and R35. -/
def LaneSettings.default : LaneSettings where
  enabled := false
  gapTimeout := 200
  rateLow := 990
  rateHigh := 1010
  silence := -600
  keepalive := 5000
  lateLimit := 2000
  earlyLimit := 10000
  lostGrace := 2000
  lostSeverity := .breach
  driftGrace := 30000
  driftSeverity := .advisory
  holdOnBreach := false
  preRoll := 0
  postRoll := 0

/-- Default filter entry (R63). -/
def FilterEntry.default : FilterEntry := ⟨false, 0, 0xFFFF#16, .accept⟩

/-- Default filter table (R63). -/
def FilterTable.default : FilterTable := ⟨Vector.replicate 8 .default, false⟩

/-- Every check ADVISORY (Table 6-1). -/
def CheckSeverities.default : CheckSeverities :=
  ⟨.advisory, .advisory, .advisory, .advisory, .advisory, .advisory, .advisory, .advisory⟩

/-- Defaults of Table 6-1. -/
def RuleSet.default : RuleSet where
  target := -230
  tolerance := 10
  shortCeiling := none
  relativeCeiling := none
  peakCeiling := none
  minCoverage := 0
  gapLimit := 6000
  deadAirLimit := 6000
  lateLimit := maxCount32
  grace := 0
  holdOnBreach := false
  preRoll := 0
  postRoll := 0
  severities := .default

/-- Default extent map (Table 9-1). -/
def ExtentMap.default : ExtentMap := ⟨1, 65536, Vector.replicate 4 none, Vector.replicate 8 none⟩

/-- The defaults each section gives its settings (R146). -/
def Settings.default : Settings where
  lanes := Vector.replicate 8 .default
  filters := Vector.replicate 8 .default
  rules := Vector.replicate 16 .default
  ruleMap := Vector.replicate 8 ⟨none, none, none, none⟩
  extentMap := .default
  severities := ⟨.breach, .advisory, .breach⟩
  floorDays := 0
  protocolSet := .steady
  configTimeout := 60

/-- A FREE page buffer (R138). -/
def PageBuffer.empty : PageBuffer := ⟨.free, [], 0, false⟩

/-- No pending gap counts (R139). -/
def GapCounts.zero : GapCounts := ⟨0, 0, 0, 0, 0, 0, none, none⟩

/-- R152, R166. -/
def AcLane.reset : AcLane where
  buffers := Vector.replicate 4 .empty
  gaps := .zero
  alloc := .idle
  seals := []
  stalled := false
  short := false

/-- Table 10-2. -/
def Slot.reset : Slot where
  state := .idle
  request := none
  marker := none
  p := none
  position := none
  page := []
  after := .more
  seq := 0
  exported := 0
  unreadable := 0
  endCell := none
  endSent := false
  noticeTaken := false

/-- An empty pending notice set (R192). -/
def Notices.empty : Notices where
  carriage := Vector.replicate 8 false
  caption := Vector.replicate 8 false
  finding := Vector.replicate 8 false
  deviceFinding := false
  verdict := false
  recallEnd := Vector.replicate 2 false
  saveDone := none
  formatDone := false
  scanDone := false
  logFull := false
  configTimeout := false

/-- The Store Port at a cold reset: UP, with IDENTIFY issued at once (R136). -/
def StorePort.reset : StorePort where
  up := true
  inFlight := some ⟨⟨.identify, false⟩, 0⟩
  interrupted := none
  count := none
  returned := none
  nextIdentify := none
  erases := []
  lastRecall := none

/-- R184, R187. -/
def Link.reset : Link := ⟨.ready, [], [], 0, 0, 0⟩

/-- The part right after a cold reset (R19, R41, R76, R100, R122, R132, R133, R136, R152, R166, R167, R182, R184,
R188, R192). -/
def State.reset : State where
  pending := []
  clock := 0
  freeCount := 0
  emitted := [.storeOp .identify []]
  stamp := 0
  attemptDue := false
  station := none
  liu := Vector.replicate 8 .reset
  le := Vector.replicate 8 .reset
  cc := Vector.replicate 8 .reset
  st := Vector.replicate 8 .reset
  verdicts := .reset
  cm := Vector.replicate 8 .reset
  dev := .reset
  alarm := .reset
  settings := .default
  ac := Vector.replicate 8 .reset
  extents := []
  sys := ⟨some 0, 1, 0, none, []⟩
  scan := .awaiting
  format := none
  holds := ⟨[], 1⟩
  slots := Vector.replicate 2 .reset
  exportLink := ⟨none, none, none⟩
  retry := none
  warm := none
  store := .reset
  link := .reset
  notices := .empty
  saveInFlight := false

end Sys2Proof.Machine
end

