-- ==== Sys2Proof/Machine/Ops.lean ====
section
/-! DEFINITION. The named operations over the state that every block uses: replacing one lane's part of a block, raising
a notice, emitting on a link, timers on the reference clock, counts, range clamps, and the free choices of order
(log 6). The LX-8 has no exception entry and no program counter. -/

namespace Sys2Proof.Machine

/-! ### One lane's part of a block -/

def State.setLiu (l : LaneNo) (x : Liu) (s : State) : State := { s with liu := s.liu.set l x }
def State.setLe (l : LaneNo) (x : LeLane) (s : State) : State := { s with le := s.le.set l x }
def State.setCc (l : LaneNo) (x : CcLane) (s : State) : State := { s with cc := s.cc.set l x }
def State.setSt (l : LaneNo) (x : StLane) (s : State) : State := { s with st := s.st.set l x }
def State.setCm (l : LaneNo) (x : CmLane) (s : State) : State := { s with cm := s.cm.set l x }
def State.setAc (l : LaneNo) (x : AcLane) (s : State) : State := { s with ac := s.ac.set l x }
def State.setSlot (k : SlotNo) (x : Slot) (s : State) : State := { s with slots := s.slots.set k x }

def State.modLiu (l : LaneNo) (f : Liu → Liu) (s : State) : State := s.setLiu l (f s.liu[l])
def State.modLe (l : LaneNo) (f : LeLane → LeLane) (s : State) : State := s.setLe l (f s.le[l])
def State.modCc (l : LaneNo) (f : CcLane → CcLane) (s : State) : State := s.setCc l (f s.cc[l])
def State.modSt (l : LaneNo) (f : StLane → StLane) (s : State) : State := s.setSt l (f s.st[l])
def State.modCm (l : LaneNo) (f : CmLane → CmLane) (s : State) : State := s.setCm l (f s.cm[l])
def State.modAc (l : LaneNo) (f : AcLane → AcLane) (s : State) : State := s.setAc l (f s.ac[l])
def State.modSlot (k : SlotNo) (f : Slot → Slot) (s : State) : State := s.setSlot k (f s.slots[k])

/-- The eight lanes in order of number. -/
def allLanes : List LaneNo := [0, 1, 2, 3, 4, 5, 6, 7]

/-- Does `f` for every lane, in order of lane number. -/
def forLanes (f : LaneNo → State → State) (s : State) : State :=
  allLanes.foldl (fun t l => f l t) s

/-! ### Numbers -/

/-- A lane named on a wire: 0 to 7 (R186, NO_SUCH otherwise). -/
def laneOf (n : Nat) : Option LaneNo := if h : n < 8 then some ⟨n, h⟩ else none

/-- A recall slot named on a wire. -/
def slotOf (n : Nat) : Option SlotNo := if h : n < 2 then some ⟨n, h⟩ else none

/-- A rule set named on a wire. -/
def setOf (n : Nat) : Option (Fin 16) := if h : n < 16 then some ⟨n, h⟩ else none

/-- The general rule for settings: a value outside its range goes to the nearest end (00 §4.5). -/
def clampNat (lo hi v : Nat) : Nat := if v < lo then lo else if hi < v then hi else v

/-- The same for a signed setting. -/
def clampInt (lo hi v : Int) : Int := if v < lo then lo else if hi < v then hi else v

/-- A 32-bit count that stops at 2^32 - 1 (R48, R74, R139). -/
def bumpSat (n : Nat) : Nat := if n < maxCount32 then n + 1 else maxCount32

/-- The next value of a 32-bit number whose value past 2^32 - 1 the manual does not give (log 8). -/
def next32 (n : Nat) : Nat := if n < maxCount32 then n + 1 else Config.past32 n

/-! ### Timers -/

/-- A running timer whose expiry has been reached. -/
def timerDue (t : Option Nat) (clock : Nat) : Bool :=
  match t with
  | some expiry => decide (expiry ≤ clock)
  | none => false

/-- Station time at which a timer that expires at `expiry` on the reference clock will expire, as station time now
stands (log 16): unset while station time is unset. One past 2^48 - 1 is sent as its low 48 bits (log 64). -/
def State.stationAt (s : State) (expiry : Nat) : Time := s.station.map (fun t => t + (expiry - s.clock))

/-! ### Links -/

/-- Puts something on a link (log 5). -/
def State.emit (e : Emission) (s : State) : State := { s with emitted := s.emitted ++ [e] }

/-! ### Notices (R192) -/

def State.raiseCarriage (l : LaneNo) (s : State) : State :=
  { s with notices := { s.notices with carriage := s.notices.carriage.set l true } }
def State.raiseCaption (l : LaneNo) (s : State) : State :=
  { s with notices := { s.notices with caption := s.notices.caption.set l true } }
/-- The FINDING notice of a lane, or of the device (R107). -/
def State.raiseFinding (lane : Option LaneNo) (s : State) : State :=
  match lane with
  | some l => { s with notices := { s.notices with finding := s.notices.finding.set l true } }
  | none => { s with notices := { s.notices with deviceFinding := true } }
def State.raiseVerdict (s : State) : State := { s with notices := { s.notices with verdict := true } }
def State.raiseRecall (k : SlotNo) (s : State) : State :=
  { s with notices := { s.notices with recallEnd := s.notices.recallEnd.set k true } }
/-- SAVE_DONE takes the result of the most recent completion (R192). -/
def State.raiseSaveDone (ok : Bool) (s : State) : State :=
  { s with notices := { s.notices with saveDone := some ok } }
def State.raiseFormatDone (s : State) : State := { s with notices := { s.notices with formatDone := true } }
def State.raiseScanDone (s : State) : State := { s with notices := { s.notices with scanDone := true } }
def State.raiseLogFull (s : State) : State := { s with notices := { s.notices with logFull := true } }
def State.raiseConfigTimeout (s : State) : State :=
  { s with notices := { s.notices with configTimeout := true } }

/-! ### Free choices (log 6) -/

/-- The free bit at the present place of the free choices. -/
def State.freeBit (s : State) : Bool := Config.freeBit s.freeCount

/-- Moves on to the next free choice. -/
def State.advanceFree (s : State) : State := { s with freeCount := s.freeCount + 1 }

/-- Does two things in an order the manual leaves open. -/
def inEitherOrder (f g : State → State) (s : State) : State :=
  if s.freeBit then g (f s.advanceFree) else f (g s.advanceFree)

/-- Draws the members of a list in an order the manual leaves open, from free choice `n` on. A list of at most one
member needs no choice. The fuel is the list's length. -/
def drawOrder {α : Type} : Nat → Nat → List α → List α
  | 0, _, xs => xs
  | _ + 1, _, [] => []
  | _ + 1, _, [x] => [x]
  | k + 1, n, x :: y :: rest =>
    let xs := x :: y :: rest
    let i := Config.freePick n % xs.length
    (xs[i]?).toList ++ drawOrder k (n + 1) (xs.eraseIdx i)

/-- A list of at most one member, or its members in a free order; and how many choices that took. -/
def State.draw {α : Type} (xs : List α) (s : State) : List α × State :=
  match xs with
  | [] => ([], s)
  | [x] => ([x], s)
  | _ => (drawOrder xs.length s.freeCount xs, { s with freeCount := s.freeCount + xs.length })

/-! ### Where the part stands -/

/-- The settings of a lane in memory. -/
def State.laneSettings (s : State) (l : LaneNo) : LaneSettings := s.settings.lanes[l]

/-- The first phase of the scan has ended, so the settings are known (R146). -/
def State.settingsKnown (s : State) : Bool :=
  match s.scan with
  | .awaiting => false
  | .system _ _ => false
  | .extents _ _ _ => true
  | .done => true

/-- The scan has not ended (R147, R183; log 22). -/
def State.scanning (s : State) : Bool := s.scan != .done

/-- A lane that takes cells: enabled, and the settings restored (R18, R19). -/
def State.laneEnabled (s : State) (l : LaneNo) : Bool := s.settingsKnown && (s.laneSettings l).enabled

/-- A format is in flight (R148). -/
def State.formatting (s : State) : Bool := s.format.isSome

/-- Adds to the order in which programs become ready (R135). -/
def State.takeStamp (s : State) : Nat × State := (s.stamp, { s with stamp := s.stamp + 1 })

end Sys2Proof.Machine
end

