-- ==== Sys2Proof/Machine/Operands.lean ====
section
/-! DEFINITION. The operand forms of Section 12: how numbers, station times, tenths, optional fields and check values
are coded (R198), how a cell, a control frame and a store page are taken apart and built (R199 to R201). -/

namespace Sys2Proof.Machine

/-! ### Numbers (R198) -/

/-- A number in `w` bytes, most significant byte first. -/
def be : Nat → Nat → List Byte
  | 0, _ => []
  | w + 1, n => BitVec.ofNat 8 (n / 256 ^ w) :: be w n

/-- The number that bytes spell, most significant byte first. -/
def fromBE (bs : List Byte) : Nat := bs.foldl (fun a b => a * 256 + b.toNat) 0

/-- A whole number in `w` bytes of two's complement. -/
def beInt (w : Nat) (z : Int) : List Byte := be w (z % (256 ^ w : Nat)).toNat

/-- A loudness or peak in tenths: 16-bit two's complement. -/
def tenths (z : Int) : List Byte := beInt 2 z

/-- The 16-bit two's complement number that bytes spell. -/
def fromTenths (bs : List Byte) : Int :=
  let n := fromBE bs
  if n < 32768 then (n : Int) else (n : Int) - 65536

/-- UNMEASURED is coded as 0x8000. -/
def measuredTenths : Option Int → List Byte
  | some z => tenths z
  | none => [0x80#8, 0x00#8]

/-- A flag, or a yes or no: 1 for set or yes, 0 for clear or no (log 68). -/
def flag (b : Bool) : List Byte := [if b then 1#8 else 0#8]

/-- An optional field of `w` bytes: presence byte, then the field, or zeros. -/
def optional {α : Type} (w : Nat) (f : α → List Byte) : Option α → List Byte
  | some x => 1#8 :: f x
  | none => 0#8 :: List.replicate w 0#8

/-- A lane, rule set or pool target that may be none: 0xFF (R198). -/
def orNone {n : Nat} : Option (Fin n) → List Byte
  | some k => be 1 k.val
  | none => [0xFF#8]

/-- A lane that may be absent: presence byte, then the lane or zero (R198). -/
def optionalLane (l : Option LaneNo) : List Byte := optional 1 (fun (k : LaneNo) => be 1 k.val) l

/-- Reads `w` bytes from offset `at` of a form; bytes beyond its end read as 0. -/
def field (bs : List Byte) (off w : Nat) : List Byte := (List.range w).map (fun i => bs.getD (off + i) 0#8)

/-- Reads a number of `w` bytes at an offset. -/
def numberAt (bs : List Byte) (off w : Nat) : Nat := fromBE (field bs off w)

/-- Reads a number in tenths at an offset. -/
def tenthsAt (bs : List Byte) (off : Nat) : Int := fromTenths (field bs off 2)

/-- Reads an optional field: a presence byte of 0 is absent, any other is present (log 15). -/
def optionalAt {α : Type} (bs : List Byte) (off : Nat) (x : α) : Option α :=
  if numberAt bs off 1 = 0 then none else some x

/-! ### Check value (00 §4.6) -/

/-- One bit of the cyclic redundancy check: polynomial 0x1021, most significant bit first. -/
def crcBit (c : BitVec 16) : BitVec 16 := if c.msb then (c <<< 1) ^^^ 0x1021#16 else c <<< 1

/-- One byte of the check. -/
def crcByte (c : BitVec 16) (b : Byte) : BitVec 16 :=
  crcBit (crcBit (crcBit (crcBit (crcBit (crcBit (crcBit (crcBit (c ^^^ (b.zeroExtend 16 <<< 8)))))))))

/-- The check value over bytes in transmission order: initial value 0xFFFF, no final inversion. -/
def crc (bs : List Byte) : BitVec 16 := bs.foldl crcByte 0xFFFF#16

/-- The check value as it is sent, most significant byte first. -/
def crcBytes (bs : List Byte) : List Byte := be 2 (crc bs).toNat

/-! ### Cells (R199) -/

/-- Cell kind codes of Table 12-1. -/
def kindAudio : Byte := 1#8
def kindCaption : Byte := 2#8
def kindProxy : Byte := 3#8
def kindMark : Byte := 4#8
def kindHold : Byte := 5#8
def kindRecord : Byte := 6#8
def kindRecallEnd : Byte := 7#8

/-- Bytes of a header: AUDIO adds the layout code and the audio cell count. -/
def headerSize (kind : Byte) : Nat := if kind = kindAudio then 9 else 4

/-- Maximum payload length for the kind written in the header (R1). -/
def maxPayload (kind : Byte) : Nat :=
  if kind = kindAudio then 8640
  else if kind = kindCaption then 256
  else if kind = kindProxy then 1024
  else if kind = kindMark then 16
  else 8640

/-- Gathers a cell's bytes into the assembly buffer (R1): payload beyond the maximum is taken off the link without
being stored, and the cell is cut. -/
def gather (bytes : List Byte) : Assembly :=
  match bytes[1]? with
  | none => ⟨bytes, false⟩
  | some kind =>
    let room := headerSize kind + maxPayload kind + 2
    ⟨bytes.take room, decide (room < bytes.length)⟩

/-- The kind field of a gathered cell, if it arrived. -/
def cellKind (bytes : List Byte) : Option Byte := bytes[1]?

/-- The payload bytes that arrived: what lies between the header and the check value. -/
def cellPayload (bytes : List Byte) : List Byte :=
  let h := headerSize (bytes.getD 1 0#8)
  (bytes.take (bytes.length - 2)).drop h

/-- The check value is there and correct over the bytes from the kind field through the last payload byte. A cell too
short to hold its header and a check value fails (log 12). -/
def cellCheckOk (bytes : List Byte) : Bool :=
  let n := bytes.length
  decide (headerSize (bytes.getD 1 0#8) + 2 ≤ n)
    && (crcBytes ((bytes.take (n - 2)).drop 1) == bytes.drop (n - 2))

/-- Lane field of a gathered cell. -/
def cellLane (bytes : List Byte) : Nat := numberAt bytes 0 1

/-- Payload length field of a gathered cell. -/
def cellLength (bytes : List Byte) : Nat := numberAt bytes 2 2

/-- Layout code of an AUDIO cell. -/
def cellLayout (bytes : List Byte) : Option Layout :=
  match numberAt bytes 4 1 with
  | 1 => some .mono
  | 2 => some .stereo
  | 3 => some .surround
  | _ => none

/-- Audio cell count of an AUDIO cell. -/
def cellCount (bytes : List Byte) : Nat := numberAt bytes 5 4

/-- A cell as the part sends it. -/
def buildCell (lane kind : Byte) (payload : List Byte) : List Byte :=
  let covered := kind :: be 2 payload.length ++ payload
  lane :: covered ++ crcBytes covered

/-- A HOLD cell on a lane link: hold time in units of 10 ms (R16). -/
def holdCell (l : LaneNo) (time : Nat) : List Byte := buildCell (BitVec.ofNat 8 l.val) kindHold (be 2 time)

/-- Channel positions of a layout (01 §1.1). -/
def Layout.channels : Layout → Nat
  | .mono => 1
  | .stereo => 2
  | .surround => 6

/-- Payload length of an AUDIO cell of a layout (Table 1-3): 480 frames of 3-byte samples. -/
def Layout.payload (y : Layout) : Nat := 480 * 3 * y.channels

/-- Rows of a caption page: a length byte of 0 to 48, then the text; they fill the rest exactly. -/
def parseRows : Nat → List Byte → Option (List (List Byte))
  | 0, [] => some []
  | 0, _ :: _ => none
  | _ + 1, [] => none
  | n + 1, b :: rest =>
    if b.toNat ≤ 48 ∧ b.toNat ≤ rest.length then
      (parseRows n (rest.drop b.toNat)).map (fun rows => rest.take b.toNat :: rows)
    else none

/-- The caption page of a CAPTION payload, when it is well formed (R3, R199). -/
def parseCaption (payload : List Byte) : Option CaptionPage :=
  if 12 ≤ payload.length ∧ payload.length ≤ 256 ∧ numberAt payload 11 1 ≤ 4 then
    (parseRows (numberAt payload 11 1) (payload.drop 12)).map (fun rows =>
      { pageId := numberAt payload 0 2
        presentation := numberAt payload 2 6
        duration := numberAt payload 8 2
        clears := (payload.getD 10 0#8).getLsbD 0
        keepalive := (payload.getD 10 0#8).getLsbD 1
        rows := rows })
  else none

/-- A caption page's fields as a CAPTION payload lays them out (R199), which is how CAPT sends the latest page (R65): one
flags byte, whose other six bits are 0 (log 76). -/
def captionBytes (p : CaptionPage) : List Byte :=
  be 2 p.pageId ++ be 6 p.presentation ++ be 2 p.duration
    ++ [(if p.clears then 1#8 else 0#8) ||| (if p.keepalive then 2#8 else 0#8)]
    ++ be 1 p.rows.length ++ p.rows.flatMap (fun row => be 1 row.length ++ row)

/-- The LENGTH check (R3): the length field equals what arrived, and the kind permits it. -/
def cellLengthOk (bytes : List Byte) : Bool :=
  let payload := cellPayload bytes
  let kind := bytes.getD 1 0#8
  decide (cellLength bytes = payload.length)
    && (if kind = kindAudio then
          match cellLayout bytes with
          | some y => decide (payload.length = y.payload)
          | none => false
        else if kind = kindCaption then (parseCaption payload).isSome
        else if kind = kindProxy then decide (1 ≤ payload.length ∧ payload.length ≤ 1024)
        else decide (payload.length = 16))

/-- Samples of an AUDIO payload: 3 bytes of two's complement each. -/
def samples : List Byte → List Int
  | a :: b :: c :: rest =>
    let n := a.toNat * 65536 + b.toNat * 256 + c.toNat
    (if n < 8388608 then (n : Int) else (n : Int) - 16777216) :: samples rest
  | _ => []

/-- Cuts a list into `k` frames of `n` members. -/
def framesOf {α : Type} (n : Nat) : Nat → List α → List (List α)
  | 0, _ => []
  | k + 1, xs => xs.take n :: framesOf n k (xs.drop n)

/-! ### Exchanges and control frames (R200) -/

/-- The host's first byte of a SEND exchange. -/
def sendByte : Byte := 0x53#8

/-- The host's first byte of a COLLECT exchange. -/
def collectByte : Byte := 0x43#8

/-- Fill bytes that the part shifts out. -/
def fillBytes (n : Nat) : List Byte := List.replicate n 0#8

/-- Start byte of a control frame. -/
def frameStart : Byte := 0xA5#8

/-- A control frame: the check value covers the kind tag through the last payload byte. -/
def buildFrame (seq : Byte) (tag payload : List Byte) : List Byte :=
  let covered := tag ++ be 2 payload.length ++ payload
  frameStart :: seq :: covered ++ crcBytes covered

/-- Payload length field of a frame, once it has arrived (R184). -/
def frameLength (bytes : List Byte) : Option Nat :=
  if 8 ≤ bytes.length then some (numberAt bytes 6 2) else none

/-- The frame is whole (R184): its check value has arrived, or its length field is above 1024. -/
def frameWhole (bytes : List Byte) : Bool :=
  match frameLength bytes with
  | none => false
  | some n => decide (1024 < n) || decide (n + 10 ≤ bytes.length)

/-- Sequence tag, kind tag and payload of a whole frame. -/
def frameSeq (bytes : List Byte) : Byte := bytes.getD 1 0#8
def frameTag (bytes : List Byte) : List Byte := field bytes 2 4
def framePayload (bytes : List Byte) : List Byte := (bytes.drop 8).take (numberAt bytes 6 2)

/-- Start byte and check value are right (R185, check 2). Bytes beyond the frame are ignored (R184). -/
def frameCheckOk (bytes : List Byte) : Bool :=
  let n := numberAt bytes 6 2
  bytes.getD 0 0#8 == frameStart
    && (crcBytes ((bytes.drop 2).take (6 + n)) == (bytes.drop (8 + n)).take 2)

/-! ### Archive records and store pages (R201) -/

/-- Archive record kinds. -/
def recProxy : Byte := 1#8
def recCaption : Byte := 2#8
def recMark : Byte := 3#8
def recTile : Byte := 4#8
def recVerdict : Byte := 5#8
def recFinding : Byte := 6#8
def recGap : Byte := 7#8

/-- A record whole: 9-byte header and content. -/
def recordBytes (r : Record) : List Byte := r.kind :: be 2 r.content.length ++ be 6 r.time ++ r.content

/-- Bytes a record takes in a page. -/
def Record.size (r : Record) : Nat := 9 + r.content.length

/-- Bytes of records a content page holds. -/
def pageRoom : Nat := 16381

/-- The records of a content page after its kind byte: padding begins at a kind byte of 0, and a record that runs past the
record area ends the records (log 67). Any other kind byte, also one above 7, begins a record (log 78). The fuel is the
number of bytes. -/
def parseRecords : Nat → List Byte → List Record
  | 0, _ => []
  | _ + 1, [] => []
  | k + 1, kind :: rest =>
    if kind = 0#8 then []
    else
      let n := numberAt rest 0 2
      if rest.length < 8 + n then []
      else ⟨kind, numberAt rest 2 6, (rest.drop 8).take n⟩ :: parseRecords k (rest.drop (8 + n))

/-- Page kinds. -/
def pageHeader : Byte := 1#8
def pageSeal : Byte := 2#8
def pageContent : Byte := 3#8
def pageSettings : Byte := 4#8
def pageHolds : Byte := 5#8

/-- A page: kind byte, fields, zeros to offset 16,382, check value over bytes 0 to 16,381. -/
def buildPage (kind : Byte) (fields : List Byte) : List Byte :=
  let body := kind :: (fields ++ List.replicate (pageRoom - fields.length) 0#8)
  body ++ crcBytes body

/-- The page has its length and its check value is correct. -/
def pageCheckOk (page : List Byte) : Bool :=
  decide (page.length = 16384) && (crcBytes (page.take 16382) == page.drop 16382)

/-- The page is one of a kind, as the scan tells it (R201). -/
def pageIs (kind : Byte) (page : List Byte) : Bool := (page.getD 0 0#8 == kind) && pageCheckOk page

/-- The records of a content page. -/
def pageRecords (page : List Byte) : List Record :=
  parseRecords pageRoom ((page.take 16382).drop 1)

end Sys2Proof.Machine
end

