-- ==== Sys2Proof/Machine/Flags.lean ====
section
/-! DEFINITION. The flags and levels computed from the state: monitor statuses (R120, R130), the line patterns of the
two protocols (Tables 7-4, 7-5), ATTN and the link status byte (R183, R187, R200), and the number of a lane's
buffers that can take records (R138). -/

namespace Sys2Proof.Machine

/-! ### Monitor status -/

/-- A finding that makes its lane's status BREACH: unacknowledged, BREACH severity, ACTIVE or ENDED (R120). -/
def Finding.breaches (f : Finding) : Bool :=
  f.severity == .breach && !f.acked && (f.state == .active || f.state == .ended)

/-- A finding that makes its lane's status ALERT when nothing breaches: BREACH severity, PENDING (R120). -/
def Finding.alerts (f : Finding) : Bool := f.severity == .breach && f.state == .pending

/-- The status that the finding log gives a lane, or the device (R120). -/
def statusOf (log : List Finding) (lane : Option LaneNo) : Status :=
  let mine := log.filter (fun f => f.lane == lane)
  if mine.any Finding.breaches then .breach
  else if mine.any Finding.alerts then .alert
  else .normal

/-- Some lane's kept status is `x`. -/
def State.someLane (s : State) (x : Status) : Bool := allLanes.any (fun l => s.cm[l].status == x)

/-- Overall status (R130). -/
def State.overallOf (s : State) : Status :=
  if s.dev.status == .breach || s.someLane .breach then .breach
  else if s.someLane .alert then .alert
  else .normal

/-! ### Alarm lines -/

/-- STEADY levels of ALARM_A and ALARM_B (Table 7-4). -/
def steadyLines (overall : Status) (laneAlert : Bool) : Bool × Bool :=
  match overall with
  | .normal => (false, false)
  | .alert => (false, true)
  | .breach => (true, laneAlert)

/-- PAIRED complementary levels (Table 7-5). -/
def pairLines : Phase → Bool × Bool
  | .aHigh => (true, false)
  | .bHigh => (false, true)

/-- Swap period in RUN (Table 7-5). -/
def swapPeriod : Status → Nat
  | .normal => 500
  | .alert => 100
  | .breach => 0

/-- The other phase. -/
def Phase.other : Phase → Phase
  | .aHigh => .bHigh
  | .bHigh => .aHigh

/-! ### Link status and ATTN -/

/-- The pending notice set holds at least one entry (R192). -/
def Notices.any (n : Notices) : Bool :=
  n.carriage.toList.any id || n.caption.toList.any id || n.finding.toList.any id || n.deviceFinding
    || n.verdict || n.recallEnd.toList.any id || n.saveDone.isSome || n.formatDone || n.scanDone
    || n.logFull || n.configTimeout

/-- ATTN (R187). -/
def State.attn (s : State) : Bool := s.link.state == .replying || s.notices.any

/-- Ready-to-take (Table 11-1): READY and no warm reset in progress. -/
def State.readyToTake (s : State) : Bool := s.link.state == .ready && s.warm.isNone

/-- The scan-in-progress flag (Table 11-1). -/
def State.scanFlag (s : State) : Bool := s.scanning

/-- The link status byte, from the most significant bit down (R200). -/
def State.linkStatus (s : State) : Byte :=
  let bit (b : Bool) (v : Byte) : Byte := if b then v else 0#8
  bit s.readyToTake 0x80#8 ||| bit (s.link.state == .replying) 0x40#8 ||| bit s.notices.any 0x20#8
    ||| bit (s.alarm.mode == .config) 0x10#8 ||| bit s.scanFlag 0x08#8 ||| bit s.formatting 0x04#8
    ||| bit (s.slots[1].state != .idle) 0x02#8 ||| bit (s.slots[0].state != .idle) 0x01#8

/-! ### Page buffers -/

/-- The number of a lane's buffers that can take records (R138). -/
def AcLane.canTake (a : AcLane) : Nat :=
  (a.buffers.toList.filter (fun b => b.state == .free)).length
    + (if a.buffers.toList.any (fun b => b.state == .filling) then 1 else 0)

/-- Some buffer is FILLING with a record in it, WAITING or PROGRAMMING (R157; log 31). -/
def AcLane.holdsRecords (a : AcLane) : Bool :=
  a.buffers.toList.any (fun b =>
    (b.state == .filling && !b.records.isEmpty) || b.state == .waiting || b.state == .programming)

end Sys2Proof.Machine
end

