-- ==== Sys2Proof/Machine/Requests.lean ====
section
/-! DEFINITION. Requests on the control link: kind tags, payloads coded and read by Table 12-2, the settings a setting
request carries and what they become when clamped, and the settings image made of those payloads (R186, R189, R200,
R201). -/

namespace Sys2Proof.Machine

/-! ### Kind tags -/

/-- The 28 kind tags of Table 11-3. -/
inductive Tag where
  | conf | runm | time | save | fmat | rsta | lrst | lane | filt | rule | rmap | xmap | dsev | alrm | setr | stat
  | metr | verd | find | note | capt | extn | hlst | ackf | hold | hrel | rcal | rstp
  deriving DecidableEq, Repr

/-- Four ASCII characters. -/
def ascii4 (a b c d : Char) : List Byte :=
  [BitVec.ofNat 8 a.toNat, BitVec.ofNat 8 b.toNat, BitVec.ofNat 8 c.toNat, BitVec.ofNat 8 d.toNat]

/-- A tag as it stands in a frame (R200). -/
def Tag.bytes : Tag → List Byte
  | .conf => ascii4 'C' 'O' 'N' 'F'
  | .runm => ascii4 'R' 'U' 'N' 'M'
  | .time => ascii4 'T' 'I' 'M' 'E'
  | .save => ascii4 'S' 'A' 'V' 'E'
  | .fmat => ascii4 'F' 'M' 'A' 'T'
  | .rsta => ascii4 'R' 'S' 'T' 'A'
  | .lrst => ascii4 'L' 'R' 'S' 'T'
  | .lane => ascii4 'L' 'A' 'N' 'E'
  | .filt => ascii4 'F' 'I' 'L' 'T'
  | .rule => ascii4 'R' 'U' 'L' 'E'
  | .rmap => ascii4 'R' 'M' 'A' 'P'
  | .xmap => ascii4 'X' 'M' 'A' 'P'
  | .dsev => ascii4 'D' 'S' 'E' 'V'
  | .alrm => ascii4 'A' 'L' 'R' 'M'
  | .setr => ascii4 'S' 'E' 'T' 'R'
  | .stat => ascii4 'S' 'T' 'A' 'T'
  | .metr => ascii4 'M' 'E' 'T' 'R'
  | .verd => ascii4 'V' 'E' 'R' 'D'
  | .find => ascii4 'F' 'I' 'N' 'D'
  | .note => ascii4 'N' 'O' 'T' 'E'
  | .capt => ascii4 'C' 'A' 'P' 'T'
  | .extn => ascii4 'E' 'X' 'T' 'N'
  | .hlst => ascii4 'H' 'L' 'S' 'T'
  | .ackf => ascii4 'A' 'C' 'K' 'F'
  | .hold => ascii4 'H' 'O' 'L' 'D'
  | .hrel => ascii4 'H' 'R' 'E' 'L'
  | .rcal => ascii4 'R' 'C' 'A' 'L'
  | .rstp => ascii4 'R' 'S' 'T' 'P'

/-- The tag of a REJECT reply (R185). -/
def rejtTag : List Byte := ascii4 'R' 'E' 'J' 'T'

/-- Every tag. -/
def allTags : List Tag :=
  [.conf, .runm, .time, .save, .fmat, .rsta, .lrst, .lane, .filt, .rule, .rmap, .xmap, .dsev, .alrm, .setr, .stat,
   .metr, .verd, .find, .note, .capt, .extn, .hlst, .ackf, .hold, .hrel, .rcal, .rstp]

/-- The request a kind tag names. -/
def tagOf (bs : List Byte) : Option Tag := allTags.find? (fun t => t.bytes == bs)

/-- The kind tag of a request. -/
def requestTag : Request → Tag
  | .conf => .conf
  | .runm => .runm
  | .timeAbsolute _ => .time
  | .timeStep _ => .time
  | .save => .save
  | .fmat => .fmat
  | .rsta => .rsta
  | .lrst _ => .lrst
  | .lane _ => .lane
  | .filtEntry _ => .filt
  | .filtPassAll _ _ => .filt
  | .rule _ => .rule
  | .rmap _ _ _ => .rmap
  | .xmapDistributed _ _ => .xmap
  | .xmapDirected _ _ => .xmap
  | .xmapPooling _ _ => .xmap
  | .dsev _ => .dsev
  | .alrm _ _ => .alrm
  | .setr _ _ => .setr
  | .stat _ => .stat
  | .metr _ => .metr
  | .verd _ => .verd
  | .find _ => .find
  | .note => .note
  | .capt _ => .capt
  | .extnByNumber _ => .extn
  | .extnByLaneTime _ _ => .extn
  | .hlst _ => .hlst
  | .ackfSingle _ => .ackf
  | .ackfAllUpTo _ => .ackf
  | .hold _ _ _ => .hold
  | .hrel _ => .hrel
  | .rcal _ _ _ _ => .rcal
  | .rstp _ => .rstp

/-! ### Payloads (Table 12-2) -/

/-- LANE: lane, then the settings in the order R189 lists them. -/
def laneBytes (f : LaneFields) : List Byte :=
  be 1 f.lane ++ be 1 f.enabled ++ be 2 f.gapTimeout ++ be 2 f.rateLow ++ be 2 f.rateHigh ++ tenths f.silence
    ++ be 2 f.keepalive ++ be 2 f.lateLimit ++ be 4 f.earlyLimit ++ be 4 f.lostGrace ++ be 1 f.lostSeverity
    ++ be 4 f.driftGrace ++ be 1 f.driftSeverity ++ be 1 f.holdOnBreach ++ be 2 f.preRoll ++ be 2 f.postRoll

/-- A LANE payload read. -/
def readLane (p : List Byte) : LaneFields where
  lane := numberAt p 0 1
  enabled := numberAt p 1 1
  gapTimeout := numberAt p 2 2
  rateLow := numberAt p 4 2
  rateHigh := numberAt p 6 2
  silence := tenthsAt p 8
  keepalive := numberAt p 10 2
  lateLimit := numberAt p 12 2
  earlyLimit := numberAt p 14 4
  lostGrace := numberAt p 18 4
  lostSeverity := numberAt p 22 1
  driftGrace := numberAt p 23 4
  driftSeverity := numberAt p 27 1
  holdOnBreach := numberAt p 28 1
  preRoll := numberAt p 29 2
  postRoll := numberAt p 31 2

/-- FILT, entry form. -/
def filterBytes (f : FilterEntryFields) : List Byte :=
  be 1 f.lane ++ [0#8] ++ be 1 f.entry ++ be 1 f.enabled ++ be 2 f.value ++ be 2 f.mask ++ be 1 f.sense

/-- A FILT payload of the entry form read. -/
def readFilter (p : List Byte) : FilterEntryFields where
  lane := numberAt p 0 1
  entry := numberAt p 2 1
  enabled := numberAt p 3 1
  value := numberAt p 4 2
  mask := numberAt p 6 2
  sense := numberAt p 8 1

/-- FILT, pass-all form: the flag stands in the enabled byte. The bytes not read are written as 0 (log 75). -/
def passAllBytes (lane value : Nat) : List Byte :=
  be 1 lane ++ [1#8, 0#8] ++ be 1 value ++ List.replicate 5 0#8

/-- RULE: set, the fields of Table 6-1 in order, and one byte of severities. -/
def ruleBytes (f : RuleFields) : List Byte :=
  be 1 f.set ++ tenths f.target ++ tenths f.tolerance ++ optional 2 tenths f.shortCeiling
    ++ optional 2 tenths f.relativeCeiling ++ optional 2 tenths f.peakCeiling ++ be 2 f.minCoverage
    ++ be 2 f.gapLimit ++ be 2 f.deadAirLimit ++ be 4 f.lateLimit ++ be 2 f.grace ++ be 1 f.holdOnBreach
    ++ be 2 f.preRoll ++ be 2 f.postRoll ++ be 1 f.severities

/-- A RULE payload read. Tolerance and relative ceiling, which are differences in tenths, are two's complement as the
loudness values beside them are (log 81). -/
def readRule (p : List Byte) : RuleFields where
  set := numberAt p 0 1
  target := tenthsAt p 1
  tolerance := tenthsAt p 3
  shortCeiling := optionalAt p 5 (tenthsAt p 6)
  relativeCeiling := optionalAt p 8 (tenthsAt p 9)
  peakCeiling := optionalAt p 11 (tenthsAt p 12)
  minCoverage := numberAt p 14 2
  gapLimit := numberAt p 16 2
  deadAirLimit := numberAt p 18 2
  lateLimit := numberAt p 20 4
  grace := numberAt p 24 2
  holdOnBreach := numberAt p 26 1
  preRoll := numberAt p 27 2
  postRoll := numberAt p 29 2
  severities := numberAt p 31 1

/-- A directed range's fields after its number: presence, lo, hi, lane. -/
def directedBytes (r : Option DirectedFields) : List Byte :=
  optional 9 (fun d => be 4 d.lo ++ be 4 d.hi ++ be 1 d.lane) r

/-- A directed range read from offset `off`, its presence byte. -/
def readDirected (p : List Byte) (off : Nat) : Option DirectedFields :=
  optionalAt p off ⟨numberAt p (off + 1) 4, numberAt p (off + 5) 4, numberAt p (off + 9) 1⟩

/-- The payload of a request (Table 12-2). Bytes that its form does not read are written as 0 (log 75). -/
def requestBytes : Request → List Byte
  | .conf => []
  | .runm => []
  | .timeAbsolute t => [0#8] ++ be 6 t
  | .timeStep d => [1#8] ++ be 4 d
  | .save => []
  | .fmat => []
  | .rsta => []
  | .lrst l => be 1 l
  | .lane f => laneBytes f
  | .filtEntry f => filterBytes f
  | .filtPassAll l v => passAllBytes l v
  | .rule f => ruleBytes f
  | .rmap l k n => be 1 l ++ be 1 k ++ be 1 n
  | .xmapDistributed lo hi => [0#8] ++ be 4 lo ++ be 4 hi ++ List.replicate 3 0#8
  | .xmapDirected n r => [1#8] ++ be 1 n ++ directedBytes r
  | .xmapPooling l t => [2#8] ++ be 1 l ++ be 1 t ++ List.replicate 9 0#8
  | .dsev f => be 1 f.stalled ++ be 1 f.short ++ be 1 f.storeLost ++ be 2 f.floorDays
  | .alrm p t => be 1 p ++ be 2 t
  | .setr g i => be 1 g ++ be 1 i
  | .stat t => be 1 t
  | .metr l => be 1 l
  | .verd n => be 4 n
  | .find n => be 4 n
  | .note => []
  | .capt l => be 1 l
  | .extnByNumber n => [0#8] ++ be 4 n
  | .extnByLaneTime l t => [1#8] ++ be 1 l ++ be 6 t
  | .hlst n => be 2 n
  | .ackfSingle n => [0#8] ++ be 4 n
  | .ackfAllUpTo n => [1#8] ++ be 4 n
  | .hold l a b => be 1 l ++ be 6 a ++ optional 6 (be 6) b
  | .hrel n => be 2 n
  | .rcal l t1 t0 n => be 1 l ++ be 6 t1 ++ be 6 t0 ++ be 1 n
  | .rstp n => be 1 n

/-- The request frame that carries a request (R200). -/
def requestFrame (seq : Byte) (r : Request) : List Byte := buildFrame seq (requestTag r).bytes (requestBytes r)

/-- The payload check (R185, check 4): the payload's length must suit the request, and its form where it has forms.
A form byte that names no form suits no length (log 14); XMAP's forms are 0, 1 and 2 in the table's order (log 57). -/
def readRequest (tag : Tag) (p : List Byte) : Option Request :=
  let n := p.length
  let whole (k : Nat) (r : Request) : Option Request := if n = k then some r else none
  match tag with
  | .conf => whole 0 .conf
  | .runm => whole 0 .runm
  | .time =>
    if n = 7 ∧ numberAt p 0 1 = 0 then some (.timeAbsolute (numberAt p 1 6))
    else if n = 5 ∧ numberAt p 0 1 = 1 then some (.timeStep (numberAt p 1 4))
    else none
  | .save => whole 0 .save
  | .fmat => whole 0 .fmat
  | .rsta => whole 0 .rsta
  | .lrst => whole 1 (.lrst (numberAt p 0 1))
  | .lane => whole 33 (.lane (readLane p))
  | .filt =>
    if n = 9 ∧ numberAt p 1 1 = 0 then some (.filtEntry (readFilter p))
    else if n = 9 ∧ numberAt p 1 1 = 1 then some (.filtPassAll (numberAt p 0 1) (numberAt p 3 1))
    else none
  | .rule => whole 32 (.rule (readRule p))
  | .rmap => whole 3 (.rmap (numberAt p 0 1) (numberAt p 1 1) (numberAt p 2 1))
  | .xmap =>
    if n = 12 ∧ numberAt p 0 1 = 0 then some (.xmapDistributed (numberAt p 1 4) (numberAt p 5 4))
    else if n = 12 ∧ numberAt p 0 1 = 1 then some (.xmapDirected (numberAt p 1 1) (readDirected p 2))
    else if n = 12 ∧ numberAt p 0 1 = 2 then some (.xmapPooling (numberAt p 1 1) (numberAt p 2 1))
    else none
  | .dsev => whole 5 (.dsev ⟨numberAt p 0 1, numberAt p 1 1, numberAt p 2 1, numberAt p 3 2⟩)
  | .alrm => whole 3 (.alrm (numberAt p 0 1) (numberAt p 1 2))
  | .setr => whole 2 (.setr (numberAt p 0 1) (numberAt p 1 1))
  | .stat => whole 1 (.stat (numberAt p 0 1))
  | .metr => whole 1 (.metr (numberAt p 0 1))
  | .verd => whole 4 (.verd (numberAt p 0 4))
  | .find => whole 4 (.find (numberAt p 0 4))
  | .note => whole 0 .note
  | .capt => whole 1 (.capt (numberAt p 0 1))
  | .extn =>
    if n = 5 ∧ numberAt p 0 1 = 0 then some (.extnByNumber (numberAt p 1 4))
    else if n = 8 ∧ numberAt p 0 1 = 1 then some (.extnByLaneTime (numberAt p 1 1) (numberAt p 2 6))
    else none
  | .hlst => whole 2 (.hlst (numberAt p 0 2))
  | .ackf =>
    if n = 5 ∧ numberAt p 0 1 = 0 then some (.ackfSingle (numberAt p 1 4))
    else if n = 5 ∧ numberAt p 0 1 = 1 then some (.ackfAllUpTo (numberAt p 1 4))
    else none
  | .hold => whole 14 (.hold (numberAt p 0 1) (numberAt p 1 6) (optionalAt p 7 (numberAt p 8 6)))
  | .hrel => whole 2 (.hrel (numberAt p 0 2))
  | .rcal => whole 14 (.rcal (numberAt p 0 1) (numberAt p 1 6) (numberAt p 7 6) (numberAt p 13 1))
  | .rstp => whole 1 (.rstp (numberAt p 0 1))

/-! ### Settings as requests carry them, and clamped (00 §4.5; log 15) -/

/-- A yes or no after clamping to 0 to 1. -/
def yesOf (n : Nat) : Bool := decide (n ≠ 0)
/-- Its code: 1 for yes, 0 for no (log 68). -/
def yesCode (b : Bool) : Nat := if b then 1 else 0
/-- A severity after clamping to 0 to 1 (R198). -/
def severityOf (n : Nat) : Severity := if n = 0 then .advisory else .breach
/-- Its code. -/
def severityCode : Severity → Nat
  | .advisory => 0
  | .breach => 1
/-- A sense after clamping to 1 to 2. -/
def senseOf (n : Nat) : Sense := if n ≤ 1 then .accept else .reject
/-- Its code. -/
def senseCode : Sense → Nat
  | .accept => 1
  | .reject => 2
/-- A protocol after clamping to 1 to 2. -/
def protocolOf (n : Nat) : Protocol := if n ≤ 1 then .steady else .paired
/-- Its code. -/
def protocolCode : Protocol → Nat
  | .steady => 1
  | .paired => 2

/-- Lane settings as applied: each value clamped to its range (Tables 1-5, 4-3, 6-2 and R35). -/
def appliedLane (f : LaneFields) : LaneSettings where
  enabled := yesOf f.enabled
  gapTimeout := clampNat 50 2000 f.gapTimeout
  rateLow := clampNat 900 1000 f.rateLow
  rateHigh := clampNat 1000 1100 f.rateHigh
  silence := clampInt (-900) (-300) f.silence
  keepalive := clampNat 1000 60000 f.keepalive
  lateLimit := clampNat 0 60000 f.lateLimit
  earlyLimit := clampNat 0 120000 f.earlyLimit
  lostGrace := clampNat 0 600000 f.lostGrace
  lostSeverity := severityOf f.lostSeverity
  driftGrace := clampNat 0 600000 f.driftGrace
  driftSeverity := severityOf f.driftSeverity
  holdOnBreach := yesOf f.holdOnBreach
  preRoll := clampNat 0 600 f.preRoll
  postRoll := clampNat 0 600 f.postRoll

/-- A lane's settings with the fields of a LANE request. -/
def LaneSettings.fields (l : LaneNo) (x : LaneSettings) : LaneFields where
  lane := l.val
  enabled := yesCode x.enabled
  gapTimeout := x.gapTimeout
  rateLow := x.rateLow
  rateHigh := x.rateHigh
  silence := x.silence
  keepalive := x.keepalive
  lateLimit := x.lateLimit
  earlyLimit := x.earlyLimit
  lostGrace := x.lostGrace
  lostSeverity := severityCode x.lostSeverity
  driftGrace := x.driftGrace
  driftSeverity := severityCode x.driftSeverity
  holdOnBreach := yesCode x.holdOnBreach
  preRoll := x.preRoll
  postRoll := x.postRoll

/-- A filter entry as applied: value and mask stand as given (R63). -/
def appliedFilter (f : FilterEntryFields) : FilterEntry where
  enabled := yesOf f.enabled
  value := BitVec.ofNat 16 f.value
  mask := BitVec.ofNat 16 f.mask
  sense := senseOf f.sense

/-- A filter entry with the fields of a FILT request. -/
def FilterEntry.fields (l : LaneNo) (k : Fin 8) (x : FilterEntry) : FilterEntryFields where
  lane := l.val
  entry := k.val
  enabled := yesCode x.enabled
  value := x.value.toNat
  mask := x.mask.toNat
  sense := senseCode x.sense

/-- The severities of a rule set from their byte: one bit a check kind, most significant first (Table 12-2). -/
def severitiesOf (n : Nat) : CheckSeverities :=
  let bit (k : Nat) : Severity := if n.testBit k then .breach else .advisory
  { loudnessTarget := bit 7, stCeiling := bit 6, relativeCeiling := bit 5, peakCeiling := bit 4
    coverage := bit 3, captionGap := bit 2, lateCaptions := bit 1, deadAir := bit 0 }

/-- The byte of a rule set's severities. -/
def CheckSeverities.code (x : CheckSeverities) : Nat :=
  severityCode x.loudnessTarget * 128 + severityCode x.stCeiling * 64 + severityCode x.relativeCeiling * 32
    + severityCode x.peakCeiling * 16 + severityCode x.coverage * 8 + severityCode x.captionGap * 4
    + severityCode x.lateCaptions * 2 + severityCode x.deadAir

/-- A rule set as applied: each value clamped to its range (Table 6-1). -/
def appliedRule (f : RuleFields) : RuleSet where
  target := clampInt (-400) 0 f.target
  tolerance := clampInt 0 50 f.tolerance
  shortCeiling := f.shortCeiling.map (clampInt (-700) 200)
  relativeCeiling := f.relativeCeiling.map (clampInt 0 100)
  peakCeiling := f.peakCeiling.map (clampInt (-300) 0)
  minCoverage := clampNat 0 1000 f.minCoverage
  gapLimit := clampNat 10 6000 f.gapLimit
  deadAirLimit := clampNat 10 6000 f.deadAirLimit
  lateLimit := clampNat 0 maxCount32 f.lateLimit
  grace := clampNat 0 600 f.grace
  holdOnBreach := yesOf f.holdOnBreach
  preRoll := clampNat 0 600 f.preRoll
  postRoll := clampNat 0 600 f.postRoll
  severities := severitiesOf f.severities

/-- A rule set with the fields of a RULE request. -/
def RuleSet.fields (k : Fin 16) (x : RuleSet) : RuleFields where
  set := k.val
  target := x.target
  tolerance := x.tolerance
  shortCeiling := x.shortCeiling
  relativeCeiling := x.relativeCeiling
  peakCeiling := x.peakCeiling
  minCoverage := x.minCoverage
  gapLimit := x.gapLimit
  deadAirLimit := x.deadAirLimit
  lateLimit := x.lateLimit
  grace := x.grace
  holdOnBreach := yesCode x.holdOnBreach
  preRoll := x.preRoll
  postRoll := x.postRoll
  severities := x.severities.code

/-- An extent number of the map after clamping to 1 to 65,536 (R156). -/
def clampExtent (n : Nat) : Nat := clampNat 1 65536 n

/-- A segment kind's code (R199). -/
def SegKind.code : SegKind → Nat
  | .programme => 1
  | .commercial => 2
  | .promotion => 3
  | .junction => 4

/-- The segment kind that a code names. -/
def segKindOf : Nat → Option SegKind
  | 1 => some .programme
  | 2 => some .commercial
  | 3 => some .promotion
  | 4 => some .junction
  | _ => none

/-- The four segment kinds in order. -/
def allKinds : List SegKind := [.programme, .commercial, .promotion, .junction]

/-- The rule map's entry for a kind (R103). -/
def RuleMapRow.entry (row : RuleMapRow) : SegKind → Option (Fin 16)
  | .programme => row.programme
  | .commercial => row.commercial
  | .promotion => row.promotion
  | .junction => row.junction

/-- The rule map's row with one entry replaced. -/
def RuleMapRow.withEntry (row : RuleMapRow) (k : SegKind) (x : Option (Fin 16)) : RuleMapRow :=
  match k with
  | .programme => { row with programme := x }
  | .commercial => { row with commercial := x }
  | .promotion => { row with promotion := x }
  | .junction => { row with junction := x }

/-- A number 0 to 15, or 0xFF for NONE (R198); anything else names no rule set. -/
def ruleEntryOf (n : Nat) : Option (Option (Fin 16)) := if n = 255 then some none else (setOf n).map some

/-- A lane 0 to 7, or 0xFF for none. -/
def poolTargetOf (n : Nat) : Option (Option LaneNo) := if n = 255 then some none else (laneOf n).map some

/-- The code of a number or NONE. -/
def noneCode {n : Nat} : Option (Fin n) → Nat
  | some k => k.val
  | none => 255

/-- A directed range with the fields of an XMAP request. -/
def DirectedRange.fields (r : DirectedRange) : DirectedFields := ⟨r.lo, r.hi, r.lane.val⟩

/-! ### Settings groups and the settings image (R189, R201) -/

/-- The LANE group of a lane. -/
def Settings.laneGroup (x : Settings) (l : LaneNo) : List Byte := laneBytes (x.lanes[l].fields l)

/-- The FILT group of a lane: its eight entries and the pass-all flag. -/
def Settings.filterGroup (x : Settings) (l : LaneNo) : List Byte :=
  (List.finRange 8).flatMap (fun k => filterBytes (x.filters[l].entries[k].fields l k))
    ++ passAllBytes l.val (yesCode x.filters[l].passAll)

/-- The RULE group of a set. -/
def Settings.ruleGroup (x : Settings) (k : Fin 16) : List Byte := ruleBytes (x.rules[k].fields k)

/-- The RMAP group: 32 entries. -/
def Settings.ruleMapGroup (x : Settings) : List Byte :=
  allLanes.flatMap (fun l => allKinds.flatMap (fun k =>
    requestBytes (.rmap l.val k.code (noneCode (x.ruleMap[l].entry k)))))

/-- The XMAP group: the distributed range, four directed ranges and eight poolings. -/
def Settings.extentMapGroup (x : Settings) : List Byte :=
  requestBytes (.xmapDistributed x.extentMap.lo x.extentMap.hi)
    ++ (List.finRange 4).flatMap (fun k =>
        requestBytes (.xmapDirected k.val (x.extentMap.directed[k].map DirectedRange.fields)))
    ++ allLanes.flatMap (fun l => requestBytes (.xmapPooling l.val (noneCode x.extentMap.pooling[l])))

/-- The DSEV group. -/
def Settings.severityGroup (x : Settings) : List Byte :=
  requestBytes (.dsev ⟨severityCode x.severities.stalled, severityCode x.severities.short,
    severityCode x.severities.storeLost, x.floorDays⟩)

/-- The ALRM group: the protocol set and the config timeout (R129). -/
def Settings.alarmGroup (x : Settings) : List Byte :=
  requestBytes (.alrm (protocolCode x.protocolSet) x.configTimeout)

/-- The content of a settings image copy (R201). -/
def Settings.image (x : Settings) : List Byte :=
  allLanes.flatMap x.laneGroup ++ allLanes.flatMap x.filterGroup ++ (List.finRange 16).flatMap x.ruleGroup
    ++ x.ruleMapGroup ++ x.extentMapGroup ++ x.severityGroup ++ x.alarmGroup

/-- A directed range as the image holds it, each value clamped to its range (R195, log 34). -/
def appliedDirected (d : DirectedFields) : DirectedRange :=
  ⟨clampExtent d.lo, clampExtent d.hi, Fin.ofNat 8 (clampNat 0 7 d.lane)⟩

/-- A rule set number or a lane as the image holds it: 0xFF for NONE, any other code clamped to the numbers below k (R195,
R198). -/
def appliedOrNone (k : Nat) [NeZero k] (n : Nat) : Option (Fin k) :=
  if n = 255 then none else some (Fin.ofNat k (clampNat 0 (k - 1) n))

/-- The settings an image holds: each group at its place, each value clamped to its range (R195, log 34). -/
def readImage (c : List Byte) : Settings :=
  let at_ (off w : Nat) : List Byte := (c.drop off).take w
  { lanes := Vector.ofFn (fun l => appliedLane (readLane (at_ (33 * l.val) 33)))
    filters := Vector.ofFn (fun l =>
      { entries := Vector.ofFn (fun k => appliedFilter (readFilter (at_ (264 + 81 * l.val + 9 * k.val) 9)))
        passAll := yesOf (numberAt c (264 + 81 * l.val + 75) 1) })
    rules := Vector.ofFn (fun k => appliedRule (readRule (at_ (912 + 32 * k.val) 32)))
    ruleMap := Vector.ofFn (fun l =>
      let e (k : Nat) : Option (Fin 16) := appliedOrNone 16 (numberAt c (1424 + 12 * l.val + 3 * k + 2) 1)
      ⟨e 0, e 1, e 2, e 3⟩)
    extentMap :=
      { lo := clampExtent (numberAt c 1521 4)
        hi := clampExtent (numberAt c 1525 4)
        directed := Vector.ofFn (fun k =>
          (readDirected c (1532 + 12 * k.val + 2)).map appliedDirected)
        pooling := Vector.ofFn (fun l => appliedOrNone 8 (numberAt c (1580 + 12 * l.val + 2) 1)) }
    severities := ⟨severityOf (numberAt c 1676 1), severityOf (numberAt c 1677 1), severityOf (numberAt c 1678 1)⟩
    floorDays := clampNat 0 3650 (numberAt c 1679 2)
    protocolSet := protocolOf (numberAt c 1681 1)
    configTimeout := clampNat 10 600 (numberAt c 1682 2) }

/-! ### Results and replies (R186, Table 11-4, R200) -/

/-- Result and refusal codes. -/
inductive Result where
  | ok | clamped | badFrame | unknownTag | badLength | notInConfig | noSuch | busy | scanning | timeUnset
  | timeBackward | holdsActive | tableFull | formatting
  deriving DecidableEq, Repr

/-- The code of a result (R200). -/
def Result.code : Result → Byte
  | .ok => 0#8
  | .clamped => 1#8
  | .badFrame => 2#8
  | .unknownTag => 3#8
  | .badLength => 4#8
  | .notInConfig => 5#8
  | .noSuch => 6#8
  | .busy => 7#8
  | .scanning => 8#8
  | .timeUnset => 9#8
  | .timeBackward => 10#8
  | .holdsActive => 11#8
  | .tableFull => 12#8
  | .formatting => 13#8

/-- CLAMPED when a value was changed, OK otherwise (R186). -/
def clampedIf (changed : Bool) : Result := if changed then .clamped else .ok

/-- A reply: its result and what follows the result byte. -/
structure Reply where
  result : Result
  body : List Byte
  deriving DecidableEq, Repr

/-- A refusal: a result byte alone (R185; log 9). -/
def Reply.refuse (r : Result) : Reply := ⟨r, []⟩

/-- The reply frame (R186, R200). -/
def Reply.frame (seq : Byte) (tag : List Byte) (r : Reply) : List Byte :=
  buildFrame seq tag (r.result.code :: r.body)

end Sys2Proof.Machine
end

