-- ==== Sys2Proof/Machine/Records.lean ====
section
/-! DEFINITION. The contents of archive records and store pages that the part makes itself: TILE, VERDICT, FINDING and GAP
records coded in the order of their tables (R198, R201; log 7, 10, 11, 44), headers, seals and system extent
copies, and how the scan reads the last three back. -/

namespace Sys2Proof.Machine

/-! ### Codes -/

/-- A duty's code (R199). -/
def Duty.code : Duty → Nat
  | .required => 1
  | .exempt => 2

/-- The code of a close cause (log 7). -/
def CloseCause.code (c : CloseCause) : Byte :=
  Config.code .closeCause (match c with
    | .nextMark => 0
    | .endMark => 1
    | .maxLength => 2
    | .configEntry => 3
    | .laneReset => 4)

/-- The code of a check result (log 7). -/
def CheckResult.code (r : CheckResult) : Byte :=
  Config.code .checkResult (match r with
    | .pass => 0
    | .fail => 1
    | .skipped => 2)

/-- The code of a verdict outcome (log 7). -/
def VerdictOutcome.code (o : VerdictOutcome) : Byte :=
  Config.code .outcome (match o with
    | .pass => 0
    | .breach => 1
    | .unjudged => 2)

/-- The code of a finding kind (log 7). -/
def FindingKind.code (k : FindingKind) : Byte :=
  Config.code .findingKind (match k with
    | .loudnessTarget => 0
    | .peakCeiling => 1
    | .relativeCeiling => 2
    | .coverage => 3
    | .lateCaptions => 4
    | .deadAir => 5
    | .captionGap => 6
    | .stCeiling => 7
    | .laneLost => 8
    | .laneDrift => 9
    | .archiveStalled => 10
    | .retentionShort => 11
    | .storeLost => 12
    | .lateMark => 13
    | .markOverflow => 14
    | .storeFault => 15
    | .configTimeout => 16
    | .settingsDefaulted => 17)

/-- The code of a finding state (log 7). -/
def FindingState.code (x : FindingState) : Byte :=
  Config.code .findingState (match x with
    | .pending => 0
    | .active => 1
    | .ended => 2
    | .withdrawn => 3)

/-- A time that may be unset, or absent and unset alike (log 11, 44). -/
def timeBytes (t : Time) : List Byte := optional 6 (be 6) t

/-- A windowed value with its stale flag. -/
def Windowed.bytes (w : Windowed) : List Byte := tenths w.value ++ flag w.stale

/-! ### Records -/

/-- Content of a TILE record: Table 2-4 in order, without the tile power. -/
def tileContent (l : LaneNo) (r : TileRecord) : List Byte :=
  be 1 l.val ++ be 4 r.tile ++ timeBytes r.closeTime ++ flag r.void ++ be 1 r.good
    ++ optional 2 tenths r.loudness ++ r.momentary.bytes ++ r.shortTerm.bytes ++ tenths r.peak
    ++ flag r.silent ++ flag r.alive ++ optional 4 (be 4) r.segId

/-- The five check results. -/
def CheckResults.bytes (c : CheckResults) : List Byte :=
  [c.loudnessTarget.code, c.peakCeiling.code, c.relativeCeiling.code, c.coverage.code, c.lateCaptions.code]

/-- A verdict record: Table 5-4 in order, with one presence byte before the five check results (log 79). -/
def Verdict.bytes (v : Verdict) : List Byte :=
  be 4 v.seq ++ be 1 v.lane.val ++ be 4 v.ident.segId ++ be 1 v.ident.kind.code ++ be 1 v.ident.duty.code
    ++ orNone v.ruleSet ++ flag v.continuation ++ optional 4 (be 4) v.firstTile ++ optional 4 (be 4) v.lastTile
    ++ timeBytes v.openTime ++ timeBytes v.closeTime ++ [v.cause.code] ++ be 4 v.tiles ++ be 4 v.voids
    ++ be 4 v.gated ++ be 4 v.below ++ measuredTenths v.integrated ++ optional 2 tenths v.maxShort
    ++ optional 2 tenths v.maxPeak ++ be 4 v.dutyTiles ++ be 4 v.aliveTiles ++ optional 2 (be 2) v.coverage
    ++ be 4 v.late ++ be 4 v.early ++ be 4 v.rejected ++ optional 2 tenths v.referenceUsed
    ++ optional 5 CheckResults.bytes v.checks ++ [v.outcome.code]

/-- A finding record: Table 6-3 in order, DEVICE as 0xFF (log 52), absent and unset times alike (log 44). -/
def Finding.bytes (f : Finding) : List Byte :=
  be 4 f.id ++ orNone f.lane ++ [f.kind.code] ++ be 1 (severityCode f.severity) ++ [f.state.code] ++ flag f.acked
    ++ optional 4 (be 4) f.segId ++ timeBytes f.opened ++ timeBytes f.activated.join ++ timeBytes f.ended.join
    ++ optional 6 (beInt 6) f.measured ++ optional 6 (beInt 6) f.limit ++ optional 2 (be 2) f.holdId ++ flag f.unheld

/-- Content of a GAP record: six counts in R139's order, then the span. -/
def gapContent (g : GapCounts) : List Byte :=
  be 4 g.proxy ++ be 4 g.caption ++ be 4 g.mark ++ be 4 g.tile ++ be 4 g.verdict ++ be 4 g.finding
    ++ optional 6 (be 6) g.earliest ++ optional 6 (be 6) g.latest

/-! ### Pages -/

/-- A content page (R201). -/
def contentPage (records : List Record) : List Byte := buildPage pageContent (records.flatMap recordBytes)

/-- A header page of an extent (R140, R201). A first time of 2^48 is sent as 0 (log 83). -/
def headerPage (l : LaneNo) (openTime first generation ext : Nat) : List Byte :=
  buildPage pageHeader (be 1 l.val ++ be 6 openTime ++ be 6 first ++ be 4 generation ++ be 4 ext)

/-- A seal page (R141, R201). A first time of 2^48 is sent as 0 (log 83). -/
def sealPageOf (x : PendingSeal) : List Byte :=
  buildPage pageSeal (be 6 x.first ++ be 6 x.last ++ be 2 x.pages)

/-- One hold in a hold table copy: 21 bytes. The finding id of a HOST hold is 0 (log 73). -/
def Hold.bytes (h : Hold) : List Byte :=
  be 2 h.id ++ be 1 h.lane.val ++ be 6 h.start ++ optional 6 (be 6) h.stop
    ++ (match h.origin with
        | .host => be 1 1 ++ be 4 0
        | .finding id => be 1 2 ++ be 4 id)

/-- The content of a hold table copy (R201), its holds in order of id (log 71). -/
def HoldTable.bytes (t : HoldTable) : List Byte :=
  be 1 t.table.length ++ be 2 t.next ++ t.table.flatMap Hold.bytes

/-- The page of a system extent copy (R144, R201). -/
def copyPage (w : SysWrite) : List Byte :=
  let (kind, content) := match w.content with
    | .image x => (pageSettings, x.image)
    | .holds t => (pageHolds, t.bytes)
  buildPage kind (be 4 w.copyNo ++ be 4 w.generation ++ be 2 content.length ++ content)

/-- The page that a store operation programs; other operations carry none. -/
def StoreOp.page (records : List Record) : StoreOp → List Byte
  | .sysProgram _ w => copyPage w
  | .laneProgram l (.header o f g) ext _ => headerPage l o f g ext
  | .laneProgram _ (.content _) _ _ => contentPage records
  | .laneProgram _ (.sealPage x) _ _ => sealPageOf x
  | .identify => []
  | .sysErase => []
  | .scanRead _ _ => []
  | .laneErase _ _ => []
  | .formatErase _ => []
  | .recallRead _ _ _ => []

/-- A header as the scan reads it: its lane and first time. It must name the extent read and a lane (R147; log 24). -/
def readHeader (ext : Nat) (page : List Byte) : Option (LaneNo × Nat) :=
  if pageIs pageHeader page ∧ numberAt page 18 4 = ext then
    (laneOf (numberAt page 1 1)).map (fun l => (l, numberAt page 8 6))
  else none

/-- A seal as the scan reads it: first time, last time, pages written. -/
def readSeal (page : List Byte) : Option (Nat × Nat × Nat) :=
  if pageIs pageSeal page then some (numberAt page 1 6, numberAt page 7 6, numberAt page 13 2) else none

/-- One hold of a hold table copy; a lane or id outside its range is clamped, and an origin byte other than 1 and 2 is HOST,
and an end earlier than the start is entered as it stands (log 35). -/
def readHold (c : List Byte) : Hold where
  id := clampNat 1 65535 (numberAt c 0 2)
  lane := Fin.ofNat 8 (clampNat 0 7 (numberAt c 2 1))
  start := numberAt c 3 6
  stop := optionalAt c 9 (numberAt c 10 6)
  origin := if numberAt c 16 1 = 2 then .finding (numberAt c 17 4) else .host
  restored := true

/-- A hold table copy's content (R173). -/
def readHolds (c : List Byte) : HoldTable where
  table := (List.range (clampNat 0 64 (numberAt c 0 1))).map (fun k => readHold ((c.drop (3 + 21 * k)).take 21))
  next := clampNat 1 65535 (numberAt c 1 2)

/-- A system extent copy as the scan reads it: copy number, generation, content (R144). Its content length is not judged:
bytes that are missing read as 0, and bytes beyond the content are not read (log 74). -/
def readCopy (page : List Byte) : Option (Nat × Nat × CopyContent) :=
  let content := (page.drop 11).take (numberAt page 9 2)
  if pageIs pageSettings page then some (numberAt page 1 4, numberAt page 5 4, .image (readImage content))
  else if pageIs pageHolds page then some (numberAt page 1 4, numberAt page 5 4, .holds (readHolds content))
  else none

end Sys2Proof.Machine
end

