-- ==== Sys2Proof/Machine/Alarm.lean ====
section
/-! DEFINITION. Monitor statuses and the line drive: how a new status moves ALARM_A and ALARM_B under each protocol, and
what the lines show at an exit from CONFIG, at an entry to it and at the restoration of the settings (R120, R129 to
R133). -/

namespace Sys2Proof.Machine

/-- Gives the two lines their levels. -/
def Alarm.show (a : Alarm) (levels : Bool × Bool) : Alarm := { a with lineA := levels.1, lineB := levels.2 }

/-- PAIRED pattern of a status in RUN started at A-HIGH (R131: exit from CONFIG, change from BREACH, restoration). -/
def Alarm.startPaired (clock : Nat) (overall : Status) (a : Alarm) : Alarm :=
  match overall with
  | .breach => { (a.show (true, true)) with swap := none }
  | .normal => { (a.show (pairLines .aHigh)) with phase := .aHigh, swap := some (clock + swapPeriod .normal) }
  | .alert => { (a.show (pairLines .aHigh)) with phase := .aHigh, swap := some (clock + swapPeriod .alert) }

/-- The lines take the RUN pattern of the protocol in force for the overall status (R126 step 4, R133). -/
def State.showRunPattern (s : State) : State :=
  let a := s.alarm
  match a.inForce with
  | .steady =>
    { s with alarm := { (a.show (steadyLines a.overall (s.someLane .alert))) with swap := none } }
  | .paired => { s with alarm := a.startPaired s.clock a.overall }

/-- The lines take the CONFIG pattern of the protocol in force (R123 step 4). -/
def State.showConfigPattern (s : State) : State :=
  let a := s.alarm
  match a.inForce with
  | .steady => { s with alarm := a.show (steadyLines a.overall (s.someLane .alert)) }
  | .paired => { s with alarm := { (a.show (false, false)) with swap := none } }

/-- What a change of the overall status does under PAIRED in RUN (R131). -/
def Alarm.pairedChange (clock : Nat) (old new : Status) (a : Alarm) : Alarm :=
  if old = new then a
  else if new = .breach then { (a.show (true, true)) with swap := none }
  else if old = .breach then a.startPaired clock new
  else { a with swap := some (clock + swapPeriod new) }

/-- Delivers the overall status to the line drive (R130). Before the settings are restored the lines stay low (R133). -/
def State.driveLines (s : State) : State :=
  let old := s.alarm.overall
  let new := s.overallOf
  let a := { s.alarm with overall := new }
  if !s.settingsKnown then { s with alarm := a }
  else
    match a.inForce with
    | .steady => { s with alarm := a.show (steadyLines new (s.someLane .alert)) }
    | .paired =>
      match a.mode with
      | .config => { s with alarm := a }
      | .run => { s with alarm := a.pairedChange s.clock old new }

/-- Re-evaluates every monitor status from the finding log and delivers them to the lines (R120, R130). -/
def State.reassess (s : State) : State :=
  State.driveLines { s with
    cm := Vector.ofFn (fun l => { s.cm[l] with status := statusOf s.dev.log (some l) })
    dev := { s.dev with status := statusOf s.dev.log none } }

end Sys2Proof.Machine
end

