-- ==== Sys2Proof/Machine/Archive.lean ====
section
/-! DEFINITION. A lane's archive stream: how a record finds its place in the page buffers, what is counted when it finds
none, the GAP record, and the hold-off that the number of buffers drives (R16, R137 to R139). -/

namespace Sys2Proof.Machine

/-! ### Page buffers (R138) -/

/-- The FILLING buffer. -/
def AcLane.filling (a : AcLane) : Option (Fin 4) := (List.finRange 4).find? (fun i => a.buffers[i].state == .filling)

/-- The lowest-numbered FREE buffer. -/
def AcLane.lowestFree (a : AcLane) : Option (Fin 4) := (List.finRange 4).find? (fun i => a.buffers[i].state == .free)

def AcLane.setBuffer (i : Fin 4) (b : PageBuffer) (a : AcLane) : AcLane := { a with buffers := a.buffers.set i b }

/-- Bytes of records in a buffer. -/
def PageBuffer.used (b : PageBuffer) : Nat := (b.records.map Record.size).sum

/-- A buffer has room for `n` bytes of records more. -/
def PageBuffer.hasRoom (b : PageBuffer) (n : Nat) : Bool := b.used + n ≤ pageRoom

/-- The FILLING buffer, if it has room for `n` bytes more. -/
def AcLane.fillingWithRoom (n : Nat) (a : AcLane) : Option (Fin 4) :=
  match a.filling with
  | some i => if a.buffers[i].hasRoom n then some i else none
  | none => none

/-- Appends a record to a buffer, which is FILLING from then on. -/
def AcLane.append (i : Fin 4) (r : Record) (a : AcLane) : AcLane :=
  a.setBuffer i { a.buffers[i] with state := .filling, records := a.buffers[i].records ++ [r] }

/-- Closes the FILLING buffer: it becomes WAITING, ready from this moment. -/
def AcLane.closeFilling (stamp : Nat) (a : AcLane) : AcLane :=
  match a.filling with
  | some i => a.setBuffer i { a.buffers[i] with state := .waiting, ready := stamp }
  | none => a

/-- Places a record under R138: whether it found a buffer, and the lane after it. -/
def AcLane.place (stamp : Nat) (r : Record) (a : AcLane) : Bool × AcLane :=
  match a.fillingWithRoom r.size with
  | some i => (true, a.append i r)
  | none =>
    let a := a.closeFilling stamp
    match a.lowestFree with
    | some i => (true, a.append i r)
    | none => (false, a)

/-! ### Pending gap counts (R139) -/

/-- Some pending gap count is not zero. -/
def GapCounts.any (g : GapCounts) : Bool :=
  decide (g.proxy ≠ 0 ∨ g.caption ≠ 0 ∨ g.mark ≠ 0 ∨ g.tile ≠ 0 ∨ g.verdict ≠ 0 ∨ g.finding ≠ 0)

/-- The earlier of a time that may be absent and one that is set. -/
def earlierOf (a : Option Nat) (t : Nat) : Nat := match a with
  | some x => min x t
  | none => t

/-- The later of the two. -/
def laterOf (a : Option Nat) (t : Nat) : Nat := match a with
  | some x => max x t
  | none => t

/-- Counts a discarded record of a kind, with its time if set. -/
def GapCounts.count (kind : Byte) (time : Time) (g : GapCounts) : GapCounts :=
  let g :=
    if kind = recProxy then { g with proxy := bumpSat g.proxy }
    else if kind = recCaption then { g with caption := bumpSat g.caption }
    else if kind = recMark then { g with mark := bumpSat g.mark }
    else if kind = recTile then { g with tile := bumpSat g.tile }
    else if kind = recVerdict then { g with verdict := bumpSat g.verdict }
    else { g with finding := bumpSat g.finding }
  match time with
  | some t => { g with earliest := some (earlierOf g.earliest t), latest := some (laterOf g.latest t) }
  | none => g

/-- The GAP record of the pending gap counts, at a time. -/
def GapCounts.record (time : Nat) (g : GapCounts) : Record := ⟨recGap, time, gapContent g⟩

/-- A GAP record and the record behind it can both be placed (R139). -/
def AcLane.roomForGapAnd (r : Record) (time : Nat) (a : AcLane) : Bool :=
  (a.fillingWithRoom ((a.gaps.record time).size + r.size)).isSome || a.lowestFree.isSome

/-- Takes a record of set time for the lane's stream (R138, R139). -/
def AcLane.take (stamp : Nat) (r : Record) (a : AcLane) : AcLane :=
  if a.gaps.any then
    if a.roomForGapAnd r r.time then
      let a := (a.place stamp (a.gaps.record r.time)).2
      { (a.place stamp r).2 with gaps := .zero }
    else
      let a := if (a.fillingWithRoom r.size).isSome then a else a.closeFilling stamp
      { a with gaps := a.gaps.count r.kind (some r.time) }
  else
    let (placed, b) := a.place stamp r
    if placed then b else { b with gaps := b.gaps.count r.kind (some r.time) }

/-! ### Hold-off (R16, R18, R20) -/

/-- Sends a HOLD cell on the lane link and counts it (R5, R16). -/
def State.sendHold (l : LaneNo) (time : Nat) (s : State) : State :=
  (s.modLiu l (fun x => { x with counters := { x.counters with holdsSent := x.counters.holdsSent + 1 } })).emit
    (.laneCell l (holdCell l time))

/-- Hold-off becomes ON: a HOLD of 200 ms, and the resend timer starts (R16). -/
def State.holdOffOn (l : LaneNo) (s : State) : State :=
  (s.modLiu l (fun x => { x with holdOff := true, resend := some (s.clock + 100) })).sendHold l 20

/-- Hold-off becomes OFF: the resend timer stops and a HOLD of 0 is sent (R16, R18). -/
def State.holdOffOff (l : LaneNo) (s : State) : State :=
  (s.modLiu l (fun x => { x with holdOff := false, resend := none })).sendHold l 0

/-- The AC reports the number of the lane's buffers that can take records, and the LIU drives hold-off from it (R16). A
disabled lane's hold-off stays OFF (R18); no HOLD cell is sent while a warm reset flushes (R20; log 36). -/
def State.reportBuffers (l : LaneNo) (s : State) : State :=
  if s.warm.isSome || !s.laneEnabled l then s
  else if s.ac[l].canTake ≤ 1 then (if s.liu[l].holdOff then s else s.holdOffOn l)
  else if s.liu[l].holdOff then s.holdOffOff l
  else s

/-! ### Taking a record -/

/-- Hands a record to a lane's archive stream (R137 to R139). A record of unset time is counted. From the acceptance of
RSTA the AC takes no further record (R151). -/
def State.archive (l : LaneNo) (kind : Byte) (time : Time) (content : List Byte) (s : State) : State :=
  if s.warm.isSome then s
  else
    match time with
    | none => s.modAc l (fun a => { a with gaps := a.gaps.count kind none })
    | some t =>
      let (stamp, s) := s.takeStamp
      (s.modAc l (AcLane.take stamp ⟨kind, t, content⟩)).reportBuffers l

end Sys2Proof.Machine
end

