-- ==== Sys2Proof/Machine/Holds.lean ====
section
/-! DEFINITION. The hold table: ids, placing, ending and releasing holds, the held test, and the hold table copies that each
change queues for the system extent (R144, R145, R167 to R174). -/

namespace Sys2Proof.Machine

/-! ### The table (R167) -/

/-- The id that follows another. -/
def nextHoldId (id : Nat) : Nat := if id = 65535 then 1 else id + 1

/-- Some hold of the table has the id. -/
def HoldTable.uses (t : HoldTable) (id : Nat) : Bool := t.table.any (fun h => h.id == id)

/-- The first id from `id` on that no hold has. 64 holds cannot use 65 ids that follow one another. -/
def HoldTable.freeFrom (t : HoldTable) : Nat → Nat → Nat
  | 0, id => id
  | k + 1, id => if t.uses id then t.freeFrom k (nextHoldId id) else id

/-- The id a new hold takes (R167). -/
def HoldTable.newId (t : HoldTable) : Nat := t.freeFrom 64 t.next

/-- Puts a hold in its place in order of id. -/
def insertHold (h : Hold) : List Hold → List Hold
  | [] => [h]
  | x :: rest => if h.id < x.id then h :: x :: rest else x :: insertHold h rest

/-- The table is full: 64 holds. -/
def HoldTable.full (t : HoldTable) : Bool := decide (64 ≤ t.table.length)

/-- Enters a hold under the next free id, which advances the next hold id. -/
def HoldTable.add (lane : LaneNo) (start : Nat) (stop : Option Nat) (origin : HoldOrigin) (restored : Bool)
    (t : HoldTable) : HoldTable :=
  let id := t.newId
  ⟨insertHold ⟨id, lane, start, stop, origin, restored⟩ t.table, nextHoldId id⟩

/-- Removes the hold of an id. -/
def HoldTable.remove (id : Nat) (t : HoldTable) : HoldTable := { t with table := t.table.filter (fun h => h.id != id) }

/-- The hold that a request to set an end names (R170). -/
def Hold.openFor (id : Nat) (finding : Nat) (h : Hold) : Bool :=
  h.id == id && h.origin == .finding finding && h.stop.isNone

/-- The hold with its end set: never earlier than its start (R167, R170). -/
def Hold.closed (stop : Nat) (h : Hold) : Hold := { h with stop := some (max h.start stop) }

/-! ### Copies (R145) -/

/-- The copy waiting at a place of the queue is a hold table copy. -/
def SysWrite.isHolds (w : SysWrite) : Bool := match w.content with
  | .holds _ => true
  | .image _ => false

/-- Replaces every waiting hold table copy by one of the newer table, each taking the next copy number (log 27). -/
def replaceHolds (t : HoldTable) (generation : Nat) : List SysWrite → Nat → List SysWrite × Nat
  | [], n => ([], n)
  | w :: rest, n =>
    if w.isHolds then
      let (ws, m) := replaceHolds t generation rest (next32 n)
      (⟨n, generation, .holds t, false⟩ :: ws, m)
    else
      let (ws, m) := replaceHolds t generation rest n
      (w :: ws, m)

/-- Queues a system extent write with the next copy number (R144, R145). -/
def SysExtent.queueWrite (content : CopyContent) (isSave : Bool) (x : SysExtent) : SysExtent :=
  { x with queue := x.queue ++ [⟨x.nextCopy, x.generation, content, isSave⟩], nextCopy := next32 x.nextCopy }

/-- A change of the hold table queues a copy of the table as it stands, or renews the copy that waits (R145). -/
def SysExtent.queueHolds (t : HoldTable) (x : SysExtent) : SysExtent :=
  if x.queue.any SysWrite.isHolds then
    let (ws, n) := replaceHolds t x.generation x.queue x.nextCopy
    { x with queue := ws, nextCopy := n }
  else x.queueWrite (.holds t) false

/-- The hold table changes, and a copy is written (R173). -/
def State.changeHolds (t : HoldTable) (s : State) : State := { s with holds := t, sys := s.sys.queueHolds t }

/-! ### Operations -/

/-- Places a hold that the table has room for, and gives its id (R168, R169). -/
def State.placeHold (lane : LaneNo) (start : Nat) (stop : Option Nat) (origin : HoldOrigin) (s : State) :
    Nat × State :=
  (s.holds.newId, s.changeHolds (s.holds.add lane start stop origin false))

/-- Releases the hold of an id (R171). A release is an occasion for an allocation attempt (R159). -/
def State.releaseHold (id : Nat) (s : State) : State :=
  { (s.changeHolds (s.holds.remove id)) with attemptDue := true }

/-- Sets a hold's end for a finding (R170): nothing changes when no hold matches. Setting an end is an occasion for an
allocation attempt (R171). -/
def State.setHoldEnd (id finding stop : Nat) (s : State) : State :=
  if s.holds.table.any (Hold.openFor id finding) then
    { (s.changeHolds { s.holds with
        table := s.holds.table.map (fun h => if h.openFor id finding then h.closed stop else h) }) with
      attemptDue := true }
  else s

/-! ### The held test (R172) -/

/-- The hold's span meets [f, l]. -/
def Hold.meets (f l : Nat) (h : Hold) : Bool :=
  decide (h.start ≤ l) && (match h.stop with
    | none => true
    | some e => decide (f ≤ e))

/-- The extent is held. -/
def HoldTable.holdsExtent (t : HoldTable) (x : Extent) : Bool :=
  match x.tag, x.first, x.last with
  | some lane, some f, some l => t.table.any (fun h => h.lane == lane && h.meets f l)
  | _, _, _ => false

/-! ### Closing open ends (R174) -/

/-- The last time of a lane's newest SEALED extent: the SEALED extent with the latest first time. -/
def newestSealedLast (extents : List Extent) (lane : LaneNo) : Option Nat :=
  let mine := extents.filter (fun x => x.state == .sealed && x.tag == some lane)
  (mine.foldl (fun (best : Option (Nat × Option Nat)) x =>
    match x.first, best with
    | some f, none => some (f, x.last)
    | some f, some (g, l) => if g ≤ f then some (f, x.last) else some (g, l)
    | none, b => b) none).bind Prod.snd

/-- A finding hold with an open end takes the last time of its lane's newest SEALED extent, or its start. -/
def Hold.closeOpenEnd (extents : List Extent) (h : Hold) : Hold :=
  match h.origin, h.stop with
  | .finding _, none => h.closed ((newestSealedLast extents h.lane).getD h.start)
  | _, _ => h

/-- Closes the open ends of the finding holds that `which` picks (R173, R174). Those closed at one moment are one change of the
table, written as one copy (log 72). -/
def State.closeOpenEnds (which : Hold → Bool) (s : State) : State :=
  let closed := s.holds.table.map (fun h => if which h then h.closeOpenEnd s.extents else h)
  if closed = s.holds.table then s else s.changeHolds { s.holds with table := closed }

end Sys2Proof.Machine
end

