-- ==== Sys2Proof/Machine/Findings.lean ====
section
/-! DEFINITION. Findings: creation, entry to the log, state changes, the holds they ask for, and the findings of carriage,
of the Archive Controller and of single events (R104 to R107, R112 to R121). The log's copy of a finding carries the
acknowledged flag; a copy outside it carries the rest. -/

namespace Sys2Proof.Machine

/-! ### Creation -/

/-- What a finding is created with (Table 6-3). -/
structure Draft where
  lane : Option LaneNo
  kind : FindingKind
  severity : Severity
  state : FindingState
  segId : Option Nat
  opened : Time
  activated : Option Time
  ended : Option Time
  measured : Option Int
  limit : Option Int

/-- A hold asked for a finding (R121). -/
structure HoldAsk where
  start : Nat
  stop : Option Nat

/-- A hold with an open end, for a BREACH finding whose governing setting asks for one and whose start is set; a
start below 0 is taken as 0 (R121). -/
def openEndedAsk (severity : Severity) (wanted : Bool) (preRoll : Nat) (start : Time) : Option HoldAsk :=
  match severity, wanted, start with
  | .breach, true, some t => some ⟨t - 1000 * preRoll, none⟩
  | _, _, _ => none

/-- The hold of a verdict finding: both times must be set (R121). -/
def verdictAsk (severity : Severity) (wanted : Bool) (preRoll postRoll : Nat) (start stop : Time) :
    Option HoldAsk :=
  match severity, wanted, start, stop with
  | .breach, true, some a, some b => some ⟨a - 1000 * preRoll, some (b + 1000 * postRoll)⟩
  | _, _, _, _ => none

/-- The id after one has been issued: 0 once 2^32 - 1 has been (R106). -/
def nextFindingId (id : Nat) : Nat := if id = 0 ∨ maxCount32 ≤ id then 0 else id + 1

/-- A record that can make room (R117). -/
def Finding.removable (f : Finding) : Bool := f.state == .withdrawn || (f.state == .ended && f.acked)

/-- Enters a finding at the newest end of the log, or not (R117): what the log becomes, if it takes the finding. -/
def logWith (log : List Finding) (f : Finding) : Option (List Finding) :=
  if f.id = 0 then none
  else if log.length < 256 then some (log ++ [f])
  else if log.any Finding.removable then some (log.eraseP Finding.removable ++ [f])
  else none

/-- Asks the Archive Controller for a finding's hold, which answers at once: an id, or TABLE_FULL (R121, R169). -/
def State.holdFor (ask : Option HoldAsk) (f : Finding) (s : State) : Finding × State :=
  match ask, f.lane with
  | some a, some l =>
    if s.holds.full then ({ f with unheld := true }, s)
    else
      let (id, s) := s.placeHold l a.start a.stop (.finding f.id)
      ({ f with holdId := some id }, s)
  | _, _ => (f, s)

/-- What the CM does at each creation and state change: the FINDING record, the FINDING notice and the monitor
status (R107). -/
def State.announce (f : Finding) (time : Time) (s : State) : State :=
  let s := match f.lane with
    | some l => s.archive l recFinding time f.bytes
    | none => s
  (s.raiseFinding f.lane).reassess

/-- Enters a new finding in the log, or sets LOG_FULL (R117). -/
def State.enterFinding (f : Finding) (s : State) : State :=
  match logWith s.dev.log f with
  | some log => { s with dev := { s.dev with log := log } }
  | none => s.raiseLogFull

/-- Creates a finding: it takes the next id, its hold is placed, it enters the log and is announced (R106, R107,
R117, R121). -/
def State.createFinding (d : Draft) (ask : Option HoldAsk) (s : State) : Finding × State :=
  let f : Finding :=
    { id := s.dev.nextId, lane := d.lane, kind := d.kind, severity := d.severity, state := d.state, acked := false
      segId := d.segId, opened := d.opened, activated := d.activated, ended := d.ended
      measured := d.measured, limit := d.limit, holdId := none, unheld := false }
  let s := { s with dev := { s.dev with nextId := nextFindingId s.dev.nextId } }
  let (f, s) := s.holdFor ask f
  (f, (s.enterFinding f).announce f d.opened)

/-- A single-event finding: created ENDED at a time (R107, R115). -/
def singleDraft (lane : Option LaneNo) (kind : FindingKind) (severity : Severity) (time : Time) : Draft where
  lane := lane
  kind := kind
  severity := severity
  state := .ended
  segId := none
  opened := time
  activated := none
  ended := some time
  measured := none
  limit := none

/-- A condition finding created ACTIVE, or PENDING when it has a grace to run (R107). -/
def conditionDraft (lane : Option LaneNo) (kind : FindingKind) (severity : Severity) (active : Bool) (time : Time) :
    Draft where
  lane := lane
  kind := kind
  severity := severity
  state := if active then .active else .pending
  segId := none
  opened := time
  activated := if active then some time else none
  ended := none
  measured := none
  limit := none

/-! ### State changes -/

/-- The log's record of an id. -/
def State.logged (s : State) (id : Nat) : Option Finding :=
  if id = 0 then none else s.dev.log.find? (fun f => f.id == id)

/-- The log with the record of f's id replaced by f, its acknowledged flag kept. -/
def replaceLogged (f : Finding) (log : List Finding) : List Finding :=
  log.map (fun g => if g.id = f.id then { f with acked := g.acked } else g)

/-- A finding as it stands, with the acknowledged flag that the log holds for it. -/
def State.withAck (s : State) (f : Finding) : Finding :=
  match s.logged f.id with
  | some g => { f with acked := g.acked }
  | none => f

/-- A finding has changed state at a time (R107). One outside the log sets LOG_FULL again (R117). -/
def State.changeFinding (f : Finding) (time : Time) (s : State) : State :=
  let g := s.withAck f
  let s := match s.logged f.id with
    | some _ => { s with dev := { s.dev with log := replaceLogged f s.dev.log } }
    | none => s.raiseLogFull
  s.announce g time

/-- Keeps a finding's measured value current in the log; this is no state change (R109 to R111). -/
def State.refreshFinding (f : Finding) (s : State) : State :=
  match s.logged f.id with
  | some _ => { s with dev := { s.dev with
      log := s.dev.log.map (fun g => if g.id = f.id then { g with measured := f.measured } else g) } }
  | none => s

/-- A PENDING finding becomes ACTIVE, and its hold is asked for (R107, R121). -/
def State.activateFinding (time : Time) (ask : Option HoldAsk) (f : Finding) (s : State) : Finding × State :=
  let (f, s) := s.holdFor ask { f with state := .active, activated := some time }
  (f, s.changeFinding f time)

/-- The end asked for an ENDED finding's open-ended hold: its ended time plus the post-roll (R121, R170), past 2^48 - 1 too (log
56). -/
def State.endHoldOf (f : Finding) (time : Time) (postRoll : Nat) (s : State) : State :=
  match f.holdId, time with
  | some id, some t => s.setHoldEnd id f.id (t + 1000 * postRoll)
  | _, _ => s

/-- Settles an open finding: PENDING becomes WITHDRAWN, ACTIVE becomes ENDED and its hold's end is set (R107,
R112 to R114). -/
def State.settleFinding (time : Time) (postRoll : Nat) (f : Finding) (s : State) : State :=
  match f.state with
  | .pending => s.changeFinding { f with state := .withdrawn, ended := some time } time
  | .active =>
    let g := { f with state := .ended, ended := some time }
    (s.endHoldOf g time postRoll).changeFinding g time
  | .ended => s
  | .withdrawn => s

/-- Settles a finding if there is one. -/
def State.settleOpen (time : Time) (postRoll : Nat) (f : Option Finding) (s : State) : State :=
  match f with
  | some f => s.settleFinding time postRoll f
  | none => s

/-! ### Carriage conditions (R114) -/

/-- The condition of a lane that a grace timer belongs to. -/
def CmLane.cond (c : CmLane) : LaneCondition → LaneCond
  | .lost => c.lost
  | .drift => c.drift

def CmLane.withCond (c : CmLane) (w : LaneCondition) (x : LaneCond) : CmLane :=
  match w with
  | .lost => { c with lost := x }
  | .drift => { c with drift := x }

/-- Finding kind, severity and grace of a carriage condition (R104, R114). -/
def condKind : LaneCondition → FindingKind
  | .lost => .laneLost
  | .drift => .laneDrift
def LaneSettings.condSeverity (x : LaneSettings) : LaneCondition → Severity
  | .lost => x.lostSeverity
  | .drift => x.driftSeverity
def LaneSettings.condGrace (x : LaneSettings) : LaneCondition → Nat
  | .lost => x.lostGrace
  | .drift => x.driftGrace

/-- The hold of a lane-level finding: from its opened time less the lane pre-roll, with an open end (Table 6-7). -/
def State.laneAsk (s : State) (l : LaneNo) (severity : Severity) (opened : Time) : Option HoldAsk :=
  openEndedAsk severity (s.laneSettings l).holdOnBreach (s.laneSettings l).preRoll opened

/-- Entry to LOST or DRIFT: the lane's finding opens unless it is open (R114). -/
def State.openLaneCondition (l : LaneNo) (w : LaneCondition) (s : State) : State :=
  match (s.cm[l].cond w).finding with
  | some _ => s
  | none =>
    let x := s.laneSettings l
    let active := x.condGrace w = 0
    let severity := x.condSeverity w
    let ask := if active then s.laneAsk l severity s.station else none
    let timer := if active then none else some (s.clock + x.condGrace w)
    let (f, s) := s.createFinding (conditionDraft (some l) (condKind w) severity active s.station) ask
    s.modCm l (fun c => c.withCond w ⟨some f, timer⟩)

/-- Settles one carriage condition and stops its timer (R114). -/
def State.settleLaneCondition (l : LaneNo) (w : LaneCondition) (s : State) : State :=
  let f := (s.cm[l].cond w).finding
  let s := s.modCm l (fun c => c.withCond w ⟨none, none⟩)
  s.settleOpen s.station (s.laneSettings l).postRoll f

/-- Entry to PRESENT or ABSENT: LANE_LOST is settled first (R114). -/
def State.settleLaneConditions (l : LaneNo) (s : State) : State :=
  (s.settleLaneCondition l .lost).settleLaneCondition l .drift

/-- The CM takes a change of carriage state (R114). -/
def State.cmCarriage (l : LaneNo) (new : Carriage) (s : State) : State :=
  match new with
  | .lost => s.openLaneCondition l .lost
  | .drift => s.openLaneCondition l .drift
  | .present => s.settleLaneConditions l
  | .absent => s.settleLaneConditions l
  | .acquiring => s

/-- A grace timer expires: the PENDING finding becomes ACTIVE (R114). -/
def State.graceExpired (l : LaneNo) (w : LaneCondition) (s : State) : State :=
  match (s.cm[l].cond w).finding with
  | none => s.modCm l (fun c => c.withCond w ⟨none, none⟩)
  | some f =>
    let (f, s) := s.activateFinding s.station (s.laneAsk l f.severity f.opened) f
    s.modCm l (fun c => c.withCond w ⟨some f, none⟩)

/-! ### Reports of the Archive Controller (R115) -/

/-- ARCHIVE_STALLED opens for a lane. -/
def State.openStalled (l : LaneNo) (s : State) : State :=
  match s.cm[l].stalledFinding with
  | some _ => s
  | none =>
    let severity := s.settings.severities.stalled
    let (f, s) := s.createFinding (conditionDraft (some l) .archiveStalled severity true s.station)
      (s.laneAsk l severity s.station)
    s.modCm l (fun c => { c with stalledFinding := some f })

/-- ARCHIVE_STALLED ends for a lane. -/
def State.endStalled (l : LaneNo) (s : State) : State :=
  let f := s.cm[l].stalledFinding
  let s := s.modCm l (fun c => { c with stalledFinding := none })
  s.settleOpen s.station (s.laneSettings l).postRoll f

/-- RETENTION_SHORT opens for a lane. -/
def State.openShort (l : LaneNo) (s : State) : State :=
  match s.cm[l].shortFinding with
  | some _ => s
  | none =>
    let severity := s.settings.severities.short
    let (f, s) := s.createFinding (conditionDraft (some l) .retentionShort severity true s.station)
      (s.laneAsk l severity s.station)
    s.modCm l (fun c => { c with shortFinding := some f })

/-- RETENTION_SHORT ends for a lane. -/
def State.endShort (l : LaneNo) (s : State) : State :=
  let f := s.cm[l].shortFinding
  let s := s.modCm l (fun c => { c with shortFinding := none })
  s.settleOpen s.station (s.laneSettings l).postRoll f

/-- STORE_LOST opens for the device. -/
def State.openStoreLost (s : State) : State :=
  match s.dev.storeLost with
  | some _ => s
  | none =>
    let (f, s) := s.createFinding (conditionDraft none .storeLost s.settings.severities.storeLost true s.station) none
    { s with dev := { s.dev with storeLost := some f } }

/-- STORE_LOST ends. -/
def State.endStoreLost (s : State) : State :=
  let f := s.dev.storeLost
  let s := { s with dev := { s.dev with storeLost := none } }
  s.settleOpen s.station 0 f

/-! ### Single events (R115) -/

/-- STORE_FAULT for a lane, or for the DEVICE. -/
def State.storeFault (lane : Option LaneNo) (s : State) : State :=
  (s.createFinding (singleDraft lane .storeFault .advisory s.station) none).2

/-- CONFIG_TIMEOUT. -/
def State.configTimeoutFinding (s : State) : State :=
  (s.createFinding (singleDraft none .configTimeout .advisory s.station) none).2

/-- SETTINGS_DEFAULTED. -/
def State.settingsDefaultedFinding (s : State) : State :=
  (s.createFinding (singleDraft none .settingsDefaulted .advisory s.station) none).2

/-- LATE_MARK: the mark's own effective tile against the last opened tile (R80). -/
def State.lateMarkFinding (l : LaneNo) (segId effTile lastOpened : Nat) (s : State) : State :=
  (s.createFinding { singleDraft (some l) .lateMark .advisory s.station with
    segId := some segId, measured := some effTile, limit := some lastOpened } none).2

/-- MARK_OVERFLOW with the discarded mark's segment id (R81). -/
def State.markOverflowFinding (l : LaneNo) (segId : Nat) (s : State) : State :=
  (s.createFinding { singleDraft (some l) .markOverflow .advisory s.station with segId := some segId } none).2

/-! ### Acknowledgement (R119) -/

/-- ACTIVE or ENDED. -/
def Finding.ackable (f : Finding) : Bool := f.state == .active || f.state == .ended

/-- Sets the acknowledged flag of the records that `which` picks, and re-evaluates the statuses. -/
def State.acknowledge (which : Finding → Bool) (s : State) : State :=
  State.reassess { s with dev := { s.dev with
    log := s.dev.log.map (fun f => if which f && f.ackable then { f with acked := true } else f) } }

end Sys2Proof.Machine
end

