-- ==== Sys2Proof/Machine/Allocation.lean ====
section
/-! DEFINITION. The extent table, the extent map's owners, allocation states with the retry timer, the allocator's choice and
its reports, sealing, and the boundary at which a lane that has come to need an extent is attended to (R139 to
R143, R153 to R165, R172, R178; log 31). -/

namespace Sys2Proof.Machine

/-! ### Extents -/

/-- Replaces the record of one extent. -/
def modExtentIn (n : Nat) (f : Extent → Extent) (xs : List Extent) : List Extent :=
  xs.map (fun x => if x.no = n then f x else x)

def State.modExtent (n : Nat) (f : Extent → Extent) (s : State) : State :=
  { s with extents := modExtentIn n f s.extents }

/-- The record of an extent number. -/
def State.extentOf (s : State) (n : Nat) : Option Extent := s.extents.find? (fun x => x.no == n)

/-- An extent with its lane tag, span and pages written cleared, in a state. -/
def Extent.cleared (st : ExtentState) (x : Extent) : Extent :=
  { x with state := st, tag := none, first := none, last := none, pages := 0 }

/-- An extent with its FAULTY flag cleared as well (R161). -/
def Extent.wiped (st : ExtentState) (x : Extent) : Extent := { x.cleared st with faulty := false }

/-! ### Owners (R154, R155) -/

/-- A range clamped against the extent count: lo raised to 1, hi lowered to n. -/
def clampRange (n lo hi : Nat) : Nat × Nat := (max lo 1, min hi n)

/-- e lies in the clamped range. -/
def inRange (n lo hi e : Nat) : Bool := decide ((clampRange n lo hi).1 ≤ e ∧ e < (clampRange n lo hi).2)

/-- The lane of the lowest-numbered present directed range that holds e. -/
def ExtentMap.directedOwner (m : ExtentMap) (n e : Nat) : Option LaneNo :=
  m.directed.toList.findSome? (fun d => match d with
    | some r => if inRange n r.lo r.hi e then some r.lane else none
    | none => none)

/-- Lane k, or its pool target (R155). -/
def ExtentMap.poolOf (m : ExtentMap) (k : LaneNo) : LaneNo := (m.pooling[k]).getD k

/-- The owner of an extent number (R154). -/
def ExtentMap.owner (m : ExtentMap) (n e : Nat) : Option LaneNo :=
  if e = 0 ∨ n ≤ e then none
  else
    match m.directedOwner n e with
    | some l => some l
    | none =>
      if inRange n m.lo m.hi e then
        let (lo, hi) := clampRange n m.lo m.hi
        let share := (hi - lo) / 8
        if e < lo + 8 * share then (laneOf ((e - lo) / share)).map m.poolOf else none
      else none

/-- The number of extents that the map gives a lane, of n (R156). -/
def ExtentMap.countFor (m : ExtentMap) (n : Nat) (l : LaneNo) : Nat :=
  ((List.range n).filter (fun e => m.owner n e == some l)).length

/-! ### Held and pinned (R172, R178) -/

/-- The extent is pinned by a slot: its span meets the slot's remaining span. -/
def Slot.pins (k : Slot) (x : Extent) : Bool :=
  (k.state == .running || k.state == .paused) &&
    match k.request, k.p, x.first, x.last with
    | some r, some p, some f, some l => x.tag == some r.lane && decide (f ≤ r.t1 ∧ p ≤ l ∧ p ≤ r.t1)
    | _, _, _, _ => false

/-- The extent is held or pinned. -/
def State.protects (s : State) (x : Extent) : Bool :=
  s.holds.holdsExtent x || s.slots[0].pins x || s.slots[1].pins x

/-! ### Allocation states and the retry timer (R157, R159) -/

/-- The lane is WANTED. -/
def AllocState.isWanted : AllocState → Bool
  | .wanted => true
  | .idle => false
  | .chosen _ => false
  | .writing _ => false

def State.anyWanted (s : State) : Bool := allLanes.any (fun l => s.ac[l].alloc.isWanted)

/-- The retry timer runs while a lane is WANTED: it starts at the moment the first lane enters, and stops when none is
left (R159). -/
def State.syncRetry (s : State) : State :=
  if s.anyWanted then
    match s.retry with
    | some _ => s
    | none => { s with retry := some (s.clock + 1000) }
  else { s with retry := none }

/-- Gives a lane an allocation state. -/
def State.setAlloc (l : LaneNo) (x : AllocState) (s : State) : State :=
  (s.modAc l (fun a => { a with alloc := x })).syncRetry

/-! ### The choice (R160) -/

/-- The gate: station time set, the scan ended, no format in flight, the store UP (R158). -/
def State.gateOpen (s : State) : Bool := s.station.isSome && !s.scanning && !s.formatting && s.store.up

/-- The candidates of a lane: the extents that the map now gives it and that are FREE or SEALED. -/
def State.candidates (s : State) (l : LaneNo) : List Extent :=
  s.extents.filter (fun x => (x.state == .free || x.state == .sealed)
    && s.settings.extentMap.owner s.extents.length x.no == some l)

/-- The candidate with the oldest last time, the lowest-numbered of them. -/
def oldestOf (xs : List Extent) : Option Extent :=
  xs.foldl (fun best x => match best with
    | none => some x
    | some b => if x.last.getD 0 < b.last.getD 0 then some x else some b) none

/-- Result of a choice: a FREE extent, a SEALED one, or no candidate; with the FAULTY extents retired on the way. -/
inductive Choice where
  | free (x : Extent)
  | sealed (x : Extent)
  | none
  deriving DecidableEq, Repr

/-- Steps 1 to 4 of R160 over candidates in ascending order: the choice, and the extents it retires. The fuel is the
number of candidates. -/
def choose (protected_ : Extent → Bool) : Nat → List Extent → List Nat → Choice × List Nat
  | 0, _, retired => (.none, retired)
  | k + 1, xs, retired =>
    match xs.find? (fun x => x.state == .free) with
    | some x => (.free x, retired)
    | none =>
      match oldestOf (xs.filter (fun x => x.state == .sealed && !protected_ x)) with
      | none => (.none, retired)
      | some x =>
        if x.faulty then choose protected_ k (xs.filter (fun y => y.no != x.no)) (x.no :: retired)
        else (.sealed x, retired)

/-- The extent is short: its last time is later than station time less the floor (R164). -/
def isShort (floorDays : Nat) (station : Time) (last : Option Nat) : Bool :=
  match station, last with
  | some t, some l => floorDays != 0 && decide (t < l + floorDays * 86400000)
  | _, _ => false

/-- The reports of a choice: ARCHIVE_STALLED ends when the lane was stalled (R163), RETENTION_SHORT opens or ends
(R164, R165). When both are due their order is free (log 6). -/
def State.reportChoice (l : LaneNo) (short : Bool) (s : State) : State :=
  let wasStalled := s.ac[l].stalled
  let wasShort := s.ac[l].short
  let s := s.modAc l (fun a => { a with stalled := false, short := short })
  let shortReport (s : State) : State :=
    if short && !wasShort then s.openShort l else if !short && wasShort then s.endShort l else s
  if wasStalled && (short != wasShort) then inEitherOrder (State.endStalled l) shortReport s
  else if wasStalled then s.endStalled l
  else shortReport s

/-- The lane takes its choice: the extent's content is lost, it becomes ERASING, its erase is queued, and the lane is
CHOSEN (R161). -/
def State.takeChoice (l : LaneNo) (x : Extent) (short : Bool) (s : State) : State :=
  let s := s.modExtent x.no (Extent.wiped .erasing)
  let s := { s with store := { s.store with erases := s.store.erases ++ [EraseWait.mk x.no (some l)] } }
  (s.setAlloc l (.chosen x.no)).reportChoice l short

/-- An attempt that ends with no candidate (R163). During a warm reset's flush the lane's flush set is discarded
instead (R166). -/
def State.noCandidate (l : LaneNo) (s : State) : State :=
  if s.warm.isSome then
    (s.modAc l (fun a => { a with buffers := Vector.replicate 4 .empty })).setAlloc l .idle
  else if s.ac[l].stalled then s
  else (s.modAc l (fun a => { a with stalled := true })).openStalled l

/-- An allocation attempt for a lane (R158 to R165). A lane that is not WANTED, or a closed gate, makes none. The retention
check is made on the extent that is taken for erase, and not on a FAULTY one that step 3 retires (log 70). -/
def State.attempt (l : LaneNo) (s : State) : State :=
  if s.ac[l].alloc.isWanted && s.gateOpen then
    let xs := s.candidates l
    let (choice, retired) := choose s.protects (xs.length + 1) xs []
    let s := retired.foldl (fun t n => t.modExtent n (Extent.cleared .retired)) s
    match choice with
    | .free x => s.takeChoice l x false
    | .sealed x => s.takeChoice l x (isShort s.settings.floorDays s.station x.last)
    | .none => s.noCandidate l
  else s

/-! ### The boundary of an event (R157, R159; log 31) -/

/-- A lane that has no extent and holds records enters WANTED. -/
def State.needsExtent (s : State) (l : LaneNo) : Bool := s.ac[l].alloc == .idle && s.ac[l].holdsRecords

/-- Attends to what the event so far has brought: lanes enter WANTED, and the attempts that this or another occasion
of R159 asks for are made, in a free order (log 6). An attempt's reports can bring further occasions. -/
def State.allocateN : Nat → State → State
  | 0, s => s
  | k + 1, s =>
    let entering := allLanes.filter s.needsExtent
    let s := entering.foldl (fun t l => t.setAlloc l .wanted) s
    let due := if s.attemptDue then allLanes.filter (fun l => s.ac[l].alloc.isWanted) else entering
    let s := { s with attemptDue := false }
    if due.isEmpty then s
    else
      let (order, s) := s.draw due
      State.allocateN k (order.foldl (fun t l => t.attempt l) s)

/-- At most one round for each lane's success, one for the reports of the last, and one that finds nothing due. -/
def State.allocate (s : State) : State := State.allocateN 20 s

/-! ### Sealing (R141, R142) -/

/-- The lane has no extent: the boundary finds whether it is WANTED or IDLE (R157). A lane that is WANTED already stays
so, and the retry timer runs on for it (R159). -/
def State.leaveExtent (l : LaneNo) (s : State) : State :=
  if s.ac[l].alloc.isWanted then s else s.setAlloc l .idle

/-- Offers the seal of an extent for programming, after its last content page. -/
def State.offerSeal (l : LaneNo) (x : Extent) (s : State) : State :=
  let (stamp, s) := s.takeStamp
  s.modAc l (fun a => { a with
    seals := a.seals ++ [⟨x.no, x.pages + 1, x.first.getD 0, x.last.getD 0, x.pages, stamp⟩] })

/-- Seals a lane's OPEN extent: SEALED with its seal offered, or FREE when it holds no content page (R141). -/
def State.sealExtent (l : LaneNo) (ext : Nat) (s : State) : State :=
  let s := match s.extentOf ext with
    | some x =>
      if x.pages = 0 then s.modExtent ext (Extent.cleared .free)
      else (s.modExtent ext (fun x => { x with state := .sealed })).offerSeal l x
    | none => s
  s.leaveExtent l

/-- The state an OPEN extent is left in at its last good page without a seal: SEALED, or FREE with its lane tag and
span cleared when it holds no content page (R142, R151). -/
def Extent.shut (faulty : Bool) (x : Extent) : Extent :=
  if x.pages = 0 then x.cleared .free else { x with state := .sealed, faulty := x.faulty || faulty }

end Sys2Proof.Machine
end

