-- ==== Sys2Proof/Machine/Captions.lean ====
section
/-! DEFINITION. The Caption Checker: the filter, acceptance, liveness and timeliness (R59 to R69, R72 to R74, R78). -/

namespace Sys2Proof.Machine

/-- A page id matches an entry (R60). -/
def FilterEntry.hits (e : FilterEntry) (pageId : BitVec 16) : Bool := (pageId &&& e.mask) == (e.value &&& e.mask)

/-- A page id passes a filter table (R61). -/
def FilterTable.passes (t : FilterTable) (pageId : BitVec 16) : Bool :=
  let xs := t.entries.toList.filter FilterEntry.enabled
  let accepts := xs.filter (fun e => e.sense == .accept)
  let rejects := xs.filter (fun e => e.sense == .reject)
  t.passAll || ((accepts.isEmpty || accepts.any (fun e => e.hits pageId))
    && !rejects.any (fun e => e.hits pageId))

/-- Changes the caption counters of the lane's open segment, if there is one (R74). -/
def State.modCaptions (l : LaneNo) (f : CaptionCounters → CaptionCounters) (s : State) : State :=
  s.modSt l (fun x => { x with seg := x.seg.map (fun g => { g with captions := f g.captions }) })

/-- A page is rejected (R62). -/
def State.rejectPage (l : LaneNo) (s : State) : State :=
  (s.modCc l (fun c => { c with rejected := c.rejected + 1 })).modCaptions l
    (fun k => { k with rejected := bumpSat k.rejected })

/-- The page is late: its lateness exceeds the late limit (R69). -/
def isLate (limit presentation : Nat) : Time → Bool
  | some t => decide (presentation + limit < t)
  | none => false

/-- The page is early (R69). -/
def isEarly (limit presentation : Nat) : Time → Bool
  | some t => decide (t + limit < presentation)
  | none => false

/-- An accepted page is judged for timeliness (R69, R74). -/
def State.judgeTimeliness (l : LaneNo) (p : CaptionPage) (s : State) : State :=
  let x := s.laneSettings l
  if isLate x.lateLimit p.presentation s.station then
    (s.modCc l (fun c => { c with late := c.late + 1 })).modCaptions l (fun k => { k with late := bumpSat k.late })
  else if isEarly x.earlyLimit p.presentation s.station then
    (s.modCc l (fun c => { c with early := c.early + 1 })).modCaptions l (fun k => { k with early := bumpSat k.early })
  else s

/-- The lane's liveness becomes `live`; a change sets the CAPTION notice (R68). -/
def State.setLive (l : LaneNo) (live : Bool) (s : State) : State :=
  if s.cc[l].live = live then s else (s.modCc l (fun c => { c with live := live })).raiseCaption l

/-- A page is accepted (R64, R66). -/
def State.acceptPage (l : LaneNo) (p : CaptionPage) (payload : List Byte) (s : State) : State :=
  let s := s.modCc l (fun c => { c with
    latest := some ⟨p, s.station⟩, lastAcceptance := some s.station
    keepalive := some (s.clock + (s.laneSettings l).keepalive), accepted := c.accepted + 1 })
  ((s.setLive l true).judgeTimeliness l p).archive l recCaption s.station payload

/-- The CC takes a good caption cell (R59). -/
def State.takeCaption (l : LaneNo) (payload : List Byte) (s : State) : State :=
  match parseCaption payload with
  | none => s
  | some p =>
    if s.settings.filters[l].passes (BitVec.ofNat 16 p.pageId) then s.acceptPage l p payload else s.rejectPage l

/-- The keepalive timer expires: SILENT, timer stopped (R67). -/
def State.keepaliveExpired (l : LaneNo) (s : State) : State :=
  (s.modCc l (fun c => { c with keepalive := none })).setLive l false

/-- Lane reset of the CC (R78). -/
def State.resetCaptions (l : LaneNo) (s : State) : State := (s.setLive l false).setCc l .reset

/-- Coverage in permille: absent with no duty tile (R73). -/
def CaptionCounters.coverage (k : CaptionCounters) : Option Nat :=
  if k.dutyTiles = 0 then none else some (k.aliveTiles * 1000 / k.dutyTiles)

/-- A tile record counts for the segment's captions (R72). -/
def CaptionCounters.takeTile (duty : Duty) (r : TileRecord) (k : CaptionCounters) : CaptionCounters :=
  if duty = .required ∧ r.void = false then
    { k with dutyTiles := k.dutyTiles + 1, aliveTiles := if r.alive then k.aliveTiles + 1 else k.aliveTiles }
  else k

end Sys2Proof.Machine
end

