-- ==== Sys2Proof/Machine/Conditions.lean ====
section
/-! DEFINITION. The condition checks of the watched segment: DEAD_AIR, CAPTION_GAP and ST_CEILING, tile by tile (R108 to
R113). -/

namespace Sys2Proof.Machine

/-- Run, grace count and finding at an opening (R108), the start time unset (log 63). -/
def RunCond.fresh : RunCond := ⟨0, none, 0, none⟩

/-- Not over, no grace count and no finding at an opening (R108), the start time unset (log 63). -/
def OverCond.fresh : OverCond := ⟨false, none, 0, none⟩

/-- The CM is told of an opening (R108). -/
def State.watch (l : LaneNo) (ident : Identity) (ruleSet : Option (Fin 16)) (s : State) : State :=
  s.modCm l (fun c => { c with watched := some ⟨ident, ruleSet, .fresh, .fresh, .fresh⟩ })

/-- Opens a segment condition finding at a tile (R112): ACTIVE with grace 0, and then its hold is asked for from the
condition's start (R121). -/
def State.openCondition (l : LaneNo) (kind : FindingKind) (severity : Severity) (rule : RuleSet) (segId : Nat)
    (start closeTime : Time) (measured limit : Int) (s : State) : Finding × State :=
  let active := decide (rule.grace = 0)
  let ask := if active then openEndedAsk severity rule.holdOnBreach rule.preRoll start else none
  s.createFinding { conditionDraft (some l) kind severity active closeTime with
    segId := some segId, measured := some measured, limit := some limit } ask

/-- A later tile holds the condition of an open finding (R112): its measured value is kept current, and while PENDING
its grace is counted and may be met. Gives the grace count and the finding. -/
def State.holdCondition (rule : RuleSet) (start closeTime : Time) (measured : Int) (grace : Nat) (f : Finding)
    (s : State) : (Nat × Finding) × State :=
  let f := { f with measured := some measured }
  if f.state = .pending then
    if rule.grace ≤ grace + 1 then
      let ask := openEndedAsk f.severity rule.holdOnBreach rule.preRoll start
      let (f, s) := s.activateFinding closeTime ask f
      ((grace + 1, f), s)
    else ((grace + 1, f), s.refreshFinding f)
  else ((grace, f), s.refreshFinding f)

/-- A tile that counts for a run of DEAD_AIR or CAPTION_GAP (R109, R110). -/
def State.runHolds (l : LaneNo) (kind : FindingKind) (severity : Severity) (limit : Nat) (rule : RuleSet)
    (segId : Nat) (closeTime : Time) (c : RunCond) (s : State) : RunCond × State :=
  let run := c.run + 1
  let start := if c.run = 0 then closeTime else c.start
  match c.finding with
  | some f =>
    let ((grace, f), s) := s.holdCondition rule start closeTime run c.grace f
    (⟨run, start, grace, some f⟩, s)
  | none =>
    if limit ≤ run then
      let (f, s) := s.openCondition l kind severity rule segId start closeTime run limit
      (⟨run, start, 0, some f⟩, s)
    else (⟨run, start, c.grace, none⟩, s)

/-- A tile that ends a run: the open finding is settled (R112). -/
def State.runEnds (rule : RuleSet) (closeTime : Time) (c : RunCond) (s : State) : RunCond × State :=
  (.fresh, s.settleOpen closeTime rule.postRoll c.finding)

/-- DEAD_AIR for a tile record (R109). -/
def State.deadAirTile (l : LaneNo) (rule : RuleSet) (segId : Nat) (r : TileRecord) (c : RunCond) (s : State) :
    RunCond × State :=
  if r.void then (c, s)
  else if r.silent then
    s.runHolds l .deadAir rule.severities.deadAir rule.deadAirLimit rule segId r.closeTime c
  else s.runEnds rule r.closeTime c

/-- CAPTION_GAP for a tile record (R110). -/
def State.captionGapTile (l : LaneNo) (rule : RuleSet) (duty : Duty) (segId : Nat) (r : TileRecord) (c : RunCond)
    (s : State) : RunCond × State :=
  if duty = .exempt ∨ r.void = true then (c, s)
  else if r.alive then s.runEnds rule r.closeTime c
  else s.runHolds l .captionGap rule.severities.captionGap rule.gapLimit rule segId r.closeTime c

/-- ST_CEILING for a tile record (R111). -/
def State.shortTermTile (l : LaneNo) (rule : RuleSet) (segId : Nat) (r : TileRecord) (c : OverCond) (s : State) :
    OverCond × State :=
  match rule.shortCeiling with
  | none => (c, s)
  | some ceiling =>
    if r.void || r.shortTerm.stale then (c, s)
    else if ceiling < r.shortTerm.value then
      if c.isOver then
        match c.finding with
        | some f =>
          let top := max r.shortTerm.value (f.measured.getD r.shortTerm.value)
          let ((grace, f), s) := s.holdCondition rule c.start r.closeTime top c.grace f
          (⟨true, c.start, grace, some f⟩, s)
        | none => (c, s)
      else
        let (f, s) := s.openCondition l .stCeiling rule.severities.stCeiling rule segId r.closeTime r.closeTime
          r.shortTerm.value ceiling
        (⟨true, r.closeTime, 0, some f⟩, s)
    else (.fresh, s.settleOpen r.closeTime rule.postRoll c.finding)

/-- The rule set that a watched segment's checks read, when the record names the segment and the set is not NONE
(R108). -/
def State.watchedRule (s : State) (l : LaneNo) (r : TileRecord) : Option (Watched × RuleSet) :=
  match s.cm[l].watched with
  | some w =>
    match w.ruleSet with
    | some k => if r.segId = some w.ident.segId then some (w, s.settings.rules[k]) else none
    | none => none
  | none => none

/-- The CM takes a tile record: the three checks in the order their new findings take ids (R108). -/
def State.cmTile (l : LaneNo) (r : TileRecord) (s : State) : State :=
  match s.watchedRule l r with
  | none => s
  | some (w, rule) =>
    let (a, s) := s.deadAirTile l rule w.ident.segId r w.deadAir
    let (b, s) := s.captionGapTile l rule w.ident.duty w.ident.segId r w.captionGap
    let (c, s) := s.shortTermTile l rule w.ident.segId r w.stCeiling
    s.modCm l (fun m => { m with watched := some { w with deadAir := a, captionGap := b, stCeiling := c } })

/-- The states of a watched segment's open findings: they change exactly when a tile makes a finding event. -/
def openStates (w : Option Watched) : List (Option FindingState) :=
  match w with
  | some w => [w.deadAir.finding.map Finding.state, w.captionGap.finding.map Finding.state,
      w.stCeiling.finding.map Finding.state]
  | none => []

/-- The CM is told of the watched segment's close at a time: its findings are settled in order and the segment is
watched no more (R113). -/
def State.unwatch (l : LaneNo) (closeTime : Time) (s : State) : State :=
  match s.cm[l].watched with
  | none => s
  | some w =>
    let post := match w.ruleSet with
      | some k => (s.settings.rules[k]).postRoll
      | none => 0
    let s := s.modCm l (fun c => { c with watched := none })
    ((s.settleOpen closeTime post w.deadAir.finding).settleOpen closeTime post w.captionGap.finding).settleOpen
      closeTime post w.stCeiling.finding

end Sys2Proof.Machine
end

