-- ==== Sys2Proof/Machine/Loudness.lean ====
section
/-! DEFINITION. The arithmetic of the Loudness Engine and of integration as exact rational arithmetic (R22 to R35, R47 to
R53): the weighting filter, tile power, reported tenths, the running windows and the two passes. A power is
compared with a bound 10^(k/10000) by raising both to the power 10000, so no value is rounded (R31). -/

namespace Sys2Proof.Machine

/-! ### Weighting filter (R22 to R24) -/

/-- Coefficients of one filter section (Table 2-2). -/
structure Coefficients where
  b0 : Rat
  b1 : Rat
  b2 : Rat
  a1 : Rat
  a2 : Rat

/-- Section 1, high shelf. -/
def highShelf : Coefficients where
  b0 := 153512486 / 100000000
  b1 := -269169619 / 100000000
  b2 := 119839281 / 100000000
  a1 := -169065929 / 100000000
  a2 := 73248077 / 100000000

/-- Section 2, low cut. -/
def lowCutFilter : Coefficients where
  b0 := 1
  b1 := -2
  b2 := 1
  a1 := -199004745 / 100000000
  a2 := 99007225 / 100000000

/-- Output of a section for input `u` (R23). -/
def sectionOutput (k : Coefficients) (x : SectionState) (u : Rat) : Rat :=
  k.b0 * u + k.b1 * x.u1 + k.b2 * x.u2 - k.a1 * x.y1 - k.a2 * x.y2

/-- The section's state one frame on. -/
def sectionNext (x : SectionState) (u y : Rat) : SectionState := ⟨u, x.u1, y, x.y1⟩

/-- A normalised sample (R22). -/
def normalised (raw : Int) : Rat := (raw : Rat) / 8388608

/-- One raw sample through a channel position: its weighted signal and the state after it (R23). -/
def PositionFilter.feed (f : PositionFilter) (raw : Int) : Rat × PositionFilter :=
  let x := normalised raw
  let v := sectionOutput highShelf f.shelf x
  let y := sectionOutput lowCutFilter f.lowCut v
  (y, ⟨sectionNext f.shelf x v, sectionNext f.lowCut v y⟩)

/-- Channel positions. -/
inductive Position where
  | c | l | r | lfe | ls | rs
  deriving DecidableEq, Repr

/-- The channel positions of a layout, in order (01 §1.1). -/
def Layout.positions : Layout → List Position
  | .mono => [.c]
  | .stereo => [.l, .r]
  | .surround => [.l, .r, .c, .lfe, .ls, .rs]

/-- Channel weights (Table 2-3). -/
def Position.weight : Position → Rat
  | .c => 1
  | .l => 1
  | .r => 1
  | .lfe => 0
  | .ls => 141 / 100
  | .rs => 141 / 100

def Filters.get (f : Filters) : Position → PositionFilter
  | .c => f.c
  | .l => f.l
  | .r => f.r
  | .lfe => f.lfe
  | .ls => f.ls
  | .rs => f.rs

def Filters.put (f : Filters) (p : Position) (x : PositionFilter) : Filters :=
  match p with
  | .c => { f with c := x }
  | .l => { f with l := x }
  | .r => { f with r := x }
  | .lfe => { f with lfe := x }
  | .ls => { f with ls := x }
  | .rs => { f with rs := x }

/-- Sets to zero the positions of a cell's layout that the last layout does not contain (R24). -/
def Filters.clearNew (f : Filters) (last : Option Layout) (now : Layout) : Filters :=
  match last with
  | none => f
  | some y => now.positions.foldl (fun g p => if y.positions.contains p then g else g.put p .zero) f

/-- Filter states and weighted energy while a cell is taken. -/
structure CellWork where
  filters : Filters
  energy : Rat

/-- One frame: each position's sample is filtered and its weighted square added (R27). -/
def CellWork.frame (positions : List Position) (w : CellWork) (frame : List Int) : CellWork :=
  (positions.zip frame).foldl (fun w px =>
    let (y, g) := (w.filters.get px.1).feed px.2
    ⟨w.filters.put px.1 g, w.energy + px.1.weight * y * y⟩) w

/-- The 480 frames of a cell, in order (R22). -/
def CellWork.cell (y : Layout) (raw : List Int) (w : CellWork) : CellWork :=
  (framesOf y.channels 480 raw).foldl (CellWork.frame y.positions) w

/-- Largest magnitude of raw samples, and of what it was before (R27). -/
def largestMagnitude (m : Nat) (raw : List Int) : Nat := raw.foldl (fun a x => max a x.natAbs) m

/-- A good audio cell taken by the Loudness Engine, its tile being open (R24, R27). -/
def LeLane.takeCell (y : Layout) (payload : List Byte) (e : LeLane) : LeLane :=
  let raw := samples payload
  let w := CellWork.cell y raw ⟨e.filters.clearNew e.lastLayout y, 0⟩
  { e with
    filters := w.filters
    lastLayout := some y
    acc := e.acc.map (fun a =>
      { a with good := a.good + 1, energy := a.energy + w.energy, peak := largestMagnitude a.peak raw }) }

/-! ### Reported tenths (R29 to R31) -/

/-- The largest whole number in [lo, hi) at which a property that falls from true to false still holds, found by
halving; it holds at `lo` and not at `hi`. Eleven halvings cover 2048. -/
def largestBelow (p : Int → Bool) : Nat → Int → Int → Int
  | 0, lo, _ => lo
  | k + 1, lo, hi =>
    if hi ≤ lo + 1 then lo
    else
      let mid := (lo + hi) / 2
      if p mid then largestBelow p k mid hi else largestBelow p k lo mid

/-- `num / den >= 10 ^ e`, for a whole exponent of either sign. -/
def atLeastPow10 (num den : Nat) (e : Int) : Bool :=
  match e with
  | .ofNat k => decide (den * 10 ^ k ≤ num)
  | .negSucc k => decide (den ≤ num * 10 ^ (k + 1))

/-- `P >= 10^((v - 0.05 + 0.691)/10)` for the tenth v = n/10 (R29): both sides to the power 10000. -/
def powerReaches (num den : Nat) (n : Int) : Bool := atLeastPow10 (num ^ 10000) (den ^ 10000) (100 * n + 641)

/-- The reported tenth of a property that says which tenths a value reaches, clamped to [lo, hi]. -/
def reportedBetween (p : Int → Bool) (lo hi : Int) : Int :=
  if !p lo then lo else if p hi then hi else largestBelow p 11 lo hi

/-- A power reported as a loudness in tenths, from -99.9 to +20.0 LUFS (R29). -/
def reportedTenth (power : Rat) : Int := reportedBetween (powerReaches power.num.toNat power.den) (-999) 200

/-- `m >= 2^23 * 10^((v - 0.05)/20)` for the tenth v = n/10 (R30): both sides to the power 400. -/
def peakReaches (m : Nat) (n : Int) : Bool := atLeastPow10 (m ^ 400) (2 ^ 9200) (2 * n - 1)

/-- A sample magnitude reported in tenths, from -99.9 to 0.0 dBFS (R30). -/
def reportedPeak (m : Nat) : Int := reportedBetween (peakReaches m) (-999) 0

/-! ### Tile close and the windows (R28, R32 to R35) -/

/-- Tile power: none for a void tile, one with fewer than 5 good cells (R28). -/
def TileAcc.power (a : TileAcc) : Option Rat :=
  if a.good < 5 then none else some (a.energy / ((480 * a.good : Nat) : Rat))

/-- The newest `n` entries of a history. -/
def newestEntries (n : Nat) (h : List TileEntry) : List TileEntry := h.drop (h.length - n)

/-- Appends a tile's entry and keeps the newest 30 (R32). -/
def historyAfter (h : List TileEntry) (x : TileEntry) : List TileEntry := newestEntries 30 (h ++ [x])

/-- Mean of tile powers. -/
def meanPower (ps : List Rat) : Rat := ps.foldl (· + ·) 0 / ((ps.length : Nat) : Rat)

/-- The momentary value at a close, the closing tile being the newest entry (R33). -/
def momentaryAfter (h : List TileEntry) (old : Windowed) : Windowed :=
  let four := newestEntries 4 h
  let powers := four.filterMap TileEntry.power
  if four.length = 4 ∧ powers.length = 4 then ⟨reportedTenth (meanPower powers), false⟩
  else { old with stale := true }

/-- The short-term value at a close (R34). -/
def shortTermAfter (h : List TileEntry) (old : Windowed) : Windowed :=
  let powers := (newestEntries 30 h).filterMap TileEntry.power
  if 20 ≤ powers.length then ⟨reportedTenth (meanPower powers), false⟩
  else { old with stale := true }

/-- Empties the history and the windows (R32, clear). -/
def LeLane.clearWindows (e : LeLane) : LeLane :=
  { e with history := [], momentary := .cleared, shortTerm := .cleared }

/-- The LIU announces that tile i opens (R27, R32 non-consecutive open). A first tile after an enabling that has the index
after the newest keeps the history (log 49). -/
def LeLane.openTile (i : Nat) (e : LeLane) : LeLane :=
  let broken := match e.history.getLast? with
    | some x => x.tile + 1 != i
    | none => false
  let e := if broken then e.clearWindows else e
  { e with acc := some ⟨i, 0, 0, 0⟩ }

/-- The LIU announces the close of the open tile: the tile record, and the engine after it (R28, R32 to R38). -/
def LeLane.closeTile (silence : Int) (now : Time) (alive : Bool) (segId : Option Nat) (a : TileAcc) (e : LeLane) :
    TileRecord × LeLane :=
  let power := a.power
  let history := historyAfter e.history ⟨a.tile, power⟩
  let momentary := momentaryAfter history e.momentary
  let shortTerm := shortTermAfter history e.shortTerm
  let loudness := power.map reportedTenth
  let rec_ : TileRecord :=
    { tile := a.tile, closeTime := now, good := a.good, power := power, loudness := loudness
      momentary := momentary, shortTerm := shortTerm, peak := reportedPeak a.peak
      silent := match loudness with
        | some v => decide (v < silence)
        | none => false
      alive := alive, segId := segId }
  (rec_, { e with acc := none, history := history, momentary := momentary, shortTerm := shortTerm
                  newest := some rec_ })

/-! ### Gating blocks and the histogram (R43 to R48) -/

/-- Gating state at a segment's opening (R43, Table 3-1). -/
def Gating.empty : Gating := ⟨[], 0, 0, List.replicate 901 0⟩

/-- The block window brought into line with tile t (R45). The comparison of indices decides, also at the first tile after
an enabling, whose index may be the one after the newest, where Table 3-4 empties the window (R57; log 49). -/
def alignedWindow (w : List TileEntry) (t : Nat) : List TileEntry :=
  match w.getLast? with
  | some x => if x.tile + 1 = t then w else []
  | none => []

/-- The block that tile t completes with the aligned window: its power, or none (R46). -/
def completedBlock (w : List TileEntry) (power : Option Rat) : Option Rat :=
  let powers := w.filterMap TileEntry.power
  match power with
  | none => none
  | some p => if w.length = 3 ∧ powers.length = 3 then some (meanPower (powers ++ [p])) else none

/-- Bin of a gated block's level in tenths (R48). -/
def binOf (level : Int) : Nat := (level + 700).toNat

/-- A completed block set aside below the absolute gate, or gated into its bin (R47, R48). -/
def Gating.takeBlock (block : Rat) (g : Gating) : Gating :=
  let level := reportedTenth block
  if level < -700 then { g with below := bumpSat g.below }
  else { g with gated := bumpSat g.gated, bins := g.bins.modify (binOf level) bumpSat }

/-- A tile record reaches gating (R45, R46). -/
def Gating.takeTile (t : Nat) (power : Option Rat) (g : Gating) : Gating :=
  let w := alignedWindow g.window t
  let g := match completedBlock w power with
    | some b => g.takeBlock b
    | none => g
  { g with window := newestEntries 3 (w ++ [⟨t, power⟩]) }

/-! ### Integration (R50 to R53)

The mean of bin powers is a sum of irrational numbers. Put r = 10^(1/200). The mean over bins b reaches the tenth n
when `sum n_b * r^(2b) >= N * r^(2n + 1399)` (both sides divided by p_0). Each power of r is bounded below and above
by whole multiples of 2^-p, and the precision p is raised until the comparison is decided. It is always decided:
the two sides differ (r has degree 200, and the exponents differ in parity), and their difference times r is an
algebraic integer of degree at most 200 whose conjugates stay below 2^63 for counts below 2^32, so it is above
2^-12572 and the last precision, 16384, decides it (log 33). -/

/-- The largest x below 2^bits with `x ^ k <= m`, built from its most significant bit down. -/
def rootBelow (k m : Nat) : Nat → Nat → Nat
  | 0, x => x
  | bits + 1, x =>
    let y := x + 2 ^ bits
    if y ^ k ≤ m then rootBelow k m bits y else rootBelow k m bits x

/-- `floor(2^p * 10^(j/200))` for j below 200. -/
def rootPower (p j : Nat) : Nat := rootBelow 200 (2 ^ (200 * p) * 10 ^ j) (p + 4) 0

/-- `2^p * 10^(j/200)` from below: within 10^(j div 200) of it. -/
def powerBelow (p j : Nat) : Nat := rootPower p (j % 200) * 10 ^ (j / 200)

/-- Width of the interval that `powerBelow` leaves. -/
def powerSlack (j : Nat) : Nat := 10 ^ (j / 200)

/-- The occupied bins with their counts. -/
def occupied (bins : List Nat) : List (Nat × Nat) := bins.zipIdx.filterMap (fun x => if x.1 = 0 then none else some (x.2, x.1))

/-- Number of blocks in bins. -/
def blockCount (xs : List (Nat × Nat)) : Nat := xs.foldl (fun a x => a + x.2) 0

/-- Whether the mean of bin powers reaches tenth n, decided at precision p, or none. `e = 2n + 1399` is not negative. -/
def meanReachesAt (xs : List (Nat × Nat)) (e p : Nat) : Option Bool :=
  let low := xs.foldl (fun a x => a + x.2 * powerBelow p (2 * x.1)) 0
  let high := xs.foldl (fun a x => a + x.2 * (powerBelow p (2 * x.1) + powerSlack (2 * x.1))) 0
  let n := blockCount xs
  if n * (powerBelow p e + powerSlack e) ≤ low then some true
  else if high ≤ n * powerBelow p e then some false
  else none

/-- The first precision of a list that decides the comparison. -/
def firstDecided (xs : List (Nat × Nat)) (e : Nat) : List Nat → Bool
  | [] => false
  | p :: rest =>
    match meanReachesAt xs e p with
    | some b => b
    | none => firstDecided xs e rest

/-- Whether the mean of the bin powers of a histogram reaches tenth n, from -69.9 up (R52, R53). Every mean reaches
-70.0 (R52). -/
def meanReaches (xs : List (Nat × Nat)) (n : Int) : Bool :=
  if n ≤ -700 then true else firstDecided xs (2 * n + 1399).toNat [64, 256, 1024, 4096, 16384]

/-- The reported tenth of the mean of bin powers; it lies between -70.0 and +20.0 (R52, R53). -/
def reportedMean (xs : List (Nat × Nat)) : Int := reportedBetween (meanReaches xs) (-700) 200

/-- Result of integration: the relative threshold and the integrated loudness, in tenths (R51 to R53). -/
structure Integrated where
  threshold : Int
  loudness : Int
  deriving DecidableEq, Repr

/-- Two-pass integration of a histogram; `none` is UNMEASURED (R51 to R53). -/
def integrate (bins : List Nat) : Option Integrated :=
  let xs := occupied bins
  if xs.isEmpty then none
  else
    let threshold := reportedMean xs - 100
    let above := xs.filter (fun x => decide (threshold < (x.1 : Int) - 700))
    some ⟨threshold, reportedMean above⟩

end Sys2Proof.Machine
end

