-- ==== Sys2Proof/Machine/Segments.lean ====
section
/-! DEFINITION. The Segment Tracker: marks and their queue, opening and closing segments, the verdict checks, the verdict
record and log, and the programme reference (R44, R55, R79 to R101). -/

namespace Sys2Proof.Machine

/-! ### Marks (R79 to R82) -/

/-- What a mark's kind code names: a segment kind, or END 5 (R199). -/
def markKindOf (n : Nat) : Option MarkKind := if n = 5 then some .finish else (segKindOf n).map .segment

/-- The duty that a code names (R199). -/
def dutyOf (n : Nat) : Option Duty := if n = 1 then some .required else if n = 2 then some .exempt else none

/-- Effective tile of an effective count: ceil(count / 10). -/
def effectiveTile (count : Nat) : Nat := (count + 9) / 10

/-- The mark of a MARK payload, when its kind and its duty are defined codes (R79). -/
def readMark (p : List Byte) : Option Mark :=
  match markKindOf (numberAt p 4 1) with
  | none => none
  | some kind =>
    let known := match kind with
      | .finish => true
      | .segment _ => (dutyOf (numberAt p 5 1)).isSome
    if known then some ⟨numberAt p 0 4, kind, p.getD 5 0#8, effectiveTile (numberAt p 6 4)⟩ else none

/-- Inserts a mark in its place in order of effective tile. -/
def insertMark (m : Mark) : List Mark → List Mark
  | [] => [m]
  | x :: rest => if m.effTile < x.effTile then m :: x :: rest else x :: insertMark m rest

/-- Enters a mark in the queue (R81): in place of one with the same effective tile, in its order, or not at all. -/
def State.queueMark (l : LaneNo) (m : Mark) (s : State) : State :=
  let q := s.st[l].queue
  if q.any (fun x => x.effTile == m.effTile) then
    s.modSt l (fun x => { x with
      queue := q.map (fun y => if y.effTile = m.effTile then m else y)
      queued := x.queued + 1, replaced := x.replaced + 1 })
  else if q.length < 4 then
    s.modSt l (fun x => { x with queue := insertMark m q, queued := x.queued + 1 })
  else s.markOverflowFinding l m.segId

/-- A valid mark is judged for lateness and queued (R80, R81). -/
def State.takeValidMark (l : LaneNo) (m : Mark) (s : State) : State :=
  match s.st[l].lastOpened with
  | some t =>
    if m.effTile ≤ t then (s.lateMarkFinding l m.segId m.effTile t).queueMark l { m with effTile := t + 1 }
    else s.queueMark l m
  | none => s.queueMark l m

/-- The ST takes a good mark cell: its MARK record first, whatever becomes of it (R79). -/
def State.takeMark (l : LaneNo) (payload : List Byte) (s : State) : State :=
  let s := (s.archive l recMark s.station payload).allocate
  match readMark payload with
  | none => s.modSt l (fun x => { x with invalid := x.invalid + 1 })
  | some m => s.takeValidMark l m

/-! ### Opening (R85) -/

/-- The rule set that the rule map now gives a lane and kind. -/
def State.boundSet (s : State) (l : LaneNo) (k : SegKind) : Option (Fin 16) := s.settings.ruleMap[l].entry k

/-- Caption counters at an opening (R71). -/
def CaptionCounters.zero : CaptionCounters := ⟨0, 0, 0, 0, 0⟩

/-- The context of a segment at its opening (Table 5-2). -/
def SegCtx.opened (ident : Identity) (ruleSet : Option (Fin 16)) (continuation : Bool) (openTime : Time) : SegCtx where
  ident := ident
  ruleSet := ruleSet
  continuation := continuation
  openTime := openTime
  firstTile := none
  lastTile := none
  tiles := 0
  voids := 0
  maxShort := none
  maxPeak := none
  gating := .empty
  captions := .zero

/-- Opens a segment on a lane and tells the CM (R85, R108). -/
def State.openSegment (l : LaneNo) (ident : Identity) (continuation : Bool) (s : State) : State :=
  let k := s.boundSet l ident.kind
  (s.modSt l (fun x => { x with seg := some (.opened ident k continuation s.station) })).watch l ident k

/-! ### Tile records (R44, R72, R86) -/

/-- The greater of a maximum that may be absent and a value. -/
def raiseMax (m : Option Int) (v : Int) : Option Int := some (match m with
  | some x => max x v
  | none => v)

/-- A segment takes a tile record. -/
def SegCtx.takeTile (r : TileRecord) (g : SegCtx) : SegCtx :=
  { g with
    firstTile := some (g.firstTile.getD r.tile)
    lastTile := some r.tile
    tiles := g.tiles + 1
    voids := if r.void then g.voids + 1 else g.voids
    maxShort := if r.shortTerm.stale then g.maxShort else raiseMax g.maxShort r.shortTerm.value
    maxPeak := raiseMax g.maxPeak r.peak
    gating := g.gating.takeTile r.tile r.power
    captions := g.captions.takeTile g.ident.duty r }

/-- The ST takes a tile record into the segment that it names (R44). -/
def State.stTile (l : LaneNo) (r : TileRecord) (s : State) : State :=
  match s.st[l].seg with
  | some g =>
    if r.segId = some g.ident.segId then s.modSt l (fun x => { x with seg := some (g.takeTile r) }) else s
  | none => s

/-! ### Verdict checks (R91 to R97) -/

/-- A check's result with the measured value and limit that a FAIL carries. -/
structure Check where
  kind : FindingKind
  result : CheckResult
  severity : Severity
  measured : Int
  limit : Int
  deriving DecidableEq, Repr

/-- FAIL or PASS. -/
def failIf (b : Bool) : CheckResult := if b then .fail else .pass

/-- LOUDNESS_TARGET (R92). -/
def checkTarget (rule : RuleSet) (integrated : Option Int) : Check :=
  let severity := rule.severities.loudnessTarget
  match integrated with
  | none => ⟨.loudnessTarget, .skipped, severity, 0, 0⟩
  | some v => ⟨.loudnessTarget, failIf (decide (rule.tolerance < ((v - rule.target).natAbs : Int))), severity, v, rule.target⟩

/-- PEAK_CEILING (R93). -/
def checkPeak (rule : RuleSet) (maxPeak : Option Int) : Check :=
  let severity := rule.severities.peakCeiling
  match rule.peakCeiling, maxPeak with
  | some c, some p => ⟨.peakCeiling, failIf (decide (c < p)), severity, p, c⟩
  | _, _ => ⟨.peakCeiling, .skipped, severity, 0, 0⟩

/-- The kinds that RELATIVE_CEILING judges. -/
def SegKind.isRelative : SegKind → Bool
  | .commercial => true
  | .promotion => true
  | .programme => false
  | .junction => false

/-- RELATIVE_CEILING (R94). -/
def checkRelative (rule : RuleSet) (kind : SegKind) (reference integrated : Option Int) : Check :=
  let severity := rule.severities.relativeCeiling
  match kind.isRelative, rule.relativeCeiling, reference, integrated with
  | true, some c, some r, some v => ⟨.relativeCeiling, failIf (decide (r + c < v)), severity, v, r + c⟩
  | _, _, _, _ => ⟨.relativeCeiling, .skipped, severity, 0, 0⟩

/-- COVERAGE (R96): an EXEMPT segment has no duty tile, so its coverage is absent. -/
def checkCoverage (rule : RuleSet) (duty : Duty) (coverage : Option Nat) : Check :=
  let severity := rule.severities.coverage
  match duty, coverage with
  | .required, some v => ⟨.coverage, failIf (decide (v < rule.minCoverage)), severity, v, rule.minCoverage⟩
  | _, _ => ⟨.coverage, .skipped, severity, 0, 0⟩

/-- LATE_CAPTIONS (R96). -/
def checkLate (rule : RuleSet) (late early : Nat) : Check :=
  ⟨.lateCaptions, failIf (decide (rule.lateLimit < late + early)), rule.severities.lateCaptions,
    ((late + early : Nat) : Int), rule.lateLimit⟩

/-- The five checks of a judged segment, in the order their findings take ids (R91, R116). -/
def SegCtx.checks (rule : RuleSet) (reference integrated : Option Int) (g : SegCtx) : List Check :=
  [checkTarget rule integrated, checkPeak rule g.maxPeak, checkRelative rule g.ident.kind reference integrated,
   checkCoverage rule g.ident.duty g.captions.coverage, checkLate rule g.captions.late g.captions.early]

/-- A check that failed at BREACH severity. -/
def Check.breaches (c : Check) : Bool := c.result == .fail && c.severity == .breach

/-- Outcome of a judged segment (R97). -/
def outcomeOf (cs : List Check) : VerdictOutcome := if cs.any Check.breaches then .breach else .pass

/-- The results of the five checks. -/
def resultsOf : List Check → Option CheckResults
  | [a, b, c, d, e] => some ⟨a.result, b.result, c.result, d.result, e.result⟩
  | _ => none

/-- NEXT_MARK, END_MARK and MAX_LENGTH (R88). -/
def CloseCause.judges : CloseCause → Bool
  | .nextMark => true
  | .endMark => true
  | .maxLength => true
  | .configEntry => false
  | .laneReset => false

/-- The rule set a closing segment is judged by, if it is judged (R91). -/
def State.judgingRule (s : State) (cause : CloseCause) (g : SegCtx) : Option RuleSet :=
  if cause.judges then g.ruleSet.map (fun k => s.settings.rules[k]) else none

/-! ### The verdict (R98, R99, R116) -/

/-- The verdict record of a closing segment. -/
def verdictOf (seq : Nat) (l : LaneNo) (cause : CloseCause) (closeTime : Time) (reference integrated : Option Int)
    (checks : Option (List Check)) (g : SegCtx) : Verdict where
  seq := seq
  lane := l
  ident := g.ident
  ruleSet := g.ruleSet
  continuation := g.continuation
  firstTile := g.firstTile
  lastTile := g.lastTile
  openTime := g.openTime
  closeTime := closeTime
  cause := cause
  tiles := g.tiles
  voids := g.voids
  gated := g.gating.gated
  below := g.gating.below
  integrated := integrated
  maxShort := g.maxShort
  maxPeak := g.maxPeak
  dutyTiles := g.captions.dutyTiles
  aliveTiles := g.captions.aliveTiles
  coverage := g.captions.coverage
  late := g.captions.late
  early := g.captions.early
  rejected := g.captions.rejected
  referenceUsed := if checks.isSome && g.ident.kind.isRelative then reference else none
  checks := checks.bind resultsOf
  outcome := match checks with
    | some cs => outcomeOf cs
    | none => .unjudged

/-- The verdict sequence number after another (R98). -/
def nextVerdictSeq (n : Nat) : Nat := if maxCount32 ≤ n then 1 else n + 1

/-- The log with a record entered at its newest end: the 128 most recent (R99). -/
def appendVerdict (log : List Verdict) (v : Verdict) : List Verdict := (log ++ [v]).drop ((log ++ [v]).length - 128)

/-- Enters a verdict record and sets the VERDICT notice (R99). -/
def State.enterVerdict (v : Verdict) (s : State) : State :=
  State.raiseVerdict { s with verdicts := ⟨appendVerdict s.verdicts.log v, nextVerdictSeq s.verdicts.next⟩ }

/-- A verdict finding for a failed check (R97, R116, R121). -/
def State.verdictFinding (l : LaneNo) (g : SegCtx) (rule : RuleSet) (closeTime : Time) (c : Check) (s : State) : State :=
  let ask := verdictAsk c.severity rule.holdOnBreach rule.preRoll rule.postRoll g.openTime closeTime
  (s.createFinding { singleDraft (some l) c.kind c.severity closeTime with
    segId := some g.ident.segId, measured := some c.measured, limit := some c.limit } ask).2

/-- The verdict findings of a close, in order. -/
def State.verdictFindings (l : LaneNo) (g : SegCtx) (rule : RuleSet) (closeTime : Time) (fails : List Check)
    (s : State) : State :=
  fails.foldl (fun t c => t.verdictFinding l g rule closeTime c) s

/-- Step 4 of R89 beyond the log: the VERDICT record and the verdict findings, which have no order between them. The
findings keep theirs and take consecutive ids, so the archive is attended to behind the last of them (R116); the
record falls before, among or behind them (log 6). -/
def State.handVerdict (l : LaneNo) (g : SegCtx) (v : Verdict) (judged : Option (RuleSet × List Check)) (s : State) :
    State :=
  let record (t : State) : State := t.archive l recVerdict v.closeTime v.bytes
  match judged with
  | none => (record s).allocate
  | some (rule, cs) =>
    let fails := cs.filter (fun c => c.result == .fail)
    if fails.isEmpty then (record s).allocate
    else
      let before := Config.freePick s.freeCount % (fails.length + 1)
      let find (xs : List Check) (t : State) : State := t.verdictFindings l g rule v.closeTime xs
      (find (fails.drop before) (record (find (fails.take before) s.advanceFree))).allocate

/-- The programme reference after a close (R95). -/
def referenceAfter (cause : CloseCause) (kind : SegKind) (integrated old : Option Int) : Option Int :=
  if cause.judges ∧ kind = .programme then
    match integrated with
    | some v => some v
    | none => old
  else old

/-- Closes a lane's open segment, if there is one (R89). -/
def State.closeSegment (l : LaneNo) (cause : CloseCause) (s : State) : State :=
  match s.st[l].seg with
  | none => s
  | some g =>
    let integrated := (integrate g.gating.bins).map Integrated.loudness
    let reference := s.st[l].reference
    let judged := (s.judgingRule cause g).map (fun rule => (rule, g.checks rule reference integrated))
    let v := verdictOf s.verdicts.next l cause s.station reference integrated (judged.map Prod.snd) g
    let s := (s.enterVerdict v).handVerdict l g v judged
    let s := s.modSt l (fun x => { x with
      reference := referenceAfter cause g.ident.kind integrated x.reference, seg := none })
    (s.unwatch l v.closeTime).allocate

/-! ### Applying marks (R83, R87, R90) -/

/-- The duty of a queued mark. -/
def Mark.duty (m : Mark) : Duty := (dutyOf m.dutyCode.toNat).getD .exempt

/-- The governing mark acts in RUN (R83). -/
def State.applyMark (l : LaneNo) (m : Mark) (s : State) : State :=
  match m.kind with
  | .segment k => (s.closeSegment l .nextMark).openSegment l ⟨m.segId, k, m.duty⟩ false
  | .finish => s.closeSegment l .endMark

/-- The governing mark acts in CONFIG on the remembered identity (R90). -/
def State.rememberMark (l : LaneNo) (m : Mark) (s : State) : State :=
  s.modSt l (fun x => { x with remembered := match m.kind with
    | .segment k => some ⟨m.segId, k, m.duty⟩
    | .finish => none })

/-- Maximum length of a segment in tiles (R87). -/
def maxSegmentTiles : Nat := 864000

/-- With no mark due, a segment at its maximum length closes and a continuation opens (R87). -/
def State.continueLong (l : LaneNo) (s : State) : State :=
  match s.st[l].seg with
  | some g =>
    if maxSegmentTiles ≤ g.tiles then (s.closeSegment l .maxLength).openSegment l g.ident true else s
  | none => s

/-- Tile i is about to open: the ST makes it the last opened tile and applies the marks due (R83). -/
def State.stOpening (l : LaneNo) (i : Nat) (s : State) : State :=
  let due := s.st[l].queue.filter (fun m => decide (m.effTile ≤ i))
  let s := s.modSt l (fun x => { x with
    lastOpened := some i
    queue := x.queue.filter (fun m => !decide (m.effTile ≤ i))
    superseded := x.superseded + BitVec.ofNat 32 (due.length - 1) })
  match due.getLast? with
  | none => match s.alarm.mode with
    | .run => s.continueLong l
    | .config => s
  | some m => match s.alarm.mode with
    | .run => s.applyMark l m
    | .config => s.rememberMark l m

/-- Lane reset of the ST (R101). -/
def State.resetSegments (l : LaneNo) (s : State) : State :=
  let s := s.closeSegment l .laneReset
  s.setSt l .reset

end Sys2Proof.Machine
end

