-- ==== Sys2Proof/Machine/Intake.lean ====
section
/-! DEFINITION. The Lane Intake Unit: the intake checks, routing, carriage tracking, tile tracking, and what its timers and
settings do (R1 to R16, R18, R21), with the tile records that the Loudness Engine builds at its announcements (R24,
R27, R36 to R39). -/

namespace Sys2Proof.Machine

/-! ### Tiles (R12 to R15, R36 to R39) -/

/-- The finished tile record goes to its three recipients. The ST's part touches nothing the other two read; the CM
and the AC act in a free order (log 6), which matters only when the record makes a finding event. -/
def State.handTile (l : LaneNo) (r : TileRecord) (s : State) : State :=
  let s := s.stTile l r
  let record (t : State) : State := (t.archive l recTile r.closeTime (tileContent l r)).allocate
  let checks (t : State) : State := (t.cmTile l r).allocate
  let checked := s.cmTile l r
  if openStates checked.cm[l].watched = openStates s.cm[l].watched then record checked
  else inEitherOrder record checks s

/-- The lane's open tile closes with the good cells it has (R12 to R14, R28, R36 to R38). -/
def State.closeTile (l : LaneNo) (s : State) : State :=
  let s := s.modLiu l (fun x => { x with openTile := none })
  match s.le[l].acc with
  | none => s
  | some a =>
    let segId := s.st[l].seg.map (fun g => g.ident.segId)
    let (r, e) := s.le[l].closeTile (s.laneSettings l).silence s.station s.cc[l].live segId a
    (s.setLe l e).handTile l r

/-- The open tile, if any, closes. -/
def State.closeOpenTile (l : LaneNo) (s : State) : State :=
  match s.liu[l].openTile with
  | some _ => s.closeTile l
  | none => s

/-- Tile i opens: the ST applies marks, then the LE opens its accumulator (R12, R83). -/
def State.openTileAt (l : LaneNo) (i : Nat) (s : State) : State :=
  ((s.stOpening l i).modLe l (LeLane.openTile i)).modLiu l (fun x => { x with openTile := some i })

/-- A void tile opens and closes at once (R12). -/
def State.voidTile (l : LaneNo) (s : State) (i : Nat) : State := (s.openTileAt l i).closeTile l

/-- The skipped tiles from + 1 to i - 1 as void tiles, in ascending order (R12, R14). -/
def State.voidTiles (l : LaneNo) (start i : Nat) (s : State) : State :=
  (List.range' (start + 1) (i - (start + 1))).foldl (State.voidTile l) s

/-- How a good audio cell of tile i stands to the open tile and the loss tile (R12, R14, R15). -/
inductive Place where
  | first
  | join
  | after (tile : Nat)
  | afterLoss (tile : Nat)
  | discontinuity
  deriving DecidableEq, Repr

/-- Where tile i falls. An index below the open tile is a discontinuity; R4 keeps it from arising (log 32). -/
def placeOf (i : Nat) (openTile lossTile : Option Nat) : Place :=
  match openTile, lossTile with
  | some o, _ => if i = o then .join else if o < i ∧ i ≤ o + 30 then .after o else .discontinuity
  | none, some t => if t < i ∧ i ≤ t + 30 then .afterLoss t else .discontinuity
  | none, none => .first

/-- Tile tracking of a good audio cell that is no discontinuity (R12, R14). -/
def State.trackTile (l : LaneNo) (i : Nat) (p : Place) (s : State) : State :=
  match p with
  | .first => s.openTileAt l i
  | .join => s
  | .after o => ((s.closeTile l).voidTiles l o i).openTileAt l i
  | .afterLoss t =>
    ((s.voidTiles l t i).modLiu l (fun x => { x with lossTile := none })).openTileAt l i
  | .discontinuity => s

/-! ### Carriage (R7 to R11) -/

/-- A change of carriage state, delivered to the notices, the LE and the CM (R11). -/
def State.setCarriage (l : LaneNo) (new : Carriage) (s : State) : State :=
  if s.liu[l].carriage = new then s
  else
    let s := (s.modLiu l (fun x => { x with carriage := new })).raiseCarriage l
    let s := if new = .acquiring then s.modLe l (fun e => { e with filters := .zero }) else s
    (s.cmCarriage l new).allocate

/-- A new rate window, with a count of 0 (R9). -/
def State.startWindow (l : LaneNo) (s : State) : State :=
  s.modLiu l (fun x => { x with window := some ⟨s.clock, 0⟩ })

/-- The gap timer starts afresh (R8). -/
def State.startGap (l : LaneNo) (s : State) : State :=
  s.modLiu l (fun x => { x with gapTimer := some (s.clock + (s.laneSettings l).gapTimeout) })

/-- A run of 1 from a cell, in ACQUIRING (R7). -/
def State.startRun (l : LaneNo) (count : Nat) (s : State) : State :=
  (s.modLiu l (fun x => { x with run := 1, runLast := count })).setCarriage l .acquiring

/-- Entry to PRESENT: the run is set to 0 and a rate window starts (R7, R9). -/
def State.enterPresent (l : LaneNo) (s : State) : State :=
  ((s.modLiu l (fun x => { x with run := 0 })).startWindow l).setCarriage l .present

/-- The acquisition run advances by a good audio cell in ACQUIRING (R7). -/
def State.advanceRun (l : LaneNo) (count : Nat) (s : State) : State :=
  let x := s.liu[l]
  let run := if x.run ≠ 0 ∧ count = x.runLast + 1 then x.run + 1 else 1
  let s := s.modLiu l (fun x => { x with run := run, runLast := count })
  if 10 ≤ run then s.enterPresent l else s

/-- A good audio cell counts in the running rate window (R9). -/
def State.countInWindow (l : LaneNo) (s : State) : State :=
  s.modLiu l (fun x => { x with window := x.window.map (fun w => { w with count := w.count + 1 }) })

/-- Carriage tracking of a good audio cell that is no discontinuity (R7 to R9). -/
def State.trackCarriage (l : LaneNo) (count : Nat) (s : State) : State :=
  let s := match s.liu[l].carriage with
    | .absent => s.startRun l count
    | .lost => s.startRun l count
    | .acquiring => s.advanceRun l count
    | .present => s.countInWindow l
    | .drift => s.countInWindow l
  s.startGap l

/-- A discontinuity, in the order of R15. -/
def State.discontinuity (l : LaneNo) (i count : Nat) (s : State) : State :=
  let s := s.closeOpenTile l
  let s := s.modLiu l (fun x => { x with lossTile := none, window := none })
  let s := s.modLe l (fun e => { e.clearWindows with filters := .zero })
  let s := ((s.startRun l count).startGap l).openTileAt l i
  s.modLiu l (fun x => { x with counters := { x.counters with discontinuities := x.counters.discontinuities + 1 } })

/-- A good audio cell (R4, R6): carriage, then tiles, then the LE (log 37). -/
def State.takeAudio (l : LaneNo) (bytes : List Byte) (s : State) : State :=
  let count := cellCount bytes
  let i := count / 10
  let p := placeOf i s.liu[l].openTile s.liu[l].lossTile
  let s := s.modLiu l (fun x => { x with lastCount := some count })
  let s := if p = .discontinuity then s.discontinuity l i count else (s.trackCarriage l count).trackTile l i p
  match cellLayout bytes with
  | some y => s.modLe l (LeLane.takeCell y (cellPayload bytes))
  | none => s

/-! ### Intake checks (R2 to R5) -/

/-- Discard reasons (Table 1-2). -/
inductive Discard where
  | disabled | cut | check | lane | kind | length | stale
  deriving DecidableEq, Repr

/-- The STALE check (R4). -/
def isStale (x : Liu) (bytes : List Byte) : Bool :=
  match x.lastCount, x.lossTile with
  | some n, _ => decide (cellCount bytes ≤ n)
  | none, some t => decide (cellCount bytes / 10 = t)
  | none, none => false

/-- The kinds a lane link carries in (R2, check 4). -/
def inboundKind (kind : Byte) : Bool :=
  kind == kindAudio || kind == kindCaption || kind == kindProxy || kind == kindMark

/-- The intake checks in order: the reason of the first that fails, or none for a good cell (R2). -/
def intakeCheck (enabled : Bool) (l : LaneNo) (x : Liu) (a : Assembly) : Option Discard :=
  let kind := a.bytes.getD 1 0#8
  if !enabled then some .disabled
  else if a.cut then some .cut
  else if !cellCheckOk a.bytes then some .check
  else if cellLane a.bytes ≠ l.val then some .lane
  else if !inboundKind kind then some .kind
  else if !cellLengthOk a.bytes then some .length
  else if kind = kindAudio ∧ isStale x a.bytes = true then some .stale
  else none

/-- Counts a discard by its reason (R5). -/
def IntakeCounters.discard (c : IntakeCounters) : Discard → IntakeCounters
  | .disabled => { c with disabled := c.disabled + 1 }
  | .cut => { c with cut := c.cut + 1 }
  | .check => { c with check := c.check + 1 }
  | .lane => { c with lane := c.lane + 1 }
  | .kind => { c with kind := c.kind + 1 }
  | .length => { c with length := c.length + 1 }
  | .stale => { c with stale := c.stale + 1 }

/-- Counts a good cell by its kind (R5). -/
def IntakeCounters.good (c : IntakeCounters) (kind : Byte) : IntakeCounters :=
  if kind = kindAudio then { c with audio := c.audio + 1 }
  else if kind = kindCaption then { c with caption := c.caption + 1 }
  else if kind = kindProxy then { c with proxy := c.proxy + 1 }
  else { c with mark := c.mark + 1 }

/-- A discarded cell: counted, and a bad audio cell sets the acquisition run to 0 (R2, R7). -/
def State.discardCell (l : LaneNo) (reason : Discard) (bytes : List Byte) (s : State) : State :=
  s.modLiu l (fun x => { x with
    counters := x.counters.discard reason
    run := if reason ≠ .disabled ∧ cellKind bytes = some kindAudio then 0 else x.run })

/-- A good cell goes to the block that uses it (R6). -/
def State.routeCell (l : LaneNo) (bytes : List Byte) (s : State) : State :=
  let kind := bytes.getD 1 0#8
  let s := s.modLiu l (fun x => { x with counters := x.counters.good kind })
  if kind = kindAudio then s.takeAudio l bytes
  else if kind = kindCaption then s.takeCaption l (cellPayload bytes)
  else if kind = kindProxy then s.archive l recProxy s.station (cellPayload bytes)
  else s.takeMark l (cellPayload bytes)

/-- A cell ends on a lane link: it is gathered, judged whole and the assembly buffer is free again (R1, R2). -/
def State.inboundCell (l : LaneNo) (bytes : List Byte) (s : State) : State :=
  let a := gather bytes
  let s := s.modLiu l (fun x => { x with assembly := a })
  let s := match intakeCheck (s.laneEnabled l) l s.liu[l] a with
    | some reason => s.discardCell l reason a.bytes
    | none => s.routeCell l a.bytes
  (s.modLiu l (fun x => { x with assembly := ⟨[], false⟩ })).allocate

/-! ### Timers of a lane -/

/-- The gap timer expires: LOST (R8, R14). -/
def State.gapExpired (l : LaneNo) (s : State) : State :=
  let o := s.liu[l].openTile
  let s := s.modLiu l (fun x => { x with run := 0, gapTimer := none, window := none, lastCount := none })
  let s := (s.setCarriage l .lost).closeOpenTile l
  match o with
  | some t => s.modLiu l (fun x => { x with lossTile := some t })
  | none => s

/-- The count of a completed rate window lies within the lane's bounds, both inclusive (R10). -/
def withinBounds (x : LaneSettings) (count : Nat) : Bool := decide (x.rateLow ≤ count ∧ count ≤ x.rateHigh)

/-- A rate window completes with a count: PRESENT and DRIFT are switched, and the next window starts (R9, R10). -/
def State.windowCompleted (l : LaneNo) (count : Nat) (s : State) : State :=
  let within := withinBounds (s.laneSettings l) count
  let s := s.startWindow l
  match s.liu[l].carriage with
  | .present => if within then s else s.setCarriage l .drift
  | .drift => if within then s.setCarriage l .present else s
  | .absent => s
  | .acquiring => s
  | .lost => s

/-- The resend timer expires: another HOLD of 200 ms, and the timer starts again (R16). None is sent while a warm reset
flushes (R20). -/
def State.resendHold (l : LaneNo) (s : State) : State :=
  let s := s.modLiu l (fun x => { x with resend := some (s.clock + 100) })
  if s.warm.isSome then s else s.sendHold l 20

/-! ### Settings and lane reset -/

/-- Disabling an enabled lane (R18). -/
def State.disableLane (l : LaneNo) (s : State) : State :=
  let s := (s.closeOpenTile l).setCarriage l .absent
  let s := s.modLiu l (fun x => { x with
    run := 0, gapTimer := none, window := none, lastCount := none, lossTile := none })
  if s.liu[l].holdOff then s.holdOffOff l else s

/-- Lane reset of the LIU (R21): the open tile is discarded, hold-off goes on following the buffers. The counters are 0
before the HOLD cells that the reset itself causes (log 61). -/
def State.resetIntake (l : LaneNo) (s : State) : State :=
  let s := s.modLiu l (fun x => { x with
    run := 0, gapTimer := none, window := none, lastCount := none, lossTile := none, openTile := none
    counters := .zero })
  s.setCarriage l .absent

end Sys2Proof.Machine
end

