-- ==== Sys2Proof/Machine/Recall.lean ====
section
/-! DEFINITION. Recall slots and the export link: acceptance, the extents a recall reads, the records it queues, export cells,
pauses and the two ways a recall ends (R17, R175 to R182). -/

namespace Sys2Proof.Machine

/-! ### Ends (R181, R182) -/

/-- The RECALL_END of a recall with a cause, its counts and p as they stand. -/
def Slot.endCellFor (cause : EndCause) (x : Slot) : EndCell := ⟨cause, x.exported, x.unreadable, x.p.getD 0⟩

/-- A recall ends DONE (R181): its pin is gone, RECALL_END is queued and the notice is set. The end is an occasion for
an allocation attempt (R178). -/
def State.endDone (k : SlotNo) (s : State) : State :=
  let s := (s.modSlot k (fun x => { x with
    state := .done, position := none, endCell := some (x.endCellFor .none) })).raiseRecall k
  { s with attemptDue := true }

/-- A job is a recall read of a slot. -/
def StoreJob.readsFor (k : SlotNo) (j : StoreJob) : Bool := match j.op with
  | .recallRead m _ _ => m == k
  | _ => false

/-- A slot's reads are withdrawn: a completion of one in flight will be discarded, an interrupted one is dropped
(R182). -/
def State.withdrawReads (k : SlotNo) (s : State) : State :=
  { s with store := { s.store with
    inFlight := s.store.inFlight.map (fun f =>
      if f.job.readsFor k then { f with job := { f.job with discard := true } } else f)
    interrupted := match s.store.interrupted with
      | some j => if j.readsFor k then none else some j
      | none => none } }

/-- RUNNING or PAUSED. -/
def Slot.active (x : Slot) : Bool := x.state == .running || x.state == .paused

/-- A recall is ABORTED (R182). -/
def State.abortRecall (k : SlotNo) (cause : EndCause) (s : State) : State :=
  if s.slots[k].active then
    let s := (s.modSlot k (fun x => { x with
      state := .aborted, position := none, page := [], endCell := some (x.endCellFor cause) })).raiseRecall k
    { s.withdrawReads k with attemptDue := true }
  else s

/-- Lane reset: every recall that names the lane is aborted (R182). -/
def State.abortLane (l : LaneNo) (s : State) : State :=
  let f (k : SlotNo) (s : State) : State :=
    if (s.slots[k].request.map RecallRequest.lane) = some l then s.abortRecall k .laneReset else s
  f 1 (f 0 s)

/-- A DONE or ABORTED slot becomes IDLE when its RECALL_END has been sent and its notice returned (R181). It
keeps nothing of the recall (log 54). -/
def State.releaseSlot (k : SlotNo) (s : State) : State :=
  let x := s.slots[k]
  if (x.state == .done || x.state == .aborted) && x.endSent && x.noticeTaken then s.setSlot k .reset else s

/-! ### Extents of a recall (R176) -/

/-- The extent is readable by a recall of the lane. -/
def Extent.readableBy (lane : LaneNo) (x : Extent) : Bool :=
  x.tag == some lane && (x.state == .opened || x.state == .sealed) && x.first.isSome && x.last.isSome

/-- The extent with the lowest first time. -/
def earliestOf (xs : List Extent) : Option Extent :=
  xs.foldl (fun best x => match best with
    | none => some x
    | some b => if x.first.getD 0 < b.first.getD 0 then some x else some b) none

/-- The next extent of a recall. -/
def State.nextExtent (s : State) (x : Slot) : Option Extent :=
  match x.request, x.marker, x.p with
  | some r, some m, some p =>
    earliestOf (s.extents.filter (fun e => e.readableBy r.lane && decide (p ≤ e.last.getD 0)
      && decide (e.first.getD 0 ≤ r.t1) && decide (e.first.getD 0 ≤ m.first)))
  | _, _, _ => none

/-- The extent is that of the end marker. -/
def EndMarker.names (m : EndMarker) (e : Extent) : Bool := e.no == m.ext && e.first == some m.first

/-- The extent of the slot's end marker. -/
def Slot.atMarker (x : Slot) (e : Extent) : Bool := match x.marker with
  | some m => m.names e
  | none => false

/-- Pages to read of an extent: up to the page limit in the end marker's, up to the pages written elsewhere. -/
def Slot.pagesOf (x : Slot) (e : Extent) : Nat := match x.marker with
  | some m => if m.names e then m.limit else e.pages
  | none => e.pages

/-- An extent is finished: p passes its last time as it now stands, and what follows is fixed (R177). The shrinking of
the pin is an occasion for an allocation attempt (R178). -/
def State.finishExtent (k : SlotNo) (e : Extent) (s : State) : State :=
  let s := s.modSlot k (fun x =>
    let p := e.last.getD 0 + 1
    let over_ := match x.request with
      | some r => decide (r.t1 < p)
      | none => true
    { x with p := some p, position := none, after := if over_ || x.atMarker e then .finish else .choose })
  { s with attemptDue := true }

/-- The slot takes its next extent, or ends DONE (R176). Extents with no page to read are finished at once; the fuel is
the number of extents. -/
def State.chooseExtentN (k : SlotNo) : Nat → State → State
  | 0, s => s.endDone k
  | n + 1, s =>
    match s.nextExtent s.slots[k] with
    | none => s.endDone k
    | some e =>
      if s.slots[k].pagesOf e = 0 then
        let s := s.finishExtent k e
        if s.slots[k].after = .finish then s.endDone k else State.chooseExtentN k n s
      else s.modSlot k (fun x => { x with position := some (e.no, 1), after := .more })

def State.chooseExtent (k : SlotNo) (s : State) : State := s.chooseExtentN k (s.extents.length + 1)

/-- What a slot does when its slot page has been sent (R177). -/
def State.slotPageSent (k : SlotNo) (s : State) : State :=
  let x := s.slots[k]
  if x.active && x.page.isEmpty then
    match x.after with
    | .more => s
    | .choose => s.chooseExtent k
    | .finish => s.endDone k
  else s

/-! ### A page taken (R177) -/

/-- The page just read was the last of its extent, or the slot goes on to the next. -/
def State.pageDone (k : SlotNo) (ext page : Nat) (s : State) : State :=
  match s.extentOf ext with
  | none => s.modSlot k (fun x => { x with position := none, after := .finish })
  | some e =>
    if s.slots[k].pagesOf e ≤ page then s.finishExtent k e
    else s.modSlot k (fun x => { x with position := some (ext, page + 1), after := .more })

/-- A page of records: those of [t0, t1] are placed in the slot page; the first later than t1 ends the recall, which
finishes the extent all the same when the page was the last to read in it (log 20). -/
def State.takeRecords (k : SlotNo) (ext page : Nat) (records : List Record) (s : State) : State :=
  match s.slots[k].request with
  | none => s
  | some r =>
    let upTo := records.takeWhile (fun x => decide (x.time ≤ r.t1))
    let s := s.modSlot k (fun x => { x with page := upTo.filter (fun y => decide (r.t0 ≤ y.time)) })
    let s := s.pageDone k ext page
    if upTo.length < records.length then s.modSlot k (fun x => { x with position := none, after := .finish }) else s

/-- A recall's READ PAGE completes. -/
def State.recallRead (k : SlotNo) (ext page : Nat) (result : ReadResult) (s : State) : State :=
  let s := match result with
    | .ok bytes => s.takeRecords k ext page (pageRecords bytes)
    | .erased => (s.modSlot k (fun x => { x with unreadable := next32 x.unreadable })).pageDone k ext page
    | .fail => (s.modSlot k (fun x => { x with unreadable := next32 x.unreadable })).pageDone k ext page
  s.slotPageSent k

/-! ### The export link (R179, R180) -/

/-- The number of a slot as a byte. -/
def slotByte (k : SlotNo) : List Byte := be 1 k.val

/-- The lane byte of an export cell. -/
def Slot.laneByte (x : Slot) : Byte := match x.request with
  | some r => BitVec.ofNat 8 r.lane.val
  | none => 0#8

/-- A RECORD cell. -/
def recordCell (k : SlotNo) (x : Slot) (r : Record) : List Byte :=
  buildCell x.laneByte kindRecord (slotByte k ++ be 4 x.seq ++ recordBytes r)

/-- The cause carried by RECALL_END. -/
def EndCause.code : EndCause → Nat
  | .none => 0
  | .rstp => 1
  | .laneReset => 2
  | .warmReset => 3

/-- A RECALL_END cell: DONE 1 without a cause, ABORTED 2 with one. A p of 2^48 is sent as 0 (log 55). -/
def endCellBytes (k : SlotNo) (x : Slot) (e : EndCell) : List Byte :=
  buildCell x.laneByte kindRecallEnd (slotByte k ++ be 4 x.seq ++ be 1 (if e.cause = .none then 1 else 2)
    ++ be 1 e.cause.code ++ be 4 e.exported ++ be 4 e.unreadable ++ be 6 e.p)

/-- The cell a slot has ready: a record of its slot page, or RECALL_END behind all of them. -/
def Slot.ready (k : SlotNo) (x : Slot) : Option (Bool × List Byte) :=
  match x.page, x.endCell with
  | r :: _, _ => some (false, recordCell k x r)
  | [], some e => some (true, endCellBytes k x e)
  | [], none => none

/-- The slot that sends next: when both have a cell ready, the one that did not send the most recent cell (R179); the
very first turn is free (log 40). -/
def State.exportTurn (s : State) : Option SlotNo × State :=
  match (s.slots[0].ready 0).isSome, (s.slots[1].ready 1).isSome with
  | false, false => (none, s)
  | true, false => (some 0, s)
  | false, true => (some 1, s)
  | true, true =>
    match s.exportLink.lastSlot with
    | some k => (some (1 - k), s)
    | none => (some (if s.freeBit then 1 else 0), s.advanceFree)

/-- Begins the next export cell, when none is being sent and the export hold is OFF (R179). -/
def State.startExport (s : State) : State :=
  if s.exportLink.sending.isSome || s.exportLink.hold.isSome then s
  else
    match s.exportTurn with
    | (none, s) => s
    | (some k, s) =>
      match s.slots[k].ready k with
      | none => s
      | some (isEnd, bytes) =>
        let s := s.modSlot k (fun x => { x with seq := next32 x.seq, endCell := if isEnd then none else x.endCell })
        { s with exportLink := { s.exportLink with sending := some ⟨k, isEnd, true⟩, lastSlot := some k } }.emit
          (.exportCell bytes)

/-- A cell has been sent whole (R179, R181). -/
def State.cellSent (c : Sending) (s : State) : State :=
  let s := { s with exportLink := { s.exportLink with sending := none } }
  if !c.live then s
  else if c.isEnd then (s.modSlot c.slot (fun x => { x with endSent := true })).releaseSlot c.slot
  else (s.modSlot c.slot (fun x => { x with
    exported := next32 x.exported, page := x.page.tail })).slotPageSent c.slot

/-- The export hold becomes ON: every RUNNING slot is PAUSED (R17, R180). -/
def State.exportHoldOn (expiry : Nat) (s : State) : State :=
  { s with
    exportLink := { s.exportLink with hold := some expiry }
    slots := s.slots.map (fun x => if x.state = .running then { x with state := .paused } else x) }

/-- The export hold becomes OFF: every PAUSED slot runs again (R17, R180). -/
def State.exportHoldOff (s : State) : State :=
  { s with
    exportLink := { s.exportLink with hold := none }
    slots := s.slots.map (fun x => if x.state = .paused then { x with state := .running } else x) }

/-- The checks of a cell on the export link: CUT, CHECK, KIND and LENGTH (R17). -/
def exportHoldTime (bytes : List Byte) : Option Nat :=
  let a := gather bytes
  if a.cut then none
  else if !cellCheckOk a.bytes then none
  else if cellKind a.bytes ≠ some kindHold then none
  else if (cellPayload a.bytes).length ≠ 2 ∨ cellLength a.bytes ≠ 2 then none
  else some (numberAt (cellPayload a.bytes) 0 2)

/-- A HOLD cell ends on the export link (R17): its hold time is in units of 10 ms. -/
def State.exportHoldCell (bytes : List Byte) (s : State) : State :=
  match exportHoldTime bytes with
  | none => s
  | some 0 => s.exportHoldOff
  | some t => s.exportHoldOn (s.clock + 10 * t)

/-! ### Acceptance (R175) -/

/-- The lane's newest extent: OPEN or SEALED with a first time, the latest of them. -/
def State.newestExtent (s : State) (lane : LaneNo) : Option EndMarker :=
  let mine := s.extents.filter (fun e => e.tag == some lane && (e.state == .opened || e.state == .sealed))
  mine.foldl (fun (best : Option EndMarker) e => match e.first, best with
    | some f, none => some ⟨f, e.no, e.pages⟩
    | some f, some m => if m.first < f then some ⟨f, e.no, e.pages⟩ else best
    | none, _ => best) none

/-- A recall is accepted in a slot, with t0 no later than t1. -/
def State.startRecall (k : SlotNo) (lane : LaneNo) (t0 t1 : Nat) (s : State) : State :=
  (s.setSlot k { Slot.reset with
    state := if s.exportLink.hold.isSome then .paused else .running
    request := some ⟨lane, t0, t1⟩
    marker := s.newestExtent lane
    p := some t0 }).chooseExtent k

end Sys2Proof.Machine
end

