-- ==== Sys2Proof/Machine/Scan.lean ====
section
/-! DEFINITION. The scan after a cold reset: the copies of extent 0, the restoration of settings and holds at the end of the
first phase, the headers, seals and content pages of the second, and its end (R146, R147, R173, R174, R195). -/

namespace Sys2Proof.Machine

/-! ### First phase (R146) -/

/-- No copy found. -/
def Found.empty : Found := ⟨none, none, none⟩

/-- The newer of what was kept and a copy just read. -/
def keepNewer {α : Type} (old : Option (Nat × α)) (copyNo : Nat) (x : α) : Option (Nat × α) :=
  match old with
  | some (n, y) => if n < copyNo then some (copyNo, x) else some (n, y)
  | none => some (copyNo, x)

/-- A valid copy is kept when its copy number is the highest of its kind. -/
def Found.keep (f : Found) (copyNo generation : Nat) : CopyContent → Found
  | .image x => { f with image := keepNewer f.image copyNo x, newest := keepNewer f.newest copyNo generation }
  | .holds t => { f with holds := keepNewer f.holds copyNo t, newest := keepNewer f.newest copyNo generation }

/-- What a page of extent 0 adds; a page that reads FAIL or fails its check is passed over. -/
def Found.read (f : Found) : ReadResult → Found
  | .ok page => match readCopy page with
    | some (n, g, c) => f.keep n g c
    | none => f
  | .erased => f
  | .fail => f

/-- A saved hold joins the table (R173): under its own id, under a new one when that is in use, or not at all when the
table is full. The flag says that the table differs from what was saved. -/
def HoldTable.restoreHold (x : HoldTable × Bool) (h : Hold) : HoldTable × Bool :=
  let t := x.1
  if t.full then (t, true)
  else if t.uses h.id then (t.add h.lane h.start h.stop h.origin true, true)
  else ({ t with table := insertHold h t.table }, x.2)

/-- The holds of a copy in ascending order of id; those of one id stand as the copy has them (log 71). -/
def HoldTable.ascending (t : HoldTable) : List Hold := t.table.foldl (fun hs h => insertHold h hs) []

/-- The saved holds join the holds placed since the reset in ascending order of their saved ids, and the next hold id is the
saved one (R173). -/
def HoldTable.restore (saved : Option HoldTable) (t : HoldTable) : HoldTable × Bool :=
  match saved with
  | some k => k.ascending.foldl HoldTable.restoreHold ({ t with next := k.next }, false)
  | none => ({ t with next := 1 }, false)

/-- The end of the first phase: settings, saved image, system extent, hold table and alarm lines take what was found.
Hold table copies that waited are written now, as one copy of the table as it stands (R145, R146; log 18). -/
def State.endFirstPhase (append : Option Nat) (f : Found) (s : State) : State :=
  let settings := (f.image.map Prod.snd).getD .default
  let waited := !s.sys.queue.isEmpty
  let (holds, changed) := s.holds.restore (f.holds.map Prod.snd)
  let sys : SysExtent :=
    { appendPage := append
      nextCopy := (f.newest.map (fun x => next32 x.1)).getD 1
      generation := (f.newest.map Prod.snd).getD 0
      saved := f.image.map Prod.snd
      queue := [] }
  let s := { s with
    settings := settings
    holds := holds
    sys := if waited || changed then sys.queueHolds holds else sys
    scan := .extents 1 .header f.image.isNone
    alarm := { s.alarm with inForce := settings.protocolSet } }
  s.showRunPattern

/-- A read of extent 0 completes. -/
def State.systemRead (page : Nat) (f : Found) (result : ReadResult) (s : State) : State :=
  if result = .erased then s.endFirstPhase (some page) f
  else if page < 4095 then { s with scan := .system (page + 1) (f.read result) }
  else s.endFirstPhase none (f.read result)

/-! ### Second phase (R147) -/

/-- The end of the scan: open ends left by findings are closed, SCAN_DONE is set, defaults are reported, and the
allocation gate may open (R147, R159, R174). -/
def State.endScan (defaulted : Bool) (s : State) : State :=
  let s := State.closeOpenEnds Hold.restored { s with scan := .done }
  let s := { s with
    holds := { s.holds with table := s.holds.table.map (fun (h : Hold) => { h with restored := false }) } }
  let s := s.raiseScanDone
  let s := if defaulted then s.settingsDefaultedFinding else s
  { s with attemptDue := true }

/-- The extent has been taken; the next one, or the end. -/
def State.nextScanExtent (ext : Nat) (defaulted : Bool) (s : State) : State :=
  if ext + 1 < s.extents.length then { s with scan := .extents (ext + 1) .header defaulted }
  else s.endScan defaulted

/-- The scan finds an extent SEALED. -/
def State.scanSealed (ext : Nat) (tag : LaneNo) (first last pages : Nat) (faulty : Bool) (s : State) : State :=
  s.modExtent ext (fun x => { x with
    state := .sealed, tag := some tag, first := some first, last := some last, pages := pages, faulty := faulty })

/-- The search of an extent's content pages stops at a page: what was found before it is the extent's content. -/
def State.scanStopped (ext : Nat) (tag : LaneNo) (first page last : Nat) (faulty defaulted : Bool) (s : State) : State :=
  let s := if page = 1 then s else s.scanSealed ext tag first last (page - 1) faulty
  s.nextScanExtent ext defaulted

/-- The latest record time of a content page; one that holds no record leaves what it was before (log 69). -/
def latestTime (old : Nat) (records : List Record) : Nat :=
  match records.map Record.time with
  | [] => old
  | t :: ts => ts.foldl max t

/-- A page read in the upward search (log 23, 25): a seal, a good content page below page 4095, or the stop. -/
def State.contentRead (ext : Nat) (tag : LaneNo) (first page last : Nat) (defaulted : Bool) (bytes : List Byte)
    (s : State) : State :=
  match readSeal bytes with
  | some (f, l, n) => (s.scanSealed ext tag f l n false).nextScanExtent ext defaulted
  | none =>
    if pageIs pageContent bytes ∧ page < 4095 then
      { s with scan := .extents ext (.content tag first (page + 1) (latestTime last (pageRecords bytes))) defaulted }
    else s.scanStopped ext tag first page last true defaulted

/-- A read of the second phase completes. -/
def State.extentRead (ext : Nat) (stage : ScanStage) (defaulted : Bool) (result : ReadResult) (s : State) : State :=
  match stage, result with
  | .header, .ok bytes => match readHeader ext bytes with
    | some (tag, first) => { s with scan := .extents ext (.sealPage tag first) defaulted }
    | none => s.nextScanExtent ext defaulted
  | .header, .erased => s.nextScanExtent ext defaulted
  | .header, .fail => s.nextScanExtent ext defaulted
  | .sealPage tag first, .ok bytes => match readSeal bytes with
    | some (f, l, n) => (s.scanSealed ext tag f l n false).nextScanExtent ext defaulted
    | none => { s with scan := .extents ext (.content tag first 1 0) defaulted }
  | .sealPage tag first, .erased => { s with scan := .extents ext (.content tag first 1 0) defaulted }
  | .sealPage tag first, .fail => { s with scan := .extents ext (.content tag first 1 0) defaulted }
  | .content tag first page last, .ok bytes => s.contentRead ext tag first page last defaulted bytes
  | .content tag first page last, .erased => s.scanStopped ext tag first page last false defaulted
  | .content tag first page last, .fail => s.scanStopped ext tag first page last true defaulted

/-- A scan read completes and advances the scan. -/
def State.scanRead (result : ReadResult) (s : State) : State :=
  match s.scan with
  | .awaiting => s
  | .system page f => s.systemRead page f result
  | .extents ext stage defaulted => s.extentRead ext stage defaulted result
  | .done => s

/-- The extent table at the first IDENTIFY (R146): extent 0 SYSTEM, every other FREE. -/
def freshExtents (count : Nat) : List Extent :=
  (List.range count).map (fun n => ⟨n, if n = 0 then .system else .free, none, none, none, 0, false⟩)

/-- The scan begins (R146). -/
def State.beginScan (count : Nat) (s : State) : State :=
  { s with extents := freshExtents count, scan := .system 0 .empty }

end Sys2Proof.Machine
end

