-- ==== Sys2Proof/Machine/Store.lean ====
section
/-! DEFINITION. The Store Port: the arbiter, issue, timeout, IDENTIFY, and what each completion does to lanes, the system
extent and a format (R134 to R136, R138 to R145, R149, R162). -/

namespace Sys2Proof.Machine

/-! ### What waits, by class (R135) -/

/-- A program offered for a lane, with the stamp of the moment it became ready. -/
structure Offer where
  ready : Nat
  what : LanePage
  ext : Nat
  page : Nat
  deriving DecidableEq, Repr

/-- The lane's oldest WAITING buffer. -/
def AcLane.oldestWaiting (a : AcLane) : Option (Fin 4) :=
  (List.finRange 4).foldl (fun best i =>
    if a.buffers[i].state = .waiting then
      match best with
      | some j => if a.buffers[i].ready < a.buffers[j].ready then some i else some j
      | none => some i
    else best) none

/-- Pages written of an extent. -/
def State.pagesWritten (s : State) (ext : Nat) : Nat := match s.extentOf ext with
  | some x => x.pages
  | none => 0

/-- The lane's next page: a seal that waits, then the header of its OPEN extent, then its oldest WAITING buffer. -/
def State.laneOffer (s : State) (l : LaneNo) : Option Offer :=
  let a := s.ac[l]
  match a.seals with
  | x :: _ => some ⟨x.ready, .sealPage x, x.ext, x.page⟩
  | [] =>
    match a.alloc with
    | .idle => none
    | .wanted => none
    | .chosen _ => none
    | .writing w =>
      if !w.headerDone then
        let first := ((s.extentOf w.ext).bind Extent.first).getD w.openTime
        some ⟨w.ready, .header w.openTime first w.generation, w.ext, 0⟩
      else a.oldestWaiting.map (fun i => ⟨a.buffers[i].ready, .content i, w.ext, s.pagesWritten w.ext + 1⟩)

/-- The offered program that became ready earliest. -/
def State.earliestOffer (s : State) : Option (LaneNo × Offer) :=
  allLanes.foldl (fun best l =>
    match s.laneOffer l, best with
    | some o, some (k, b) => if o.ready < b.ready then some (l, o) else some (k, b)
    | some o, none => some (l, o)
    | none, b => b) none

/-- The program leaves its place when it is issued: a buffer is PROGRAMMING, a seal waits no more. -/
def State.takeOffer (l : LaneNo) (o : Offer) (s : State) : State :=
  match o.what with
  | .header _ _ _ => s
  | .content i => s.modAc l (fun a => a.setBuffer i { a.buffers[i] with state := .programming })
  | .sealPage _ => s.modAc l (fun a => { a with seals := a.seals.tail })

/-- A slot that offers a read: RUNNING, its slot page empty, and a page to read (R176). -/
def Slot.offersRead (x : Slot) : Option (Nat × Nat) :=
  if x.state == .running && x.page.isEmpty then x.position else none

/-- The recall read that goes first (R135): when both slots have one waiting, the slot that did not have the most
recent; the very first turn is free (log 40). -/
def State.recallTurn (s : State) : Option SlotNo × State :=
  match s.slots[0].offersRead.isSome, s.slots[1].offersRead.isSome with
  | false, false => (none, s)
  | true, false => (some 0, s)
  | false, true => (some 1, s)
  | true, true =>
    match s.store.lastRecall with
    | some k => (some (1 - k), s)
    | none => (some (if s.freeBit then 1 else 0), s.advanceFree)

/-- The next place of the append page. -/
def pageAfter (page : Nat) : Option Nat := if page < 4095 then some (page + 1) else none

/-- Class 1: a system extent write, or the erase of extent 0 that makes room for it (R145). The append page advances
here, at the issue (log 65). -/
def State.nextSystem (s : State) : Option (StoreOp × State) :=
  if !s.settingsKnown then none
  else
    match s.sys.queue, s.sys.appendPage with
    | [], _ => none
    | w :: rest, some p =>
      some (.sysProgram p w, { s with sys := { s.sys with queue := rest, appendPage := pageAfter p } })
    | _ :: _, none => some (.sysErase, s)

/-- Class 2: the scan's next read. -/
def State.nextScan (s : State) : Option StoreOp :=
  match s.scan with
  | .awaiting => none
  | .system page _ => some (.scanRead 0 page)
  | .extents ext .header _ => some (.scanRead ext 0)
  | .extents ext (.sealPage _ _) _ => some (.scanRead ext 4095)
  | .extents ext (.content _ _ page _) _ => some (.scanRead ext page)
  | .done => none

/-- Class 4: the erase queued first. -/
def State.nextErase (s : State) : Option (StoreOp × State) :=
  match s.store.erases with
  | [] => none
  | e :: rest =>
    let op := match e.lane with
      | some l => StoreOp.laneErase l e.ext
      | none => .formatErase e.ext
    some (op, { s with store := { s.store with erases := rest } })

/-- Class 5: a recall read. -/
def State.nextRecall (s : State) : Option (StoreOp × State) :=
  match s.recallTurn with
  | (none, _) => none
  | (some k, s) =>
    match s.slots[k].offersRead with
    | none => none
    | some (ext, page) =>
      some (.recallRead k ext page, { s with store := { s.store with lastRecall := some k } })

/-- The next operation in the arbiter's order, and the state once it has left its place (R135). -/
def State.nextOp (s : State) : Option (StoreOp × State) :=
  match s.nextSystem with
  | some x => some x
  | none =>
    match s.nextScan with
    | some op => some (op, s)
    | none =>
      match s.earliestOffer with
      | some (l, o) => some (.laneProgram l o.what o.ext o.page, s.takeOffer l o)
      | none =>
        match s.nextErase with
        | some x => some x
        | none => s.nextRecall

/-! ### Issue (R134, R136) -/

/-- Records of the buffer that a content program writes. -/
def State.bufferRecords (s : State) : StoreOp → List Record
  | .laneProgram l (.content i) _ _ => s.ac[l].buffers[i].records
  | _ => []

/-- Puts an operation on the store link. -/
def State.issue (j : StoreJob) (s : State) : State :=
  State.emit (.storeOp j.op (j.op.page (s.bufferRecords j.op)))
    { s with store := { s.store with inFlight := some ⟨j, s.clock⟩ } }

/-- The Store Port may issue: UP, nothing in flight, and no warm reset cut short by an outage (R136, R151). -/
def State.mayIssue (s : State) : Bool :=
  s.store.up && s.store.inFlight.isNone && (match s.warm with
    | some w => !w.cut
    | none => true)

/-- Issues the interrupted operation before any other, else the next of the arbiter's order. -/
def State.issueNext (s : State) : State :=
  if !s.mayIssue then s
  else
    match s.store.interrupted with
    | some j => State.issue j { s with store := { s.store with interrupted := none } }
    | none => match s.nextOp with
      | some (op, s) => s.issue ⟨op, false⟩
      | none => s

/-! ### The store state (R136) -/

/-- The store becomes DOWN, with the next IDENTIFY 5 s later, and STORE_LOST opens. A warm reset's flush ends at once
(R151). -/
def State.storeDown (s : State) : State :=
  State.openStoreLost { s with
    store := { s.store with up := false, nextIdentify := some (s.clock + 5000) }
    warm := s.warm.map (fun w => { w with cut := true }) }

/-- The store becomes UP: STORE_LOST ends, and the gate may open (R136, R159). -/
def State.storeUp (s : State) : State :=
  { State.endStoreLost { s with store := { s.store with up := true, nextIdentify := none } } with attemptDue := true }

/-- A job that a timeout keeps: not an IDENTIFY, and not a read or an erase that has been withdrawn (R136, R151,
R182). -/
def StoreJob.kept (j : StoreJob) : Bool := match j.op with
  | .identify => false
  | .recallRead _ _ _ => !j.discard
  | .laneErase _ _ => !j.discard
  | .sysProgram _ _ => true
  | .sysErase => true
  | .scanRead _ _ => true
  | .laneProgram _ _ _ _ => true
  | .formatErase _ => true

/-- An operation times out (R134, R136). -/
def State.timedOut (f : InFlight) (s : State) : State :=
  let s := { s with store := { s.store with inFlight := none } }
  if s.store.up then
    State.storeDown { s with store := { s.store with interrupted := if f.job.kept then some f.job else none } }
  else s

/-- Issues an IDENTIFY while DOWN; the next one is 5 s later (R136). -/
def State.retryIdentify (s : State) : State :=
  if s.store.inFlight.isSome then s
  else State.issue ⟨.identify, false⟩ { s with store := { s.store with nextIdentify := some (s.clock + 5000) } }

/-- The operation in flight has completed. -/
def State.landed (s : State) : State := { s with store := { s.store with inFlight := none } }

/-- An IDENTIFY completes FAIL: a store that was UP becomes DOWN (R136). -/
def State.identifyFailed (s : State) : State := if s.store.up then s.storeDown else s

/-- An IDENTIFY completes OK with a count of 16 to 65,536 (R136). The first count of all begins the scan (R146). -/
def State.identified (n : Nat) (s : State) : State :=
  let s := { s with store := { s.store with returned := some n } }
  match s.store.count with
  | none =>
    let s := { s with store := { s.store with count := some n } }
    (if s.store.up then s else s.storeUp).beginScan n
  | some m => if n = m then (if s.store.up then s else s.storeUp) else s

/-- An IDENTIFY completes (R134, R136). -/
def State.identifyCompleted (r : IdentifyResult) (s : State) : State :=
  match r with
  | .ok n => if 16 ≤ n ∧ n ≤ 65536 then s.identified n else s.identifyFailed
  | .fail => s.identifyFailed

/-! ### Lane programs (R138, R140 to R142) -/

/-- A header program completes (R142). -/
def State.headerDone (l : LaneNo) (ext : Nat) (ok : Bool) (s : State) : State :=
  if ok then
    s.modAc l (fun a => { a with alloc := match a.alloc with
      | .writing w => .writing { w with headerDone := true }
      | x => x })
  else ((s.modExtent ext (Extent.cleared .retired)).leaveExtent l).storeFault (some l)

/-- A content program completes OK (R138, R140, R141, R150): the buffer is FREE, the extent has one page more, and it is
sealed when page 4094 is programmed or the flush set ends here. -/
def State.contentDone (l : LaneNo) (i : Fin 4) (ext page : Nat) (s : State) : State :=
  let b := s.ac[l].buffers[i]
  let s := s.modExtent ext (fun x => { x with
    pages := x.pages + 1, last := some (latestTime (x.last.getD 0) b.records) })
  let s := (s.modAc l (fun a => a.setBuffer i .empty)).reportBuffers l
  if page = 4094 ∨ b.sealAfter = true then s.sealExtent l ext else s

/-- A content program completes FAIL (R142): the buffer keeps its place as the oldest WAITING one. -/
def State.contentFailed (l : LaneNo) (i : Fin 4) (ext : Nat) (s : State) : State :=
  let s := s.modAc l (fun a => a.setBuffer i { a.buffers[i] with state := .waiting })
  ((s.modExtent ext (Extent.shut true)).leaveExtent l).storeFault (some l)

/-- A seal program completes FAIL (R141): the extent stays SEALED with the FAULTY flag set. One that has been chosen for
reuse in the meantime takes no flag (log 53). -/
def State.sealFailed (l : LaneNo) (ext : Nat) (s : State) : State :=
  (s.modExtent ext (fun x => if x.state = .sealed ∧ x.tag = some l then { x with faulty := true } else x)).storeFault
    (some l)

/-- A lane program completes. -/
def State.laneProgrammed (l : LaneNo) (what : LanePage) (ext page : Nat) (ok : Bool) (s : State) : State :=
  match what with
  | .header _ _ _ => s.headerDone l ext ok
  | .content i => if ok then s.contentDone l i ext page else s.contentFailed l i ext
  | .sealPage _ => if ok then s else s.sealFailed l ext

/-! ### The system extent (R145, R195) -/

/-- A SAVE is reported (R195). -/
def State.saveDone (ok : Bool) (s : State) : State := { s.raiseSaveDone ok with saveInFlight := false }

/-- A copy has been programmed, or goes to the next page (R145). -/
def State.systemProgrammed (w : SysWrite) (ok : Bool) (s : State) : State :=
  if ok then
    match w.content with
    | .image x =>
      let s := { s with sys := { s.sys with saved := some x } }
      if w.isSave then s.saveDone true else s
    | .holds _ => s
  else { s with sys := { s.sys with queue := w :: s.sys.queue } }

/-- Gives writes the next copy numbers in order (log 18). -/
def renumber : List SysWrite → Nat → List SysWrite × Nat
  | [], n => ([], n)
  | w :: rest, n =>
    let (ws, m) := renumber rest (next32 n)
    ({ w with copyNo := n } :: ws, m)

/-- The erase of extent 0 completed OK: the saved image, then the hold table, then the writes that were due (R145). -/
def State.systemErased (s : State) : State :=
  let x := s.sys
  let image : List SysWrite := match x.saved with
    | some v => [⟨0, x.generation, .image v, false⟩]
    | none => []
  let (ws, n) := renumber (image ++ [⟨0, x.generation, .holds s.holds, false⟩] ++ x.queue) x.nextCopy
  { s with sys := { x with appendPage := some 0, queue := ws, nextCopy := n } }

/-- It completed FAIL: a STORE_FAULT of the DEVICE, every waiting write abandoned, and a SAVE among them reported
FAIL (R145, R195). -/
def State.systemEraseFailed (s : State) : State :=
  let hadSave := s.sys.queue.any SysWrite.isSave
  let s := State.storeFault none { s with sys := { s.sys with queue := [] } }
  if hadSave then s.saveDone false else s

/-! ### Erases (R140, R143, R149, R162) -/

/-- Record time of the earliest record that will enter the lane's extent (R140). -/
def AcLane.earliestRecord (a : AcLane) : Option Nat :=
  match a.oldestWaiting with
  | some i => (a.buffers[i].records.head?).map Record.time
  | none => a.filling.bind (fun i => (a.buffers[i].records.head?).map Record.time)

/-- First time of an extent that opens: the earliest record's, or one millisecond after it when a SEALED extent of the
lane ends at that time (R140). It is 2^48 after a last time of 2^48 - 1, and the open time when the lane holds no record
(log 83). -/
def State.firstTime (s : State) (l : LaneNo) (openTime : Nat) : Nat :=
  match s.ac[l].earliestRecord with
  | none => openTime
  | some t =>
    if s.extents.any (fun x => x.state == .sealed && x.tag == some l && x.last == some t) then t + 1 else t

/-- The chosen extent becomes OPEN for the lane, and its header is offered (R140, R162). -/
def State.openExtent (l : LaneNo) (ext : Nat) (s : State) : State :=
  let openTime := s.station.getD 0
  let first := s.firstTime l openTime
  let (stamp, s) := s.takeStamp
  (s.modExtent ext (fun x => { x with
    state := .opened, tag := some l, first := some first, last := none, pages := 0 })).setAlloc l
      (.writing ⟨ext, openTime, s.sys.generation, false, stamp⟩)

/-- A lane's erase completes: OK opens the extent, FAIL retires it and the choice is made again (R143, R162). Either is
an occasion for attempts (R159). -/
def State.laneErased (l : LaneNo) (ext : Nat) (ok : Bool) (s : State) : State :=
  let s := if ok then s.openExtent l ext
    else ((s.modExtent ext (Extent.cleared .retired)).leaveExtent l).storeFault (some l)
  { s with attemptDue := true }

/-- The config timer runs again (R125). -/
def State.resumeConfigTimer (s : State) : State :=
  match s.alarm.configTimer with
  | .paused r => { s with alarm := { s.alarm with configTimer := .running (s.clock + r) } }
  | .stopped => s
  | .running _ => s

/-- A format erase completes; with the last of them the format is complete (R149). -/
def State.formatErased (ext : Nat) (ok : Bool) (s : State) : State :=
  let s := if ok then s.modExtent ext (Extent.wiped .free)
    else (s.modExtent ext (Extent.cleared .retired)).storeFault none
  let left := (s.format.getD 1) - 1
  let s := if left = 0 then (State.raiseFormatDone { s with format := none }).resumeConfigTimer
    else { s with format := some left }
  { s with attemptDue := true }

/-! ### Format (R148) -/

/-- A lane's erase becomes the format's own, and a lane program's completion will be discarded. -/
def StoreJob.underFormat (j : StoreJob) : StoreJob :=
  match j.op with
  | .laneErase _ ext => ⟨.formatErase ext, j.discard⟩
  | .laneProgram _ _ _ _ => { j with discard := true }
  | _ => j

/-- Extents whose erase the format has taken over in flight or as the interrupted operation. -/
def StoreJob.erases (j : StoreJob) : Option Nat := match j.op with
  | .formatErase ext => some ext
  | _ => none

/-- The erases of a format still to queue: one for every extent but 0, in ascending order, less the one already on the
store link. -/
def State.formatErases (s : State) : List EraseWait :=
  let busy := (s.store.inFlight.bind (fun f => f.job.erases)).toList ++ (s.store.interrupted.bind StoreJob.erases).toList
  ((s.extents.filter (fun x => x.no != 0)).filter (fun x => !busy.contains x.no)).map (fun x => ⟨x.no, none⟩)

/-- A lane at the beginning of a format: seals and headers are abandoned, a buffer whose program was in flight is
WAITING again from the acceptance on (log 66), and the lane has no extent (R148). -/
def AcLane.underFormat (a : AcLane) : AcLane :=
  { a with
    seals := []
    buffers := a.buffers.map (fun b => if b.state = .programming then { b with state := .waiting } else b) }

/-- The format begins (R148). Its hold table copy is a copy of its own behind those that wait, since R145 replaces a
waiting copy at a change of the table only; copies made from here on carry the new generation (log 60). A lane page program
that is the interrupted operation is treated as one in flight (log 43). -/
def State.beginFormat (s : State) : State :=
  let generation := next32 s.sys.generation
  let s := { s with sys := SysExtent.queueWrite (.holds s.holds) false { s.sys with generation := generation } }
  let s := { s with
    extents := s.extents.map (fun (x : Extent) => if x.no = 0 then x else x.cleared .erasing)
    store := { s.store with
      inFlight := s.store.inFlight.map (fun (f : InFlight) => { f with job := f.job.underFormat })
      interrupted := s.store.interrupted.map StoreJob.underFormat }
    format := some (s.extents.length - 1) }
  let s := { s with store := { s.store with erases := s.formatErases } }
  let s := forLanes (fun l t => (t.modAc l AcLane.underFormat).leaveExtent l) s
  match s.alarm.configTimer with
  | .running expiry => { s with alarm := { s.alarm with configTimer := .paused (expiry - s.clock) } }
  | .stopped => s
  | .paused _ => s

end Sys2Proof.Machine
end

