-- ==== Sys2Proof/Machine/Resets.lean ====
section
/-! DEFINITION. CONFIG entry and exit, the flush, and the three kinds of reset (R20, R42, R58, R77, R100, R101, R122, R123,
R126 to R128, R132, R133, R150 to R152, R166, R182, R196, R197). -/

namespace Sys2Proof.Machine

/-! ### Mode (R123, R126 to R128) -/

/-- A lane at the entry to CONFIG: its segment closes and its identity is remembered (R90). -/
def State.laneToConfig (l : LaneNo) (s : State) : State :=
  let ident := s.st[l].seg.map SegCtx.ident
  (s.closeSegment l .configEntry).modSt l (fun x => { x with remembered := ident })

/-- Entry to CONFIG, by steps 1 to 4 of R123. -/
def State.enterConfig (s : State) : State :=
  let s := { s with alarm := { s.alarm with
    mode := .config, configTimer := .running (s.clock + 1000 * s.settings.configTimeout) } }
  (forLanes State.laneToConfig s).showConfigPattern

/-- Steps 1 and 2 of R126: RUN, the timer stopped, the protocol set in force. -/
def State.toRun (s : State) : State :=
  { s with alarm := { s.alarm with mode := .run, configTimer := .stopped, inForce := s.settings.protocolSet } }

/-- A lane at the exit from CONFIG: its remembered identity opens a continuation (R90). -/
def State.laneToRun (l : LaneNo) (s : State) : State :=
  match s.st[l].remembered with
  | some ident => (s.openSegment l ident true).modSt l (fun x => { x with remembered := none })
  | none => s

/-- Exit from CONFIG, by steps 1 to 4 of R126. -/
def State.leaveConfig (s : State) : State := (forLanes State.laneToRun s.toRun).showRunPattern

/-- The config timer expires (R127). -/
def State.configExpired (s : State) : State :=
  s.leaveConfig.configTimeoutFinding.raiseConfigTimeout.allocate

/-! ### Flush (R150) -/

/-- Step 1: a GAP record for the pending gap counts when one can be placed; they become zero in any case. -/
def AcLane.flushGaps (stamp : Nat) (time : Time) (a : AcLane) : AcLane :=
  match a.gaps.any, time with
  | true, some t => { (a.place stamp (a.gaps.record t)).2 with gaps := .zero }
  | _, _ => { a with gaps := .zero }

/-- Step 2: a FILLING buffer holding records becomes WAITING, one holding none becomes FREE. -/
def AcLane.flushFilling (stamp : Nat) (a : AcLane) : AcLane :=
  match a.filling with
  | some i => if a.buffers[i].records.isEmpty then a.setBuffer i .empty else a.closeFilling stamp
  | none => a

/-- The last buffer of the flush set: the WAITING buffer that became so last, or the one PROGRAMMING. -/
def AcLane.lastOfFlush (a : AcLane) : Option (Fin 4) :=
  let waiting := (List.finRange 4).foldl (fun best i =>
    if a.buffers[i].state = .waiting then
      match best with
      | some j => if a.buffers[j].ready < a.buffers[i].ready then some i else some j
      | none => some i
    else best) none
  match waiting with
  | some i => some i
  | none => (List.finRange 4).find? (fun i => a.buffers[i].state == .programming)

/-- The OPEN extent of a lane. -/
def AcLane.openExtent (a : AcLane) : Option Nat := match a.alloc with
  | .writing w => some w.ext
  | .idle => none
  | .wanted => none
  | .chosen _ => none

/-- Step 3 marks the last buffer of the flush set, at whose program step 4 seals; an empty flush set seals at once. -/
def State.sealAfterFlush (l : LaneNo) (s : State) : State :=
  match s.ac[l].lastOfFlush with
  | some i => s.modAc l (fun a => a.setBuffer i { a.buffers[i] with sealAfter := true })
  | none => match s.ac[l].openExtent with
    | some ext => s.sealExtent l ext
    | none => s

/-- The flush of a lane, with the time of its reset (R150). A FILLING buffer closed by the GAP record and one closed by
step 2 take stamps in that order. -/
def State.flushLane (l : LaneNo) (s : State) : State :=
  let (first, s) := s.takeStamp
  let (second, s) := s.takeStamp
  let s := s.modAc l (fun a => (a.flushGaps first s.station).flushFilling second)
  (s.sealAfterFlush l).reportBuffers l

/-! ### Lane reset (R197; log 26) -/

/-- A lane reset: LIU, LE, CC, ST with its close, then the AC's flush and the lane's recalls. -/
def State.laneReset (l : LaneNo) (s : State) : State :=
  let s := ((s.resetIntake l).setLe l .reset).resetCaptions l
  let s := (s.resetSegments l).allocate
  (((s.flushLane l).abortLane l).allocate).startExport

/-! ### Warm reset (R151, R166, R196) -/

/-- Every open tile accumulator is discarded without a record (R41). -/
def State.discardTiles (s : State) : State := { s with le := s.le.map (fun e => { e with acc := none }) }

/-- The acceptance of RSTA: CONFIG is left (R128), open tiles are discarded (R41), recalls are aborted and every lane is
flushed. FILLING buffers that become WAITING here take their stamps in order of lane number (log 51). -/
def State.beginWarm (s : State) : State :=
  let s := if s.alarm.mode = .config then s.toRun.showRunPattern else s
  let s := { s.discardTiles with warm := some ⟨s.liu.map Liu.holdOff, !s.store.up⟩ }
  let s := (s.abortRecall 0 .warmReset).abortRecall 1 .warmReset
  ((forLanes State.flushLane s).allocate).startExport

/-- A lane program or a system extent operation. -/
def StoreOp.isWrite : StoreOp → Bool
  | .sysProgram _ _ => true
  | .sysErase => true
  | .laneProgram _ _ _ _ => true
  | .identify => false
  | .scanRead _ _ => false
  | .laneErase _ _ => false
  | .formatErase _ => false
  | .recallRead _ _ _ => false

/-- No lane buffers records and no seal waits. -/
def AcLane.flushed (a : AcLane) : Bool :=
  a.buffers.toList.all (fun b => b.state == .free) && a.seals.isEmpty

/-- The flush has ended by itself (R151). -/
def State.flushEnded (s : State) : Bool :=
  allLanes.all (fun l => s.ac[l].flushed) && s.sys.queue.isEmpty
    && (s.store.inFlight.map (fun f => f.job.op.isWrite)) != some true
    && (s.store.interrupted.map (fun j => j.op.isWrite)) != some true

/-- The warm reset can complete: the flush has ended, or an outage has cut it short. -/
def State.warmReady (s : State) : Bool := match s.warm with
  | some w => w.cut || s.flushEnded
  | none => false

/-- Extents that queued, in-flight and interrupted erases for lanes' choices name (R151). -/
def State.withdrawnErases (s : State) : List Nat :=
  let of (op : StoreOp) : List Nat := match op with
    | .laneErase _ ext => [ext]
    | _ => []
  s.store.erases.map EraseWait.ext ++ ((s.store.inFlight.map (fun f => of f.job.op)).getD [])
    ++ ((s.store.interrupted.map (fun j => of j.op)).getD [])

/-- An interrupted operation that a warm reset withdraws: the program of a buffer, a lane's erase, a recall read and the
copy of a SAVE (R151, R152, R182, R195). A header or seal program is issued at the return to UP (R152; log 19). -/
def StoreOp.withdrawn : StoreOp → Bool
  | .laneProgram _ (.header _ _ _) _ _ => false
  | .laneProgram _ (.content _) _ _ => true
  | .laneProgram _ (.sealPage _) _ _ => false
  | .laneErase _ _ => true
  | .sysProgram _ w => w.isSave
  | .identify => false
  | .sysErase => false
  | .scanRead _ _ => false
  | .formatErase _ => false
  | .recallRead _ _ _ => true

/-- A job in flight or interrupted, whose completion a warm reset will discard if it is a lane's (R151). -/
def StoreJob.afterWarm (j : StoreJob) : StoreJob := match j.op with
  | .laneProgram _ _ _ _ => { j with discard := true }
  | .laneErase _ _ => { j with discard := true }
  | _ => j

/-- The AC's part of the completion (R151, R152, R166): extents, buffers, allocation, erases and recall. -/
def State.warmArchive (s : State) : State :=
  let gone := s.withdrawnErases
  { s with
    extents := s.extents.map (fun (x : Extent) =>
      if x.state = .opened then x.shut false
      else if x.state = .erasing ∧ gone.contains x.no = true then x.cleared .free
      else x)
    ac := s.ac.map (fun a => { AcLane.reset with short := a.short })
    retry := none
    slots := Vector.replicate 2 .reset
    exportLink := { s.exportLink with
      hold := none, sending := s.exportLink.sending.map (fun (c : Sending) => { c with live := false }) }
    sys := { s.sys with queue := s.sys.queue.filter (fun w => !w.isSave) }
    store := { s.store with
      inFlight := s.store.inFlight.map (fun (f : InFlight) => { f with job := f.job.afterWarm })
      interrupted := (s.store.interrupted.filter (fun j => !j.op.withdrawn)).map StoreJob.afterWarm
      erases := [] } }

/-- The LIUs' part: each whose hold-off was ON sends a HOLD of 0, and then every LIU is as after a cold reset (R20). -/
def State.warmIntake (w : Warm) (s : State) : State :=
  let s := forLanes (fun l t => if w.holdOff[l] then t.sendHold l 0 else t) s
  { s with liu := Vector.replicate 8 .reset }

/-- The metering, caption, segment and finding state after a warm reset (R41, R77, R100, R122). -/
def State.warmBlocks (s : State) : State :=
  { s with
    le := Vector.replicate 8 .reset
    cc := Vector.replicate 8 .reset
    st := Vector.replicate 8 .reset
    verdicts := .reset
    cm := Vector.replicate 8 .reset
    dev := .reset
    alarm := { s.alarm with mode := .run, configTimer := .stopped, overall := .normal } }

/-- The CLI's part: no notice, no SAVE in flight, link counters 0; the link state and a waiting reply stay (R196). -/
def State.warmLink (s : State) : State :=
  { s with
    notices := .empty
    saveInFlight := false
    link := { s.link with incomplete := 0, dropped := 0, rejected := 0 } }

/-- The conditions that the AC reports afresh (R152, R166): STORE_LOST while the store is DOWN, RETENTION_SHORT for each
lane whose short flag is set (log 26). -/
def State.reportAfresh (s : State) : State :=
  let s := if s.store.up then s else s.openStoreLost
  forLanes (fun l t => if t.ac[l].short then t.openShort l else t) s

/-- The warm reset completes. -/
def State.completeWarm (w : Warm) (s : State) : State :=
  let s := (s.warmIntake w).warmArchive.warmBlocks.warmLink
  let s := State.showRunPattern { s with warm := none }
  let s := s.closeOpenEnds (fun _ => true)
  ({ s with attemptDue := false }.reportAfresh).allocate

/-! ### Cold reset -/

/-- Power-up or RESET: everything as at reset, but for the commands still waiting and the place of the free choices. -/
def State.coldReset (s : State) : State := { State.reset with pending := s.pending, freeCount := s.freeCount }

end Sys2Proof.Machine
end

