-- ==== Sys2Proof/Machine/Replies.lean ====
section
/-! DEFINITION. What replies carry: STAT, METR, CAPT, VERD, FIND, HLST, NOTE, EXTN and the config timer, each field in the
order of the rule that lists it (R40, R54, R65, R82, R86, R99, R118, R167, R190, R191, R194, R198; log 7, 9, 16,
17, 82). -/

namespace Sys2Proof.Machine

/-! ### Codes (log 7) -/

def Carriage.code (c : Carriage) : Byte :=
  Config.code .carriage (match c with
    | .absent => 0
    | .acquiring => 1
    | .present => 2
    | .drift => 3
    | .lost => 4)

def Status.code (x : Status) : Byte :=
  Config.code .monitorStatus (match x with
    | .normal => 0
    | .alert => 1
    | .breach => 2)

def BufferState.code (x : BufferState) : Byte :=
  Config.code .bufferState (match x with
    | .free => 0
    | .filling => 1
    | .waiting => 2
    | .programming => 3)

def AllocState.code (x : AllocState) : Byte :=
  Config.code .allocState (match x with
    | .idle => 0
    | .wanted => 1
    | .chosen _ => 2
    | .writing _ => 3)

def ExtentState.code (x : ExtentState) : Byte :=
  Config.code .extentState (match x with
    | .system => 0
    | .free => 1
    | .erasing => 2
    | .opened => 3
    | .sealed => 4
    | .retired => 5)

def SlotState.code (x : SlotState) : Byte :=
  Config.code .slotState (match x with
    | .idle => 0
    | .running => 1
    | .paused => 2
    | .done => 3
    | .aborted => 4)

def Mode.code (m : Mode) : Byte :=
  Config.code .mode (match m with
    | .run => 0
    | .config => 1)

/-! ### Common parts -/

/-- A count of 32 bits. -/
def countBytes (c : Count32) : List Byte := be 4 c.toNat

/-- The config timer with its expiry or remaining time (R123; log 16), an expiry past 2^48 - 1 as its low 48 bits (log
64). -/
def State.configTimerBytes (s : State) : List Byte :=
  match s.alarm.configTimer with
  | .stopped => Config.code .configTimer 0 :: timeBytes none
  | .running expiry => Config.code .configTimer 1 :: timeBytes (s.stationAt expiry)
  | .paused r => Config.code .configTimer 2 :: timeBytes (some r)

/-- Room for what follows the result byte in a reply (R186). -/
def replyRoom : Nat := 1023

/-- As many whole records as fit in `room` bytes, and whether more remain (R186). -/
def fitting (room : Nat) : List (List Byte) → List Byte × Bool
  | [] => ([], false)
  | r :: rest =>
    if r.length ≤ room then
      let (bs, more) := fitting (room - r.length) rest
      (r ++ bs, more)
    else ([], true)

/-- A list reply: its head, the records that fit, and the flag that more remain. -/
def listReply (head : List Byte) (records : List (List Byte)) : List Byte :=
  let (bs, more) := fitting (replyRoom - 1 - head.length) records
  head ++ bs ++ flag more

/-! ### STAT (R190, Table 11-5) -/

/-- The thirteen intake counters in R5's order. -/
def IntakeCounters.bytes (c : IntakeCounters) : List Byte :=
  countBytes c.audio ++ countBytes c.caption ++ countBytes c.proxy ++ countBytes c.mark ++ countBytes c.disabled
    ++ countBytes c.cut ++ countBytes c.check ++ countBytes c.lane ++ countBytes c.kind ++ countBytes c.length
    ++ countBytes c.stale ++ countBytes c.discontinuities ++ countBytes c.holdsSent

/-- A queued mark's segment id, kind, duty and effective tile (R82). -/
def Mark.bytes (m : Mark) : List Byte :=
  be 4 m.segId ++ be 1 (match m.kind with
    | .segment k => k.code
    | .finish => 5) ++ [m.dutyCode] ++ be 4 m.effTile

/-- The chosen extent of a lane that is CHOSEN. -/
def AllocState.chosenExtent : AllocState → Option Nat
  | .chosen ext => some ext
  | .idle => none
  | .wanted => none
  | .writing _ => none

/-- STAT of a lane. The count of the rate window and a chosen extent's number take 4 bytes (log 82). -/
def State.laneStatus (s : State) (l : LaneNo) : List Byte :=
  let x := s.liu[l]
  let t := s.st[l]
  let a := s.ac[l]
  [x.carriage.code] ++ be 1 x.run ++ optional 4 (fun (w : RateWindow) => be 4 w.count) x.window ++ x.counters.bytes
    ++ [Config.code .holdOff (if x.holdOff then 1 else 0)]
    ++ countBytes t.queued ++ countBytes t.replaced ++ countBytes t.superseded ++ countBytes t.invalid
    ++ optional 4 (be 4) t.lastOpened ++ be 1 t.queue.length ++ t.queue.flatMap Mark.bytes
    ++ [s.cm[l].status.code] ++ a.buffers.toList.map (fun b => b.state.code) ++ [a.alloc.code]
    ++ optional 4 (be 4) a.alloc.chosenExtent ++ flag a.stalled ++ flag a.short

/-- The extents in a state. -/
def State.countIn (s : State) (x : ExtentState) : Nat := (s.extents.filter (fun e => e.state == x)).length

/-- Extents that the scan has taken so far (R147; log 9). -/
def State.scanProgress (s : State) : Nat := match s.scan with
  | .awaiting => 0
  | .system _ _ => 0
  | .extents ext _ _ => ext
  | .done => s.extents.length

/-- A recall slot in STAT (R175, Table 10-2): its request may be absent. Its extent number takes 4 bytes (log 82). -/
def Slot.bytes (x : Slot) : List Byte :=
  [x.state.code] ++ optionalLane (x.request.map RecallRequest.lane)
    ++ optional 6 (be 6) (x.request.map RecallRequest.t0)
    ++ optional 6 (be 6) (x.request.map RecallRequest.t1) ++ optional 6 (be 6) x.p
    ++ optional 6 (fun (q : Nat × Nat) => be 4 q.1 ++ be 2 q.2) x.position ++ be 4 x.exported ++ be 4 x.unreadable

/-- STAT of the device. The six counts of extents by state, the scan's progress and the erases that a format has left take 4
bytes each (log 82). -/
def State.deviceStatus (s : State) : List Byte :=
  timeBytes s.station ++ [s.alarm.mode.code] ++ s.configTimerBytes ++ be 1 (protocolCode s.settings.protocolSet)
    ++ be 1 (protocolCode s.alarm.inForce) ++ [s.alarm.overall.code, s.dev.status.code]
    ++ flag s.alarm.lineA ++ flag s.alarm.lineB
    ++ [Config.code .storeState (if s.store.up then 0 else 1)] ++ optional 4 (be 4) s.store.count
    ++ optional 4 (be 4) s.store.returned ++ timeBytes (s.store.nextIdentify.bind s.stationAt)
    ++ be 4 (s.countIn .system) ++ be 4 (s.countIn .free) ++ be 4 (s.countIn .erasing) ++ be 4 (s.countIn .opened)
    ++ be 4 (s.countIn .sealed) ++ be 4 (s.countIn .retired) ++ be 4 s.scanProgress ++ be 4 (s.format.getD 0)
    ++ be 2 s.settings.floorDays ++ s.slots[0].bytes ++ s.slots[1].bytes ++ countBytes s.link.incomplete
    ++ countBytes s.link.dropped ++ countBytes s.link.rejected ++ flag s.saveInFlight

/-! ### METR (R40, R54, R86) -/

/-- The figures of the newest tile record. -/
def TileRecord.metered (r : TileRecord) : List Byte :=
  be 4 r.tile ++ timeBytes r.closeTime ++ flag r.void ++ be 1 r.good ++ optional 2 tenths r.loudness
    ++ tenths r.peak ++ flag r.silent ++ flag r.alive

/-- The figures of the open segment, its histogram integrated on demand, with the programme reference. -/
def SegCtx.metered (reference : Option Int) (g : SegCtx) : List Byte :=
  let r := integrate g.gating.bins
  be 4 g.ident.segId ++ be 4 g.gating.gated ++ be 4 g.gating.below
    ++ optional 2 tenths (r.map Integrated.threshold) ++ measuredTenths (r.map Integrated.loudness)
    ++ be 1 g.ident.kind.code ++ be 1 g.ident.duty.code ++ orNone g.ruleSet ++ flag g.continuation
    ++ optional 4 (be 4) g.firstTile ++ timeBytes g.openTime ++ be 4 g.tiles ++ be 4 g.voids
    ++ optional 2 tenths g.maxShort ++ optional 2 tenths g.maxPeak ++ optional 2 tenths reference

/-- METR of a lane. -/
def State.metering (s : State) (l : LaneNo) : List Byte :=
  let e := s.le[l]
  e.momentary.bytes ++ e.shortTerm.bytes ++ optional 20 TileRecord.metered e.newest
    ++ optional 50 (SegCtx.metered s.st[l].reference) s.st[l].seg

/-! ### CAPT (R65) -/

/-- The open segment's caption counters. -/
def SegCtx.captionFigures (g : SegCtx) : List Byte :=
  be 1 g.ident.duty.code ++ be 4 g.captions.dutyTiles ++ be 4 g.captions.aliveTiles
    ++ optional 2 (be 2) g.captions.coverage ++ be 4 g.captions.rejected ++ be 4 g.captions.late
    ++ be 4 g.captions.early

/-- CAPT of a lane. A last acceptance time that is absent and one that is unset have the same bytes (log 50). -/
def State.captionState (s : State) (l : LaneNo) : List Byte :=
  let c := s.cc[l]
  [Config.code .liveness (if c.live then 0 else 1)] ++ timeBytes c.lastAcceptance.join
    ++ optional 19 (fun (p : LatestPage) => captionBytes p.page ++ timeBytes p.accepted) c.latest
    ++ countBytes c.accepted ++ countBytes c.rejected ++ countBytes c.late ++ countBytes c.early
    ++ optional 24 SegCtx.captionFigures s.st[l].seg

/-! ### Logs and tables (R99, R118, R167, R191) -/

/-- The number lies at the starting number or above it, in the order of issue (R99). -/
def seqAtOrAbove (start n : Nat) : Bool :=
  decide (n = start) || (let d := (n + maxCount32 - start) % maxCount32
    decide (1 ≤ d ∧ d ≤ 2147483647))

/-- VERD from a sequence number: the two bounds, then the records. -/
def State.verdictList (s : State) (start : Nat) : List Byte :=
  let log := s.verdicts.log
  listReply (optional 4 (be 4) (log.head?.map Verdict.seq) ++ optional 4 (be 4) (log.getLast?.map Verdict.seq))
    ((log.filter (fun v => seqAtOrAbove start v.seq)).map Verdict.bytes)

/-- FIND from an id: the two bounds, then the records. -/
def State.findingList (s : State) (start : Nat) : List Byte :=
  let log := s.dev.log
  listReply (optional 4 (be 4) (log.head?.map Finding.id) ++ optional 4 (be 4) (log.getLast?.map Finding.id))
    ((log.filter (fun f => decide (start ≤ f.id))).map Finding.bytes)

/-- HLST from an id: the number of holds in the table, then the holds. -/
def State.holdList (s : State) (start : Nat) : List Byte :=
  listReply (be 1 s.holds.table.length)
    ((s.holds.table.filter (fun h => decide (start ≤ h.id))).map Hold.bytes)

/-- An extent record (R191, 08 §8.3): its lane tag may be absent. Its number takes 4 bytes (log 82), and a first time of
2^48 is sent as 0 (log 83). -/
def Extent.bytes (x : Extent) : List Byte :=
  be 4 x.no ++ [x.state.code] ++ optionalLane x.tag ++ optional 6 (be 6) x.first ++ optional 6 (be 6) x.last
    ++ be 2 x.pages ++ flag x.faulty

/-- The extent of a lane whose span holds a time (R191). -/
def State.extentAt (s : State) (l : LaneNo) (t : Nat) : Option Extent :=
  s.extents.find? (fun x => x.tag == some l && (x.state == .opened || x.state == .sealed) &&
    match x.first, x.last with
    | some a, some b => decide (a ≤ t ∧ t ≤ b)
    | _, _ => false)

/-! ### NOTE (R194) -/

/-- One notice: its kind, and its lane, slot, 0xFF for the device, or the result of a SAVE. -/
def noticeBytes (kind : Nat) (operand : Byte) : List Byte := [Config.code .noticeKind kind, operand]

/-- A notice if it is pending. -/
def noticeIf (pending : Bool) (kind : Nat) (operand : Byte) : List (List Byte) :=
  if pending then [noticeBytes kind operand] else []

/-- The pending notices in the order of Table 11-6. SAVE_DONE carries 0 for OK and 1 for FAIL (log 58). -/
def Notices.entries (n : Notices) : List (List Byte) :=
  allLanes.flatMap (fun l => noticeIf n.carriage[l] 0 (BitVec.ofNat 8 l.val))
    ++ allLanes.flatMap (fun l => noticeIf n.caption[l] 1 (BitVec.ofNat 8 l.val))
    ++ allLanes.flatMap (fun l => noticeIf n.finding[l] 2 (BitVec.ofNat 8 l.val))
    ++ noticeIf n.deviceFinding 2 0xFF#8 ++ noticeIf n.verdict 3 0xFF#8
    ++ noticeIf n.recallEnd[0] 4 0#8 ++ noticeIf n.recallEnd[1] 4 1#8
    ++ (match n.saveDone with
        | some ok => [noticeBytes 5 (if ok then 0#8 else 1#8)]
        | none => [])
    ++ noticeIf n.formatDone 6 0xFF#8 ++ noticeIf n.scanDone 7 0xFF#8 ++ noticeIf n.logFull 8 0xFF#8
    ++ noticeIf n.configTimeout 9 0xFF#8

/-- The body of a NOTE reply: the number of notices, then each. -/
def Notices.bytes (n : Notices) : List Byte := be 1 n.entries.length ++ n.entries.flatten

end Sys2Proof.Machine
end

