-- ==== Sys2Proof/Machine/Handlers.lean ====
section
/-! DEFINITION. What each request does once it is dispatched: its refusals in the order of its rule, its effect, and its
reply (R63, R99, R102, R103, R105, R118, R119, R123 to R129, R148, R156, R167, R168, R171, R175, R182, R188 to
R197). A refused request leaves the state as it was (00 §4.5). -/

namespace Sys2Proof.Machine

/-- A request's work: its reply and the state after it. -/
abbrev Handler := State → Reply × State

/-- A refusal changes no state. -/
def refuse (r : Result) : Handler := fun s => (.refuse r, s)

/-- A request taken in CONFIG only: the mode is checked before anything else (R124). -/
def inConfig (h : Handler) : Handler := fun s => if s.alarm.mode = .run then refuse .notInConfig s else h s

/-- A request that names a lane: NO_SUCH outside 0 to 7. -/
def withLane (n : Nat) (h : LaneNo → Handler) : Handler := match laneOf n with
  | some l => h l
  | none => refuse .noSuch

/-- A request refused SCANNING while the scan runs. -/
def afterScan (h : Handler) : Handler := fun s => if s.scanning then refuse .scanning s else h s

/-- A request that answers and changes nothing. -/
def answer (body : State → List Byte) : Handler := fun s => (⟨.ok, body s⟩, s)

/-! ### Mode and time -/

/-- CONF (R123). -/
def handleConf : Handler := fun s =>
  if !s.settingsKnown then refuse .scanning s
  else if s.alarm.mode = .config then (⟨.ok, s.configTimerBytes⟩, s)
  else (⟨.ok, s.enterConfig.configTimerBytes⟩, s.enterConfig)

/-- RUNM (R126). -/
def handleRunm : Handler := inConfig fun s =>
  if s.formatting then refuse .formatting s else (⟨.ok, []⟩, s.leaveConfig)

/-- The latest last time of any SEALED extent (R188). -/
def State.latestSealed (s : State) : Option Nat :=
  ((s.extents.filter (fun x => x.state == .sealed)).filterMap Extent.last).max?

/-- A TIME request is taken: station time takes its value, every PRESENT or DRIFT lane starts a new rate window, and
the first one opens the allocation gate (R188). -/
def State.setTime (t : Nat) (s : State) : State :=
  let first := s.station.isNone
  let s := { s with station := some t, attemptDue := s.attemptDue || first }
  let s := forLanes (fun l x =>
    if x.liu[l].carriage = .present ∨ x.liu[l].carriage = .drift then x.startWindow l else x) s
  s.allocate

/-- TIME, absolute form (R188). The reply's station time has a presence byte before it (log 77). -/
def handleTimeAbsolute (t : Nat) : Handler := fun s =>
  match s.station with
  | none =>
    if s.scanning then refuse .scanning s
    else if t < s.latestSealed.getD 0 then refuse .timeBackward s
    else (⟨.ok, timeBytes (some t)⟩, s.setTime t)
  | some now =>
    if s.alarm.mode = .run then refuse .notInConfig s
    else if t < now then refuse .timeBackward s
    else (⟨.ok, timeBytes (some t)⟩, s.setTime t)

/-- TIME, step form (R188): clamped to the largest station time. The reply's station time has a presence byte before it
(log 77). -/
def handleTimeStep (d : Nat) : Handler := fun s =>
  match s.station with
  | none => if s.scanning then refuse .scanning s else refuse .timeUnset s
  | some now =>
    if s.alarm.mode = .run then refuse .notInConfig s
    else
      let t := min (now + d) maxStation
      (⟨clampedIf (maxStation < now + d), timeBytes (some t)⟩, s.setTime t)

/-! ### Settings -/

/-- LANE (R18, R189; log 26): the settings are replaced, then enabling or disabling takes effect. -/
def State.applyLane (l : LaneNo) (x : LaneSettings) (s : State) : State :=
  let was := (s.laneSettings l).enabled
  let s := { s with settings := { s.settings with lanes := s.settings.lanes.set l x } }
  if x.enabled && !was then s.reportBuffers l
  else if was && !x.enabled then (s.disableLane l).allocate
  else s

def handleLane (f : LaneFields) : Handler := inConfig <| withLane f.lane fun l s =>
  let x := appliedLane f
  (⟨clampedIf (x.fields l != f), laneBytes (x.fields l)⟩, s.applyLane l x)

/-- FILT, entry form (R63; log 62). -/
def handleFiltEntry (f : FilterEntryFields) : Handler := inConfig <| withLane f.lane fun l s =>
  if h : f.entry < 8 then
    let k : Fin 8 := ⟨f.entry, h⟩
    let x := appliedFilter f
    let table := s.settings.filters[l]
    let s := { s with settings := { s.settings with
      filters := s.settings.filters.set l { table with entries := table.entries.set k x } } }
    (⟨clampedIf (x.fields l k != f), filterBytes (x.fields l k)⟩, s)
  else refuse .noSuch s

/-- FILT, pass-all form (R63; log 62). -/
def handleFiltPassAll (lane value : Nat) : Handler := inConfig <| withLane lane fun l s =>
  let x := yesOf value
  let table := s.settings.filters[l]
  let s := { s with settings := { s.settings with filters := s.settings.filters.set l { table with passAll := x } } }
  (⟨clampedIf (yesCode x != value), passAllBytes l.val (yesCode x)⟩, s)

/-- RULE (R102; log 62). -/
def handleRule (f : RuleFields) : Handler := inConfig fun s =>
  match setOf f.set with
  | none => refuse .noSuch s
  | some k =>
    let x := appliedRule f
    let s := { s with settings := { s.settings with rules := s.settings.rules.set k x } }
    (⟨clampedIf (x.fields k != f), ruleBytes (x.fields k)⟩, s)

/-- RMAP (R103); an OK reply carries the values as applied (log 62). -/
def handleRmap (lane kind set : Nat) : Handler := inConfig <| withLane lane fun l s =>
  match segKindOf kind, ruleEntryOf set with
  | some k, some x =>
    let row := s.settings.ruleMap[l].withEntry k x
    let s := { s with settings := { s.settings with ruleMap := s.settings.ruleMap.set l row } }
    (⟨.ok, requestBytes (.rmap lane kind set)⟩, s)
  | _, _ => refuse .noSuch s

/-- The number of extents that the map gives each lane, against the extent count held or 65,536 (R156), 4 bytes each
(log 80). -/
def State.mapCounts (s : State) : List Byte :=
  let n := s.store.count.getD 65536
  allLanes.flatMap (fun l => be 4 (s.settings.extentMap.countFor n l))

/-- The map has changed: an occasion for allocation attempts (R159). -/
def State.setMap (m : ExtentMap) (s : State) : State :=
  State.allocate { s with settings := { s.settings with extentMap := m }, attemptDue := true }

/-- The reply of an XMAP request: the values applied (log 62), and each lane's extents under the map as changed (R156). -/
def mapReply (sent applied : Request) (s : State) : Reply :=
  ⟨clampedIf (applied != sent), requestBytes applied ++ s.mapCounts⟩

/-- XMAP, distributed range (R156). -/
def handleXmapDistributed (lo hi : Nat) : Handler := inConfig fun s =>
  let s := s.setMap { s.settings.extentMap with lo := clampExtent lo, hi := clampExtent hi }
  (mapReply (.xmapDistributed lo hi) (.xmapDistributed (clampExtent lo) (clampExtent hi)) s, s)

/-- XMAP, one directed range or its absence (R156). -/
def handleXmapDirected (number : Nat) (range : Option DirectedFields) : Handler := inConfig fun s =>
  if h : number < 4 then
    let set (d : Option DirectedRange) : Reply × State :=
      let m := s.settings.extentMap
      let t := s.setMap { m with directed := m.directed.set number d }
      (mapReply (.xmapDirected number range) (.xmapDirected number (d.map DirectedRange.fields)) t, t)
    match range with
    | none => set none
    | some d => match laneOf d.lane with
      | some l => set (some ⟨clampExtent d.lo, clampExtent d.hi, l⟩)
      | none => refuse .noSuch s
  else refuse .noSuch s

/-- XMAP, one lane's pooling (R155, R156). -/
def handleXmapPooling (lane target : Nat) : Handler := inConfig <| withLane lane fun l s =>
  match poolTargetOf target with
  | none => refuse .noSuch s
  | some x =>
    let m := s.settings.extentMap
    let s := s.setMap { m with pooling := m.pooling.set l x }
    (mapReply (.xmapPooling lane target) (.xmapPooling lane target) s, s)

/-- DSEV (R105, R164); an OK reply carries the values as applied (log 62). -/
def handleDsev (f : SeverityFields) : Handler := inConfig fun s =>
  let x : DeviceSeverities := ⟨severityOf f.stalled, severityOf f.short, severityOf f.storeLost⟩
  let days := clampNat 0 3650 f.floorDays
  let applied : SeverityFields :=
    ⟨severityCode x.stalled, severityCode x.short, severityCode x.storeLost, days⟩
  (⟨clampedIf (applied != f), requestBytes (.dsev applied)⟩,
    { s with settings := { s.settings with severities := x, floorDays := days } })

/-- ALRM (R125, R129): the protocol set and the timeout change, the lines and a running timer do not (log 62). -/
def handleAlrm (protocol timeout : Nat) : Handler := inConfig fun s =>
  let p := protocolOf protocol
  let t := clampNat 10 600 timeout
  (⟨clampedIf (protocolCode p != protocol || t != timeout), requestBytes (.alrm (protocolCode p) t)⟩,
    { s with settings := { s.settings with protocolSet := p, configTimeout := t } })

/-- SETR (R189): a settings group as it stands in memory. The second byte is read for LANE, FILT and RULE only (log 59). -/
def handleSetr (group index : Nat) : Handler := fun s =>
  if !s.settingsKnown then refuse .scanning s
  else
    match group with
    | 1 => withLane index (fun l => answer (fun s => s.settings.laneGroup l)) s
    | 2 => withLane index (fun l => answer (fun s => s.settings.filterGroup l)) s
    | 3 => match setOf index with
      | some k => answer (fun s => s.settings.ruleGroup k) s
      | none => refuse .noSuch s
    | 4 => answer (fun s => s.settings.ruleMapGroup) s
    | 5 => answer (fun s => s.settings.extentMapGroup) s
    | 6 => answer (fun s => s.settings.severityGroup) s
    | 7 => answer (fun s => s.settings.alarmGroup) s
    | _ => refuse .noSuch s

/-- SAVE (R195): a copy of the settings as they stand is queued. -/
def handleSave : Handler := inConfig fun s =>
  if s.saveInFlight then refuse .busy s
  else (⟨.ok, []⟩, { s with sys := s.sys.queueWrite (.image s.settings) true, saveInFlight := true })

/-! ### Format and resets -/

/-- FMAT (R148): its refusals in order. -/
def handleFmat : Handler := inConfig fun s =>
  if s.scanning then refuse .scanning s
  else if s.formatting then refuse .formatting s
  else if !s.holds.table.isEmpty then refuse .holdsActive s
  else if s.slots[0].active || s.slots[1].active then refuse .busy s
  else (⟨.ok, []⟩, s.beginFormat.allocate)

/-- RSTA (R196). -/
def handleRsta : Handler := afterScan fun s =>
  if s.formatting then refuse .formatting s else (⟨.ok, []⟩, s.beginWarm)

/-- LRST (R197). -/
def handleLrst (lane : Nat) : Handler := withLane lane fun l s => (⟨.ok, []⟩, s.laneReset l)

/-! ### Queries -/

/-- STAT (R190): 0xFF names the DEVICE. -/
def handleStat (target : Nat) : Handler :=
  if target = 255 then answer State.deviceStatus else withLane target fun l => answer (fun s => s.laneStatus l)

/-- METR (R40, R54, R86). -/
def handleMetr (lane : Nat) : Handler := withLane lane fun l => answer (fun s => s.metering l)

/-- CAPT (R65). -/
def handleCapt (lane : Nat) : Handler := withLane lane fun l => answer (fun s => s.captionState l)

/-- VERD (R99). -/
def handleVerd (start : Nat) : Handler := answer (fun s => s.verdictList start)

/-- FIND (R118). -/
def handleFind (start : Nat) : Handler := answer (fun s => s.findingList start)

/-- HLST (R167). -/
def handleHlst (start : Nat) : Handler := answer (fun s => s.holdList start)

/-- EXTN by number (R191). -/
def handleExtnByNumber (number : Nat) : Handler := afterScan fun s =>
  match s.extentOf number with
  | some x => (⟨.ok, x.bytes⟩, s)
  | none => refuse .noSuch s

/-- EXTN by lane and time (R191). -/
def handleExtnByLaneTime (lane time : Nat) : Handler := afterScan <| withLane lane fun l s =>
  match s.extentAt l time with
  | some x => (⟨.ok, x.bytes⟩, s)
  | none => refuse .noSuch s

/-- A RECALL notice is returned: the slot may become IDLE (R181, R194). -/
def State.noticeReturned (k : SlotNo) (s : State) : State :=
  if s.notices.recallEnd[k] then (s.modSlot k (fun x => { x with noticeTaken := true })).releaseSlot k else s

/-- NOTE (R194): every pending notice is returned and the set emptied. -/
def handleNote : Handler := fun s =>
  let body := s.notices.bytes
  let s := (s.noticeReturned 0).noticeReturned 1
  (⟨.ok, body⟩, { s with notices := .empty })

/-! ### Findings, holds and recall -/

/-- ACKF of a single id (R119). -/
def handleAckfSingle (id : Nat) : Handler := fun s =>
  if s.dev.log.any (fun f => f.id == id && f.ackable) then
    (⟨.ok, []⟩, s.acknowledge (fun f => f.id == id))
  else refuse .noSuch s

/-- ACKF of all up to an id: the reply carries the number of records whose flag it set (R119). -/
def handleAckfAllUpTo (id : Nat) : Handler := fun s =>
  let fresh := s.dev.log.filter (fun f => decide (f.id ≤ id) && f.ackable && !f.acked)
  (⟨.ok, be 2 fresh.length⟩, s.acknowledge (fun f => decide (f.id ≤ id)))

/-- HOLD (R168): an end earlier than the start is raised to it. -/
def handleHold (lane start : Nat) (stop : Option Nat) : Handler := afterScan <| withLane lane fun l s =>
  if s.holds.full then refuse .tableFull s
  else
    let applied := stop.map (fun e => max start e)
    let (id, t) := s.placeHold l start applied .host
    (⟨clampedIf (applied != stop), be 2 id ++ be 6 start ++ optional 6 (be 6) applied⟩, t)

/-- HREL (R171). -/
def handleHrel (id : Nat) : Handler := fun s =>
  if !s.settingsKnown then refuse .scanning s
  else if s.holds.uses id then (⟨.ok, []⟩, (s.releaseHold id).allocate)
  else refuse .noSuch s

/-- RCAL (R175): a t0 later than t1 is lowered to it; an OK reply carries the values as applied (log 62). -/
def handleRcal (lane t1 t0 slot : Nat) : Handler := afterScan fun s =>
  if s.formatting then refuse .formatting s
  else
    match laneOf lane, slotOf slot with
    | some l, some k =>
      if s.slots[k].state = .idle then
        let applied := min t0 t1
        (⟨clampedIf (applied != t0), requestBytes (.rcal lane t1 applied slot)⟩,
          ((s.startRecall k l applied t1).allocate).startExport)
      else refuse .busy s
    | _, _ => refuse .noSuch s

/-- RSTP (R182). -/
def handleRstp (slot : Nat) : Handler := fun s =>
  match slotOf slot with
  | some k =>
    if s.slots[k].active then (⟨.ok, []⟩, ((s.abortRecall k .rstp).allocate).startExport)
    else refuse .noSuch s
  | none => refuse .noSuch s

/-- The work of a request as a dispatched frame names it. -/
def handle : Request → Handler
  | .conf => handleConf
  | .runm => handleRunm
  | .timeAbsolute t => handleTimeAbsolute t
  | .timeStep d => handleTimeStep d
  | .save => handleSave
  | .fmat => handleFmat
  | .rsta => handleRsta
  | .lrst l => handleLrst l
  | .lane f => handleLane f
  | .filtEntry f => handleFiltEntry f
  | .filtPassAll l v => handleFiltPassAll l v
  | .rule f => handleRule f
  | .rmap l k n => handleRmap l k n
  | .xmapDistributed lo hi => handleXmapDistributed lo hi
  | .xmapDirected n r => handleXmapDirected n r
  | .xmapPooling l t => handleXmapPooling l t
  | .dsev f => handleDsev f
  | .alrm p t => handleAlrm p t
  | .setr g i => handleSetr g i
  | .stat t => handleStat t
  | .metr l => handleMetr l
  | .verd n => handleVerd n
  | .find n => handleFind n
  | .note => handleNote
  | .capt l => handleCapt l
  | .extnByNumber n => handleExtnByNumber n
  | .extnByLaneTime l t => handleExtnByLaneTime l t
  | .hlst n => handleHlst n
  | .ackfSingle n => handleAckfSingle n
  | .ackfAllUpTo n => handleAckfAllUpTo n
  | .hold l a b => handleHold l a b
  | .hrel n => handleHrel n
  | .rcal l t1 t0 n => handleRcal l t1 t0 n
  | .rstp n => handleRstp n

end Sys2Proof.Machine
end

