-- ==== Sys2Proof/Machine/Exchanges.lean ====
section
/-! DEFINITION. The control link: SEND and COLLECT exchanges, the frame checks, dispatch and replies, and one meaning for
each row of the table that the host sends (R183 to R187, R200; log 29, 30). -/

namespace Sys2Proof.Machine

/-! ### One command -/

/-- A command begins: what the part put on its links before is past (log 5). -/
def State.begin (s : State) : State := { s with emitted := [] }

/-! ### Replies (R184 to R187) -/

/-- A reply is placed in the reply buffer, the request buffer is empty, and the link is REPLYING. -/
def State.putReply (frame : List Byte) (s : State) : State :=
  { s with link := { s.link with state := .replying, request := [], reply := frame } }

/-- A frame that fails a check: answered at once, and counted as rejected (R185). -/
def State.reject (seq : Byte) (tag : List Byte) (r : Result) (s : State) : State :=
  let s := { s with link := { s.link with rejected := s.link.rejected + 1 } }
  s.putReply ((Reply.refuse r).frame seq tag)

/-- A frame that is not taken (R184). -/
def State.dropFrame (s : State) : State := { s with link := { s.link with dropped := s.link.dropped + 1 } }

/-- A frame whose select was released before it was whole (R184). -/
def State.incompleteFrame (s : State) : State :=
  { s with link := { s.link with state := .ready, request := [], incomplete := s.link.incomplete + 1 } }

/-- A request is dispatched: the link is WORKING with the frame in its buffer until the reply is ready (R184, R186). -/
def State.dispatch (seq : Byte) (tag frame : List Byte) (h : Handler) (s : State) : State :=
  let (reply, t) := h { s with link := { s.link with state := .working, request := frame } }
  t.putReply (reply.frame seq tag)

/-- What the part shifts out of an exchange in which no reply goes out: the link status against the host's first byte
and a fill byte against each of the `n` that follow it (R183, R187, R200). -/
def State.showStatus (n : Nat) (s : State) : State := s.emit (.shiftedOut (s.linkStatus :: fillBytes n))

/-- A request row: a SEND exchange with the whole, well-formed frame of the request (log 30). It is dropped when the
link is not ready to take it (R184). -/
def State.serve (seq : Byte) (r : Request) (h : Handler) (s : State) : State :=
  let s' := s.showStatus (requestFrame seq r).length
  if s.readyToTake then s'.dispatch seq (requestTag r).bytes (requestFrame seq r) h else s'.dropFrame

/-- The bytes of the frame proper: those beyond its check value are ignored (R184). -/
def frameProper (bytes : List Byte) : List Byte := bytes.take (10 + numberAt bytes 6 2)

/-- A whole frame is checked in the order of R185, and dispatched when it passes. -/
def State.checkFrame (bytes : List Byte) (s : State) : State :=
  let seq := frameSeq bytes
  if 1024 < numberAt bytes 6 2 then s.reject seq rejtTag .badLength
  else if !frameCheckOk bytes then s.reject seq rejtTag .badFrame
  else
    match tagOf (frameTag bytes) with
    | none => s.reject seq (frameTag bytes) .unknownTag
    | some tag =>
      match readRequest tag (framePayload bytes) with
      | none => s.reject seq tag.bytes .badLength
      | some r => s.dispatch seq tag.bytes (frameProper bytes) (handle r)

/-- A SEND exchange with the bytes that the host shifted in after its first byte, up to the release of select (R184). -/
def State.takeFrame (bytes : List Byte) (s : State) : State :=
  let s' := s.showStatus bytes.length
  if !s.readyToTake then s'.dropFrame
  else if !frameWhole bytes then s'.incompleteFrame
  else s'.checkFrame bytes

/-- Bytes of a reply that a host clocks out: the reply from its first byte, and fill bytes beyond its end (log 29). -/
def replyBytes (clocked : Nat) (reply : List Byte) : List Byte :=
  reply.take clocked ++ fillBytes (clocked - reply.length)

/-- A COLLECT exchange in which the host clocks out a number of bytes after the link status (R187). -/
def State.collect (clocked : Nat) (s : State) : State :=
  if s.link.state = .replying then
    let s' := s.emit (.shiftedOut (s.linkStatus :: replyBytes clocked s.link.reply))
    if s.link.reply.length ≤ clocked then { s' with link := { s'.link with state := .ready, reply := [] } } else s'
  else s.showStatus clocked

/-- An exchange as the host shifts it in, its first byte included: the first byte selects SEND, COLLECT or an exchange
with no further effect; with no byte at all nothing is shifted (R183, R200). -/
def State.exchange (bytes : List Byte) (s : State) : State :=
  match bytes with
  | [] => s
  | first :: rest =>
    if first = sendByte then s.takeFrame rest
    else if first = collectByte then s.collect rest.length
    else s.showStatus rest.length

/-! ### Exchanges whose frame is not dispatched, or may not be (R183 to R185; log 30) -/

/-- INCOMPLETE_FRAME. -/
def execIncompleteFrame (bytes : List Byte) (s : State) : Host.Outcome State Fault Refusal :=
  .next (s.begin.exchange bytes)

/-- DROPPED_FRAME. -/
def execDroppedFrame (bytes : List Byte) (s : State) : Host.Outcome State Fault Refusal :=
  .next (s.begin.exchange bytes)

/-- REJECT_REPLY. -/
def execRejectReply (bytes : List Byte) (s : State) : Host.Outcome State Fault Refusal :=
  .next (s.begin.exchange bytes)

/-- UNKNOWN_TAG. -/
def execUnknownTag (bytes : List Byte) (s : State) : Host.Outcome State Fault Refusal :=
  .next (s.begin.exchange bytes)

/-- COLLECT (R187). -/
def execCollect (clocked : Nat) (s : State) : Host.Outcome State Fault Refusal :=
  .next (s.begin.collect clocked)

/-! ### Requests -/

/-- Conf (R123). -/
def execConf (seq : Byte) (s : State) : Host.Outcome State Fault Refusal :=
  .next (s.begin.serve seq .conf handleConf)

/-- Runm (R126). -/
def execRunm (seq : Byte) (s : State) : Host.Outcome State Fault Refusal :=
  .next (s.begin.serve seq .runm handleRunm)

/-- TimeAbsolute (R188). -/
def execTimeAbsolute (seq : Byte) (time : Nat) (s : State) : Host.Outcome State Fault Refusal :=
  .next (s.begin.serve seq (.timeAbsolute time) (handleTimeAbsolute time))

/-- TimeStep (R188). -/
def execTimeStep (seq : Byte) (step : Nat) (s : State) : Host.Outcome State Fault Refusal :=
  .next (s.begin.serve seq (.timeStep step) (handleTimeStep step))

/-- Save (R195). -/
def execSave (seq : Byte) (s : State) : Host.Outcome State Fault Refusal :=
  .next (s.begin.serve seq .save handleSave)

/-- Fmat (R148). -/
def execFmat (seq : Byte) (s : State) : Host.Outcome State Fault Refusal :=
  .next (s.begin.serve seq .fmat handleFmat)

/-- Rsta (R196). -/
def execRsta (seq : Byte) (s : State) : Host.Outcome State Fault Refusal :=
  .next (s.begin.serve seq .rsta handleRsta)

/-- Lrst (R197). -/
def execLrst (seq : Byte) (lane : Nat) (s : State) : Host.Outcome State Fault Refusal :=
  .next (s.begin.serve seq (.lrst lane) (handleLrst lane))

/-- Lane (R189). -/
def execLane (seq : Byte) (f : LaneFields) (s : State) : Host.Outcome State Fault Refusal :=
  .next (s.begin.serve seq (.lane f) (handleLane f))

/-- FiltEntry (R63). -/
def execFiltEntry (seq : Byte) (f : FilterEntryFields) (s : State) : Host.Outcome State Fault Refusal :=
  .next (s.begin.serve seq (.filtEntry f) (handleFiltEntry f))

/-- FiltPassAll (R63). -/
def execFiltPassAll (seq : Byte) (lane flag : Nat) (s : State) : Host.Outcome State Fault Refusal :=
  .next (s.begin.serve seq (.filtPassAll lane flag) (handleFiltPassAll lane flag))

/-- Rule (R102). -/
def execRule (seq : Byte) (f : RuleFields) (s : State) : Host.Outcome State Fault Refusal :=
  .next (s.begin.serve seq (.rule f) (handleRule f))

/-- Rmap (R103). -/
def execRmap (seq : Byte) (lane kind set : Nat) (s : State) : Host.Outcome State Fault Refusal :=
  .next (s.begin.serve seq (.rmap lane kind set) (handleRmap lane kind set))

/-- XmapDistributed (R156). -/
def execXmapDistributed (seq : Byte) (lo hi : Nat) (s : State) : Host.Outcome State Fault Refusal :=
  .next (s.begin.serve seq (.xmapDistributed lo hi) (handleXmapDistributed lo hi))

/-- XmapDirected (R156). -/
def execXmapDirected (seq : Byte) (number : Nat) (range : Option DirectedFields) (s : State) :
    Host.Outcome State Fault Refusal :=
  .next (s.begin.serve seq (.xmapDirected number range) (handleXmapDirected number range))

/-- XmapPooling (R156). -/
def execXmapPooling (seq : Byte) (lane target : Nat) (s : State) : Host.Outcome State Fault Refusal :=
  .next (s.begin.serve seq (.xmapPooling lane target) (handleXmapPooling lane target))

/-- Dsev (R105, R164). -/
def execDsev (seq : Byte) (f : SeverityFields) (s : State) : Host.Outcome State Fault Refusal :=
  .next (s.begin.serve seq (.dsev f) (handleDsev f))

/-- Alrm (R125, R129). -/
def execAlrm (seq : Byte) (protocol timeout : Nat) (s : State) : Host.Outcome State Fault Refusal :=
  .next (s.begin.serve seq (.alrm protocol timeout) (handleAlrm protocol timeout))

/-- Setr (R189). -/
def execSetr (seq : Byte) (group index : Nat) (s : State) : Host.Outcome State Fault Refusal :=
  .next (s.begin.serve seq (.setr group index) (handleSetr group index))

/-- Stat (R190). -/
def execStat (seq : Byte) (target : Nat) (s : State) : Host.Outcome State Fault Refusal :=
  .next (s.begin.serve seq (.stat target) (handleStat target))

/-- Metr (R40, R54, R86). -/
def execMetr (seq : Byte) (lane : Nat) (s : State) : Host.Outcome State Fault Refusal :=
  .next (s.begin.serve seq (.metr lane) (handleMetr lane))

/-- Verd (R99). -/
def execVerd (seq : Byte) (start : Nat) (s : State) : Host.Outcome State Fault Refusal :=
  .next (s.begin.serve seq (.verd start) (handleVerd start))

/-- Find (R118). -/
def execFind (seq : Byte) (start : Nat) (s : State) : Host.Outcome State Fault Refusal :=
  .next (s.begin.serve seq (.find start) (handleFind start))

/-- Note (R194). -/
def execNote (seq : Byte) (s : State) : Host.Outcome State Fault Refusal :=
  .next (s.begin.serve seq .note handleNote)

/-- Capt (R65). -/
def execCapt (seq : Byte) (lane : Nat) (s : State) : Host.Outcome State Fault Refusal :=
  .next (s.begin.serve seq (.capt lane) (handleCapt lane))

/-- ExtnByNumber (R191). -/
def execExtnByNumber (seq : Byte) (number : Nat) (s : State) : Host.Outcome State Fault Refusal :=
  .next (s.begin.serve seq (.extnByNumber number) (handleExtnByNumber number))

/-- ExtnByLaneTime (R191). -/
def execExtnByLaneTime (seq : Byte) (lane time : Nat) (s : State) : Host.Outcome State Fault Refusal :=
  .next (s.begin.serve seq (.extnByLaneTime lane time) (handleExtnByLaneTime lane time))

/-- Hlst (R167). -/
def execHlst (seq : Byte) (start : Nat) (s : State) : Host.Outcome State Fault Refusal :=
  .next (s.begin.serve seq (.hlst start) (handleHlst start))

/-- AckfSingle (R119). -/
def execAckfSingle (seq : Byte) (id : Nat) (s : State) : Host.Outcome State Fault Refusal :=
  .next (s.begin.serve seq (.ackfSingle id) (handleAckfSingle id))

/-- AckfAllUpTo (R119). -/
def execAckfAllUpTo (seq : Byte) (id : Nat) (s : State) : Host.Outcome State Fault Refusal :=
  .next (s.begin.serve seq (.ackfAllUpTo id) (handleAckfAllUpTo id))

/-- Hold (R168). -/
def execHold (seq : Byte) (lane start : Nat) (stop : Option Nat) (s : State) : Host.Outcome State Fault Refusal :=
  .next (s.begin.serve seq (.hold lane start stop) (handleHold lane start stop))

/-- Hrel (R171). -/
def execHrel (seq : Byte) (id : Nat) (s : State) : Host.Outcome State Fault Refusal :=
  .next (s.begin.serve seq (.hrel id) (handleHrel id))

/-- Rcal (R175). -/
def execRcal (seq : Byte) (lane t1 t0 slot : Nat) (s : State) : Host.Outcome State Fault Refusal :=
  .next (s.begin.serve seq (.rcal lane t1 t0 slot) (handleRcal lane t1 t0 slot))

/-- Rstp (R182). -/
def execRstp (seq : Byte) (slot : Nat) (s : State) : Host.Outcome State Fault Refusal :=
  .next (s.begin.serve seq (.rstp slot) (handleRstp slot))

end Sys2Proof.Machine
end

