-- ==== Sys2Proof/Machine/Events.lean ====
section
/-! DEFINITION. One meaning for each event of the table: cells, timers, the export link, the store and the resets. A timer
that has not expired and a completion that answers nothing in flight have no effect (log 3). -/

namespace Sys2Proof.Machine

/-- The job in flight. -/
def State.flightJob (s : State) : Option StoreJob := s.store.inFlight.map InFlight.job

/-- The operation in flight. -/
def State.flightOp (s : State) : Option StoreOp := s.store.inFlight.map (fun f => f.job.op)

/-! ### Cells -/

/-- INBOUND_CELL (R1, R2, R20): while a warm reset flushes, a cell is discarded and counted nowhere. -/
def execInboundCell (lane : LaneNo) (bytes : List Byte) (s : State) : Host.Outcome State Fault Refusal :=
  .next (if s.warm.isSome then s.begin else s.begin.inboundCell lane bytes)

/-- EXPORT_HOLD_CELL (R17). -/
def execExportHoldCell (bytes : List Byte) (s : State) : Host.Outcome State Fault Refusal :=
  .next (s.begin.exportHoldCell bytes).startExport

/-- EXPORT_HOLD_EXPIRY (R17). -/
def execExportHoldExpiry (s : State) : Host.Outcome State Fault Refusal :=
  .next (if timerDue s.exportLink.hold s.clock then s.begin.exportHoldOff.startExport else s.begin)

/-- EXPORT_CELL_SENT (R179). -/
def execExportCellSent (s : State) : Host.Outcome State Fault Refusal :=
  match s.exportLink.sending with
  | some c => .next ((s.begin.cellSent c).allocate).startExport
  | none => .next s.begin

/-! ### Timers -/

/-- GAP_TIMER_EXPIRY (R8, R14). -/
def execGapTimerExpiry (lane : LaneNo) (s : State) : Host.Outcome State Fault Refusal :=
  .next (if timerDue s.liu[lane].gapTimer s.clock then (s.begin.gapExpired lane).allocate else s.begin)

/-- The window lasts 10,000 ms (R9). -/
def RateWindow.complete (w : RateWindow) (clock : Nat) : Bool := decide (w.start + 10000 ≤ clock)

/-- RATE_WINDOW_COMPLETION (R9, R10). -/
def execRateWindowCompletion (lane : LaneNo) (s : State) : Host.Outcome State Fault Refusal :=
  match s.liu[lane].window with
  | some w => .next (if w.complete s.clock then (s.begin.windowCompleted lane w.count).allocate else s.begin)
  | none => .next s.begin

/-- HOLD_OFF_RESEND (R16). -/
def execHoldOffResend (lane : LaneNo) (s : State) : Host.Outcome State Fault Refusal :=
  .next (if timerDue s.liu[lane].resend s.clock && s.liu[lane].holdOff then s.begin.resendHold lane else s.begin)

/-- KEEPALIVE_EXPIRY (R67). -/
def execKeepaliveExpiry (lane : LaneNo) (s : State) : Host.Outcome State Fault Refusal :=
  .next (if timerDue s.cc[lane].keepalive s.clock then s.begin.keepaliveExpired lane else s.begin)

/-- LANE_GRACE_EXPIRY (R114). -/
def execLaneGraceExpiry (lane : LaneNo) (which : LaneCondition) (s : State) : Host.Outcome State Fault Refusal :=
  .next (if timerDue (s.cm[lane].cond which).grace s.clock then (s.begin.graceExpired lane which).allocate
    else s.begin)

/-- The config timer has expired. -/
def ConfigTimer.due (t : ConfigTimer) (clock : Nat) : Bool := match t with
  | .running expiry => decide (expiry ≤ clock)
  | .stopped => false
  | .paused _ => false

/-- CONFIG_TIMER_EXPIRY (R127). -/
def execConfigTimerExpiry (s : State) : Host.Outcome State Fault Refusal :=
  .next (if s.alarm.configTimer.due s.clock then s.begin.configExpired else s.begin)

/-- The pair phase and the lines swap, and the timer starts again (R131). -/
def Alarm.swapped (clock : Nat) (a : Alarm) : Alarm :=
  { (a.show (pairLines a.phase.other)) with
    phase := a.phase.other, swap := some (clock + swapPeriod a.overall) }

/-- SWAP_TIMER_EXPIRY (R131). -/
def execSwapTimerExpiry (s : State) : Host.Outcome State Fault Refusal :=
  .next (if timerDue s.alarm.swap s.clock then { s.begin with alarm := s.alarm.swapped s.clock } else s.begin)

/-- RETRY_TIMER_EXPIRY (R159): the timer starts again, and every WANTED lane makes an attempt. -/
def execRetryTimerExpiry (s : State) : Host.Outcome State Fault Refusal :=
  .next (if timerDue s.retry s.clock then
      State.allocate { s.begin with retry := some (s.clock + 1000), attemptDue := true }
    else s.begin)

/-! ### The store -/

/-- STORE_ISSUE (R134, R135, R136). -/
def execStoreIssue (s : State) : Host.Outcome State Fault Refusal := .next s.begin.issueNext

/-- An operation times out 500 ms after its issue (R134). -/
def InFlight.overdue (f : InFlight) (clock : Nat) : Bool := decide (f.issued + 500 ≤ clock)

/-- STORE_TIMEOUT (R136). -/
def execStoreTimeout (s : State) : Host.Outcome State Fault Refusal :=
  match s.store.inFlight with
  | some f => .next (if f.overdue s.clock then (s.begin.timedOut f).allocate else s.begin)
  | none => .next s.begin

/-- IDENTIFY_RETRY (R136). -/
def execIdentifyRetry (s : State) : Host.Outcome State Fault Refusal :=
  .next (if !s.store.up && timerDue s.store.nextIdentify s.clock then s.begin.retryIdentify else s.begin)

/-- IDENTIFY_COMPLETION (R134, R136, R146). -/
def execIdentifyCompletion (result : IdentifyResult) (s : State) : Host.Outcome State Fault Refusal :=
  match s.flightOp with
  | some .identify => .next (s.begin.landed.identifyCompleted result).allocate
  | _ => .next s.begin

/-- LANE_PROGRAM_COMPLETION (R138, R140 to R142, R148). -/
def execLaneProgramCompletion (ok : Bool) (s : State) : Host.Outcome State Fault Refusal :=
  match s.flightJob with
  | some ⟨.laneProgram l what ext page, discard⟩ =>
    .next (if discard then s.begin.landed else (s.begin.landed.laneProgrammed l what ext page ok).allocate)
  | _ => .next s.begin

/-- SYSTEM_PROGRAM_COMPLETION (R145, R195). -/
def execSystemProgramCompletion (ok : Bool) (s : State) : Host.Outcome State Fault Refusal :=
  match s.flightOp with
  | some (.sysProgram _ w) => .next (s.begin.landed.systemProgrammed w ok)
  | _ => .next s.begin

/-- SYSTEM_ERASE_COMPLETION (R145). -/
def execSystemEraseCompletion (ok : Bool) (s : State) : Host.Outcome State Fault Refusal :=
  match s.flightOp with
  | some .sysErase => .next (if ok then s.begin.landed.systemErased else s.begin.landed.systemEraseFailed)
  | _ => .next s.begin

/-- LANE_ERASE_COMPLETION (R140, R143, R162). -/
def execLaneEraseCompletion (ok : Bool) (s : State) : Host.Outcome State Fault Refusal :=
  match s.flightJob with
  | some ⟨.laneErase l ext, discard⟩ =>
    .next (if discard then s.begin.landed else (s.begin.landed.laneErased l ext ok).allocate)
  | _ => .next s.begin

/-- FORMAT_ERASE_COMPLETION (R149). -/
def execFormatEraseCompletion (ok : Bool) (s : State) : Host.Outcome State Fault Refusal :=
  match s.flightOp with
  | some (.formatErase ext) => .next (s.begin.landed.formatErased ext ok).allocate
  | _ => .next s.begin

/-- SCAN_READ_COMPLETION (R146, R147). -/
def execScanReadCompletion (result : ReadResult) (s : State) : Host.Outcome State Fault Refusal :=
  match s.flightOp with
  | some (.scanRead _ _) => .next (s.begin.landed.scanRead result).allocate
  | _ => .next s.begin

/-- RECALL_READ_COMPLETION (R177, R182). -/
def execRecallReadCompletion (result : ReadResult) (s : State) : Host.Outcome State Fault Refusal :=
  match s.flightJob with
  | some ⟨.recallRead k ext page, discard⟩ =>
    .next (if discard then s.begin.landed
      else ((s.begin.landed.recallRead k ext page result).allocate).startExport)
  | _ => .next s.begin

/-! ### Resets -/

/-- COLD_RESET (00 §4.7, R19, R41, R76, R100, R122, R132, R133, R136, R152, R166, R167). -/
def execColdReset (s : State) : Host.Outcome State Fault Refusal := .next s.coldReset

/-- WARM_RESET_COMPLETE (R151, R196): the flush has ended or has been cut short. -/
def execWarmResetComplete (s : State) : Host.Outcome State Fault Refusal :=
  match s.warm with
  | some w => .next (if s.warmReady then s.begin.completeWarm w else s.begin)
  | none => .next s.begin

end Sys2Proof.Machine
end

