-- ==== Sys2Proof/Machine/Clock.lean ====
section
/-! DEFINITION. What the part does while no command waits: the reference clock counts one millisecond, and the events that
are then due are queued in a free order (log 1, 2, 4, 6). -/

namespace Sys2Proof.Machine

/-- A command, if it is due. -/
def whenDue (b : Bool) (c : Instr) : List Instr := if b then [c] else []

/-- A rate window that has lasted its 10,000 ms. -/
def windowDue (w : Option RateWindow) (clock : Nat) : Bool := match w with
  | some w => w.complete clock
  | none => false

/-- The events of one lane that are due. -/
def State.laneDue (s : State) (l : LaneNo) : List Instr :=
  whenDue (timerDue s.liu[l].gapTimer s.clock) (.gapTimerExpiry l)
    ++ whenDue (windowDue s.liu[l].window s.clock) (.rateWindowCompletion l)
    ++ whenDue (timerDue s.liu[l].resend s.clock) (.holdOffResend l)
    ++ whenDue (timerDue s.cc[l].keepalive s.clock) (.keepaliveExpiry l)
    ++ whenDue (timerDue s.cm[l].lost.grace s.clock) (.laneGraceExpiry l .lost)
    ++ whenDue (timerDue s.cm[l].drift.grace s.clock) (.laneGraceExpiry l .drift)

/-- An operation waits that the Store Port may issue (R134, R136). -/
def State.issueDue (s : State) : Bool := s.mayIssue && (s.store.interrupted.isSome || s.nextOp.isSome)

/-- The operation in flight has been there for 500 ms. -/
def State.storeOverdue (s : State) : Bool := match s.store.inFlight with
  | some f => f.overdue s.clock
  | none => false

/-- The events of the whole part that are due. -/
def State.partDue (s : State) : List Instr :=
  whenDue (timerDue s.exportLink.hold s.clock) .exportHoldExpiry
    ++ whenDue (s.alarm.configTimer.due s.clock) .configTimerExpiry
    ++ whenDue (timerDue s.alarm.swap s.clock) .swapTimerExpiry
    ++ whenDue (timerDue s.retry s.clock) .retryTimerExpiry
    ++ whenDue s.storeOverdue .storeTimeout
    ++ whenDue (!s.store.up && timerDue s.store.nextIdentify s.clock) .identifyRetry
    ++ whenDue s.issueDue .storeIssue
    ++ whenDue s.warmReady .warmResetComplete

/-- Every event that is due. -/
def State.due (s : State) : List Instr := allLanes.flatMap s.laneDue ++ s.partDue

/-- Station time one millisecond on, up to its largest value (R188; log 2). -/
def stationAfter (t : Time) : Time := t.map (fun n => min (n + 1) maxStation)

/-- One millisecond passes. -/
def State.tick (s : State) : State :=
  let s := { s with emitted := [], clock := s.clock + 1, station := stationAfter s.station }
  let (events, t) := s.draw s.due
  { t with pending := events }

end Sys2Proof.Machine
end

