-- ==== Sys2Proof/Machine/Dispatch.lean ====
section
/-! DEFINITION. One arm for each command of the table: each is one direct call of its meaning. -/

namespace Sys2Proof.Machine

def exec (i : Instr) (s : State) : Host.Outcome State Fault Refusal :=
  match i with
  | .inboundCell lane bytes => Sys2Proof.Machine.execInboundCell lane bytes s
  | .exportHoldCell bytes => Sys2Proof.Machine.execExportHoldCell bytes s
  | .exportHoldExpiry => Sys2Proof.Machine.execExportHoldExpiry s
  | .exportCellSent => Sys2Proof.Machine.execExportCellSent s
  | .gapTimerExpiry lane => Sys2Proof.Machine.execGapTimerExpiry lane s
  | .rateWindowCompletion lane => Sys2Proof.Machine.execRateWindowCompletion lane s
  | .holdOffResend lane => Sys2Proof.Machine.execHoldOffResend lane s
  | .keepaliveExpiry lane => Sys2Proof.Machine.execKeepaliveExpiry lane s
  | .laneGraceExpiry lane which => Sys2Proof.Machine.execLaneGraceExpiry lane which s
  | .configTimerExpiry => Sys2Proof.Machine.execConfigTimerExpiry s
  | .swapTimerExpiry => Sys2Proof.Machine.execSwapTimerExpiry s
  | .retryTimerExpiry => Sys2Proof.Machine.execRetryTimerExpiry s
  | .storeIssue => Sys2Proof.Machine.execStoreIssue s
  | .storeTimeout => Sys2Proof.Machine.execStoreTimeout s
  | .identifyRetry => Sys2Proof.Machine.execIdentifyRetry s
  | .identifyCompletion result => Sys2Proof.Machine.execIdentifyCompletion result s
  | .laneProgramCompletion ok => Sys2Proof.Machine.execLaneProgramCompletion ok s
  | .systemProgramCompletion ok => Sys2Proof.Machine.execSystemProgramCompletion ok s
  | .systemEraseCompletion ok => Sys2Proof.Machine.execSystemEraseCompletion ok s
  | .laneEraseCompletion ok => Sys2Proof.Machine.execLaneEraseCompletion ok s
  | .formatEraseCompletion ok => Sys2Proof.Machine.execFormatEraseCompletion ok s
  | .scanReadCompletion result => Sys2Proof.Machine.execScanReadCompletion result s
  | .recallReadCompletion result => Sys2Proof.Machine.execRecallReadCompletion result s
  | .coldReset => Sys2Proof.Machine.execColdReset s
  | .warmResetComplete => Sys2Proof.Machine.execWarmResetComplete s
  | .incompleteFrame bytes => Sys2Proof.Machine.execIncompleteFrame bytes s
  | .droppedFrame bytes => Sys2Proof.Machine.execDroppedFrame bytes s
  | .rejectReply bytes => Sys2Proof.Machine.execRejectReply bytes s
  | .unknownTag bytes => Sys2Proof.Machine.execUnknownTag bytes s
  | .collect clocked => Sys2Proof.Machine.execCollect clocked s
  | .conf seq => Sys2Proof.Machine.execConf seq s
  | .runm seq => Sys2Proof.Machine.execRunm seq s
  | .timeAbsolute seq time => Sys2Proof.Machine.execTimeAbsolute seq time s
  | .timeStep seq step => Sys2Proof.Machine.execTimeStep seq step s
  | .save seq => Sys2Proof.Machine.execSave seq s
  | .fmat seq => Sys2Proof.Machine.execFmat seq s
  | .rsta seq => Sys2Proof.Machine.execRsta seq s
  | .lrst seq lane => Sys2Proof.Machine.execLrst seq lane s
  | .lane seq f => Sys2Proof.Machine.execLane seq f s
  | .filtEntry seq f => Sys2Proof.Machine.execFiltEntry seq f s
  | .filtPassAll seq lane flag => Sys2Proof.Machine.execFiltPassAll seq lane flag s
  | .rule seq f => Sys2Proof.Machine.execRule seq f s
  | .rmap seq lane kind set => Sys2Proof.Machine.execRmap seq lane kind set s
  | .xmapDistributed seq lo hi => Sys2Proof.Machine.execXmapDistributed seq lo hi s
  | .xmapDirected seq number range => Sys2Proof.Machine.execXmapDirected seq number range s
  | .xmapPooling seq lane target => Sys2Proof.Machine.execXmapPooling seq lane target s
  | .dsev seq f => Sys2Proof.Machine.execDsev seq f s
  | .alrm seq protocol timeout => Sys2Proof.Machine.execAlrm seq protocol timeout s
  | .setr seq group index => Sys2Proof.Machine.execSetr seq group index s
  | .stat seq target => Sys2Proof.Machine.execStat seq target s
  | .metr seq lane => Sys2Proof.Machine.execMetr seq lane s
  | .verd seq start => Sys2Proof.Machine.execVerd seq start s
  | .find seq start => Sys2Proof.Machine.execFind seq start s
  | .note seq => Sys2Proof.Machine.execNote seq s
  | .capt seq lane => Sys2Proof.Machine.execCapt seq lane s
  | .extnByNumber seq number => Sys2Proof.Machine.execExtnByNumber seq number s
  | .extnByLaneTime seq lane time => Sys2Proof.Machine.execExtnByLaneTime seq lane time s
  | .hlst seq start => Sys2Proof.Machine.execHlst seq start s
  | .ackfSingle seq id => Sys2Proof.Machine.execAckfSingle seq id s
  | .ackfAllUpTo seq id => Sys2Proof.Machine.execAckfAllUpTo seq id s
  | .hold seq lane start stop => Sys2Proof.Machine.execHold seq lane start stop s
  | .hrel seq id => Sys2Proof.Machine.execHrel seq id s
  | .rcal seq lane t1 t0 slot => Sys2Proof.Machine.execRcal seq lane t1 t0 slot s
  | .rstp seq slot => Sys2Proof.Machine.execRstp seq slot s

end Sys2Proof.Machine
end

