-- ==== Sys2Proof/Safety.lean ====
section
/-! DEFINITION. What counts as a safe step, the invariants of the part, and the few words that the statements share: the
state after a request's exchange, what an event leaves alone, and the bounds of the rules as real numbers. -/

namespace Sys2Proof.Machine

/-- The outcome is a next state. -/
def Safe (o : Host.Outcome State Fault Refusal) : Prop := ∃ t, o = .next t

/-! ### Exchanges -/

/-- A request's exchange: the link status and a fill byte against each byte of the frame were shifted out, and the reply
waits in the reply buffer (R183, R186, R200). -/
def State.answered (seq : Byte) (r : Request) (x : Reply) (s : State) : State :=
  { s with
    emitted := [.shiftedOut (s.linkStatus :: fillBytes (requestFrame seq r).length)]
    link := { s.link with state := .replying, request := [], reply := x.frame seq (requestTag r).bytes } }

/-- The reply to a request waits in the reply buffer, and the request buffer is empty (R184, R186). -/
def State.replyWaits (seq : Byte) (r : Request) (x : Reply) (t : State) : Prop :=
  t.link.state = .replying ∧ t.link.request = [] ∧ t.link.reply = x.frame seq (requestTag r).bytes

/-- The requests that Table 7-3 takes in CONFIG only, TIME apart (R124). -/
def configOnly : Request → Bool
  | .runm => true
  | .save => true
  | .fmat => true
  | .lane _ => true
  | .filtEntry _ => true
  | .filtPassAll _ _ => true
  | .rule _ => true
  | .rmap _ _ _ => true
  | .xmapDistributed _ _ => true
  | .xmapDirected _ _ => true
  | .xmapPooling _ _ => true
  | .dsev _ => true
  | .alrm _ _ => true
  | _ => false

/-! ### Invariants -/

/-- Between commands no attempt is owed and no lane that holds records is without an allocation state (log 31). -/
def State.settled (s : State) : Prop := s.attemptDue = false ∧ ∀ l : LaneNo, s.needsExtent l = false

/-- The sizes the manual gives: verdict log 128 (R99), finding log 256 with ids that increase strictly and lie below the
next id (R106, R117), hold table 64 (R167), mark queues 4 (R81), tile histories 30 (R32), and at most one FILLING page
buffer in a lane (R138). Mark queues stand in order of effective tile (R81), the scan waits until an extent count is held
(R146), station time is unset until the scan has ended (R188), and the cell being sent on the export link is the most
recent one (R179). But while a warm reset flushes, a lane's accumulator is that of its open tile, and its loss tile is the
newest of its history (R14, R27, R32). -/
structure State.bounded (s : State) : Prop where
  verdicts : s.verdicts.log.length ≤ 128
  findings : s.dev.log.length ≤ 256
  increasing : s.dev.log.Pairwise (fun f g => f.id < g.id)
  issued : ∀ f ∈ s.dev.log, 0 < f.id ∧ (s.dev.nextId = 0 ∨ f.id < s.dev.nextId)
  holds : s.holds.table.length ≤ 64
  marks : ∀ l : LaneNo, s.st[l].queue.length ≤ 4
  history : ∀ l : LaneNo, s.le[l].history.length ≤ 30
  filling : ∀ (l : LaneNo) (i j : Fin 4),
    s.ac[l].buffers[i].state = .filling → s.ac[l].buffers[j].state = .filling → i = j
  ordered : ∀ l : LaneNo, s.st[l].queue.Pairwise (fun x y => x.effTile < y.effTile)
  awaited : s.store.count = none → s.scan = .awaiting
  untimed : s.scan ≠ .done → s.station = none
  tiles : s.warm = none → ∀ l : LaneNo, s.le[l].acc.map TileAcc.tile = s.liu[l].openTile ∧
    ∀ o : Nat, s.liu[l].lossTile = some o → s.le[l].history.getLast?.map TileEntry.tile = some o
  turn : ∀ c : Sending, s.exportLink.sending = some c → s.exportLink.lastSlot = some c.slot

/-- The monitor statuses are those that the finding log gives, and the overall status is theirs (R120, R130). -/
structure State.statusesFollow (s : State) : Prop where
  lanes : ∀ l : LaneNo, s.cm[l].status = statusOf s.dev.log (some l)
  device : s.dev.status = statusOf s.dev.log none
  overall : s.alarm.overall = s.overallOf

/-- The findings that the condition states of a watched segment keep (R108). -/
def Watched.kept (w : Watched) : List Finding :=
  w.deadAir.finding.toList ++ w.captionGap.finding.toList ++ w.stCeiling.finding.toList

/-- The findings that the Compliance Monitor keeps for a lane's conditions (R108, R114, R115). -/
def CmLane.kept (c : CmLane) : List Finding :=
  c.watched.toList.flatMap Watched.kept ++ c.lost.finding.toList ++ c.drift.finding.toList
    ++ c.stalledFinding.toList ++ c.shortFinding.toList

/-- Every finding kept for a lane's conditions names that lane, and the one kept for STORE_LOST names DEVICE (Tables 6-3
and 6-4). -/
structure State.findingsOwned (s : State) : Prop where
  lanes : ∀ l : LaneNo, ∀ f ∈ s.cm[l].kept, f.lane = some l
  device : ∀ f ∈ s.dev.storeLost.toList, f.lane = none

/-! ### Frames -/

/-- What an event of the archive's side leaves alone: the metering, captions, segments and verdicts of every lane, the
settings, station time, mode and config timer, the recall slots, the control link and the waiting commands. -/
structure State.leavesOthers (s t : State) : Prop where
  pending : t.pending = s.pending
  clock : t.clock = s.clock
  station : t.station = s.station
  le : t.le = s.le
  cc : t.cc = s.cc
  st : t.st = s.st
  verdicts : t.verdicts = s.verdicts
  settings : t.settings = s.settings
  mode : t.alarm.mode = s.alarm.mode
  configTimer : t.alarm.configTimer = s.alarm.configTimer
  inForce : t.alarm.inForce = s.alarm.inForce
  slots : t.slots = s.slots
  exportLink : t.exportLink = s.exportLink
  warm : t.warm = s.warm
  link : t.link = s.link
  saveInFlight : t.saveInFlight = s.saveInFlight

/-- The carriage, timers and counts of a Lane Intake Unit, without what hold-off drives (R7 to R15). -/
structure Liu.sameCarriage (x y : Liu) : Prop where
  carriage : y.carriage = x.carriage
  run : y.run = x.run
  gapTimer : y.gapTimer = x.gapTimer
  window : y.window = x.window
  lastCount : y.lastCount = x.lastCount
  openTile : y.openTile = x.openTile
  lossTile : y.lossTile = x.lossTile

/-! ### Findings and holds -/

/-- The log holds a finding that was open as settled at a time: PENDING became WITHDRAWN, ACTIVE became ENDED (R112,
R113). -/
def Finding.settledIn (f : Finding) (time : Time) (t : State) : Prop :=
  ∀ x ∈ t.dev.log, f.id ≠ 0 → x.id = f.id →
    (f.state = .pending → x.state = .withdrawn ∧ x.ended = some time) ∧
    (f.state = .active → x.state = .ended ∧ x.ended = some time)

/-- A hold that a finding left open (R174). -/
def Hold.leftOpen (h : Hold) : Prop := h.stop = none ∧ ∃ id, h.origin = .finding id

/-- A hold with its open end closed by its lane's newest SEALED extent, or at its start when the lane has none (R174). -/
def Hold.closesTo (extents : List Extent) (h g : Hold) : Prop :=
  g.id = h.id ∧ g.lane = h.lane ∧ g.start = h.start ∧ g.origin = h.origin ∧
  ((∀ x ∈ extents, ¬ (x.state = .sealed ∧ x.tag = some h.lane)) → g.stop = some h.start) ∧
  (∀ x ∈ extents, ∀ first last : Nat,
    x.state = .sealed → x.tag = some h.lane → x.first = some first → x.last = some last →
    (∀ y ∈ extents, y ≠ x → y.state = .sealed → y.tag = some h.lane → ∀ f, y.first = some f → f < first) →
    g.stop = some (max h.start last))

/-! ### Powers as real numbers (R29, R30) -/

/-- The power from which a loudness of n tenths is reported: 10^((v - 0.05 + 0.691)/10) for v = n/10. -/
noncomputable def loudnessBound (n : Int) : ℝ := (10 : ℝ) ^ (((n : ℝ) / 10 - 0.05 + 0.691) / 10)

/-- The magnitude from which a peak of n tenths is reported: 2^23 * 10^((v - 0.05)/20) for v = n/10. -/
noncomputable def peakBound (n : Int) : ℝ := 2 ^ 23 * (10 : ℝ) ^ (((n : ℝ) / 10 - 0.05) / 20)

/-- A power is reported as a tenth, no clamp acting: the largest tenth whose bound it reaches (R29). -/
def reportsAs (power : ℝ) (n : Int) : Prop := loudnessBound n ≤ power ∧ power < loudnessBound (n + 1)

/-- The power of a bin, 10^((bin level + 0.691)/10) for a bin level of -70.0 + b/10 (R50). -/
noncomputable def binPower (b : Nat) : ℝ := (10 : ℝ) ^ ((-70 + (b : ℝ) / 10 + 0.691) / 10)

/-- The mean power of the blocks in some bins of a histogram (R52, R53). -/
noncomputable def meanBinPower (bins : List Nat) (taken : Finset Nat) : ℝ :=
  (∑ b ∈ taken, (bins.getD b 0 : ℝ) * binPower b) / ∑ b ∈ taken, (bins.getD b 0 : ℝ)

/-! ### What a cell and a close make of the Loudness Engine (R22 to R35) -/

/-- The sample of channel `i` of `k` in frame `n` of an AUDIO payload: 3 bytes of two's complement (R22, R199). -/
def sampleAt (payload : List Byte) (k i n : Nat) : Int :=
  let b (j : Nat) : Byte := payload.getD (3 * (k * n + i) + j) 0#8
  (b 0 ++ b 1 ++ b 2).toInt

/-- A filter section over the 480 frames of a cell (R23): its input and output at frame n stand at n + 2, behind the two
values that the section kept from before the cell. -/
def SectionState.runs (b0 b1 b2 a1 a2 : Rat) (before after : SectionState) (u y : Nat → Rat) : Prop :=
  u 0 = before.u2 ∧ u 1 = before.u1 ∧ y 0 = before.y2 ∧ y 1 = before.y1 ∧
  (∀ n < 480, y (n + 2) = b0 * u (n + 2) + b1 * u (n + 1) + b2 * u n - a1 * y (n + 1) - a2 * y n) ∧
  after = ⟨u 481, u 480, y 481, y 480⟩

/-- A channel position's raw samples, normalised, through the two sections of Table 2-2: `y` is its weighted signal, with
frame n at n + 2 (R22, R23). -/
def PositionFilter.weighs (before after : PositionFilter) (raw : Nat → Int) (y : Nat → Rat) : Prop :=
  ∃ x v u : Nat → Rat,
    (∀ n < 480, x (n + 2) = (raw n : Rat) / 8388608 ∧ u (n + 2) = v (n + 2)) ∧
    before.shelf.runs 1.53512486 (-2.69169619) 1.19839281 (-1.69065929) 0.73248077 after.shelf x v ∧
    before.lowCut.runs 1.0 (-2.0) 1.0 (-1.99004745) 0.99007225 after.lowCut u y

/-- The energy of a weighted signal over the 480 frames of a cell (R27). -/
def energyOf (y : Nat → Rat) : Rat := ∑ n ∈ Finset.range 480, y (n + 2) ^ 2

/-- A good audio cell takes a lane's engine from `e` to `e'`: a position that the last layout lacks begins at rest (R24),
each position of the layout is filtered and those not in it keep their state (R23, R25), and an open tile's accumulator
gains a good cell, the channels' energies by their weights without LFE, and the largest magnitude (R26, R27). -/
def LeLane.takesCell (y : Layout) (payload : List Byte) (e e' : LeLane) : Prop :=
  let start (fresh : Prop) [Decidable fresh] (f : PositionFilter) : PositionFilter :=
    if fresh then ⟨⟨0, 0, 0, 0⟩, ⟨0, 0, 0, 0⟩⟩ else f
  let mono := e.lastLayout = some .mono
  let stereo := e.lastLayout = some .stereo
  let channels : Nat := match y with
    | .mono => 1
    | .stereo => 2
    | .surround => 6
  let sample (i : Nat) : Nat → Int := sampleAt payload channels i
  let f := e.filters
  let g := e'.filters
  (∃ energy : Rat,
    (match y with
      | .mono => ∃ c : Nat → Rat,
        (start stereo f.c).weighs g.c (sample 0) c ∧ g = { f with c := g.c } ∧ energy = energyOf c
      | .stereo => ∃ l r : Nat → Rat,
        (start mono f.l).weighs g.l (sample 0) l ∧ (start mono f.r).weighs g.r (sample 1) r ∧
        g = { f with l := g.l, r := g.r } ∧ energy = energyOf l + energyOf r
      | .surround => ∃ l r c lfe ls rs : Nat → Rat,
        (start mono f.l).weighs g.l (sample 0) l ∧ (start mono f.r).weighs g.r (sample 1) r ∧
        (start stereo f.c).weighs g.c (sample 2) c ∧ (start (mono ∨ stereo) f.lfe).weighs g.lfe (sample 3) lfe ∧
        (start (mono ∨ stereo) f.ls).weighs g.ls (sample 4) ls ∧
        (start (mono ∨ stereo) f.rs).weighs g.rs (sample 5) rs ∧
        energy = energyOf l + energyOf r + energyOf c + 1.41 * energyOf ls + 1.41 * energyOf rs) ∧
    (e.acc = none → e'.acc = none) ∧
    (∀ a : TileAcc, e.acc = some a → ∃ peak : Nat,
      e'.acc = some ⟨a.tile, a.good + 1, a.energy + energy, peak⟩ ∧ a.peak ≤ peak ∧
      (∀ i < channels, ∀ n < 480, (sample i n).natAbs ≤ peak) ∧
      (peak = a.peak ∨ ∃ i < channels, ∃ n < 480, peak = (sample i n).natAbs))) ∧
  e'.lastLayout = some y ∧ e'.history = e.history ∧ e'.momentary = e.momentary ∧ e'.shortTerm = e.shortTerm ∧
  e'.newest = e.newest

/-- The newest 30 of a list of tile entries, as a tile history keeps them (R32). -/
def newest30 (h : List TileEntry) : List TileEntry := h.drop (h.length - 30)

/-- The momentary value at a close, the closing tile standing last in `h`: the mean power of the last four tiles when none
of them is void or missing, else the old value, stale (R33). The indices of a history are consecutive (R32). -/
def momentaryIs (h : List TileEntry) (old new : Windowed) : Prop :=
  let powers := (h.drop (h.length - 4)).map TileEntry.power
  (∀ p q u v : Rat, powers = [some p, some q, some u, some v] → new = ⟨reportedTenth ((p + q + u + v) / 4), false⟩) ∧
  (powers.length < 4 ∨ none ∈ powers → new = ⟨old.value, true⟩)

/-- The short-term value at a close: the mean power of the tiles that are not void among the last 30 when there are 20 of
them, else the old value, stale (R34). -/
def shortTermIs (h : List TileEntry) (old new : Windowed) : Prop :=
  let powers := (newest30 h).filterMap TileEntry.power
  (20 ≤ powers.length → new = ⟨reportedTenth (powers.sum / (powers.length : Nat)), false⟩) ∧
  (powers.length < 20 → new = ⟨old.value, true⟩)

/-- The momentary and short-term values along the closes of tiles with the entries `xs`, one behind the other, from a history
`h` on (R33, R34). -/
def windowsAlong : List TileEntry → List TileEntry → Windowed × Windowed → Windowed × Windowed → Prop
  | _, [], old, new => new = old
  | h, x :: xs, old, new => ∃ w : Windowed × Windowed,
    momentaryIs (h ++ [x]) old.1 w.1 ∧ shortTermIs (h ++ [x]) old.2 w.2 ∧ windowsAlong (h ++ [x]) xs w new

/-- The tiles whose entries are `xs`, at least one, have closed between two states of an engine: they stand in its history
and in its windows (R32 to R34). -/
def LeLane.closedAlong (xs : List TileEntry) (e e' : LeLane) : Prop :=
  e'.history = newest30 (e.history ++ xs) ∧
  windowsAlong e.history xs (e.momentary, e.shortTerm) (e'.momentary, e'.shortTerm)

/-- The power of a tile that closes with an accumulator: none with fewer than 5 good cells, else the energy over the sample
frames (R28). -/
def closingPower (a : TileAcc) : Option Rat := if a.good < 5 then none else some (a.energy / (480 * (a.good : Rat)))

/-- A tile record holds what its accumulator and the engine at the close measure, against a silence threshold (R28 to R30,
R33 to R35, R38). -/
structure TileRecord.measures (silence : Int) (e : LeLane) (a : TileAcc) (r : TileRecord) : Prop where
  tile : r.tile = a.tile
  good : r.good = a.good
  void : r.void = true ↔ a.good < 5
  power : r.power = closingPower a
  loudness : r.loudness = (closingPower a).map reportedTenth
  silent : r.silent = true ↔ ∃ v : Int, r.loudness = some v ∧ v < silence
  peak : r.peak = reportedPeak a.peak
  momentary : momentaryIs (e.history ++ [⟨a.tile, closingPower a⟩]) e.momentary r.momentary
  shortTerm : shortTermIs (e.history ++ [⟨a.tile, closingPower a⟩]) e.shortTerm r.shortTerm

/-- The record that a lane's tile closes with, in the state at the close: what is measured, the close time, the caption
liveness and the open segment (R28 to R38). -/
structure State.buildsRecord (l : LaneNo) (a : TileAcc) (r : TileRecord) (s : State) : Prop where
  measured : r.measures (s.laneSettings l).silence s.le[l] a
  closeTime : r.closeTime = s.station
  alive : r.alive = s.cc[l].live
  segId : r.segId = s.st[l].seg.map (fun g => g.ident.segId)

/-- The newest record of a lane is that of a void tile without cells that closed at this station time (R12, R28, R30,
R35). -/
def State.voidNewest (l : LaneNo) (tile : Nat) (s : State) : Prop :=
  ∃ r, s.le[l].newest = some r ∧ r.tile = tile ∧ r.closeTime = s.station ∧ r.good = 0 ∧ r.power = none ∧
    r.loudness = none ∧ r.silent = false ∧ r.peak = -999 ∧ r.alive = s.cc[l].live ∧
    r.momentary = s.le[l].momentary ∧ r.shortTerm = s.le[l].shortTerm

/-! ### Recalls and export cells (R176 to R179, R181, R199) -/

/-- The pages that a recall reads of an extent (R176). -/
def EndMarker.pagesToRead (m : EndMarker) (e : Extent) : Nat :=
  if e.no = m.ext ∧ e.first = some m.first then m.limit else e.pages

/-- An extent that a recall at p may take next (R176). -/
def RecallRequest.mayRead (q : RecallRequest) (m : EndMarker) (p : Nat) (e : Extent) : Prop :=
  e.tag = some q.lane ∧ (e.state = .opened ∨ e.state = .sealed) ∧ ∃ first last : Nat,
    e.first = some first ∧ e.last = some last ∧ p ≤ last ∧ first ≤ q.t1 ∧ first ≤ m.first

/-- The extent that a recall at p takes next: the first of those with the lowest first time (R176). -/
def RecallRequest.picks (q : RecallRequest) (m : EndMarker) (p : Nat) (extents : List Extent) (e : Extent) : Prop :=
  ∃ before after : List Extent, extents = before ++ e :: after ∧ q.mayRead m p e ∧
    (∀ z ∈ before, q.mayRead m p z → e.first.getD 0 < z.first.getD 0) ∧
    (∀ z ∈ after, q.mayRead m p z → e.first.getD 0 ≤ z.first.getD 0)

/-- An extent whose last page was taken ends its recall: p, now behind its last time, passes t1, or the extent is that of
the end marker (R177). -/
def RecallRequest.endsAt (q : RecallRequest) (m : EndMarker) (last : Nat) (e : Extent) : Prop :=
  q.t1 < last + 1 ∨ (e.no = m.ext ∧ e.first = some m.first)

/-- A slot whose recall has ended DONE at p, its RECALL_END queued with the counts (R181). -/
def Slot.doneAt (p : Nat) (x : Slot) : Slot :=
  { x with state := .done, position := none, endCell := some ⟨.none, x.exported, x.unreadable, p⟩ }

/-- A slot that needs its next extent at p goes from one slot to another: to page 1 of the extent it picks, to DONE when
there is none, and an extent with no page to read is finished at once (R176, R177, R181). -/
inductive Slot.TakesNext (extents : List Extent) (q : RecallRequest) (m : EndMarker) : Nat → Slot → Slot → Prop
  | reads (p : Nat) (x : Slot) (e : Extent) (picked : q.picks m p extents e) (some_ : 0 < m.pagesToRead e) :
      Slot.TakesNext extents q m p x { x with position := some (e.no, 1), after := .more }
  | ends (p : Nat) (x : Slot) (none_ : ∀ e ∈ extents, ¬ q.mayRead m p e) :
      Slot.TakesNext extents q m p x (x.doneAt p)
  | finishes (p last : Nat) (x : Slot) (e : Extent) (picked : q.picks m p extents e) (empty : m.pagesToRead e = 0)
      (lastTime : e.last = some last) (last_ : q.endsAt m last e) :
      Slot.TakesNext extents q m p x
        (Slot.doneAt (last + 1) { x with p := some (last + 1), position := none, after := .finish })
  | passes (p last : Nat) (x z : Slot) (e : Extent) (picked : q.picks m p extents e) (empty : m.pagesToRead e = 0)
      (lastTime : e.last = some last) (further : ¬ q.endsAt m last e)
      (next : Slot.TakesNext extents q m (last + 1)
        { x with p := some (last + 1), position := none, after := .choose } z) :
      Slot.TakesNext extents q m p x z

/-- What becomes of an active slot at p when a page has been taken or a cell sent: while its slot page holds a record or
another page is to be read it stays; else it ends DONE or takes its next extent (R176, R177, R181). -/
def Slot.goesOn (extents : List Extent) (q : RecallRequest) (m : EndMarker) (p : Nat) (x z : Slot) : Prop :=
  (x.page ≠ [] ∨ x.after = .more → z = x) ∧
  (x.page = [] → x.after = .finish → z = x.doneAt p) ∧
  (x.page = [] → x.after = .choose → Slot.TakesNext extents q m p x z)

/-- The bytes of the cell that a slot has ready, and whether it is its RECALL_END: the first record of its slot page, or the
RECALL_END behind the last of them (R179, R199). -/
def Slot.offersCell (k : SlotNo) (isEnd : Bool) (bytes : List Byte) (x : Slot) : Prop :=
  ∃ (q : RecallRequest) (covered : List Byte), x.request = some q ∧
    bytes = BitVec.ofNat 8 q.lane.val :: (covered ++ crcBytes covered) ∧
    ((∃ (r : Record) (rest : List Record), isEnd = false ∧ x.page = r :: rest ∧
        covered = 6#8 :: (be 2 (14 + r.content.length) ++ be 1 k.val ++ be 4 x.seq
          ++ [r.kind] ++ be 2 r.content.length ++ be 6 r.time ++ r.content)) ∨
      (∃ e : EndCell, isEnd = true ∧ x.page = [] ∧ x.endCell = some e ∧
        covered = 7#8 :: (be 2 21 ++ be 1 k.val ++ be 4 x.seq
          ++ (match e.cause with
            | .none => [1#8, 0#8]
            | .rstp => [2#8, 1#8]
            | .laneReset => [2#8, 2#8]
            | .warmReset => [2#8, 3#8])
          ++ be 4 e.exported ++ be 4 e.unreadable ++ be 6 e.p)))

/-- The export cells that began in the last command. -/
def State.exportCells (s : State) : List (List Byte) :=
  s.emitted.filterMap (fun
    | .exportCell bytes => some bytes
    | _ => none)

/-- What the end of a recall's page or cell leaves alone before the next export cell begins: no export cell so far, the other
slot, the queue and the clock, metering, captions, segments, verdicts, settings, station time, mode and the control link. -/
structure State.besidesSlot (k : SlotNo) (s u : State) : Prop where
  cells : u.exportCells = []
  slots : ∀ m : SlotNo, m ≠ k → u.slots[m] = s.slots[m]
  pending : u.pending = s.pending
  clock : u.clock = s.clock
  link : u.link = s.link
  le : u.le = s.le
  cc : u.cc = s.cc
  st : u.st = s.st
  verdicts : u.verdicts = s.verdicts
  settings : u.settings = s.settings
  station : u.station = s.station
  mode : u.alarm.mode = s.alarm.mode

end Sys2Proof.Machine
end

