-- ==== Sys2Proof/Certificates/Slice0/Obligations.lean ====
section
/-! DEFINITION. The statements for the provers: what a step is, what every step keeps, and what each command of the table
does to the state, by the rules of the manual. -/

open Sys2Proof Sys2Proof.Machine

/-! ### The step, the tick and the resets -/

/-- A step runs the command at the front of the queue on the queue's rest. -/
def Obligations.StepRunsFrontCommand : Prop :=
  ∀ (c : Instr) (rest : List Instr) (s : State),
    s.pending = c :: rest → step s = exec c { s with pending := rest }

/-- On an empty queue one millisecond passes and every event that is then due is queued once, in some order (the model's
choice: log 1, 2, 4, 6). -/
def Obligations.TickQueuesEveryDueEventOnce : Prop :=
  ∀ s : State, s.pending = [] →
    let now : State := { s with emitted := [], clock := s.clock + 1, station := stationAfter s.station }
    ∃ (events : List Instr) (n : Nat),
      events.Perm now.due ∧ step s = .next { now with pending := events, freeCount := n }

/-- The values that the manual gives for a cold reset. -/
def Obligations.ResetLeavesTheManualsValues : Prop :=
  let s := State.reset
  (∀ l : LaneNo,
    s.liu[l].carriage = .absent ∧ s.liu[l].run = 0 ∧ s.liu[l].gapTimer = none ∧ s.liu[l].window = none ∧
    s.liu[l].lastCount = none ∧ s.liu[l].openTile = none ∧ s.liu[l].lossTile = none ∧ s.liu[l].holdOff = false ∧
    s.liu[l].resend = none ∧ s.liu[l].counters = .zero ∧ s.liu[l].assembly = ⟨[], false⟩ ∧
    s.le[l].filters = .zero ∧ s.le[l].lastLayout = none ∧ s.le[l].acc = none ∧ s.le[l].history = [] ∧
    s.le[l].momentary = ⟨-999, true⟩ ∧ s.le[l].shortTerm = ⟨-999, true⟩ ∧ s.le[l].newest = none ∧
    s.cc[l] = ⟨false, none, none, none, 0, 0, 0, 0⟩ ∧
    s.st[l] = ⟨[], none, none, none, none, 0, 0, 0, 0⟩ ∧
    s.cm[l] = ⟨none, ⟨none, none⟩, ⟨none, none⟩, none, none, .normal⟩ ∧
    (∀ i : Fin 4, s.ac[l].buffers[i].state = .free) ∧ s.ac[l].gaps = .zero ∧ s.ac[l].alloc = .idle ∧
    s.ac[l].stalled = false ∧ s.ac[l].short = false) ∧
  s.station = none ∧ s.verdicts = ⟨[], 1⟩ ∧ s.dev = ⟨[], 1, none, .normal⟩ ∧
  s.alarm.mode = .run ∧ s.alarm.configTimer = .stopped ∧ s.alarm.overall = .normal ∧ s.alarm.swap = none ∧
  s.alarm.lineA = false ∧ s.alarm.lineB = false ∧ s.holds = ⟨[], 1⟩ ∧
  (∀ k : SlotNo, s.slots[k].state = .idle) ∧ s.exportLink.hold = none ∧ s.retry = none ∧ s.format = none ∧
  s.store.up = true ∧ s.flightOp = some .identify ∧ s.store.interrupted = none ∧
  s.link = ⟨.ready, [], [], 0, 0, 0⟩ ∧ s.notices.any = false ∧ s.attn = false

/-- A cold reset leaves the whole part as at reset, with the values the model chose where the manual gives none (log 13);
commands that wait from outside, and the place of the model's free choices, stay and the clock starts again at 0 (the
model's choice: log 2, 6, 38). -/
def Obligations.ColdResetLeavesTheResetState : Prop :=
  ∀ s : State, exec .coldReset s = .next { State.reset with pending := s.pending, freeCount := s.freeCount }

/-! ### What every step keeps -/

/-- Every step keeps the sizes of the logs, tables and queues, the order of finding ids and of the mark queues, at most one
FILLING page buffer in each lane, station time unset until the scan has ended, which does not begin before an extent
count is held, and the cell being sent on the export link the most recent one; and while no warm reset flushes, a lane's
accumulator that of its open tile, and its loss tile the newest of its history. -/
def Obligations.StepKeepsBounds : Prop :=
  ∀ s t : State, s.bounded → step s = .next t → t.bounded

/-- Every step keeps the monitor statuses equal to what the finding log gives, and every finding that is kept for a
condition named after its own lane, or DEVICE for STORE_LOST. -/
def Obligations.StepKeepsStatuses : Prop :=
  (∀ s t : State, s.statusesFollow → step s = .next t → t.statusesFollow) ∧
  (∀ s t : State, s.findingsOwned → step s = .next t → t.findingsOwned)

/-- Every step ends with no attempt owed and no lane in want of an extent unattended (the model's boundary: log 31). -/
def Obligations.StepKeepsSettled : Prop :=
  ∀ s t : State, s.settled → step s = .next t → t.settled

/-- The four invariants hold at reset (the third is the model's boundary: log 31). -/
def Obligations.InvariantsHoldAtReset : Prop :=
  State.reset.bounded ∧ State.reset.statusesFollow ∧ State.reset.settled ∧ State.reset.findingsOwned

/-! ### Frames of the control link -/

/-- The payload of every request that a wire can carry reads back as that request, where Section 12 leaves a code open in
the model's coding (log 57, 68). -/
def Obligations.RequestPayloadReadsBack : Prop :=
  ∀ r : Request, r.wellFormed = true →
    tagOf (requestTag r).bytes = some (requestTag r) ∧ readRequest (requestTag r) (requestBytes r) = some r

/-- The bytes of a SEND exchange with a request's frame, taken by the frame checks under any of the four frame rows, do
what the request's row does (the model's rows stand for whole exchanges: log 30). -/
def Obligations.FrameDoesWhatItsRequestDoes : Prop :=
  ∀ (i : Instr) (q : Byte) (r : Request) (s : State), i.request = some (q, r) → r.wellFormed = true →
    let bytes := 0x53#8 :: requestFrame q r
    exec (.incompleteFrame bytes) s = exec i s ∧ exec (.droppedFrame bytes) s = exec i s ∧
    exec (.rejectReply bytes) s = exec i s ∧ exec (.unknownTag bytes) s = exec i s

/-- Select released before the frame is whole: the link status and a fill byte of 0x00 against each byte of the frame went
out, the link is READY again with no reply, and the frame is counted. -/
def Obligations.IncompleteFrameIsCounted : Prop :=
  ∀ (bytes : List Byte) (s : State), s.readyToTake = true → frameWhole bytes = false →
    exec (.incompleteFrame (0x53#8 :: bytes)) s = .next { s with
      emitted := [.shiftedOut (s.linkStatus :: List.replicate bytes.length 0#8)]
      link := { s.link with state := .ready, request := [], incomplete := s.link.incomplete + 1 } }

/-- A SEND that finds the link not ready to take it, with any bytes or any request: the link status and fill bytes go out,
and the frame is dropped and counted (a request's row is such an exchange: log 30). -/
def Obligations.FrameIsDroppedWhileNotReady : Prop :=
  ∀ s : State, s.readyToTake = false →
    let t (n : Nat) : State := { s with
      emitted := [.shiftedOut (s.linkStatus :: List.replicate n 0#8)]
      link := { s.link with dropped := s.link.dropped + 1 } }
    (∀ bytes : List Byte, exec (.droppedFrame (0x53#8 :: bytes)) s = .next (t bytes.length)) ∧
    (∀ (i : Instr) (q : Byte) (r : Request), i.request = some (q, r) →
      exec i s = .next (t (requestFrame q r).length))

/-- A whole frame that fails a check: the reply of the first check that fails waits at once, the frame is counted as
rejected, and nothing but the link changes. A form byte that names no form fails the payload check (log 14). -/
def Obligations.FailedFrameIsAnsweredAtOnce : Prop :=
  ∀ (bytes : List Byte) (s : State), s.readyToTake = true → frameWhole bytes = true →
    let answered (tag : List Byte) (r : Result) : State := { s with
      emitted := [.shiftedOut (s.linkStatus :: List.replicate bytes.length 0#8)]
      link := { s.link with
        state := .replying, request := [], rejected := s.link.rejected + 1
        reply := (Reply.refuse r).frame (frameSeq bytes) tag } }
    (1024 < numberAt bytes 6 2 → exec (.rejectReply (0x53#8 :: bytes)) s = .next (answered rejtTag .badLength)) ∧
    (numberAt bytes 6 2 ≤ 1024 → frameCheckOk bytes = false →
      exec (.rejectReply (0x53#8 :: bytes)) s = .next (answered rejtTag .badFrame)) ∧
    (numberAt bytes 6 2 ≤ 1024 → frameCheckOk bytes = true → tagOf (frameTag bytes) = none →
      exec (.unknownTag (0x53#8 :: bytes)) s = .next (answered (frameTag bytes) .unknownTag)) ∧
    (∀ tag : Tag, numberAt bytes 6 2 ≤ 1024 → frameCheckOk bytes = true → tagOf (frameTag bytes) = some tag →
      readRequest tag (framePayload bytes) = none →
      exec (.unknownTag (0x53#8 :: bytes)) s = .next (answered tag.bytes .badLength))

/-- A COLLECT shifts out the link status and the reply: a reply clocked out whole leaves the link READY, one clocked out
in part stays, and with no reply fill bytes of 0x00 go out and nothing changes (beyond the end of a reply they go out too:
log 29). An exchange whose first byte is 0x43 is a COLLECT of the bytes that follow, and one with a first byte other than
0x43 and 0x53 shifts out the link status and fill bytes and has no further effect (exchanges stand under the frame rows:
log 30). -/
def Obligations.CollectShiftsTheReplyOut : Prop :=
  ∀ (n : Nat) (s : State),
    (s.link.state = .replying → s.link.reply.length ≤ n →
      exec (.collect n) s = .next { s with
        emitted := [.shiftedOut (s.linkStatus :: (s.link.reply ++ List.replicate (n - s.link.reply.length) 0#8))]
        link := { s.link with state := .ready, reply := [] } }) ∧
    (s.link.state = .replying → n < s.link.reply.length →
      exec (.collect n) s = .next { s with emitted := [.shiftedOut (s.linkStatus :: s.link.reply.take n)] }) ∧
    (s.link.state ≠ .replying →
      exec (.collect n) s = .next { s with
        emitted := [.shiftedOut (s.linkStatus :: List.replicate n 0#8)] }) ∧
    (∀ bytes : List Byte, bytes.length = n →
      exec (.droppedFrame (0x43#8 :: bytes)) s = exec (.collect n) s) ∧
    (∀ (first : Byte) (bytes : List Byte), bytes.length = n → first ≠ 0x53#8 → first ≠ 0x43#8 →
      exec (.droppedFrame (first :: bytes)) s = .next { s with
        emitted := [.shiftedOut (s.linkStatus :: List.replicate n 0#8)] })

/-! ### Requests that change nothing but the link -/

/-- STAT, METR, CAPT, VERD, FIND and HLST answer from the state and change nothing but the link. The bytes of the bodies are
the model's where the manual leaves them open (log 7, 9, 10, 11, 16, 17, 44, 50, 52, 56, 64,
68, 73, 76, 79, 82). -/
def Obligations.QueriesChangeOnlyTheLink : Prop :=
  ∀ (q : Byte) (s : State), s.readyToTake = true →
    exec (.stat q 255) s = .next (s.answered q (.stat 255) ⟨.ok, s.deviceStatus⟩) ∧
    (∀ l : LaneNo,
      exec (.stat q l.val) s = .next (s.answered q (.stat l.val) ⟨.ok, s.laneStatus l⟩) ∧
      exec (.metr q l.val) s = .next (s.answered q (.metr l.val) ⟨.ok, s.metering l⟩) ∧
      exec (.capt q l.val) s = .next (s.answered q (.capt l.val) ⟨.ok, s.captionState l⟩)) ∧
    (∀ n : Nat,
      exec (.verd q n) s = .next (s.answered q (.verd n) ⟨.ok, s.verdictList n⟩) ∧
      exec (.find q n) s = .next (s.answered q (.find n) ⟨.ok, s.findingList n⟩) ∧
      exec (.hlst q n) s = .next (s.answered q (.hlst n) ⟨.ok, s.holdList n⟩))

/-- SETR reads a settings group once the settings are known, RMAP, XMAP, DSEV and ALRM whatever its second byte (the model's
choice: log 59); EXTN reads an extent record once the scan has ended (bodies: log 7, 9, 68, 75, 82, 83). -/
def Obligations.SetrAndExtnReadBack : Prop :=
  ∀ (q : Byte) (s : State), s.readyToTake = true →
    (s.settingsKnown = true →
      (∀ l : LaneNo,
        exec (.setr q 1 l.val) s = .next (s.answered q (.setr 1 l.val) ⟨.ok, s.settings.laneGroup l⟩) ∧
        exec (.setr q 2 l.val) s = .next (s.answered q (.setr 2 l.val) ⟨.ok, s.settings.filterGroup l⟩)) ∧
      (∀ k : Fin 16,
        exec (.setr q 3 k.val) s = .next (s.answered q (.setr 3 k.val) ⟨.ok, s.settings.ruleGroup k⟩)) ∧
      (∀ i : Nat,
        exec (.setr q 4 i) s = .next (s.answered q (.setr 4 i) ⟨.ok, s.settings.ruleMapGroup⟩) ∧
        exec (.setr q 5 i) s = .next (s.answered q (.setr 5 i) ⟨.ok, s.settings.extentMapGroup⟩) ∧
        exec (.setr q 6 i) s = .next (s.answered q (.setr 6 i) ⟨.ok, s.settings.severityGroup⟩) ∧
        exec (.setr q 7 i) s = .next (s.answered q (.setr 7 i) ⟨.ok, s.settings.alarmGroup⟩))) ∧
    (s.scanning = false →
      (∀ (n : Nat) (x : Extent), s.extentOf n = some x →
        exec (.extnByNumber q n) s = .next (s.answered q (.extnByNumber n) ⟨.ok, x.bytes⟩)) ∧
      (∀ n : Nat, s.extentOf n = none →
        exec (.extnByNumber q n) s = .next (s.answered q (.extnByNumber n) (.refuse .noSuch))) ∧
      (∀ (l : LaneNo) (time : Nat) (x : Extent), s.extentAt l time = some x →
        exec (.extnByLaneTime q l.val time) s = .next (s.answered q (.extnByLaneTime l.val time) ⟨.ok, x.bytes⟩)) ∧
      (∀ (l : LaneNo) (time : Nat), s.extentAt l time = none →
        exec (.extnByLaneTime q l.val time) s
          = .next (s.answered q (.extnByLaneTime l.val time) (.refuse .noSuch))))

/-- A refused request changes nothing but the link: in RUN every request that is taken in CONFIG only, a lane, rule set,
filter entry, rule map entry, range, pool target or settings group that does not exist, and what the scan has not reached.
Codes of yes and no, severity, sense and protocol are not among the refusals: they are clamped (log 15). -/
def Obligations.RefusedRequestsChangeOnlyTheLink : Prop :=
  ∀ (q : Byte) (s : State), s.readyToTake = true →
    let refused (i : Instr) (r : Request) (x : Result) : Prop := exec i s = .next (s.answered q r (.refuse x))
    (∀ (i : Instr) (r : Request), i.request = some (q, r) → configOnly r = true → s.alarm.mode = .run →
      refused i r .notInConfig) ∧
    (∀ n : Nat, 8 ≤ n →
      (n ≠ 255 → refused (.stat q n) (.stat n) .noSuch) ∧
      refused (.metr q n) (.metr n) .noSuch ∧ refused (.capt q n) (.capt n) .noSuch ∧
      refused (.lrst q n) (.lrst n) .noSuch) ∧
    (s.alarm.mode = .config →
      (∀ f : LaneFields, 8 ≤ f.lane → refused (.lane q f) (.lane f) .noSuch) ∧
      (∀ f : FilterEntryFields, 8 ≤ f.lane ∨ 8 ≤ f.entry → refused (.filtEntry q f) (.filtEntry f) .noSuch) ∧
      (∀ lane v : Nat, 8 ≤ lane → refused (.filtPassAll q lane v) (.filtPassAll lane v) .noSuch) ∧
      (∀ f : RuleFields, 16 ≤ f.set → refused (.rule q f) (.rule f) .noSuch) ∧
      (∀ lane kind set : Nat, 8 ≤ lane ∨ kind = 0 ∨ 4 < kind ∨ (16 ≤ set ∧ set ≠ 255) →
        refused (.rmap q lane kind set) (.rmap lane kind set) .noSuch) ∧
      (∀ (n : Nat) (d : Option DirectedFields), 4 ≤ n ∨ (∃ x, d = some x ∧ 8 ≤ x.lane) →
        refused (.xmapDirected q n d) (.xmapDirected n d) .noSuch) ∧
      (∀ lane target : Nat, 8 ≤ lane ∨ (8 ≤ target ∧ target ≠ 255) →
        refused (.xmapPooling q lane target) (.xmapPooling lane target) .noSuch)) ∧
    (s.settingsKnown = false → ∀ g i : Nat,
      refused (.setr q g i) (.setr g i) .scanning ∧ refused (.conf q) .conf .scanning ∧
      refused (.hrel q i) (.hrel i) .scanning) ∧
    (s.settingsKnown = true → ∀ g i : Nat,
      g = 0 ∨ 7 < g ∨ ((g = 1 ∨ g = 2) ∧ 8 ≤ i) ∨ (g = 3 ∧ 16 ≤ i) → refused (.setr q g i) (.setr g i) .noSuch) ∧
    (s.scanning = true → ∀ n : Nat,
      refused (.extnByNumber q n) (.extnByNumber n) .scanning ∧ refused (.rsta q) .rsta .scanning)

/-! ### Settings -/

/-- RULE, FILT in both forms, RMAP, DSEV, ALRM and SAVE, taken in CONFIG: the setting named takes the values applied and
nothing else changes but the link; SAVE queues one copy of the settings as they stand. That codes of yes and no, sense,
severity and protocol beyond their values are clamped too is the model's reading (log 15), and so is what an OK reply
carries behind its result (log 62); a copy number past 2^32 - 1 is free (log 8). -/
def Obligations.SettingRequestsApplyTheirValues : Prop :=
  ∀ (q : Byte) (s : State), s.readyToTake = true → s.alarm.mode = .config →
    (∀ (f : RuleFields) (k : Fin 16), f.set = k.val →
      exec (.rule q f) s = .next { s.answered q (.rule f)
          ⟨clampedIf ((appliedRule f).fields k != f), ruleBytes ((appliedRule f).fields k)⟩ with
        settings := { s.settings with rules := s.settings.rules.set k (appliedRule f) } }) ∧
    (∀ (f : FilterEntryFields) (l : LaneNo) (k : Fin 8), f.lane = l.val → f.entry = k.val →
      exec (.filtEntry q f) s = .next { s.answered q (.filtEntry f)
          ⟨clampedIf ((appliedFilter f).fields l k != f), filterBytes ((appliedFilter f).fields l k)⟩ with
        settings := { s.settings with filters := s.settings.filters.set l { s.settings.filters[l] with
          entries := s.settings.filters[l].entries.set k (appliedFilter f) } } }) ∧
    (∀ (l : LaneNo) (v : Nat),
      exec (.filtPassAll q l.val v) s = .next { s.answered q (.filtPassAll l.val v)
          ⟨clampedIf (yesCode (yesOf v) != v), passAllBytes l.val (yesCode (yesOf v))⟩ with
        settings := { s.settings with
          filters := s.settings.filters.set l { s.settings.filters[l] with passAll := yesOf v } } }) ∧
    (∀ (l : LaneNo) (kind set : Nat) (k : SegKind) (x : Option (Fin 16)),
      segKindOf kind = some k → ruleEntryOf set = some x →
      exec (.rmap q l.val kind set) s = .next { s.answered q (.rmap l.val kind set)
          ⟨.ok, requestBytes (.rmap l.val kind set)⟩ with
        settings := { s.settings with ruleMap := s.settings.ruleMap.set l (s.settings.ruleMap[l].withEntry k x) } }) ∧
    (∀ f : SeverityFields,
      let applied : SeverityFields := ⟨severityCode (severityOf f.stalled), severityCode (severityOf f.short),
        severityCode (severityOf f.storeLost), clampNat 0 3650 f.floorDays⟩
      exec (.dsev q f) s = .next { s.answered q (.dsev f) ⟨clampedIf (applied != f), requestBytes (.dsev applied)⟩ with
        settings := { s.settings with
          severities := ⟨severityOf f.stalled, severityOf f.short, severityOf f.storeLost⟩
          floorDays := clampNat 0 3650 f.floorDays } }) ∧
    (∀ p n : Nat,
      exec (.alrm q p n) s = .next { s.answered q (.alrm p n)
          ⟨clampedIf (protocolCode (protocolOf p) != p || clampNat 10 600 n != n),
            requestBytes (.alrm (protocolCode (protocolOf p)) (clampNat 10 600 n))⟩ with
        settings := { s.settings with protocolSet := protocolOf p, configTimeout := clampNat 10 600 n } }) ∧
    (s.saveInFlight = false →
      exec (.save q) s = .next { s.answered q .save ⟨.ok, []⟩ with
        sys := { s.sys with
          queue := s.sys.queue ++ [⟨s.sys.nextCopy, s.sys.generation, .image s.settings, true⟩]
          nextCopy := next32 s.sys.nextCopy }
        saveInFlight := true }) ∧
    (s.saveInFlight = true → exec (.save q) s = .next (s.answered q .save (.refuse .busy)))

/-- A value outside its range goes to the nearest end, by the ranges of Tables 1-5, 4-3, 6-1 and 6-2 and R35. -/
def Obligations.SettingsAreClampedToTheirRanges : Prop :=
  let nat (lo hi v : Nat) : Nat := max lo (min hi v)
  let int (lo hi v : Int) : Int := max lo (min hi v)
  (∀ f : RuleFields,
    let x := appliedRule f
    x.target = int (-400) 0 f.target ∧ x.tolerance = int 0 50 f.tolerance ∧
    x.shortCeiling = f.shortCeiling.map (int (-700) 200) ∧ x.relativeCeiling = f.relativeCeiling.map (int 0 100) ∧
    x.peakCeiling = f.peakCeiling.map (int (-300) 0) ∧ x.minCoverage = nat 0 1000 f.minCoverage ∧
    x.gapLimit = nat 10 6000 f.gapLimit ∧ x.deadAirLimit = nat 10 6000 f.deadAirLimit ∧
    x.lateLimit = nat 0 4294967295 f.lateLimit ∧ x.grace = nat 0 600 f.grace ∧
    x.preRoll = nat 0 600 f.preRoll ∧ x.postRoll = nat 0 600 f.postRoll) ∧
  (∀ f : LaneFields,
    let x := appliedLane f
    x.gapTimeout = nat 50 2000 f.gapTimeout ∧ x.rateLow = nat 900 1000 f.rateLow ∧
    x.rateHigh = nat 1000 1100 f.rateHigh ∧ x.rateLow ≤ x.rateHigh ∧ x.silence = int (-900) (-300) f.silence ∧
    x.keepalive = nat 1000 60000 f.keepalive ∧ x.lateLimit = nat 0 60000 f.lateLimit ∧
    x.earlyLimit = nat 0 120000 f.earlyLimit ∧ x.lostGrace = nat 0 600000 f.lostGrace ∧
    x.driftGrace = nat 0 600000 f.driftGrace ∧ x.preRoll = nat 0 600 f.preRoll ∧ x.postRoll = nat 0 600 f.postRoll)

/-- LANE, taken in CONFIG: the lane's settings are replaced whole. With the lane's enablement as it was nothing else
changes but the link; enabling a lane turns hold-off ON when at most one of its buffers can take records; disabling an
enabled lane acts at once on its intake. That codes of yes and no and of severity beyond their values are clamped too is
the model's reading (log 15), and so is that the settings are replaced first (log 26). -/
def Obligations.LaneRequestReplacesTheLanesSettings : Prop :=
  ∀ (q : Byte) (f : LaneFields) (l : LaneNo) (s : State), s.readyToTake = true → s.alarm.mode = .config →
    f.lane = l.val →
    let x := appliedLane f
    let reply : Reply := ⟨clampedIf (x.fields l != f), laneBytes (x.fields l)⟩
    let after : Settings := { s.settings with lanes := s.settings.lanes.set l x }
    (x.enabled = (s.laneSettings l).enabled →
      exec (.lane q f) s = .next { s.answered q (.lane f) reply with settings := after }) ∧
    (x.enabled = true → (s.laneSettings l).enabled = false → 2 ≤ s.ac[l].canTake → s.liu[l].holdOff = false →
      exec (.lane q f) s = .next { s.answered q (.lane f) reply with settings := after }) ∧
    (x.enabled = true → (s.laneSettings l).enabled = false → s.settingsKnown = true → s.ac[l].canTake ≤ 1 →
      s.liu[l].holdOff = false →
      let t := s.answered q (.lane f) reply
      exec (.lane q f) s = .next { t with
        settings := after
        emitted := t.emitted ++ [.laneCell l (holdCell l 20)]
        liu := s.liu.set l { s.liu[l] with
          holdOff := true
          resend := some (s.clock + 100)
          counters := { s.liu[l].counters with holdsSent := s.liu[l].counters.holdsSent + 1 } } }) ∧
    (x.enabled = false → (s.laneSettings l).enabled = true →
      ∃ t, exec (.lane q f) s = .next t ∧ t.settings = after ∧ t.replyWaits q (.lane f) reply ∧
        t.liu[l].carriage = .absent ∧ t.liu[l].run = 0 ∧ t.liu[l].gapTimer = none ∧ t.liu[l].window = none ∧
        t.liu[l].lastCount = none ∧ t.liu[l].lossTile = none ∧ t.liu[l].openTile = none ∧
        t.liu[l].holdOff = false ∧ (s.liu[l].carriage ≠ .absent → t.notices.carriage[l] = true))

/-- XMAP in its three forms, taken in CONFIG: the part of the map that is named changes, the reply carries the values
applied and each lane's number of extents under the new map, and metering, captions, segments, verdicts, the other settings,
mode and recalls stay (codes and body: log 57, 62, 80). -/
def Obligations.MapRequestsChangeTheExtentMap : Prop :=
  ∀ (q : Byte) (s : State), s.readyToTake = true → s.alarm.mode = .config →
    let takes (i : Instr) (sent applied : Request) (m : ExtentMap) : Prop :=
      ∃ t, exec i s = .next t ∧
        State.leavesOthers { s.answered q sent ⟨clampedIf (applied != sent), requestBytes applied
            ++ allLanes.flatMap (fun l => be 4 (m.countFor (s.store.count.getD 65536) l))⟩ with
          settings := { s.settings with extentMap := m } } t
    let map := s.settings.extentMap
    (∀ lo hi : Nat, takes (.xmapDistributed q lo hi) (.xmapDistributed lo hi)
      (.xmapDistributed (clampNat 1 65536 lo) (clampNat 1 65536 hi))
      { map with lo := clampNat 1 65536 lo, hi := clampNat 1 65536 hi }) ∧
    (∀ (n : Fin 4), takes (.xmapDirected q n.val none) (.xmapDirected n.val none) (.xmapDirected n.val none)
      { map with directed := map.directed.set n none }) ∧
    (∀ (n : Fin 4) (d : DirectedFields) (l : LaneNo), d.lane = l.val →
      takes (.xmapDirected q n.val (some d)) (.xmapDirected n.val (some d))
        (.xmapDirected n.val (some ⟨clampNat 1 65536 d.lo, clampNat 1 65536 d.hi, d.lane⟩))
        { map with directed := map.directed.set n (some ⟨clampNat 1 65536 d.lo, clampNat 1 65536 d.hi, l⟩) }) ∧
    (∀ (l : LaneNo) (target : Nat) (x : Option LaneNo), poolTargetOf target = some x →
      takes (.xmapPooling q l.val target) (.xmapPooling l.val target) (.xmapPooling l.val target)
        { map with pooling := map.pooling.set l x })

/-! ### Mode and time -/

/-- CONF in RUN enters CONFIG by the steps of its rule, and each open segment's close enters an UNJUDGED verdict of cause
CONFIG_ENTRY; in CONFIG it changes nothing but the link. The expiry in its reply is
in the model's form (log 9, 11, 16, 64). -/
def Obligations.ConfEntersConfig : Prop :=
  ∀ (q : Byte) (s : State), s.readyToTake = true → s.settingsKnown = true →
    (s.alarm.mode = .run →
      ∃ t, exec (.conf q) s = .next t ∧ t.alarm.mode = .config ∧
        t.alarm.configTimer = .running (s.clock + 1000 * s.settings.configTimeout) ∧
        (∀ l : LaneNo, t.st[l].seg = none ∧ t.st[l].remembered = s.st[l].seg.map SegCtx.ident ∧
          (s.st[l].seg.isSome → t.cm[l].watched = none) ∧ t.st[l].reference = s.st[l].reference ∧
          (∀ g : SegCtx, s.st[l].seg = some g → t.notices.verdict = true ∧
            ∃ v ∈ t.verdicts.log, v.lane = l ∧ v.ident = g.ident ∧ v.cause = .configEntry ∧ v.outcome = .unjudged ∧
              v.checks = none ∧ v.openTime = g.openTime ∧ v.closeTime = s.station ∧ v.tiles = g.tiles ∧
              ((∀ k : LaneNo, k ≠ l → s.st[k].seg = none) →
                v.seq = s.verdicts.next ∧ t.verdicts.next = nextVerdictSeq s.verdicts.next))) ∧
        (s.alarm.inForce = .paired → t.alarm.lineA = false ∧ t.alarm.lineB = false ∧ t.alarm.swap = none) ∧
        (s.alarm.inForce = .steady →
          (t.alarm.lineA, t.alarm.lineB) = steadyLines t.alarm.overall (t.someLane .alert)) ∧
        t.replyWaits q .conf ⟨.ok, t.configTimerBytes⟩ ∧
        t.settings = s.settings ∧ t.station = s.station ∧ t.le = s.le ∧ t.cc = s.cc ∧ t.slots = s.slots) ∧
    (s.alarm.mode = .config → exec (.conf q) s = .next (s.answered q .conf ⟨.ok, s.configTimerBytes⟩))

/-- RUNM in CONFIG with no format in flight leaves CONFIG by the steps of its rule, with fresh condition states (their start
times unset: log 63); while a format is in flight it is refused. -/
def Obligations.RunmLeavesConfig : Prop :=
  ∀ (q : Byte) (s : State), s.readyToTake = true → s.alarm.mode = .config →
    (s.format = none →
      ∃ t, exec (.runm q) s = .next t ∧ t.alarm.mode = .run ∧ t.alarm.configTimer = .stopped ∧
        t.alarm.inForce = s.settings.protocolSet ∧
        (∀ (l : LaneNo) (ident : Identity), s.st[l].remembered = some ident →
          t.st[l].seg = some (.opened ident (s.settings.ruleMap[l].entry ident.kind) true s.station) ∧
          t.cm[l].watched = some ⟨ident, s.settings.ruleMap[l].entry ident.kind, .fresh, .fresh, .fresh⟩) ∧
        (∀ l : LaneNo, t.st[l].remembered = none ∧
          (s.st[l].remembered = none → t.st[l] = s.st[l] ∧ t.cm[l] = s.cm[l])) ∧
        (s.settings.protocolSet = .steady →
          (t.alarm.lineA, t.alarm.lineB) = steadyLines s.alarm.overall (s.someLane .alert) ∧ t.alarm.swap = none) ∧
        (s.settings.protocolSet = .paired → s.alarm.overall ≠ .breach →
          t.alarm.lineA = true ∧ t.alarm.lineB = false ∧ t.alarm.phase = .aHigh ∧
          t.alarm.swap = some (s.clock + swapPeriod s.alarm.overall)) ∧
        (s.settings.protocolSet = .paired → s.alarm.overall = .breach →
          t.alarm.lineA = true ∧ t.alarm.lineB = true ∧ t.alarm.swap = none) ∧
        t.replyWaits q .runm ⟨.ok, []⟩ ∧ t.settings = s.settings ∧ t.station = s.station ∧ t.liu = s.liu ∧
        t.le = s.le ∧ t.cc = s.cc ∧ t.ac = s.ac ∧ t.dev = s.dev ∧ t.verdicts = s.verdicts) ∧
    (s.format ≠ none → exec (.runm q) s = .next (s.answered q .runm (.refuse .formatting)))

/-- A TIME request that is taken sets station time, starts a new rate window on every PRESENT or DRIFT lane, and leaves
the gap, keepalive and config timers and the export hold with their expiries; one that is refused changes nothing
but the link. The reply's time has a presence byte (the model's choice: log 77). -/
def Obligations.TimeSetsStationTimeOrIsRefused : Prop :=
  ∀ (q : Byte) (s : State), s.readyToTake = true →
    let sets (i : Instr) (r : Request) (time : Nat) (x : Result) : Prop :=
      ∃ t, exec i s = .next t ∧ t.station = some time ∧ t.replyWaits q r ⟨x, timeBytes (some time)⟩ ∧
        (∀ l : LaneNo, t.liu[l].window =
          (if s.liu[l].carriage = .present ∨ s.liu[l].carriage = .drift then some ⟨s.clock, 0⟩ else s.liu[l].window) ∧
          t.liu[l].carriage = s.liu[l].carriage ∧ t.liu[l].gapTimer = s.liu[l].gapTimer ∧
          t.liu[l].lastCount = s.liu[l].lastCount ∧ t.liu[l].openTile = s.liu[l].openTile) ∧
        t.clock = s.clock ∧ t.cc = s.cc ∧ t.le = s.le ∧ t.st = s.st ∧ t.alarm.mode = s.alarm.mode ∧
        t.alarm.configTimer = s.alarm.configTimer ∧ t.exportLink = s.exportLink ∧ t.settings = s.settings
    (∀ time : Nat, s.station = none → s.scanning = false → s.latestSealed.getD 0 ≤ time →
      sets (.timeAbsolute q time) (.timeAbsolute time) time .ok) ∧
    (∀ now time : Nat, s.station = some now → s.alarm.mode = .config → now ≤ time →
      sets (.timeAbsolute q time) (.timeAbsolute time) time .ok) ∧
    (∀ now d : Nat, s.station = some now → s.alarm.mode = .config → now + d ≤ 281474976710655 →
      sets (.timeStep q d) (.timeStep d) (now + d) .ok) ∧
    (∀ now d : Nat, s.station = some now → s.alarm.mode = .config → 281474976710655 < now + d →
      sets (.timeStep q d) (.timeStep d) 281474976710655 .clamped) ∧
    (∀ time d : Nat,
      (s.station = none → s.scanning = true →
        exec (.timeAbsolute q time) s = .next (s.answered q (.timeAbsolute time) (.refuse .scanning)) ∧
        exec (.timeStep q d) s = .next (s.answered q (.timeStep d) (.refuse .scanning))) ∧
      (s.station = none → s.scanning = false →
        exec (.timeStep q d) s = .next (s.answered q (.timeStep d) (.refuse .timeUnset)) ∧
        (time < s.latestSealed.getD 0 →
          exec (.timeAbsolute q time) s = .next (s.answered q (.timeAbsolute time) (.refuse .timeBackward)))) ∧
      (∀ now : Nat, s.station = some now → s.alarm.mode = .run →
        exec (.timeAbsolute q time) s = .next (s.answered q (.timeAbsolute time) (.refuse .notInConfig)) ∧
        exec (.timeStep q d) s = .next (s.answered q (.timeStep d) (.refuse .notInConfig))) ∧
      (∀ now : Nat, s.station = some now → s.alarm.mode = .config → time < now →
        exec (.timeAbsolute q time) s = .next (s.answered q (.timeAbsolute time) (.refuse .timeBackward))))

/-! ### Format, resets, notices and findings -/

/-- FMAT, taken in CONFIG with the scan ended, no format, no hold and no recall running, begins the format at once: a copy
of the hold table with the new generation is queued behind what waits, every extent but 0 is ERASING, and a lane that is
WANTED stays so with the retry timer running on; each of its refusals, in their order, changes nothing but the link. That
no buffer is PROGRAMMING from the acceptance on is the model's choice (log 43, 66), and so is a generation or copy number past
2^32 - 1 (log 8). -/
def Obligations.FmatBeginsTheFormat : Prop :=
  ∀ (q : Byte) (s : State), s.readyToTake = true → s.alarm.mode = .config →
    (s.scanning = true → exec (.fmat q) s = .next (s.answered q .fmat (.refuse .scanning))) ∧
    (s.scanning = false → s.format ≠ none →
      exec (.fmat q) s = .next (s.answered q .fmat (.refuse .formatting))) ∧
    (s.scanning = false → s.format = none → s.holds.table ≠ [] →
      exec (.fmat q) s = .next (s.answered q .fmat (.refuse .holdsActive))) ∧
    (s.scanning = false → s.format = none → s.holds.table = [] → (∃ k : SlotNo, s.slots[k].active = true) →
      exec (.fmat q) s = .next (s.answered q .fmat (.refuse .busy))) ∧
    (s.scanning = false → s.format = none → s.holds.table = [] → (∀ k : SlotNo, s.slots[k].active = false) →
      ∃ t, exec (.fmat q) s = .next t ∧ t.format = some (s.extents.length - 1) ∧
        t.extents = s.extents.map (fun x => if x.no = 0 then x else x.cleared .erasing) ∧
        t.sys.generation = next32 s.sys.generation ∧
        t.sys.queue = s.sys.queue ++ [⟨s.sys.nextCopy, next32 s.sys.generation, .holds s.holds, false⟩] ∧
        t.sys.nextCopy = next32 s.sys.nextCopy ∧
        (∀ l : LaneNo, s.ac[l].alloc = .wanted → t.ac[l].alloc = .wanted) ∧
        (s.anyWanted = true → s.retry.isSome = true → t.retry = s.retry) ∧
        (s.store.inFlight = none → s.store.interrupted = none →
          t.store.erases = (s.extents.filter (fun x => x.no != 0)).map (fun x => ⟨x.no, none⟩)) ∧
        (∀ expiry : Nat, s.alarm.configTimer = .running expiry →
          t.alarm.configTimer = .paused (expiry - s.clock)) ∧
        (∀ l : LaneNo, t.ac[l].seals = [] ∧ ∀ i : Fin 4, t.ac[l].buffers[i].state ≠ .programming) ∧
        t.replyWaits q .fmat ⟨.ok, []⟩ ∧ t.settings = s.settings ∧ t.alarm.mode = .config ∧ t.st = s.st)

/-- RSTA, taken with the scan ended and no format in flight, begins the warm reset: CONFIG is left, every open tile
accumulator is discarded, every RUNNING or PAUSED recall is aborted, the pending gap counts are zero, and the link is not
ready to take; while a format is in flight it is refused. -/
def Obligations.RstaBeginsTheWarmReset : Prop :=
  ∀ (q : Byte) (s : State), s.readyToTake = true → s.scanning = false →
    (s.format = none →
      ∃ t, exec (.rsta q) s = .next t ∧ t.warm.isSome = true ∧ t.readyToTake = false ∧ t.alarm.mode = .run ∧
        (s.alarm.mode = .config → t.alarm.configTimer = .stopped ∧ t.alarm.inForce = s.settings.protocolSet) ∧
        (∀ k : SlotNo, (s.slots[k].active = true → t.slots[k].state = .aborted ∧ t.slots[k].page = []) ∧
          (s.slots[k].active = false → t.slots[k].state = s.slots[k].state)) ∧
        (∀ l : LaneNo, t.le[l] = { s.le[l] with acc := none }) ∧
        (∀ l : LaneNo, t.ac[l].gaps = .zero) ∧
        t.replyWaits q .rsta ⟨.ok, []⟩ ∧ t.settings = s.settings ∧ t.station = s.station ∧ t.st = s.st ∧
        t.verdicts = s.verdicts) ∧
    (s.format ≠ none → exec (.rsta q) s = .next (s.answered q .rsta (.refuse .formatting)))

/-- LRST resets the named lane's intake, metering, captions and segments, closing its segment, aborts its recalls and
flushes its buffers (every kept finding naming its own lane, as StepKeepsStatuses keeps it): what waits or is in flight is
sealed behind its last program, and with nothing to program the OPEN extent is sealed at once, or FREE when it holds no page. Its intake counters are 0, but for the HOLD cells that the reset
itself sends (the model's choice: log 61). The other lanes' carriage, metering, captions and segments, and the other
recalls, are as they were. -/
def Obligations.LrstResetsTheNamedLane : Prop :=
  ∀ (q : Byte) (l : LaneNo) (s : State), s.readyToTake = true →
    ∃ t, exec (.lrst q l.val) s = .next t ∧
      t.liu[l].carriage = .absent ∧ t.liu[l].run = 0 ∧ t.liu[l].gapTimer = none ∧ t.liu[l].window = none ∧
      t.liu[l].lastCount = none ∧ t.liu[l].lossTile = none ∧ t.liu[l].openTile = none ∧
      t.liu[l].counters = { IntakeCounters.zero with holdsSent := t.liu[l].counters.holdsSent } ∧
      t.le[l] = .reset ∧ t.cc[l] = .reset ∧ t.st[l] = .reset ∧
      (∀ k : LaneNo, k ≠ l → t.le[k] = s.le[k] ∧ t.cc[k] = s.cc[k] ∧ t.st[k] = s.st[k] ∧
        s.liu[k].sameCarriage t.liu[k]) ∧
      (s.st[l].seg = none → t.verdicts = s.verdicts) ∧
      (s.st[l].seg.isSome = true → t.verdicts.next = nextVerdictSeq s.verdicts.next ∧ t.notices.verdict = true ∧
        t.cm[l].watched = none) ∧
      (s.liu[l].carriage ≠ .absent → t.notices.carriage[l] = true) ∧
      (s.cc[l].live = true → t.notices.caption[l] = true) ∧
      (∀ k : SlotNo,
        (s.slots[k].active = true → s.slots[k].request.map RecallRequest.lane = some l →
          t.slots[k].state = .aborted ∧ t.slots[k].page = [] ∧ t.notices.recallEnd[k] = true) ∧
        (s.slots[k].active = false ∨ s.slots[k].request.map RecallRequest.lane ≠ some l →
          t.slots[k].state = s.slots[k].state ∧ t.slots[k].page = s.slots[k].page)) ∧
      (s.findingsOwned →
        s.gateOpen = false ∨ (∃ w : WritePoint, s.ac[l].alloc = .writing w) ∨ (∃ e : Nat, s.ac[l].alloc = .chosen e) →
        t.ac[l].gaps = .zero ∧ (s.bounded → ∀ i : Fin 4, t.ac[l].buffers[i].state ≠ .filling) ∧
        ((∃ i : Fin 4, t.ac[l].buffers[i].state = .waiting ∨ t.ac[l].buffers[i].state = .programming) →
          ∃ i : Fin 4, t.ac[l].buffers[i].sealAfter = true ∧
            (t.ac[l].buffers[i].state = .waiting ∨ t.ac[l].buffers[i].state = .programming)) ∧
        ((∀ i : Fin 4, t.ac[l].buffers[i].state ≠ .waiting ∧ t.ac[l].buffers[i].state ≠ .programming) →
          ∀ w : WritePoint, t.ac[l].alloc ≠ .writing w)) ∧
      (∀ w : WritePoint, s.ac[l].alloc = .writing w →
        ((∃ i : Fin 4, t.ac[l].buffers[i].state = .waiting ∨ t.ac[l].buffers[i].state = .programming) →
          t.ac[l].alloc = .writing w) ∧
        (∀ i : Fin 4, s.ac[l].buffers[i].state = .waiting ∨ s.ac[l].buffers[i].state = .programming →
          t.ac[l].buffers[i].state = s.ac[l].buffers[i].state ∧
          t.ac[l].buffers[i].records = s.ac[l].buffers[i].records) ∧
        (∀ i : Fin 4, s.bounded → s.ac[l].buffers[i].state = .filling → s.ac[l].buffers[i].records ≠ [] →
          t.ac[l].buffers[i].state = .waiting ∧ s.ac[l].buffers[i].records <+: t.ac[l].buffers[i].records)) ∧
      (∀ (w : WritePoint) (x : Extent), s.settled → s.anyWanted = false → s.ac[l].alloc = .writing w →
        (∀ i : Fin 4, s.ac[l].buffers[i] = ⟨.free, [], 0, false⟩) → s.ac[l].gaps = .zero → s.st[l].seg = none →
        s.cm[l].lost.finding = none → s.cm[l].drift.finding = none → s.extentOf w.ext = some x →
        t.ac[l].alloc = .idle ∧
        (x.pages ≠ 0 →
          t.ac[l].seals = s.ac[l].seals
            ++ [⟨w.ext, x.pages + 1, x.first.getD 0, x.last.getD 0, x.pages, s.stamp + 2⟩] ∧
          t.extents = s.extents.map (fun (y : Extent) => if y.no = w.ext then { y with state := .sealed } else y)) ∧
        (x.pages = 0 →
          t.ac[l].seals = s.ac[l].seals ∧
          t.extents = s.extents.map (fun (y : Extent) => if y.no = w.ext then
            { y with state := .free, tag := none, first := none, last := none, pages := 0 } else y))) ∧
      t.replyWaits q (.lrst l.val) ⟨.ok, []⟩ ∧ t.settings = s.settings ∧ t.station = s.station ∧
      t.alarm.mode = s.alarm.mode ∧ t.alarm.configTimer = s.alarm.configTimer

/-- NOTE returns every pending notice and empties the set; a slot whose RECALL notice it returns is IDLE once its
RECALL_END has been sent, and then keeps nothing of its recall (the model's choice: log 54). The body is in the model's form
(log 7, 9, 58). -/
def Obligations.NoteReturnsEveryNotice : Prop :=
  ∀ (q : Byte) (s : State), s.readyToTake = true →
    ∃ slots : Vector Slot 2,
      exec (.note q) s = .next { s.answered q .note ⟨.ok, s.notices.bytes⟩ with
        notices := .empty, slots := slots } ∧
      (∀ k : SlotNo,
        (s.notices.recallEnd[k] = false → slots[k] = s.slots[k]) ∧
        (s.notices.recallEnd[k] = true → (s.slots[k].state = .done ∨ s.slots[k].state = .aborted) →
          slots[k] = if s.slots[k].endSent then .reset else { s.slots[k] with noticeTaken := true }))

/-- ACKF sets the acknowledged flag of the ACTIVE and ENDED records it names and re-evaluates the statuses; a single id
that names none is refused. The reply's number stands in 2 bytes (log 9). The next id, the holds, buffers, extents and
notices, metering, captions, segments and settings stay. -/
def Obligations.AckfAcknowledges : Prop :=
  ∀ (q : Byte) (id : Nat) (s : State), s.readyToTake = true →
    let marks (i : Instr) (r : Request) (body : List Byte) (which : Finding → Bool) : Prop :=
      ∃ t, exec i s = .next t ∧
        t.dev.log = s.dev.log.map (fun f =>
          if which f ∧ (f.state = .active ∨ f.state = .ended) then { f with acked := true } else f) ∧
        t.statusesFollow ∧ t.dev.nextId = s.dev.nextId ∧ t.holds = s.holds ∧ t.ac = s.ac ∧ t.extents = s.extents ∧
        t.notices = s.notices ∧ State.leavesOthers (s.answered q r ⟨.ok, body⟩) t
    (s.dev.log.any (fun f => f.id == id && f.ackable) = true →
      marks (.ackfSingle q id) (.ackfSingle id) [] (fun f => decide (f.id = id))) ∧
    (s.dev.log.any (fun f => f.id == id && f.ackable) = false →
      exec (.ackfSingle q id) s = .next (s.answered q (.ackfSingle id) (.refuse .noSuch))) ∧
    marks (.ackfAllUpTo q id) (.ackfAllUpTo id)
      (be 2 (s.dev.log.filter (fun f => decide (f.id ≤ id) && f.ackable && !f.acked)).length)
      (fun f => decide (f.id ≤ id))

/-! ### Holds and recalls -/

/-- HOLD places a host hold under the next free id and queues a copy of the table, or renews those that wait (log 27), HREL
removes the hold it names; a refusal changes nothing but the link. The reply's layout is the model's (log 9). -/
def Obligations.HoldAndHrelChangeTheHoldTable : Prop :=
  ∀ (q : Byte) (s : State), s.readyToTake = true →
    (∀ (l : LaneNo) (start : Nat) (stop : Option Nat), s.scanning = false → s.holds.table.length < 64 →
      let applied := stop.map (fun e => max start e)
      let table := s.holds.add l start applied .host false
      exec (.hold q l.val start stop) s = .next { s.answered q (.hold l.val start stop)
          ⟨clampedIf (applied != stop), be 2 s.holds.newId ++ be 6 start ++ optional 6 (be 6) applied⟩ with
        holds := table, sys := s.sys.queueHolds table }) ∧
    (∀ (lane start : Nat) (stop : Option Nat),
      (s.scanning = true →
        exec (.hold q lane start stop) s = .next (s.answered q (.hold lane start stop) (.refuse .scanning))) ∧
      (s.scanning = false → 8 ≤ lane →
        exec (.hold q lane start stop) s = .next (s.answered q (.hold lane start stop) (.refuse .noSuch))) ∧
      (s.scanning = false → lane < 8 → 64 ≤ s.holds.table.length →
        exec (.hold q lane start stop) s = .next (s.answered q (.hold lane start stop) (.refuse .tableFull)))) ∧
    (∀ id : Nat, s.settingsKnown = true → s.holds.uses id = false →
      exec (.hrel q id) s = .next (s.answered q (.hrel id) (.refuse .noSuch))) ∧
    (∀ id : Nat, s.settingsKnown = true → s.holds.uses id = true →
      (∃ t, exec (.hrel q id) s = .next t ∧ State.leavesOthers (s.answered q (.hrel id) ⟨.ok, []⟩) t) ∧
      (s.settled → s.anyWanted = false →
        exec (.hrel q id) s = .next { s.answered q (.hrel id) ⟨.ok, []⟩ with
          holds := s.holds.remove id, sys := s.sys.queueHolds (s.holds.remove id) }))

/-- RCAL starts a recall in an IDLE slot: it ends DONE when its lane has no extent to read, and with one it is RUNNING, or
PAUSED while the export hold is ON, at page 1 of the extent with the lowest first time among those that reach t0, begin no
later than t1 and begin no later than the end marker. RSTP aborts a RUNNING or PAUSED recall. Each refusal, in the order of
its rule, changes nothing but the link. What RCAL's OK reply carries is the model's choice (log 62). -/
def Obligations.RecallsStartAndStop : Prop :=
  ∀ (q : Byte) (k : SlotNo) (s : State), s.readyToTake = true →
    (∀ (l : LaneNo) (t1 t0 : Nat), s.scanning = false → s.format = none →
      (s.slots[k].state = .idle →
        ∃ t, exec (.rcal q l.val t1 t0 k.val) s = .next t ∧
          t.slots[k].request = some ⟨l, min t0 t1, t1⟩ ∧ t.slots[k].marker = s.newestExtent l ∧
          (t.slots[k].state = .done ∨
            t.slots[k].state = if s.exportLink.hold.isSome then .paused else .running) ∧
          t.slots[k].exported = 0 ∧ t.slots[k].unreadable = 0 ∧
          (s.newestExtent l = none → t.slots[k].state = .done ∧ t.notices.recallEnd[k] = true) ∧
          (∀ (m : EndMarker) (before after : List Extent) (e : Extent),
            let reads (x : Extent) : Prop :=
              x.tag = some l ∧ (x.state = .opened ∨ x.state = .sealed) ∧ ∃ first last : Nat,
                x.first = some first ∧ x.last = some last ∧ min t0 t1 ≤ last ∧ first ≤ t1 ∧ first ≤ m.first
            let pages := if e.no = m.ext ∧ e.first = some m.first then m.limit else e.pages
            s.newestExtent l = some m → s.extents = before ++ e :: after → reads e → 0 < pages →
            (∀ x ∈ before, reads x → e.first.getD 0 < x.first.getD 0) →
            (∀ x ∈ after, reads x → e.first.getD 0 ≤ x.first.getD 0) →
            t.slots[k].state = (if s.exportLink.hold.isSome then .paused else .running) ∧
            t.slots[k].p = some (min t0 t1) ∧ t.slots[k].position = some (e.no, 1) ∧ t.slots[k].page = []) ∧
          (∀ m : EndMarker, s.newestExtent l = some m →
            (∀ x ∈ s.extents, ¬ (x.tag = some l ∧ (x.state = .opened ∨ x.state = .sealed) ∧ ∃ first last : Nat,
              x.first = some first ∧ x.last = some last ∧ min t0 t1 ≤ last ∧ first ≤ t1 ∧ first ≤ m.first)) →
            t.slots[k].state = .done ∧ t.notices.recallEnd[k] = true) ∧
          (∀ m : SlotNo, m ≠ k → t.slots[m].state = s.slots[m].state) ∧
          t.replyWaits q (.rcal l.val t1 t0 k.val)
            ⟨clampedIf (min t0 t1 != t0), requestBytes (.rcal l.val t1 (min t0 t1) k.val)⟩ ∧
          t.settings = s.settings ∧ t.st = s.st ∧ t.le = s.le ∧ t.station = s.station) ∧
      (s.slots[k].state ≠ .idle →
        exec (.rcal q l.val t1 t0 k.val) s
          = .next (s.answered q (.rcal l.val t1 t0 k.val) (.refuse .busy)))) ∧
    (∀ lane t1 t0 slot : Nat,
      let refused (x : Result) : Prop :=
        exec (.rcal q lane t1 t0 slot) s = .next (s.answered q (.rcal lane t1 t0 slot) (.refuse x))
      (s.scanning = true → refused .scanning) ∧
      (s.scanning = false → s.format ≠ none → refused .formatting) ∧
      (s.scanning = false → s.format = none → 8 ≤ lane ∨ 2 ≤ slot → refused .noSuch)) ∧
    (∀ slot : Nat, 2 ≤ slot → exec (.rstp q slot) s = .next (s.answered q (.rstp slot) (.refuse .noSuch))) ∧
    (s.slots[k].active = true →
      ∃ t, exec (.rstp q k.val) s = .next t ∧ t.slots[k].state = .aborted ∧ t.slots[k].page = [] ∧
        t.slots[k].position = none ∧ t.slots[k].exported = s.slots[k].exported ∧ t.notices.recallEnd[k] = true ∧
        (∀ m : SlotNo, m ≠ k → t.slots[m].state = s.slots[m].state) ∧
        t.replyWaits q (.rstp k.val) ⟨.ok, []⟩ ∧ t.settings = s.settings ∧ t.st = s.st ∧ t.le = s.le) ∧
    (s.slots[k].active = false →
      exec (.rstp q k.val) s = .next (s.answered q (.rstp k.val) (.refuse .noSuch)))

/-! ### Timers -/

/-- Hold-off follows the number of a lane's buffers that can take records: ON with a HOLD of 200 ms and the resend timer at 1
or 0, OFF with a HOLD of 0 at 2 or more, and no cell otherwise. The resend, keepalive and swap timers at their expiry; an
expiry row before it, or while the timer is stopped, does nothing (the model's reading: log 3). -/
def Obligations.ResendKeepaliveAndSwapTimersExpire : Prop :=
  ∀ (s : State) (l : LaneNo),
    (s.warm = none → s.laneEnabled l = true →
      let sent (on : Bool) (resend : Option Nat) (time : Nat) : State := { s with
        emitted := s.emitted ++ [.laneCell l (holdCell l time)]
        liu := s.liu.set l { s.liu[l] with
          holdOff := on
          resend := resend
          counters := { s.liu[l].counters with holdsSent := s.liu[l].counters.holdsSent + 1 } } }
      (s.ac[l].canTake ≤ 1 → s.liu[l].holdOff = false → s.reportBuffers l = sent true (some (s.clock + 100)) 20) ∧
      (2 ≤ s.ac[l].canTake → s.liu[l].holdOff = true → s.reportBuffers l = sent false none 0) ∧
      ((s.ac[l].canTake ≤ 1 ↔ s.liu[l].holdOff = true) → s.reportBuffers l = s)) ∧
    (timerDue s.liu[l].resend s.clock = true → s.liu[l].holdOff = true → s.warm = none →
      exec (.holdOffResend l) s = .next { s with
        emitted := [.laneCell l (holdCell l 20)]
        liu := s.liu.set l { s.liu[l] with
          resend := some (s.clock + 100)
          counters := { s.liu[l].counters with holdsSent := s.liu[l].counters.holdsSent + 1 } } }) ∧
    (timerDue s.liu[l].resend s.clock = false → exec (.holdOffResend l) s = .next { s with emitted := [] }) ∧
    (timerDue s.cc[l].keepalive s.clock = true →
      exec (.keepaliveExpiry l) s = .next { s with
        emitted := []
        cc := s.cc.set l { s.cc[l] with keepalive := none, live := false }
        notices := if s.cc[l].live then { s.notices with caption := s.notices.caption.set l true } else s.notices }) ∧
    (timerDue s.cc[l].keepalive s.clock = false → exec (.keepaliveExpiry l) s = .next { s with emitted := [] }) ∧
    (timerDue s.alarm.swap s.clock = true →
      exec .swapTimerExpiry s = .next { s with
        emitted := []
        alarm := { s.alarm with
          phase := s.alarm.phase.other
          lineA := (pairLines s.alarm.phase.other).1
          lineB := (pairLines s.alarm.phase.other).2
          swap := some (s.clock + swapPeriod s.alarm.overall) } }) ∧
    (timerDue s.alarm.swap s.clock = false → exec .swapTimerExpiry s = .next { s with emitted := [] })

/-- The config timer's expiry leaves CONFIG as a RUNM would, with the segments, the watched segments and the lines of its
steps, and reports it; before the expiry, or stopped, its row does nothing (the model's reading: log 3). The start times of a
fresh condition state are unset (log 63). -/
def Obligations.ConfigTimerExpiryLeavesConfig : Prop :=
  ∀ s : State,
    (s.alarm.configTimer.due s.clock = true →
      ∃ t, exec .configTimerExpiry s = .next t ∧ t.alarm.mode = .run ∧ t.alarm.configTimer = .stopped ∧
        t.alarm.inForce = s.settings.protocolSet ∧ t.notices.configTimeout = true ∧
        t.notices.deviceFinding = true ∧
        (∀ (l : LaneNo) (ident : Identity), s.st[l].remembered = some ident →
          t.st[l].seg = some (.opened ident (s.settings.ruleMap[l].entry ident.kind) true s.station) ∧
          (s.settled → t.cm[l].watched =
            some ⟨ident, s.settings.ruleMap[l].entry ident.kind, .fresh, .fresh, .fresh⟩)) ∧
        (∀ l : LaneNo, t.st[l].remembered = none ∧ (s.st[l].remembered = none →
          t.st[l] = s.st[l] ∧ (s.settled → t.cm[l].watched = s.cm[l].watched))) ∧
        (s.settled → t.dev.nextId = nextFindingId s.dev.nextId) ∧
        (s.settled → s.statusesFollow →
          t.alarm.overall = s.alarm.overall ∧
          (s.settings.protocolSet = .steady →
            (t.alarm.lineA, t.alarm.lineB) = steadyLines s.alarm.overall (s.someLane .alert) ∧
            t.alarm.swap = none) ∧
          (s.settings.protocolSet = .paired → s.alarm.overall ≠ .breach →
            t.alarm.lineA = true ∧ t.alarm.lineB = false ∧ t.alarm.phase = .aHigh ∧
            t.alarm.swap = some (s.clock + swapPeriod s.alarm.overall)) ∧
          (s.settings.protocolSet = .paired → s.alarm.overall = .breach →
            t.alarm.lineA = true ∧ t.alarm.lineB = true ∧ t.alarm.swap = none)) ∧
        t.le = s.le ∧ t.cc = s.cc ∧ t.settings = s.settings ∧ t.verdicts = s.verdicts) ∧
    (s.alarm.configTimer.due s.clock = false → exec .configTimerExpiry s = .next { s with emitted := [] })

/-- Attempts. The retry timer starts again and every WANTED lane makes its attempt: with the gate closed nothing happens.
With it open every WANTED lane that has a FREE candidate takes the lowest-numbered one. For one WANTED lane alone: it takes
that, or else the unprotected SEALED candidate with the oldest last time, whose reuse before the retention floor opens
RETENTION_SHORT and any other choice ends it; a FAULTY one is retired instead, without a retention check (the model's choice:
log 70); with no candidate ARCHIVE_STALLED opens once, and ends at the next choice; in a warm reset's flush the lane's flush
set is discarded instead. A lane that comes to hold a record, and a lane that is WANTED when the store's return to UP opens
the gate, make their attempt at once in the same way. In a state where every kept finding names its own lane or DEVICE, as
StepKeepsStatuses keeps it. -/
def Obligations.RetryTimerMakesAttempts : Prop :=
  (∀ s : State, timerDue s.retry s.clock = true → s.settled → s.findingsOwned →
      let only (l : LaneNo) : Prop :=
        s.gateOpen = true ∧ s.ac[l].alloc = .wanted ∧ ∀ k : LaneNo, k ≠ l → s.ac[k].alloc ≠ .wanted
      let chosen (x : Extent) : List Extent := s.extents.map (fun (y : Extent) => if y.no = x.no then
        { y with state := .erasing, tag := none, first := none, last := none, pages := 0, faulty := false } else y)
      let oldest (l : LaneNo) (x : Extent) : Prop :=
        (∀ y ∈ s.candidates l, y.state = .sealed) ∧ s.protects x = false ∧
        ∃ before after : List Extent, s.candidates l = before ++ x :: after ∧
          (∀ y ∈ before, s.protects y = false → x.last.getD 0 < y.last.getD 0) ∧
          (∀ y ∈ after, s.protects y = false → x.last.getD 0 ≤ y.last.getD 0)
      let reported (l : LaneNo) (t : State) : Prop :=
        t.ac[l].stalled = false ∧
        (s.ac[l].stalled = true → t.cm[l].stalledFinding = none) ∧
        (t.ac[l].short = true → s.ac[l].short = false → t.cm[l].shortFinding.isSome = true ∧
          (s.cm[l].shortFinding = none → t.notices.finding[l] = true)) ∧
        (t.ac[l].short = false → s.ac[l].short = true → t.cm[l].shortFinding = none)
      (s.gateOpen = false →
        ∃ n : Nat, exec .retryTimerExpiry s = .next { s with
          emitted := [], retry := some (s.clock + 1000), freeCount := n }) ∧
      (s.gateOpen = true → ∃ t, exec .retryTimerExpiry s = .next t ∧ State.leavesOthers s t ∧
        ∀ (l : LaneNo) (x : Extent), s.ac[l].alloc = .wanted →
          (s.candidates l).find? (fun x => x.state == .free) = some x → t.ac[l].alloc = .chosen x.no) ∧
      (∀ (l : LaneNo) (x : Extent), only l → (s.candidates l).find? (fun x => x.state == .free) = some x →
        (s.ac[l].stalled = false → s.ac[l].short = false →
          exec .retryTimerExpiry s = .next { s with
            emitted := []
            retry := none
            ac := s.ac.set l { s.ac[l] with alloc := .chosen x.no }
            extents := chosen x
            store := { s.store with erases := s.store.erases ++ [⟨x.no, some l⟩] } }) ∧
        ∃ t, exec .retryTimerExpiry s = .next t ∧ t.ac[l].alloc = .chosen x.no ∧ t.ac[l].short = false ∧
          reported l t ∧ t.extents = chosen x ∧ t.store.erases = s.store.erases ++ [⟨x.no, some l⟩] ∧
          t.retry = none ∧ State.leavesOthers s t) ∧
      (∀ (l : LaneNo) (x : Extent), only l → oldest l x → x.faulty = false →
        ∃ t, exec .retryTimerExpiry s = .next t ∧ t.ac[l].alloc = .chosen x.no ∧
          (t.ac[l].short = true ↔ s.settings.floorDays ≠ 0 ∧ ∃ now last : Nat, s.station = some now ∧
            x.last = some last ∧ now < last + s.settings.floorDays * 86400000) ∧
          reported l t ∧ t.extents = chosen x ∧ t.store.erases = s.store.erases ++ [⟨x.no, some l⟩] ∧
          t.retry = none ∧ State.leavesOthers s t) ∧
      (∀ (l : LaneNo) (x : Extent), only l → oldest l x → x.faulty = true →
        ∃ t, exec .retryTimerExpiry s = .next t ∧ t.ac[l].alloc ≠ .chosen x.no ∧
          (∀ y ∈ t.extents, y.no = x.no → y.state = .retired ∧ y.tag = none ∧ y.first = none ∧ y.last = none) ∧
          ((∀ y ∈ s.candidates l, y.no = x.no) → t.ac[l].short = s.ac[l].short) ∧
          State.leavesOthers s t) ∧
      (∀ l : LaneNo, only l → (∀ y ∈ s.candidates l, y.state = .sealed ∧ s.protects y = true) →
        (s.warm = none → s.ac[l].stalled = false →
          ∃ t, exec .retryTimerExpiry s = .next t ∧ t.ac[l].alloc = .wanted ∧ t.ac[l].stalled = true ∧
            t.cm[l].stalledFinding.isSome = true ∧
            (s.cm[l].stalledFinding = none → t.notices.finding[l] = true) ∧ t.extents = s.extents ∧ t.store = s.store ∧
            t.retry = some (s.clock + 1000) ∧ State.leavesOthers s t) ∧
        (s.warm = none → s.ac[l].stalled = true →
          exec .retryTimerExpiry s = .next { s with emitted := [], retry := some (s.clock + 1000) }) ∧
        (s.warm.isSome = true →
          exec .retryTimerExpiry s = .next { s with
            emitted := []
            retry := none
            ac := s.ac.set l { s.ac[l] with buffers := Vector.replicate 4 .empty, alloc := .idle } }))) ∧
  (∀ (s : State) (l : LaneNo), s.settled → s.findingsOwned → s.warm = none → s.ac[l].stalled = false →
    let free (x : Extent) : Prop := (s.candidates l).find? (fun x => x.state == .free) = some x
    let none_ : Prop := ∀ y ∈ s.candidates l, y.state = .sealed ∧ s.protects y = true
    let chooses (x : Extent) (t : State) : Prop :=
      t.ac[l].alloc = .chosen x.no ∧ t.ac[l].stalled = false ∧
      ∀ y ∈ t.extents, y.no = x.no → y.state = .erasing ∧ y.tag = none ∧ y.first = none ∧ y.last = none
    let stalls (t : State) : Prop :=
      t.ac[l].alloc = .wanted ∧ t.ac[l].stalled = true ∧ t.cm[l].stalledFinding.isSome = true ∧
      (s.cm[l].stalledFinding = none → t.notices.finding[l] = true) ∧ t.extents = s.extents
    (∀ bytes : List Byte, s.gateOpen = true → s.ac[l].alloc = .idle → s.ac[l].gaps.any = false →
      intakeCheck (s.laneEnabled l) l s.liu[l] (gather bytes) = none →
      (gather bytes).bytes.getD 1 0#8 = kindProxy →
      (∀ x : Extent, free x → ∃ t, exec (.inboundCell l bytes) s = .next t ∧ chooses x t ∧
        (s.anyWanted = false → t.store.erases = s.store.erases ++ [⟨x.no, some l⟩])) ∧
      (none_ → ∃ t, exec (.inboundCell l bytes) s = .next t ∧ stalls t ∧ t.store = s.store ∧
        t.retry = some (s.retry.getD (s.clock + 1000)))) ∧
    (∀ (n at_ : Nat) (d : Bool), s.store.inFlight = some ⟨⟨.identify, d⟩, at_⟩ → 16 ≤ n → n ≤ 65536 →
      s.store.up = false → s.store.count = some n → s.station.isSome = true → s.scanning = false → s.format = none →
      s.ac[l].alloc = .wanted →
      (∀ x : Extent, free x → ∃ t, exec (.identifyCompletion (.ok n)) s = .next t ∧ t.store.up = true ∧ chooses x t) ∧
      (none_ → (∀ k : LaneNo, k ≠ l → s.ac[k].alloc ≠ .wanted) → s.dev.storeLost.bind Finding.holdId = none →
        ∃ t, exec (.identifyCompletion (.ok n)) s = .next t ∧ t.store.up = true ∧ stalls t ∧ t.retry = s.retry)))

/-- The gap timer's expiry: the lane is LOST, its open tile closes and becomes the loss tile, the rate window and the last
accepted count are gone, the notice is set, and LANE_LOST is open. The record of that tile gives its power and loudness, or
none when it is void, its peak, whether it is silent, and the momentary and short-term values, and the engine keeps the tile
in its history, its filters and its last layout. Before its expiry the row does nothing (the model's reading: log 3). -/
def Obligations.GapTimerExpiryLosesTheLane : Prop :=
  ∀ (s : State) (l : LaneNo),
    (timerDue s.liu[l].gapTimer s.clock = true →
      ∃ t, exec (.gapTimerExpiry l) s = .next t ∧ t.liu[l].carriage = .lost ∧ t.liu[l].run = 0 ∧
        t.liu[l].gapTimer = none ∧ t.liu[l].window = none ∧ t.liu[l].lastCount = none ∧ t.liu[l].openTile = none ∧
        t.liu[l].lossTile = (match s.liu[l].openTile with
          | some o => some o
          | none => s.liu[l].lossTile) ∧
        (s.liu[l].carriage ≠ .lost → t.notices.carriage[l] = true ∧ t.cm[l].lost.finding.isSome = true) ∧
        (∀ a : TileAcc, s.liu[l].openTile.isSome = true → s.le[l].acc = some a →
          ∃ r : TileRecord, s.buildsRecord l a r ∧
            t.le[l] = { s.le[l] with
              acc := none
              history := newest30 (s.le[l].history ++ [⟨a.tile, closingPower a⟩])
              momentary := r.momentary
              shortTerm := r.shortTerm
              newest := some r }) ∧
        (s.liu[l].openTile = none → t.le[l] = s.le[l]) ∧
        (∀ k : LaneNo, k ≠ l → t.le[k] = s.le[k] ∧ t.st[k] = s.st[k] ∧ s.liu[k].sameCarriage t.liu[k]) ∧
        t.settings = s.settings ∧ t.station = s.station ∧ t.cc = s.cc ∧ t.slots = s.slots) ∧
    (timerDue s.liu[l].gapTimer s.clock = false → exec (.gapTimerExpiry l) s = .next { s with emitted := [] })

/-- A rate window that completes is compared with the lane's bounds, and the next one begins. -/
def Obligations.RateWindowIsJudged : Prop :=
  ∀ (s : State) (l : LaneNo) (w : RateWindow), s.liu[l].window = some w → w.start + 10000 ≤ s.clock →
    let x := s.laneSettings l
    let within := x.rateLow ≤ w.count ∧ w.count ≤ x.rateHigh
    (∃ t, exec (.rateWindowCompletion l) s = .next t ∧ t.liu[l].window = some ⟨s.clock, 0⟩ ∧
      t.liu[l].gapTimer = s.liu[l].gapTimer ∧ t.liu[l].openTile = s.liu[l].openTile ∧
      (s.liu[l].carriage = .present → ¬ within → t.liu[l].carriage = .drift ∧ t.notices.carriage[l] = true ∧
        t.cm[l].drift.finding.isSome = true) ∧
      (s.liu[l].carriage = .drift → within → t.liu[l].carriage = .present ∧ t.notices.carriage[l] = true ∧
        t.cm[l].lost.finding = none ∧ t.cm[l].drift.finding = none) ∧
      State.leavesOthers s t) ∧
    (s.settled → (s.liu[l].carriage = .present → within) → (s.liu[l].carriage = .drift → ¬ within) →
      exec (.rateWindowCompletion l) s = .next { s with
        emitted := [], liu := s.liu.set l { s.liu[l] with window := some ⟨s.clock, 0⟩ } })

/-- Condition findings. A grace timer's expiry makes the lane's PENDING finding ACTIVE from that moment, and the timer is
stopped. DEAD_AIR and CAPTION_GAP count a run of tiles and open their finding when it reaches the limit, ST_CEILING opens
its finding above the ceiling; each is PENDING for the rule set's grace in tiles that hold it, keeps its measured value
current, and is settled by the tile that ends it, from which the check is fresh (start times unset: log 63), or by the
segment's close. -/
def Obligations.GraceExpiryActivatesTheFinding : Prop :=
  (∀ (s : State) (l : LaneNo) (w : LaneCondition) (f : Finding), timerDue (s.cm[l].cond w).grace s.clock = true →
    (s.cm[l].cond w).finding = some f →
    ∃ t g, exec (.laneGraceExpiry l w) s = .next t ∧ t.cm[l].cond w = ⟨some g, none⟩ ∧
      g.id = f.id ∧ g.state = .active ∧ g.activated = some s.station ∧ g.severity = f.severity ∧
      g.opened = f.opened ∧ g.lane = f.lane ∧ State.leavesOthers s t) ∧
  (∀ (s : State) (l : LaneNo) (rule : RuleSet) (segId : Nat) (duty : Duty) (r : TileRecord),
    let opens (kind : FindingKind) (severity : Severity) (measured limit : Int) (x : Option Finding) (t : State) :
        Prop :=
      ∃ f, x = some f ∧ f.id = s.dev.nextId ∧ f.lane = some l ∧ f.kind = kind ∧ f.severity = severity ∧
        f.state = (if rule.grace = 0 then .active else .pending) ∧ f.segId = some segId ∧ f.opened = r.closeTime ∧
        f.measured = some measured ∧ f.limit = some limit ∧ t.dev.nextId = nextFindingId s.dev.nextId ∧
        t.notices.finding[l] = true
    let holds (f : Finding) (measured : Int) (grace grace' : Nat) (x : Option Finding) : Prop :=
      ∃ g, x = some g ∧ g.id = f.id ∧ g.kind = f.kind ∧ g.opened = f.opened ∧ g.measured = some measured ∧
        (f.state = .pending → grace' = grace + 1 ∧
          (grace + 1 < rule.grace → g.state = .pending) ∧
          (rule.grace ≤ grace + 1 → g.state = .active ∧ g.activated = some r.closeTime)) ∧
        (f.state ≠ .pending → grace' = grace ∧ g.state = f.state ∧ g.activated = f.activated)
    let settles (f : Option Finding) (t : State) : Prop :=
      (∀ x, f = some x → x.settledIn r.closeTime t) ∧ (f = none → t = s) ∧
      t.dev.log.map Finding.id = s.dev.log.map Finding.id ∧ t.dev.nextId = s.dev.nextId
    let counts (kind : FindingKind) (severity : Severity) (limit : Nat) (c : RunCond) (x : RunCond × State) : Prop :=
      x.1.run = c.run + 1 ∧ x.1.start = (if c.run = 0 then r.closeTime else c.start) ∧
      (c.finding = none → c.run + 1 < limit → x.1.finding = none ∧ x.1.grace = c.grace ∧ x.2 = s) ∧
      (c.finding = none → limit ≤ c.run + 1 →
        opens kind severity ((c.run + 1 : Nat) : Int) limit x.1.finding x.2 ∧ x.1.grace = 0) ∧
      (∀ f, c.finding = some f → holds f ((c.run + 1 : Nat) : Int) c.grace x.1.grace x.1.finding)
    (∀ c : RunCond,
      let x := s.deadAirTile l rule segId r c
      (r.void = true → x = (c, s)) ∧
      (r.void = false → r.silent = true → counts .deadAir rule.severities.deadAir rule.deadAirLimit c x) ∧
      (r.void = false → r.silent = false → x.1 = ⟨0, none, 0, none⟩ ∧ settles c.finding x.2)) ∧
    (∀ c : RunCond,
      let x := s.captionGapTile l rule duty segId r c
      (duty = .exempt ∨ r.void = true → x = (c, s)) ∧
      (duty = .required → r.void = false → r.alive = false →
        counts .captionGap rule.severities.captionGap rule.gapLimit c x) ∧
      (duty = .required → r.void = false → r.alive = true → x.1 = ⟨0, none, 0, none⟩ ∧ settles c.finding x.2)) ∧
    (∀ c : OverCond,
      let x := s.shortTermTile l rule segId r c
      let value := r.shortTerm.value
      (rule.shortCeiling = none ∨ r.void = true ∨ r.shortTerm.stale = true → x = (c, s)) ∧
      (∀ ceiling : Int, rule.shortCeiling = some ceiling → r.void = false → r.shortTerm.stale = false →
        (value ≤ ceiling → x.1 = ⟨false, none, 0, none⟩ ∧ settles c.finding x.2) ∧
        (ceiling < value → c.isOver = false →
          x.1.isOver = true ∧ x.1.start = r.closeTime ∧ x.1.grace = 0 ∧
          opens .stCeiling rule.severities.stCeiling value ceiling x.1.finding x.2) ∧
        (∀ (f : Finding) (top : Int), ceiling < value → c.isOver = true → c.finding = some f → f.measured = some top →
          x.1.isOver = true ∧ x.1.start = c.start ∧ holds f (max value top) c.grace x.1.grace x.1.finding)))) ∧
  (∀ (s : State) (l : LaneNo) (w : Watched) (time : Time), s.cm[l].watched = some w →
    let findings := w.deadAir.finding.toList ++ w.captionGap.finding.toList ++ w.stCeiling.finding.toList
    (s.unwatch l time).cm[l].watched = none ∧
    (s.unwatch l time).dev.log.map Finding.id = s.dev.log.map Finding.id ∧
    ∀ f ∈ findings, (∀ g ∈ findings, g.id = f.id → g = f) → f.settledIn time (s.unwatch l time))

/-! ### The store -/

/-- The Store Port issues the interrupted operation before any other, then a system extent write, a scan read, the lane
program that became ready earliest, the erase queued first, and a recall read, of two slots the one that did not have the
most recent; with nothing to issue, or while it may not issue, it does nothing. That the append page advances at the issue
is the model's choice (log 65), and so is the 0 that a header or seal page carries for a first time of 2^48 (log 83). -/
def Obligations.StoreIssuesInOrder : Prop :=
  ∀ s : State,
    (s.mayIssue = false → exec .storeIssue s = .next { s with emitted := [] }) ∧
    (∀ j : StoreJob, s.mayIssue = true → s.store.interrupted = some j →
      exec .storeIssue s = .next { s with
        emitted := [.storeOp j.op (j.op.page (s.bufferRecords j.op))]
        store := { s.store with inFlight := some ⟨j, s.clock⟩, interrupted := none } }) ∧
    (∀ (w : SysWrite) (rest : List SysWrite) (p : Nat), s.mayIssue = true → s.store.interrupted = none →
      s.settingsKnown = true → s.sys.queue = w :: rest → s.sys.appendPage = some p →
      exec .storeIssue s = .next { s with
        emitted := [.storeOp (.sysProgram p w) (copyPage w)]
        sys := { s.sys with queue := rest, appendPage := if p < 4095 then some (p + 1) else none }
        store := { s.store with inFlight := some ⟨⟨.sysProgram p w, false⟩, s.clock⟩ } }) ∧
    (s.mayIssue = true → s.store.interrupted = none → s.settingsKnown = true → s.sys.queue ≠ [] →
      s.sys.appendPage = none →
      exec .storeIssue s = .next { s with
        emitted := [.storeOp .sysErase []]
        store := { s.store with inFlight := some ⟨⟨.sysErase, false⟩, s.clock⟩ } }) ∧
    (∀ (p : Nat) (f : Found), s.mayIssue = true → s.store.interrupted = none → s.scan = .system p f →
      exec .storeIssue s = .next { s with
        emitted := [.storeOp (.scanRead 0 p) []]
        store := { s.store with inFlight := some ⟨⟨.scanRead 0 p, false⟩, s.clock⟩ } }) ∧
    (∀ (ext page : Nat) (stage : ScanStage) (defaulted : Bool), s.mayIssue = true → s.store.interrupted = none →
      s.sys.queue = [] → s.scan = .extents ext stage defaulted →
      (page = match stage with
        | .header => 0
        | .sealPage _ _ => 4095
        | .content _ _ n _ => n) →
      exec .storeIssue s = .next { s with
        emitted := [.storeOp (.scanRead ext page) []]
        store := { s.store with inFlight := some ⟨⟨.scanRead ext page, false⟩, s.clock⟩ } }) ∧
    (∀ l : LaneNo, s.mayIssue = true → s.store.interrupted = none → s.sys.queue = [] → s.scan = .done →
      let first (ready : Nat) : Prop := ∀ (k : LaneNo) (o : Offer), k ≠ l → s.laneOffer k = some o → ready < o.ready
      let programs (what : LanePage) (ext page : Nat) (bytes : List Byte) (a : AcLane) : Prop :=
        exec .storeIssue s = .next { s with
          emitted := [.storeOp (.laneProgram l what ext page) bytes]
          ac := s.ac.set l a
          store := { s.store with inFlight := some ⟨⟨.laneProgram l what ext page, false⟩, s.clock⟩ } }
      (∀ (x : PendingSeal) (rest : List PendingSeal), s.ac[l].seals = x :: rest → first x.ready →
        programs (.sealPage x) x.ext x.page (sealPageOf x) { s.ac[l] with seals := rest }) ∧
      (∀ w : WritePoint, s.ac[l].seals = [] → s.ac[l].alloc = .writing w → w.headerDone = false → first w.ready →
        let t := ((s.extentOf w.ext).bind Extent.first).getD w.openTime
        programs (.header w.openTime t w.generation) w.ext 0 (headerPage l w.openTime t w.generation w.ext) s.ac[l]) ∧
      (∀ (w : WritePoint) (i : Fin 4) (x : Extent), s.ac[l].seals = [] → s.ac[l].alloc = .writing w →
        w.headerDone = true → s.extentOf w.ext = some x → s.ac[l].buffers[i].state = .waiting →
        (∀ j : Fin 4, j ≠ i → s.ac[l].buffers[j].state = .waiting →
          s.ac[l].buffers[i].ready < s.ac[l].buffers[j].ready) →
        first s.ac[l].buffers[i].ready →
        programs (.content i) w.ext (x.pages + 1) (contentPage s.ac[l].buffers[i].records)
          { s.ac[l] with
            buffers := s.ac[l].buffers.set i { s.ac[l].buffers[i] with state := .programming } })) ∧
    (s.mayIssue = true → s.store.interrupted = none → s.sys.queue = [] → s.scan = .done →
      (∀ l : LaneNo, s.laneOffer l = none) →
      (∀ (e : EraseWait) (rest : List EraseWait), s.store.erases = e :: rest →
        let op : StoreOp := match e.lane with
          | some l => .laneErase l e.ext
          | none => .formatErase e.ext
        exec .storeIssue s = .next { s with
          emitted := [.storeOp op []]
          store := { s.store with erases := rest, inFlight := some ⟨⟨op, false⟩, s.clock⟩ } }) ∧
      (∀ (k : SlotNo) (ext page : Nat), s.store.erases = [] → s.slots[k].state = .running → s.slots[k].page = [] →
        s.slots[k].position = some (ext, page) →
        (∀ m : SlotNo, m ≠ k → s.slots[m].offersRead = none ∨ s.store.lastRecall = some m) →
        exec .storeIssue s = .next { s with
          emitted := [.storeOp (.recallRead k ext page) []]
          store := { s.store with
            lastRecall := some k, inFlight := some ⟨⟨.recallRead k ext page, false⟩, s.clock⟩ } })) ∧
    (s.mayIssue = true → s.store.interrupted = none → s.nextOp = none →
      exec .storeIssue s = .next { s with emitted := [] })

/-- A timeout makes a store that was UP DOWN, opens STORE_LOST and sets the next IDENTIFY 5 s later; while DOWN an IDENTIFY
that is due is issued and the next is set 5 s later. A timeout that is not due, and an IDENTIFY retry while UP, do nothing
(the model's reading: log 3); what becomes the interrupted operation is R136's list less withdrawn reads and erases (log
19). -/
def Obligations.StoreTimeoutAndIdentifyRetry : Prop :=
  ∀ s : State,
    (∀ f : InFlight, s.store.inFlight = some f → f.issued + 500 ≤ s.clock → s.store.up = true →
      ∃ t, exec .storeTimeout s = .next t ∧ t.store.up = false ∧ t.store.inFlight = none ∧
        t.store.nextIdentify = some (s.clock + 5000) ∧
        t.store.interrupted = (if f.job.kept then some f.job else none) ∧ t.store.count = s.store.count ∧
        t.dev.storeLost.isSome = true ∧ t.settings = s.settings ∧ t.le = s.le ∧ t.cc = s.cc ∧ t.st = s.st ∧
        t.verdicts = s.verdicts ∧ t.slots = s.slots ∧ t.link = s.link ∧ t.scan = s.scan ∧ t.format = s.format) ∧
    (∀ f : InFlight, s.store.inFlight = some f → f.issued + 500 ≤ s.clock → s.store.up = false → s.settled →
      exec .storeTimeout s = .next { s with emitted := [], store := { s.store with inFlight := none } }) ∧
    (∀ f : InFlight, s.store.inFlight = some f → s.clock < f.issued + 500 →
      exec .storeTimeout s = .next { s with emitted := [] }) ∧
    (s.store.up = false → timerDue s.store.nextIdentify s.clock = true → s.store.inFlight = none →
      exec .identifyRetry s = .next { s with
        emitted := [.storeOp .identify []]
        store := { s.store with
          nextIdentify := some (s.clock + 5000), inFlight := some ⟨⟨.identify, false⟩, s.clock⟩ } }) ∧
    (s.store.up = true → exec .identifyRetry s = .next { s with emitted := [] })

/-- An IDENTIFY's completion: the first good count begins the scan and brings a store that is DOWN UP, an equal count brings
the store back UP, another count leaves it DOWN, and a failure takes it DOWN. -/
def Obligations.IdentifyCompletionSetsTheStoreState : Prop :=
  ∀ (s : State) (d : Bool) (at_ : Nat), s.store.inFlight = some ⟨⟨.identify, d⟩, at_⟩ →
    (∀ n : Nat, 16 ≤ n → n ≤ 65536 → s.store.up = true → s.store.count = none → s.settled →
      exec (.identifyCompletion (.ok n)) s = .next { s with
        emitted := []
        store := { s.store with inFlight := none, returned := some n, count := some n }
        extents := (List.range n).map (fun e => ⟨e, if e = 0 then .system else .free, none, none, none, 0, false⟩)
        scan := .system 0 ⟨none, none, none⟩ }) ∧
    (∀ n : Nat, 16 ≤ n → n ≤ 65536 → s.store.up = false → s.store.count = none →
      ∃ t, exec (.identifyCompletion (.ok n)) s = .next t ∧ t.store.up = true ∧ t.store.nextIdentify = none ∧
        t.store.count = some n ∧ t.store.returned = some n ∧ t.store.inFlight = none ∧ t.dev.storeLost = none ∧
        t.extents = (List.range n).map (fun e => ⟨e, if e = 0 then .system else .free, none, none, none, 0, false⟩) ∧
        t.scan = .system 0 ⟨none, none, none⟩ ∧ State.leavesOthers s t) ∧
    (∀ n : Nat, 16 ≤ n → n ≤ 65536 → s.store.up = false → s.store.count = some n →
      ∃ t, exec (.identifyCompletion (.ok n)) s = .next t ∧ t.store.up = true ∧ t.store.nextIdentify = none ∧
        t.store.count = some n ∧ t.store.inFlight = none ∧ t.store.interrupted = s.store.interrupted ∧
        t.dev.storeLost = none ∧ State.leavesOthers s t) ∧
    (∀ n m : Nat, 16 ≤ n → n ≤ 65536 → s.store.up = false → s.store.count = some m → n ≠ m → s.settled →
      exec (.identifyCompletion (.ok n)) s = .next { s with
        emitted := [], store := { s.store with inFlight := none, returned := some n } }) ∧
    (∀ r : IdentifyResult, (r = .fail ∨ ∃ n, r = .ok n ∧ (n < 16 ∨ 65536 < n)) →
      (s.store.up = true →
        ∃ t, exec (.identifyCompletion r) s = .next t ∧ t.store.up = false ∧ t.store.inFlight = none ∧
          t.store.nextIdentify = some (s.clock + 5000) ∧ t.dev.storeLost.isSome = true ∧
          t.settings = s.settings ∧ t.st = s.st ∧ t.le = s.le ∧ t.cc = s.cc) ∧
      (s.store.up = false → s.settled →
        exec (.identifyCompletion r) s = .next { s with
          emitted := [], store := { s.store with inFlight := none } }))

/-- A lane page program's completion. OK: a header opens the content pages, a content page counts in its extent and its
buffer is FREE, page 4094 and the last program of a flush set seal the extent and offer its seal, and a seal changes nothing
more. FAIL: a content page shuts its extent at the last good page, FAULTY, or frees it when it has none, and its buffer
waits again; a header retires its extent; a seal makes its extent FAULTY, unless it has been chosen for reuse since, which
then takes no flag (the model's choice: log 53); each reports STORE_FAULT. A lane that still holds records makes its next
attempt at once: it takes its lowest FREE candidate, which may be the extent just freed, and one that holds none is IDLE (with
no lane WANTED and every kept finding naming its own lane, nothing else changes in the extents). A
completion that a format or a warm reset has given up is discarded, and with nothing in flight the row does nothing (the
model's reading: log 3). -/
def Obligations.LaneProgramCompletes : Prop :=
  ∀ (s : State) (l : LaneNo) (ext page at_ : Nat), s.settled →
    let flying (what : LanePage) (discard : Bool) : Prop :=
      s.store.inFlight = some ⟨⟨.laneProgram l what ext page, discard⟩, at_⟩
    let faulted (t : State) : Prop :=
      t.notices.finding[l] = true ∧ t.store.inFlight = none ∧ State.leavesOthers s t
    let left (t : State) : Prop := ∀ v : WritePoint, t.ac[l].alloc ≠ .writing v
    let next (z : Extent) : Prop :=
      s.gateOpen = true ∧ (s.candidates l).find? (fun x => x.state == .free) = some z ∧ z.no ≠ ext
    let owner (n : Nat) : Option LaneNo := s.settings.extentMap.owner s.extents.length n
    let takes (z : Extent) (change : Extent → Extent) (t : State) : Prop :=
      t.ac[l].alloc = .chosen z.no ∧
      (s.anyWanted = false → s.findingsOwned →
        t.extents = s.extents.map (fun (y : Extent) => if y.no = ext then change y
          else if y.no = z.no then
            { y with state := .erasing, tag := none, first := none, last := none, pages := 0, faulty := false }
          else y) ∧
        t.store.erases = s.store.erases ++ [⟨z.no, some l⟩])
    (∀ (o f g : Nat) (w : WritePoint), s.ac[l].alloc = .writing w → flying (.header o f g) false →
      exec (.laneProgramCompletion true) s = .next { s with
        emitted := []
        ac := s.ac.set l { s.ac[l] with alloc := .writing { w with headerDone := true } }
        store := { s.store with inFlight := none } }) ∧
    (∀ (i : Fin 4) (w : WritePoint), s.ac[l].alloc = .writing w → page ≠ 4094 →
      s.ac[l].buffers[i].sealAfter = false → flying (.content i) false →
      exec (.laneProgramCompletion true) s = .next (State.reportBuffers l { s with
        emitted := []
        ac := s.ac.set l { s.ac[l] with buffers := s.ac[l].buffers.set i ⟨.free, [], 0, false⟩ }
        extents := s.extents.map (fun (x : Extent) => if x.no = ext then
          { x with
            pages := x.pages + 1
            last := some (latestTime (x.last.getD 0) s.ac[l].buffers[i].records) } else x)
        store := { s.store with inFlight := none } })) ∧
    (∀ (i : Fin 4) (w : WritePoint) (x : Extent), s.ac[l].alloc = .writing w →
      page = 4094 ∨ s.ac[l].buffers[i].sealAfter = true → s.extentOf ext = some x → flying (.content i) false →
      let last (y : Extent) : Nat := latestTime (y.last.getD 0) s.ac[l].buffers[i].records
      let sealed (y : Extent) : Extent := { y with state := .sealed, pages := y.pages + 1, last := some (last y) }
      let freed : Vector PageBuffer 4 := s.ac[l].buffers.set i ⟨.free, [], 0, false⟩
      let holdsNone (b : PageBuffer) : Prop := b.state = .free ∨ (b.state = .filling ∧ b.records = [])
      ∃ t, exec (.laneProgramCompletion true) s = .next t ∧
        t.ac[l].seals = s.ac[l].seals ++ [⟨ext, x.pages + 2, x.first.getD 0, last x, x.pages + 1, s.stamp⟩] ∧
        left t ∧ t.store.inFlight = none ∧ State.leavesOthers s t ∧
        ((∀ j : Fin 4, j ≠ i → holdsNone s.ac[l].buffers[j]) →
          t.ac[l].alloc = .idle ∧ t.ac[l].buffers = freed ∧
          t.extents = s.extents.map (fun (y : Extent) => if y.no = ext then sealed y else y) ∧
          t.store.erases = s.store.erases) ∧
        (∀ (j : Fin 4) (z : Extent), j ≠ i → ¬ holdsNone s.ac[l].buffers[j] → next z →
          takes z sealed t ∧
          (s.ac[l].stalled = false → s.ac[l].short = false → t.ac[l].buffers = freed))) ∧
    (∀ x : PendingSeal, flying (.sealPage x) false →
      exec (.laneProgramCompletion true) s = .next { s with
        emitted := [], store := { s.store with inFlight := none } }) ∧
    (∀ (what : LanePage) (ok : Bool), flying what true →
      exec (.laneProgramCompletion ok) s = .next { s with
        emitted := [], store := { s.store with inFlight := none } }) ∧
    (∀ ok : Bool, s.store.inFlight = none →
      exec (.laneProgramCompletion ok) s = .next { s with emitted := [] }) ∧
    (∀ what : LanePage, flying what false → ∃ t, exec (.laneProgramCompletion false) s = .next t ∧ faulted t) ∧
    (∀ (i : Fin 4) (w : WritePoint), s.ac[l].alloc = .writing w → flying (.content i) false →
      let waits (t : State) : Prop := t.ac[l].buffers[i] = { s.ac[l].buffers[i] with state := .waiting }
      ∃ t, exec (.laneProgramCompletion false) s = .next t ∧ faulted t ∧ left t ∧
        (s.warm = none → waits t ∧ t.ac[l].alloc ≠ .idle) ∧
        ((∀ y ∈ s.extents, y.no = ext → y.pages ≠ 0) →
          (∀ y ∈ t.extents, y.no = ext →
            (∃ x ∈ s.extents, y = { x with state := .sealed, faulty := true }) ∨
            (y.state = .retired ∧ y.tag = none ∧ y.first = none ∧ y.last = none)) ∧
          (∀ z : Extent, next z → waits t ∧ takes z (fun y => { y with state := .sealed, faulty := true }) t)) ∧
        ((∀ y ∈ s.extents, y.no = ext → y.pages = 0) →
          (∀ y ∈ t.extents, y.no = ext →
            (y.state = .free ∨ y.state = .erasing) ∧ y.tag = none ∧ y.first = none ∧ y.last = none) ∧
          (∀ z : Extent, next z →
            owner ext ≠ some l ∨ (∃ before after, s.extents = before ++ z :: after ∧ ∀ y ∈ before, y.no ≠ ext) →
            waits t ∧ takes z
              (fun y => { y with state := .free, tag := none, first := none, last := none, pages := 0 }) t) ∧
          (∀ (before after : List Extent) (x : Extent), s.gateOpen = true → s.extents = before ++ x :: after →
            x.no = ext → owner ext = some l → (∀ y ∈ before, y.state = .free → owner y.no ≠ some l) →
            waits t ∧ t.ac[l].alloc = .chosen ext))) ∧
    (∀ (o f g : Nat) (w : WritePoint), s.ac[l].alloc = .writing w → flying (.header o f g) false →
      ∃ t, exec (.laneProgramCompletion false) s = .next t ∧ faulted t ∧ left t ∧
        (∀ y ∈ t.extents, y.no = ext →
          y.state = .retired ∧ y.tag = none ∧ y.first = none ∧ y.last = none ∧ y.pages = 0) ∧
        (s.warm = none → ∀ j : Fin 4, s.ac[l].buffers[j].state = .waiting →
          t.ac[l].buffers[j] = s.ac[l].buffers[j] ∧ t.ac[l].alloc ≠ .idle) ∧
        (∀ (j : Fin 4) (z : Extent), s.ac[l].buffers[j].state = .waiting → next z →
          t.ac[l].buffers[j] = s.ac[l].buffers[j] ∧
          takes z (fun y => { y with state := .retired, tag := none, first := none, last := none, pages := 0 }) t)) ∧
    (∀ x : PendingSeal, flying (.sealPage x) false →
      ∃ t, exec (.laneProgramCompletion false) s = .next t ∧ faulted t ∧
        ((∀ y ∈ s.extents, y.no = ext → y.state = .sealed ∧ y.tag = some l) →
          ∀ y ∈ t.extents, y.no = ext → y.faulty = true ∧
            ((y.state = .sealed ∧ y.tag = some l) ∨ (y.state = .retired ∧ y.tag = none))) ∧
        (s.ac[l].alloc ≠ .idle →
          t.ac[l].alloc = s.ac[l].alloc ∧
          t.extents = s.extents.map (fun (y : Extent) => if y.no = ext ∧ y.state = .sealed ∧ y.tag = some l then
            { y with faulty := true } else y)))

/-- A system extent program's completion and an erase's: a settings image becomes the saved one and a SAVE is reported, a
copy that failed goes to the next page, an erase that failed abandons every write. -/
def Obligations.SystemExtentOperationsComplete : Prop :=
  ∀ (s : State) (p at_ : Nat) (d : Bool),
    (∀ w : SysWrite, s.store.inFlight = some ⟨⟨.sysProgram p w, d⟩, at_⟩ →
      (∀ x : Settings, w.content = .image x → w.isSave = true →
        exec (.systemProgramCompletion true) s = .next { s with
          emitted := [], store := { s.store with inFlight := none }, sys := { s.sys with saved := some x }
          notices := { s.notices with saveDone := some true }, saveInFlight := false }) ∧
      (∀ x : Settings, w.content = .image x → w.isSave = false →
        exec (.systemProgramCompletion true) s = .next { s with
          emitted := [], store := { s.store with inFlight := none }, sys := { s.sys with saved := some x } }) ∧
      (∀ x : HoldTable, w.content = .holds x →
        exec (.systemProgramCompletion true) s = .next { s with
          emitted := [], store := { s.store with inFlight := none } }) ∧
      exec (.systemProgramCompletion false) s = .next { s with
        emitted := [], store := { s.store with inFlight := none }
        sys := { s.sys with queue := w :: s.sys.queue } }) ∧
    (s.store.inFlight = some ⟨⟨.sysErase, d⟩, at_⟩ →
      (∃ queue next, exec (.systemEraseCompletion true) s = .next { s with
          emitted := [], store := { s.store with inFlight := none }
          sys := { s.sys with appendPage := some 0, queue := queue, nextCopy := next } } ∧
        queue.map SysWrite.content = (s.sys.saved.map CopyContent.image).toList ++ [.holds s.holds]
          ++ s.sys.queue.map SysWrite.content) ∧
      (∃ t, exec (.systemEraseCompletion false) s = .next t ∧ t.sys.queue = [] ∧ t.store.inFlight = none ∧
        t.dev.nextId = nextFindingId s.dev.nextId ∧ t.notices.deviceFinding = true ∧
        (s.sys.queue.any SysWrite.isSave = true → t.saveInFlight = false ∧ t.notices.saveDone = some false) ∧
        (s.sys.queue.any SysWrite.isSave = false → t.saveInFlight = s.saveInFlight) ∧
        t.settings = s.settings ∧ t.holds = s.holds ∧ t.ac = s.ac ∧ t.extents = s.extents))

/-- The erase of a lane's chosen extent: OK makes it OPEN for the lane, whose header is then offered, FAIL retires it, and
one that has been withdrawn is discarded. A first time past 2^48 - 1, and that of a lane which holds no record, are the
model's choice (log 83). -/
def Obligations.LaneEraseCompletes : Prop :=
  ∀ (s : State) (l : LaneNo) (ext at_ : Nat),
    (∀ now : Nat, s.settled → s.station = some now → s.ac[l].alloc = .chosen ext → s.anyWanted = false →
      s.store.inFlight = some ⟨⟨.laneErase l ext, false⟩, at_⟩ →
      exec (.laneEraseCompletion true) s = .next { s with
        emitted := []
        stamp := s.stamp + 1
        retry := none
        ac := s.ac.set l { s.ac[l] with alloc := .writing ⟨ext, now, s.sys.generation, false, s.stamp⟩ }
        extents := s.extents.map (fun (x : Extent) => if x.no = ext then
          { x with
            state := .opened, tag := some l, first := some (s.firstTime l now), last := none, pages := 0 } else x)
        store := { s.store with inFlight := none } }) ∧
    (s.store.inFlight = some ⟨⟨.laneErase l ext, false⟩, at_⟩ →
      ∃ t, exec (.laneEraseCompletion false) s = .next t ∧ t.store.inFlight = none ∧ t.notices.finding[l] = true ∧
        (∀ x ∈ t.extents, x.no = ext → x.state = .retired ∧ x.tag = none ∧ x.first = none ∧ x.last = none) ∧
        State.leavesOthers s t) ∧
    (∀ ok : Bool, s.store.inFlight = some ⟨⟨.laneErase l ext, true⟩, at_⟩ →
      exec (.laneEraseCompletion ok) s = .next { s with
        emitted := [], store := { s.store with inFlight := none } })

/-- A format erase: OK makes its extent FREE, FAIL makes it RETIRED; the last of them completes the format, and a lane that is
WANTED may then choose the extent it freed. -/
def Obligations.FormatEraseCompletes : Prop :=
  ∀ (s : State) (ext left at_ : Nat) (d : Bool), s.store.inFlight = some ⟨⟨.formatErase ext, d⟩, at_⟩ →
    s.format = some left → s.settled →
    (1 < left →
      ∃ n : Nat, exec (.formatEraseCompletion true) s = .next { s with
        emitted := []
        freeCount := n
        format := some (left - 1)
        extents := s.extents.map (fun (x : Extent) => if x.no = ext then
          { x with state := .free, tag := none, first := none, last := none, pages := 0, faulty := false } else x)
        store := { s.store with inFlight := none } }) ∧
    (1 < left →
      ∃ t, exec (.formatEraseCompletion false) s = .next t ∧ t.format = some (left - 1) ∧
        (∀ x ∈ t.extents, x.no = ext → x.state = .retired) ∧ t.notices.deviceFinding = true ∧
        t.dev.nextId = nextFindingId s.dev.nextId ∧ State.leavesOthers s t) ∧
    (∀ ok : Bool, left ≤ 1 →
      ∃ t, exec (.formatEraseCompletion ok) s = .next t ∧ t.format = none ∧ t.notices.formatDone = true ∧
        (∀ r : Nat, s.alarm.configTimer = .paused r → t.alarm.configTimer = .running (s.clock + r)) ∧
        (∀ x ∈ t.extents, x.no = ext → x.tag = none ∧ x.first = none ∧ x.last = none ∧
          (ok = true → (x.state = .free ∨ x.state = .erasing) ∧ x.faulty = false) ∧ (ok = false → x.state = .retired)) ∧
        (s.anyWanted = false → t.extents = s.extents.map (fun (x : Extent) => if x.no = ext then
          { x with
            state := if ok then .free else .retired, tag := none, first := none, last := none, pages := 0
            faulty := if ok then false else x.faulty } else x)) ∧
        (ok = false → t.notices.deviceFinding = true ∧
          (s.anyWanted = false → t.dev.nextId = nextFindingId s.dev.nextId)) ∧
        t.settings = s.settings ∧ t.st = s.st ∧ t.le = s.le ∧ t.cc = s.cc)

/-- The scan: pages of extent 0 are read in order and valid copies kept. An ERASED page, or page 4095, ends the first phase:
the settings take the image found, or the defaults, and the saved holds join the table. A header that cannot be read or
names no lane (the model's reading: log 24) is passed over; a good seal makes its extent SEALED; without one the content
pages are searched upward to a seal, or to the stop, which is FAULTY unless it is an ERASED page (log 23, 25). Whatever read
is the last of the last extent ends the scan, and the holds restored with an end that a finding left open are closed by
their lane's newest SEALED extent, and a copy of the closed table is queued. A page that holds no record
leaves the last time as it was (log 69). Records and holds of damaged pages are read by log 35, 67
and 78. -/
def Obligations.ScanReadsAdvanceTheScan : Prop :=
  ∀ (s : State) (e p at_ : Nat) (d : Bool), s.store.inFlight = some ⟨⟨.scanRead e p, d⟩, at_⟩ → s.settled →
    let restored (found : Found) (append : Option Nat) (t : State) : Prop :=
      t.scan = .extents 1 .header found.image.isNone ∧
      t.settings = (found.image.map Prod.snd).getD .default ∧ t.alarm.inForce = t.settings.protocolSet ∧
      t.sys.appendPage = append ∧ t.sys.saved = found.image.map Prod.snd ∧
      t.sys.generation = (found.newest.map Prod.snd).getD 0 ∧
      (∀ saved : HoldTable, found.holds.map Prod.snd = some saved →
        s.holds.table.length + saved.table.length ≤ 64 → ((s.holds.table ++ saved.table).map Hold.id).Nodup →
        t.holds.table.Perm (s.holds.table ++ saved.table) ∧ t.holds.next = saved.next ∧
        (s.holds.table = [] → saved.table.Pairwise (fun g h => g.id < h.id) → t.holds = saved) ∧
        (s.sys.queue = [] → t.sys.queue = [] ∧
          t.sys.nextCopy = (found.newest.map (fun x => next32 x.1)).getD 1)) ∧
      (found.holds = none → t.holds = { s.holds with next := 1 } ∧
        (s.sys.queue = [] → t.sys.queue = [] ∧
          t.sys.nextCopy = (found.newest.map (fun x => next32 x.1)).getD 1)) ∧
      t.extents = s.extents ∧ t.liu = s.liu ∧ t.le = s.le ∧ t.st = s.st ∧ t.dev = s.dev
    let goesOn (r : ReadResult) (scan : Scan) (extents : List Extent) : Prop :=
      exec (.scanReadCompletion r) s = .next { s with
        emitted := [], store := { s.store with inFlight := none }, scan := scan, extents := extents }
    let taken (r : ReadResult) (ext : Nat) (defaulted : Bool) (extents : List Extent) : Prop :=
      (ext + 1 < s.extents.length → goesOn r (.extents (ext + 1) .header defaulted) extents) ∧
      (s.extents.length ≤ ext + 1 →
        ∃ t, exec (.scanReadCompletion r) s = .next t ∧ t.scan = .done ∧ t.notices.scanDone = true ∧
          (defaulted = true → t.notices.deviceFinding = true) ∧
          (s.station = none → t.extents = extents ∧ t.holds.next = s.holds.next ∧
            List.Forall₂ (fun h g => g.restored = false ∧
              (h.restored = true → h.leftOpen → h.closesTo extents g) ∧
              (h.restored = false ∨ ¬ h.leftOpen → g = { h with restored := false })) s.holds.table t.holds.table ∧
            ((∃ h ∈ s.holds.table, h.restored = true ∧ h.leftOpen) →
              ∃ w ∈ t.sys.queue, ∃ closed : HoldTable, w.content = .holds closed ∧ closed.next = t.holds.next ∧
                closed.table.map (fun (h : Hold) => { h with restored := false }) = t.holds.table)) ∧
          t.settings = s.settings ∧ t.station = s.station ∧ t.st = s.st ∧ t.le = s.le ∧ t.cc = s.cc)
    let sealed (ext : Nat) (tag : LaneNo) (first last pages : Nat) (faulty : Bool) : List Extent :=
      s.extents.map (fun (x : Extent) => if x.no = ext then
        { x with
          state := .sealed, tag := some tag, first := some first, last := some last, pages := pages
          faulty := faulty }
        else x)
    (∀ (page : Nat) (f : Found) (r : ReadResult), s.scan = .system page f → r ≠ .erased → page < 4095 →
      goesOn r (.system (page + 1) (f.read r)) s.extents) ∧
    (∀ (page : Nat) (f : Found), s.scan = .system page f →
      ∃ t, exec (.scanReadCompletion .erased) s = .next t ∧ restored f (some page) t) ∧
    (∀ (f : Found) (r : ReadResult), s.scan = .system 4095 f → r ≠ .erased →
      ∃ t, exec (.scanReadCompletion r) s = .next t ∧ restored (f.read r) none t) ∧
    (∀ (ext : Nat) (defaulted : Bool) (r : ReadResult), s.scan = .extents ext .header defaulted →
      (∀ bytes, r = .ok bytes → readHeader ext bytes = none) → taken r ext defaulted s.extents) ∧
    (∀ (ext : Nat) (defaulted : Bool) (bytes : List Byte) (tag : LaneNo) (first : Nat),
      s.scan = .extents ext .header defaulted → readHeader ext bytes = some (tag, first) →
      goesOn (.ok bytes) (.extents ext (.sealPage tag first) defaulted) s.extents) ∧
    (∀ (ext : Nat) (defaulted : Bool) (tag : LaneNo) (first : Nat),
      s.scan = .extents ext (.sealPage tag first) defaulted →
      (∀ (bytes : List Byte) (f l n : Nat), readSeal bytes = some (f, l, n) →
        taken (.ok bytes) ext defaulted (sealed ext tag f l n false)) ∧
      (∀ r : ReadResult, (∀ bytes, r = .ok bytes → readSeal bytes = none) →
        goesOn r (.extents ext (.content tag first 1 0) defaulted) s.extents)) ∧
    (∀ (ext page last : Nat) (defaulted : Bool) (tag : LaneNo) (first : Nat),
      s.scan = .extents ext (.content tag first page last) defaulted →
      (∀ (bytes : List Byte) (f l n : Nat), readSeal bytes = some (f, l, n) →
        taken (.ok bytes) ext defaulted (sealed ext tag f l n false)) ∧
      (∀ bytes : List Byte, readSeal bytes = none → pageIs pageContent bytes = true → page < 4095 →
        goesOn (.ok bytes)
          (.extents ext (.content tag first (page + 1) (latestTime last (pageRecords bytes))) defaulted) s.extents) ∧
      (∀ r : ReadResult, r = .erased ∨ r = .fail ∨
          (∃ bytes, r = .ok bytes ∧ readSeal bytes = none ∧
            (pageIs pageContent bytes = false ∨ 4095 ≤ page)) →
        taken r ext defaulted
          (if page = 1 then s.extents
            else sealed ext tag first last (page - 1) (if r = .erased then false else true))))

/-! ### Recall reads and the export link -/

/-- A recall's read: an unreadable page is counted and nothing is sent from it, the records of a page that lie within the
request wait in the slot page, and a read that has been withdrawn is discarded. The slot then reads the next page of the
extent. Behind the last page to read p passes the extent's last time and the pin shrinks, so that a lane in want of the
extent is given it, and the recall takes its next extent or ends DONE; it ends DONE also behind the records before the first
that is later than t1. What follows a page waits until the slot page has been sent, and on the last page a record later than
t1 lets p advance too (the model's reading: log 20). At the end the RECALL_END waits with the counts and p, and the notice
is set. A page that completes OK is taken as it stands (log 21), and a record that runs past the record area ends its
records (log 67); a kind byte above 7 begins a record (log 78). A count past 2^32 - 1 is free (log 8). -/
def Obligations.RecallReadFillsTheSlotPage : Prop :=
  (∀ (x : Slot) (e : Extent), x.pins e = true ↔
    (x.state = .running ∨ x.state = .paused) ∧ ∃ (q : RecallRequest) (p first last : Nat),
      x.request = some q ∧ x.p = some p ∧ e.first = some first ∧ e.last = some last ∧ e.tag = some q.lane ∧
      first ≤ q.t1 ∧ p ≤ last ∧ p ≤ q.t1) ∧
  (∀ (s : State) (k : SlotNo) (ext page at_ : Nat),
    let within (bytes : List Byte) (q : RecallRequest) : List Record :=
      ((pageRecords bytes).takeWhile (fun x => decide (x.time ≤ q.t1))).filter (fun x => decide (q.t0 ≤ x.time))
    (∀ r : ReadResult, s.store.inFlight = some ⟨⟨.recallRead k ext page, true⟩, at_⟩ →
      exec (.recallReadCompletion r) s = .next { s with
        emitted := [], store := { s.store with inFlight := none } }) ∧
    (s.store.inFlight = some ⟨⟨.recallRead k ext page, false⟩, at_⟩ → s.slots[k].page = [] →
      (∀ r : ReadResult, r = .erased ∨ r = .fail →
        ∃ t, exec (.recallReadCompletion r) s = .next t ∧
          t.slots[k].unreadable = next32 s.slots[k].unreadable ∧ t.slots[k].page = [] ∧
          t.slots[k].exported = s.slots[k].exported ∧ t.store.inFlight = none ∧
          t.settings = s.settings ∧ t.st = s.st ∧ t.le = s.le ∧ t.cc = s.cc) ∧
      (∀ (bytes : List Byte) (q : RecallRequest), s.slots[k].request = some q →
        ∃ t, exec (.recallReadCompletion (.ok bytes)) s = .next t ∧
          t.slots[k].page = within bytes q ∧
          t.slots[k].unreadable = s.slots[k].unreadable ∧ t.slots[k].request = some q ∧
          t.store.inFlight = none ∧ t.settings = s.settings ∧ t.st = s.st ∧ t.le = s.le ∧ t.cc = s.cc)) ∧
    (∀ (r : ReadResult) (q : RecallRequest) (m : EndMarker) (e : Extent) (p last : Nat) (x : Slot) (late : Bool),
      s.store.inFlight = some ⟨⟨.recallRead k ext page, false⟩, at_⟩ → s.slots[k].page = [] →
      s.slots[k].state = .running ∨ s.slots[k].state = .paused →
      s.slots[k].request = some q → s.slots[k].marker = some m → s.slots[k].p = some p →
      s.extentOf ext = some e → e.last = some last →
      ((r = .erased ∨ r = .fail) ∧ late = false ∧
          x = { s.slots[k] with unreadable := next32 s.slots[k].unreadable }) ∨
        (∃ bytes : List Byte, r = .ok bytes ∧ (late = true ↔ ∃ w ∈ pageRecords bytes, q.t1 < w.time) ∧
          x = { s.slots[k] with page := within bytes q }) →
      let over_ : Prop := m.pagesToRead e ≤ page
      (∀ y : Slot,
        (¬ over_ ∧ late = false ∧ y = { x with position := some (ext, page + 1), after := .more }) ∨
          (¬ over_ ∧ late = true ∧ y = { x with position := none, after := .finish }) ∨
          (over_ ∧ (late = true ∨ q.endsAt m last e) ∧
            y = { x with p := some (last + 1), position := none, after := .finish }) ∨
          (over_ ∧ late = false ∧ ¬ q.endsAt m last e ∧
            y = { x with p := some (last + 1), position := none, after := .choose }) →
        (∃ u, exec (.recallReadCompletion r) s = .next u.startExport ∧ s.besidesSlot k u ∧
          u.exportLink = s.exportLink ∧ u.store.inFlight = none ∧
          y.goesOn s.extents q m (if m.pagesToRead e ≤ page then last + 1 else p) u.slots[k] ∧
          (u.slots[k].state = .done → u.notices.recallEnd[k] = true) ∧
          (over_ → u.slots[k].pins e = false) ∧
          (∀ l : LaneNo, over_ → s.settled → s.gateOpen = true → s.ac[l].alloc = .wanted →
            (∀ n : LaneNo, n ≠ l → s.ac[n].alloc ≠ .wanted) → s.candidates l = [e] → e.state = .sealed →
            e.faulty = false → s.holds.holdsExtent e = false → (∀ n : SlotNo, n ≠ k → s.slots[n].pins e = false) →
            u.ac[l].alloc = .chosen ext)) ∧
        (s.settled → ¬ over_ → late = false ∨ x.page ≠ [] →
          exec (.recallReadCompletion r) s = .next (State.startExport { s with
            emitted := [], store := { s.store with inFlight := none }, slots := s.slots.set k y })))))

/-- The export hold: a good HOLD cell of a time other than 0 pauses the recalls until its expiry, one of 0 and the expiry
resume them, and a cell that fails a check sets nothing. Before the expiry its row does nothing (the model's reading: log
3). -/
def Obligations.ExportHoldPausesRecalls : Prop :=
  ∀ s : State,
    (∀ (bytes : List Byte) (n : Nat), exportHoldTime bytes = some (n + 1) →
      exec (.exportHoldCell bytes) s = .next { s with
        emitted := []
        exportLink := { s.exportLink with hold := some (s.clock + 10 * (n + 1)) }
        slots := s.slots.map (fun (x : Slot) => if x.state = .running then { x with state := .paused } else x) }) ∧
    (∀ bytes : List Byte, exportHoldTime bytes = some 0 →
      ∃ t, exec (.exportHoldCell bytes) s = .next t ∧ t.exportLink.hold = none ∧
        (∀ k : SlotNo, t.slots[k].state = if s.slots[k].state = .paused then .running else s.slots[k].state) ∧
        t.store = s.store ∧ t.settings = s.settings ∧ t.st = s.st ∧ t.ac = s.ac) ∧
    (∀ bytes : List Byte, exportHoldTime bytes = none → s.exportLink.sending.isSome = true →
      exec (.exportHoldCell bytes) s = .next { s with emitted := [] }) ∧
    (timerDue s.exportLink.hold s.clock = true →
      ∃ t, exec .exportHoldExpiry s = .next t ∧ t.exportLink.hold = none ∧
        (∀ k : SlotNo, t.slots[k].state = if s.slots[k].state = .paused then .running else s.slots[k].state) ∧
        t.store = s.store ∧ t.settings = s.settings ∧ t.st = s.st ∧ t.ac = s.ac) ∧
    (timerDue s.exportLink.hold s.clock = false → exec .exportHoldExpiry s = .next { s with emitted := [] })

/-- The next export cell begins when none is being sent and the export hold is OFF: a RECORD cell with the slot's first
waiting record or its RECALL_END behind them, in the bytes of Section 12 under the slot's next cell sequence number, and
when both slots have a cell ready, from the slot that did not send the most recent one; the very first turn is free (log
40). A RECORD cell sent whole is counted and leaves the slot page, also one begun before its recall was aborted (the model's
reading: log 45), and behind the last of them the recall takes its next extent or ends DONE; a RECALL_END sent leaves the
slot IDLE once its notice has been returned; a cell whose recall a warm reset has discarded is counted nowhere (log 45). Then
the next cell begins. With nothing being sent the row does nothing (log 3). A sequence number or a count past 2^32 - 1 is
free (log 8), and a p of 2^48 is sent as 0 (log 55). -/
def Obligations.ExportCellSentIsCounted : Prop :=
  (∀ u : State,
    let silent (m : SlotNo) : Prop := u.slots[m].page = [] ∧ u.slots[m].endCell = none
    let begun (m : SlotNo) (isEnd : Bool) (bytes : List Byte) : State := { u with
      emitted := u.emitted ++ [.exportCell bytes]
      slots := u.slots.set m { u.slots[m] with
        seq := next32 u.slots[m].seq, endCell := if isEnd then none else u.slots[m].endCell }
      exportLink := { u.exportLink with sending := some ⟨m, isEnd, true⟩, lastSlot := some m } }
    (u.exportLink.sending.isSome = true ∨ u.exportLink.hold.isSome = true ∨ (∀ m : SlotNo, silent m) →
      u.startExport = u) ∧
    (u.exportLink.sending = none → u.exportLink.hold = none →
      (∀ (m n : SlotNo) (isEnd : Bool) (bytes : List Byte), m ≠ n → u.slots[m].offersCell m isEnd bytes →
        silent n ∨ u.exportLink.lastSlot = some n → u.startExport = begun m isEnd bytes) ∧
      (u.exportLink.lastSlot = none → (∀ m : SlotNo, ∃ isEnd bytes, u.slots[m].offersCell m isEnd bytes) →
        ∃ m isEnd bytes, u.slots[m].offersCell m isEnd bytes ∧
          u.startExport = { begun m isEnd bytes with freeCount := u.freeCount + 1 }))) ∧
  (∀ (s : State) (k : SlotNo),
    let sent (x : Slot) : State := { s with
      emitted := [], slots := s.slots.set k x, exportLink := { s.exportLink with sending := none } }
    (s.exportLink.sending = some ⟨k, false, true⟩ →
      ∃ t, exec .exportCellSent s = .next t ∧ t.slots[k].exported = next32 s.slots[k].exported ∧
        t.slots[k].page = s.slots[k].page.tail ∧ t.slots[k].unreadable = s.slots[k].unreadable ∧
        t.slots[k].request = s.slots[k].request ∧ t.settings = s.settings ∧ t.st = s.st ∧ t.le = s.le) ∧
    (s.exportLink.sending = some ⟨k, false, true⟩ →
      let x : Slot := { s.slots[k] with exported := next32 s.slots[k].exported, page := s.slots[k].page.tail }
      let active : Prop := x.state = .running ∨ x.state = .paused
      (s.settled → ¬ active ∨ x.page ≠ [] ∨ x.after = .more →
        exec .exportCellSent s = .next (sent x).startExport) ∧
      (∀ (q : RecallRequest) (m : EndMarker) (p : Nat), active → x.request = some q → x.marker = some m →
        x.p = some p →
        ∃ u, exec .exportCellSent s = .next u.startExport ∧ s.besidesSlot k u ∧
          u.exportLink = { s.exportLink with sending := none } ∧ x.goesOn s.extents q m p u.slots[k] ∧
          (u.slots[k].state = .done → u.notices.recallEnd[k] = true))) ∧
    (s.exportLink.sending = some ⟨k, true, true⟩ → (s.slots[k].state = .done ∨ s.slots[k].state = .aborted) →
      (∃ t, exec .exportCellSent s = .next t ∧
        t.slots[k].state = (if s.slots[k].noticeTaken then .idle else s.slots[k].state) ∧
        (s.slots[k].noticeTaken = false → t.slots[k].endSent = true) ∧
        t.settings = s.settings ∧ t.st = s.st ∧ t.le = s.le) ∧
      (s.settled → exec .exportCellSent s = .next (State.startExport
        (sent (if s.slots[k].noticeTaken then .reset else { s.slots[k] with endSent := true }))))) ∧
    (∀ isEnd : Bool, s.exportLink.sending = some ⟨k, isEnd, false⟩ → s.settled →
      exec .exportCellSent s = .next (sent s.slots[k]).startExport) ∧
    (s.exportLink.sending = none → exec .exportCellSent s = .next { s with emitted := [] }))

/-! ### The completion of a warm reset -/

/-- A warm reset completes: every lane's intake, metering, captions, segments and findings are as after a cold reset, no
notice is pending, no extent is OPEN, and the settings and station time are kept. Each lane whose hold-off was ON at the
acceptance has sent a HOLD of 0, with the store UP or DOWN; all that a lane's fresh RETENTION_SHORT, and the attempts it
brings on while the allocation gate is open, can change of its intake is hold-off. An interrupted content program, lane erase
or recall read is withdrawn, an interrupted header or seal program stays and its completion will be discarded (the model's
reading: log 19). With no short flag set the holds that findings left open are closed by their lane's newest SEALED extent,
and with the store UP nothing is reported afresh. With the store DOWN STORE_LOST
is reported afresh, and for each lane whose short flag is set RETENTION_SHORT is, in that order, so that STORE_LOST has the
first id (the model's choice: log 26). -/
def Obligations.WarmResetClearsThePart : Prop :=
  ∀ (s : State) (w : Warm), s.warm = some w → s.warmReady = true →
    let cells := (allLanes.filter (fun l => w.holdOff[l])).map (fun l => Emission.laneCell l (holdCell l 0))
    ∃ t, exec .warmResetComplete s = .next t ∧ t.warm = none ∧ t.alarm.mode = .run ∧
      t.le = State.reset.le ∧ t.cc = State.reset.cc ∧ t.st = State.reset.st ∧ t.verdicts = State.reset.verdicts ∧
      t.slots = State.reset.slots ∧ t.exportLink.hold = none ∧ t.saveInFlight = false ∧
      t.settings = s.settings ∧ t.station = s.station ∧ t.link.state = s.link.state ∧
      t.link.reply = s.link.reply ∧ t.link.incomplete = 0 ∧ t.link.dropped = 0 ∧ t.link.rejected = 0 ∧
      (∀ x ∈ t.extents, x.state ≠ .opened) ∧
      (∀ (l : LaneNo) (ext page : Nat) (d : Bool),
        (∀ i : Fin 4, s.store.interrupted = some ⟨.laneProgram l (.content i) ext page, d⟩ →
          t.store.interrupted = none) ∧
        (s.store.interrupted = some ⟨.laneErase l ext, d⟩ → t.store.interrupted = none) ∧
        (∀ k : SlotNo, s.store.interrupted = some ⟨.recallRead k ext page, d⟩ → t.store.interrupted = none) ∧
        (∀ o f g : Nat, s.store.interrupted = some ⟨.laneProgram l (.header o f g) ext page, d⟩ →
          t.store.interrupted = some ⟨.laneProgram l (.header o f g) ext page, true⟩) ∧
        (∀ x : PendingSeal, s.store.interrupted = some ⟨.laneProgram l (.sealPage x) ext page, d⟩ →
          t.store.interrupted = some ⟨.laneProgram l (.sealPage x) ext page, true⟩)) ∧
      ((∀ l : LaneNo, s.ac[l].short = false) →
        t.holds.next = s.holds.next ∧
        List.Forall₂ (fun h g => (h.leftOpen → h.closesTo t.extents g ∧ g.restored = h.restored) ∧
          (¬ h.leftOpen → g = h)) s.holds.table t.holds.table ∧
        ((∃ h ∈ s.holds.table, h.leftOpen) → ∃ w ∈ t.sys.queue, w.content = .holds t.holds)) ∧
      (cells <+: t.emitted ∧
        (∀ l : LaneNo, t.liu[l] = { State.reset.liu[l] with
          holdOff := t.liu[l].holdOff
          resend := t.liu[l].resend
          counters := { IntakeCounters.zero with holdsSent := t.liu[l].counters.holdsSent } }) ∧
        (∀ l : LaneNo, s.ac[l].short = false → t.liu[l] = State.reset.liu[l]) ∧
        ((∀ l : LaneNo, s.ac[l].short = false) ∨ s.gateOpen = false →
          t.liu = State.reset.liu ∧ t.emitted = cells)) ∧
      ((∀ l : LaneNo, s.ac[l].short = false) →
        t.cm = State.reset.cm ∧ t.ac = State.reset.ac ∧ t.retry = none) ∧
      (s.store.up = true → (∀ l : LaneNo, s.ac[l].short = false) →
        t.dev = State.reset.dev ∧ t.notices = .empty ∧ t.alarm.overall = .normal) ∧
      (s.store.up = false →
        t.notices.deviceFinding = true ∧ ∃ f ∈ t.dev.log, t.dev.storeLost = some f ∧ f.id = 1 ∧ f.lane = none ∧
          f.kind = .storeLost ∧ f.severity = s.settings.severities.storeLost ∧ f.state = .active ∧
          f.opened = s.station) ∧
      (∀ l : LaneNo, s.ac[l].short = true →
        let reported (f : Finding) : Prop :=
          f.lane = some l ∧ f.kind = .retentionShort ∧ f.severity = s.settings.severities.short ∧ f.opened = s.station
        t.notices.finding[l] = true ∧
        (s.gateOpen = false → t.ac[l].short = true ∧
          ∃ f ∈ t.dev.log, t.cm[l].shortFinding = some f ∧ reported f ∧ f.state = .active) ∧
        (s.store.up = true → (∀ k : LaneNo, k ≠ l → s.ac[k].short = false) →
          ∃ f rest, t.dev.log = f :: rest ∧ f.id = 1 ∧ reported f))

/-! ### Cells -/

/-- A cell that is discarded changes nothing but its reason's count and, when it is a bad audio cell, the acquisition run;
while a warm reset flushes it changes nothing. -/
def Obligations.DiscardedCellOnlyCounts : Prop :=
  ∀ (l : LaneNo) (bytes : List Byte) (s : State),
    (∀ reason : Discard, s.warm = none → s.settled →
      intakeCheck (s.laneEnabled l) l s.liu[l] (gather bytes) = some reason →
      exec (.inboundCell l bytes) s = .next { s with
        emitted := []
        liu := s.liu.set l { s.liu[l] with
          assembly := ⟨[], false⟩
          counters := s.liu[l].counters.discard reason
          run := if reason ≠ .disabled ∧ bytes[1]? = some kindAudio then 0 else s.liu[l].run } }) ∧
    (s.warm.isSome = true → exec (.inboundCell l bytes) s = .next { s with emitted := [] })

/-- A good audio cell. On a lane in PRESENT, DRIFT or ACQUIRING it joins the open tile of its index, or closes that tile and
opens its own behind void tiles for those skipped; in ACQUIRING the tenth cell of a run makes the lane PRESENT, with a
window of 0 (the model's reading: log 41), and settles its carriage findings; on a lane that is ABSENT or LOST a run of 1
begins, with void tiles behind the loss tile and the filters at rest before the cell's samples (log 37); and one whose index
lies outside the 30 tiles behind the open or the loss tile, or below the open tile (log 32), is a discontinuity, in any
carriage state. The tile that closes leaves its record (power, loudness, void and silent flags, peak, momentary and
short-term values, caption liveness, segment) and its entry in the history, and so does each void tile; a tile that opens
behind a break empties the history, though one that follows the newest entry does not (the model's choice: log 49). The
record of the tile that closes joins the open segment, its blocks by R45's test of the indices (log 49), and its condition
runs. At the tile that opens the due mark of the highest effective tile governs: in RUN the open segment closes, is judged
by its rule set and its verdict entered, and the mark's segment opens; with none due a segment of 864,000 tiles closes and
continues; in CONFIG the mark acts on the remembered identity. A watched segment that opens has fresh condition states,
their start times unset (the model's choice: log 63). -/
def Obligations.GoodAudioCellIsPlacedInItsTile : Prop :=
  (∀ (l : LaneNo) (bytes : List Byte) (s : State) (y : Layout),
    s.warm = none → s.settled → intakeCheck (s.laneEnabled l) l s.liu[l] (gather bytes) = none →
    (gather bytes).bytes.getD 1 0#8 = kindAudio → cellLayout (gather bytes).bytes = some y →
    let count := cellCount (gather bytes).bytes
    let payload := cellPayload (gather bytes).bytes
    let expiry := s.clock + (s.laneSettings l).gapTimeout
    let counted := { s.liu[l].counters with audio := s.liu[l].counters.audio + 1 }
    let others (t : State) : Prop :=
      (∀ k : LaneNo, k ≠ l → t.le[k] = s.le[k] ∧ t.st[k] = s.st[k] ∧ s.liu[k].sameCarriage t.liu[k]) ∧
      t.settings = s.settings ∧ t.station = s.station ∧ t.cc = s.cc
    let opened (f : Filters) (t : State) : Prop :=
      t.liu[l].openTile = some (count / 10) ∧ t.liu[l].lastCount = some count ∧ t.liu[l].gapTimer = some expiry ∧
      t.st[l].lastOpened = some (count / 10) ∧
      (∃ e : LeLane, t.le[l] = e.takeCell y payload ∧ e.acc = some ⟨count / 10, 0, 0, 0⟩ ∧ e.filters = f ∧
        e.lastLayout = s.le[l].lastLayout) ∧ others t
    let skipped (o : Nat) : List TileEntry := (List.range' (o + 1) (count / 10 - (o + 1))).map (fun j => ⟨j, none⟩)
    let voids (o : Nat) (t : State) : Prop := ∀ x ∈ skipped o, x ∈ t.le[l].history
    let behind (o : Nat) (a : TileAcc) (t : State) : Prop :=
      opened s.le[l].filters t ∧ voids o t ∧
      (s.bounded → s.le[l].closedAlong (⟨o, closingPower a⟩ :: skipped o) t.le[l]) ∧
      (count / 10 = o + 1 → ∃ r, t.le[l].newest = some r ∧ s.buildsRecord l a r) ∧
      (o + 1 < count / 10 → t.voidNewest l (count / 10 - 1))
    (∀ (o : Nat) (w : RateWindow), s.liu[l].openTile = some o →
      s.liu[l].carriage = .present ∨ s.liu[l].carriage = .drift → s.liu[l].window = some w →
      (count / 10 = o →
        exec (.inboundCell l bytes) s = .next { s with
          emitted := []
          liu := s.liu.set l { s.liu[l] with
            assembly := ⟨[], false⟩
            counters := counted
            lastCount := some count
            window := some { w with count := w.count + 1 }
            gapTimer := some expiry }
          le := s.le.set l (s.le[l].takeCell y payload) }) ∧
      (∀ a : TileAcc, o < count / 10 → count / 10 ≤ o + 30 → s.le[l].acc = some a →
        ∃ t, exec (.inboundCell l bytes) s = .next t ∧ behind o a t ∧ t.liu[l].carriage = s.liu[l].carriage ∧
          t.liu[l].window = some { w with count := w.count + 1 })) ∧
    (∀ o : Nat, s.liu[l].openTile = some o → s.liu[l].carriage = .acquiring →
      let run := if s.liu[l].run ≠ 0 ∧ count = s.liu[l].runLast + 1 then s.liu[l].run + 1 else 1
      let arrived (t : State) : Prop :=
        t.liu[l].carriage = .present ∧ t.liu[l].run = 0 ∧ t.liu[l].window = some ⟨s.clock, 0⟩ ∧
        t.notices.carriage[l] = true ∧ t.cm[l].lost.finding = none ∧ t.cm[l].drift.finding = none
      (count / 10 = o → run < 10 →
        exec (.inboundCell l bytes) s = .next { s with
          emitted := []
          liu := s.liu.set l { s.liu[l] with
            assembly := ⟨[], false⟩
            counters := counted
            lastCount := some count
            run := run
            runLast := count
            gapTimer := some expiry }
          le := s.le.set l (s.le[l].takeCell y payload) }) ∧
      (count / 10 = o → 10 ≤ run →
        ∃ t, exec (.inboundCell l bytes) s = .next t ∧ arrived t ∧ t.liu[l].gapTimer = some expiry ∧
          t.liu[l].openTile = some o ∧ t.liu[l].lastCount = some count ∧
          t.le = s.le.set l (s.le[l].takeCell y payload) ∧ others t) ∧
      (∀ a : TileAcc, o < count / 10 → count / 10 ≤ o + 30 → s.le[l].acc = some a →
        ∃ t, exec (.inboundCell l bytes) s = .next t ∧ behind o a t ∧ (10 ≤ run → arrived t) ∧
          (run < 10 → t.liu[l].carriage = .acquiring ∧ t.liu[l].run = run ∧ t.liu[l].runLast = count ∧
            t.liu[l].window = s.liu[l].window))) ∧
    (s.liu[l].openTile = none → s.liu[l].carriage = .absent ∨ s.liu[l].carriage = .lost →
      (∀ o : Nat, s.liu[l].lossTile = some o → o < count / 10 ∧ count / 10 ≤ o + 30) →
      ∃ t, exec (.inboundCell l bytes) s = .next t ∧ opened .zero t ∧ t.liu[l].carriage = .acquiring ∧
        t.liu[l].run = 1 ∧ t.liu[l].lossTile = none ∧ t.notices.carriage[l] = true ∧
        t.liu[l].window = s.liu[l].window ∧
        (∀ o : Nat, s.liu[l].lossTile = some o → voids o t ∧ (s.bounded → s.le[l].closedAlong (skipped o) t.le[l]) ∧
          (o + 1 < count / 10 → t.voidNewest l (count / 10 - 1)) ∧
          (count / 10 = o + 1 → t.le[l].newest = s.le[l].newest)) ∧
        (s.liu[l].lossTile = none → t.le[l].newest = s.le[l].newest ∧
          (∀ x : TileEntry, s.le[l].history.getLast? = some x → x.tile + 1 ≠ count / 10 →
            t.le[l].history = [] ∧ t.le[l].momentary = ⟨-999, true⟩ ∧ t.le[l].shortTerm = ⟨-999, true⟩) ∧
          ((∀ x : TileEntry, s.le[l].history.getLast? = some x → x.tile + 1 = count / 10) →
            t.le[l].history = s.le[l].history ∧ t.le[l].momentary = s.le[l].momentary ∧
            t.le[l].shortTerm = s.le[l].shortTerm))) ∧
    ((∃ o : Nat, s.liu[l].openTile = some o ∧ ¬ (o ≤ count / 10 ∧ count / 10 ≤ o + 30)) ∨
        (s.liu[l].openTile = none ∧ ∃ o : Nat, s.liu[l].lossTile = some o ∧
          ¬ (o < count / 10 ∧ count / 10 ≤ o + 30)) →
      ∃ t, exec (.inboundCell l bytes) s = .next t ∧ opened .zero t ∧ t.liu[l].carriage = .acquiring ∧
        t.liu[l].run = 1 ∧ t.liu[l].lossTile = none ∧ t.liu[l].window = none ∧
        t.liu[l].counters.discontinuities = s.liu[l].counters.discontinuities + 1 ∧
        t.le[l].history = [] ∧ t.le[l].momentary = ⟨-999, true⟩ ∧ t.le[l].shortTerm = ⟨-999, true⟩ ∧
        (s.liu[l].carriage ≠ .acquiring → t.notices.carriage[l] = true) ∧
        (∀ a : TileAcc, s.liu[l].openTile.isSome = true → s.le[l].acc = some a →
          ∃ r, t.le[l].newest = some r ∧ s.buildsRecord l a r))) ∧
  (∀ (l : LaneNo) (bytes : List Byte) (s : State) (y : Layout) (o : Nat) (a : TileAcc),
    s.warm = none → s.settled → intakeCheck (s.laneEnabled l) l s.liu[l] (gather bytes) = none →
    (gather bytes).bytes.getD 1 0#8 = kindAudio → cellLayout (gather bytes).bytes = some y →
    s.liu[l].openTile = some o → s.liu[l].carriage = .present ∨ s.liu[l].carriage = .drift →
    cellCount (gather bytes).bytes / 10 = o + 1 → s.le[l].acc = some a →
      s.st[l].queue.Pairwise (fun x z => x.effTile < z.effTile) →
      let due := s.st[l].queue.filter (fun m => decide (m.effTile ≤ o + 1))
      let governs (m : Mark) : Prop := m ∈ due ∧ ∀ x ∈ due, x.effTile ≤ m.effTile
      let joined (r : TileRecord) (g : SegCtx) : SegCtx := { g with
        firstTile := some (g.firstTile.getD r.tile)
        lastTile := some r.tile
        tiles := g.tiles + 1
        voids := if r.void then g.voids + 1 else g.voids
        maxShort := if r.shortTerm.stale then g.maxShort
          else some (max (g.maxShort.getD r.shortTerm.value) r.shortTerm.value)
        maxPeak := some (max (g.maxPeak.getD r.peak) r.peak)
        gating := g.gating.takeTile r.tile r.power
        captions := if g.ident.duty = .required ∧ r.void = false then { g.captions with
            dutyTiles := g.captions.dutyTiles + 1
            aliveTiles := if r.alive then g.captions.aliveTiles + 1 else g.captions.aliveTiles }
          else g.captions }
      let closed (cause : CloseCause) (r : TileRecord) (g : SegCtx) (t : State) : Prop :=
        let h := joined r g
        let integrated := (integrate h.gating.bins).map Integrated.loudness
        t.verdicts.next = nextVerdictSeq s.verdicts.next ∧ t.notices.verdict = true ∧
        t.st[l].reference = (if g.ident.kind = .programme ∧ integrated.isSome = true then integrated
          else s.st[l].reference) ∧
        ∃ v, t.verdicts.log.getLast? = some v ∧ v.seq = s.verdicts.next ∧ v.lane = l ∧ v.ident = g.ident ∧
          v.ruleSet = g.ruleSet ∧ v.continuation = g.continuation ∧ v.cause = cause ∧ v.openTime = g.openTime ∧
          v.closeTime = s.station ∧ v.firstTile = h.firstTile ∧ v.lastTile = h.lastTile ∧ v.tiles = h.tiles ∧
          v.voids = h.voids ∧ v.gated = h.gating.gated ∧ v.below = h.gating.below ∧ v.integrated = integrated ∧
          v.maxShort = h.maxShort ∧ v.maxPeak = h.maxPeak ∧ v.coverage = h.captions.coverage ∧
          (g.ruleSet = none → v.checks = none ∧ v.outcome = .unjudged) ∧
          (∀ k : Fin 16, g.ruleSet = some k →
            let checks := h.checks s.settings.rules[k] s.st[l].reference integrated
            v.checks = resultsOf checks ∧
            ((∃ c ∈ checks, c.result = .fail ∧ c.severity = .breach) → v.outcome = .breach) ∧
            ((∀ c ∈ checks, c.result = .fail → c.severity = .advisory) → v.outcome = .pass) ∧
            ((∃ c ∈ checks, c.result = .fail) → t.notices.finding[l] = true))
      let begins (ident : Identity) (continuation : Bool) (t : State) : Prop :=
        let k := s.settings.ruleMap[l].entry ident.kind
        t.st[l].seg = some (.opened ident k continuation s.station) ∧
        t.cm[l].watched = some ⟨ident, k, .fresh, .fresh, .fresh⟩
      let runs (r : TileRecord) (rule : RuleSet) (w v : Watched) : Prop :=
        v.ident = w.ident ∧ v.ruleSet = w.ruleSet ∧
        v.deadAir.run = (if r.void then w.deadAir.run else if r.silent then w.deadAir.run + 1 else 0) ∧
        v.captionGap.run = (if w.ident.duty = .exempt ∨ r.void = true then w.captionGap.run
          else if r.alive then 0 else w.captionGap.run + 1) ∧
        (rule.shortCeiling = none ∨ r.void = true ∨ r.shortTerm.stale = true →
          v.stCeiling.isOver = w.stCeiling.isOver) ∧
        (∀ ceiling : Int, rule.shortCeiling = some ceiling → r.void = false → r.shortTerm.stale = false →
          v.stCeiling.isOver = decide (ceiling < r.shortTerm.value))
      ∃ t r, exec (.inboundCell l bytes) s = .next t ∧ t.le[l].newest = some r ∧ s.buildsRecord l a r ∧
        t.st[l].queue = s.st[l].queue.filter (fun m => decide (o + 1 < m.effTile)) ∧
        t.st[l].superseded = s.st[l].superseded + BitVec.ofNat 32 (due.length - 1) ∧
        (s.st[l].seg = none → t.verdicts = s.verdicts) ∧
        (s.alarm.mode = .run → due = [] →
          (s.st[l].seg = none → t.st[l].seg = none) ∧
          (∀ g : SegCtx, s.st[l].seg = some g →
            (g.tiles + 1 < 864000 → t.st[l].seg = some (joined r g) ∧ t.verdicts = s.verdicts ∧
              (∀ (w : Watched) (k : Fin 16), s.cm[l].watched = some w → w.ruleSet = some k →
                w.ident.segId = g.ident.segId → ∃ v, t.cm[l].watched = some v ∧ runs r s.settings.rules[k] w v)) ∧
            (864000 ≤ g.tiles + 1 → closed .maxLength r g t ∧ begins g.ident true t))) ∧
        (∀ m : Mark, s.alarm.mode = .run → governs m →
          (∀ k : SegKind, m.kind = .segment k → begins ⟨m.segId, k, m.duty⟩ false t ∧
            (∀ g : SegCtx, s.st[l].seg = some g → closed .nextMark r g t)) ∧
          (m.kind = .finish → t.st[l].seg = none ∧
            (∀ g : SegCtx, s.st[l].seg = some g → closed .endMark r g t ∧ t.cm[l].watched = none))) ∧
        (s.alarm.mode = .config → t.verdicts = s.verdicts ∧
          (due = [] → t.st[l].remembered = s.st[l].remembered) ∧
          (∀ m : Mark, governs m → t.st[l].remembered = match m.kind with
            | .segment k => some ⟨m.segId, k, m.duty⟩
            | .finish => none)))

/-- A good caption cell: a page that does not pass the filter changes nothing but its counts, one that passes becomes the
latest accepted page, makes the lane LIVE, starts the keepalive timer, is judged late or early for the lane and its open
segment, and goes to the lane's archive stream as a CAPTION record. -/
def Obligations.CaptionPageIsAcceptedOrRejected : Prop :=
  ∀ (l : LaneNo) (bytes : List Byte) (s : State) (p : CaptionPage),
    s.warm = none → s.settled → intakeCheck (s.laneEnabled l) l s.liu[l] (gather bytes) = none →
    (gather bytes).bytes.getD 1 0#8 = kindCaption → parseCaption (cellPayload (gather bytes).bytes) = some p →
    let counted := { s.liu[l] with
      assembly := ⟨[], false⟩
      counters := { s.liu[l].counters with caption := s.liu[l].counters.caption + 1 } }
    let payload := cellPayload (gather bytes).bytes
    let late : Bool := s.station.any (fun now => decide (p.presentation + (s.laneSettings l).lateLimit < now))
    let early : Bool := s.station.any (fun now => decide (now + (s.laneSettings l).earlyLimit < p.presentation))
    (s.settings.filters[l].passes (BitVec.ofNat 16 p.pageId) = false →
      exec (.inboundCell l bytes) s = .next { s with
        emitted := []
        liu := s.liu.set l counted
        cc := s.cc.set l { s.cc[l] with rejected := s.cc[l].rejected + 1 }
        st := s.st.set l { s.st[l] with seg := s.st[l].seg.map (fun g =>
          { g with captions := { g.captions with rejected := min (g.captions.rejected + 1) 4294967295 } }) } }) ∧
    (s.settings.filters[l].passes (BitVec.ofNat 16 p.pageId) = true →
      ∃ t, exec (.inboundCell l bytes) s = .next t ∧ t.cc[l].live = true ∧
        t.cc[l].latest = some ⟨p, s.station⟩ ∧ t.cc[l].lastAcceptance = some s.station ∧
        t.cc[l].keepalive = some (s.clock + (s.laneSettings l).keepalive) ∧
        t.cc[l].accepted = s.cc[l].accepted + 1 ∧ t.cc[l].rejected = s.cc[l].rejected ∧
        t.cc[l].late = s.cc[l].late + (if late then 1 else 0) ∧ t.cc[l].early = s.cc[l].early + (if early then 1 else 0) ∧
        t.st[l] = { s.st[l] with seg := s.st[l].seg.map (fun g => { g with captions := { g.captions with
          late := if late then min (g.captions.late + 1) 4294967295 else g.captions.late
          early := if early then min (g.captions.early + 1) 4294967295 else g.captions.early } }) } ∧
        (∀ (now : Nat) (i : Fin 4), s.station = some now → s.ac[l].gaps.any = false → s.ac[l].filling = some i →
          s.ac[l].buffers[i].used + 9 + payload.length ≤ 16381 → s.ac[l].alloc ≠ .idle →
          t.ac = s.ac.set l { s.ac[l] with
            buffers := s.ac[l].buffers.set i { s.ac[l].buffers[i] with
              records := s.ac[l].buffers[i].records ++ [⟨2#8, now, payload⟩] } }) ∧
        (s.station = none → t.ac = s.ac.set l { s.ac[l] with
          gaps := { s.ac[l].gaps with caption := min (s.ac[l].gaps.caption + 1) 4294967295 } }) ∧
        (s.cc[l].live = false → t.notices.caption[l] = true) ∧ t.liu[l].counters.caption = counted.counters.caption ∧
        (∀ k : LaneNo, k ≠ l → t.cc[k] = s.cc[k] ∧ t.st[k] = s.st[k]) ∧ t.le = s.le ∧
        t.settings = s.settings ∧ t.station = s.station ∧ t.verdicts = s.verdicts)

/-- MARK and PROXY cells. A mark enters the lane's queue by its rule: in the place of one with the same effective tile, in
its order while there is room, or not at all, which opens a MARK_OVERFLOW finding. A good mark cell does this with its mark,
a late one with the tile after the last opened and a LATE_MARK finding, and one of undefined codes is counted alone. The
payload of a MARK or PROXY cell goes to the lane's archive stream: into the FILLING buffer that has room, or behind its close
into the lowest FREE one, and where records are pending behind a GAP record in the same way; a record that finds no buffer,
or none together with the GAP record that is due, or that has unset time, is counted. Hold-off follows the buffers. -/
def Obligations.MarkEntersTheQueue : Prop :=
  (∀ (l : LaneNo) (m : Mark) (s : State),
    let q := s.st[l].queue
    (q.any (fun x => x.effTile == m.effTile) = true →
      (s.queueMark l m).st[l].queue = q.map (fun x => if x.effTile = m.effTile then m else x) ∧
      (s.queueMark l m).st[l].queued = s.st[l].queued + 1 ∧
      (s.queueMark l m).st[l].replaced = s.st[l].replaced + 1) ∧
    (q.any (fun x => x.effTile == m.effTile) = false → q.length < 4 →
      (s.queueMark l m).st[l].queue.Perm (m :: q) ∧ (s.queueMark l m).st[l].queued = s.st[l].queued + 1 ∧
      (q.Pairwise (fun x y => x.effTile < y.effTile) →
        (s.queueMark l m).st[l].queue.Pairwise (fun x y => x.effTile < y.effTile))) ∧
    (q.any (fun x => x.effTile == m.effTile) = false → 4 ≤ q.length →
      (s.queueMark l m).st = s.st ∧ (s.queueMark l m).dev.nextId = nextFindingId s.dev.nextId ∧
      (s.queueMark l m).notices.finding[l] = true)) ∧
  (∀ (l : LaneNo) (bytes : List Byte) (s : State), s.warm = none → s.settled →
    intakeCheck (s.laneEnabled l) l s.liu[l] (gather bytes) = none →
    let payload := cellPayload (gather bytes).bytes
    let taken (t : State) : Prop :=
      exec (.inboundCell l bytes) s = .next t ∧ (∀ k : LaneNo, s.liu[k].sameCarriage t.liu[k]) ∧
      t.le = s.le ∧ t.cc = s.cc ∧ t.settings = s.settings ∧ t.station = s.station ∧ t.verdicts = s.verdicts ∧
      t.alarm.mode = s.alarm.mode ∧ t.slots = s.slots
    ((gather bytes).bytes.getD 1 0#8 = kindMark →
      (readMark payload = none →
        ∃ t, taken t ∧ t.liu[l].counters.mark = s.liu[l].counters.mark + 1 ∧
          t.st = s.st.set l { s.st[l] with invalid := s.st[l].invalid + 1 }) ∧
      (∀ m : Mark, readMark payload = some m → (∀ o : Nat, s.st[l].lastOpened = some o → o < m.effTile) →
        ∃ t, taken t ∧ t.liu[l].counters.mark = s.liu[l].counters.mark + 1 ∧ t.st = (s.queueMark l m).st ∧
          (4 ≤ s.st[l].queue.length → s.st[l].queue.any (fun x => x.effTile == m.effTile) = false →
            t.notices.finding[l] = true)) ∧
      (∀ (m : Mark) (o : Nat), readMark payload = some m → s.st[l].lastOpened = some o → m.effTile ≤ o →
        ∃ t, taken t ∧ t.st = (s.queueMark l { m with effTile := o + 1 }).st ∧ t.notices.finding[l] = true)) ∧
    ((gather bytes).bytes.getD 1 0#8 = kindProxy →
      ∃ t, taken t ∧ t.liu[l].counters.proxy = s.liu[l].counters.proxy + 1 ∧ t.st = s.st) ∧
    (∀ kind : Byte, (gather bytes).bytes.getD 1 0#8 = kind →
      kind = kindProxy ∨ (kind = kindMark ∧ readMark payload = none) →
      (∀ (now : Nat) (i : Fin 4), s.station = some now → s.ac[l].gaps.any = false →
        s.ac[l].filling = some i → s.ac[l].buffers[i].used + 9 + payload.length ≤ 16381 →
        s.ac[l].alloc ≠ .idle →
        ∃ t, taken t ∧ t.ac = s.ac.set l { s.ac[l] with
          buffers := s.ac[l].buffers.set i { s.ac[l].buffers[i] with
            records := s.ac[l].buffers[i].records ++ [⟨if kind = kindProxy then 1#8 else 3#8, now, payload⟩] } }) ∧
      (∀ now : Nat, s.station = some now → s.ac[l].alloc ≠ .idle ∨ s.gateOpen = false →
        let b := s.ac[l].buffers
        let gaps := s.ac[l].gaps
        let gap : Record := ⟨7#8, now, gapContent gaps⟩
        let rec_ : Record := ⟨if kind = kindProxy then 1#8 else 3#8, now, payload⟩
        let add (i : Fin 4) (rs : List Record) (b : Vector PageBuffer 4) : Vector PageBuffer 4 :=
          b.set i { b[i] with state := .filling, records := b[i].records ++ rs }
        let close (i : Fin 4) (b : Vector PageBuffer 4) : Vector PageBuffer 4 :=
          b.set i { b[i] with state := .waiting, ready := s.stamp }
        let cell (on : Bool) (resend : Option Nat) (time : Nat) (t : State) : Prop :=
          t.liu[l].holdOff = on ∧ t.liu[l].resend = resend ∧ t.emitted = [.laneCell l (holdCell l time)] ∧
          t.liu[l].counters.holdsSent = s.liu[l].counters.holdsSent + 1
        let follows (t : State) : Prop :=
          (t.ac[l].canTake ≤ 1 → s.liu[l].holdOff = false → cell true (some (s.clock + 100)) 20 t) ∧
          (2 ≤ t.ac[l].canTake → s.liu[l].holdOff = true → cell false none 0 t) ∧
          ((t.ac[l].canTake ≤ 1 ↔ s.liu[l].holdOff = true) →
            t.liu[l].holdOff = s.liu[l].holdOff ∧ t.liu[l].resend = s.liu[l].resend ∧ t.emitted = [])
        let placed (b : Vector PageBuffer 4) : Prop :=
          ∃ t, taken t ∧ t.ac[l].buffers = b ∧ t.ac[l].gaps = (if gaps.any then .zero else gaps) ∧ follows t
        let counted (b : Vector PageBuffer 4) : Prop :=
          ∃ t, taken t ∧ t.ac[l].buffers = b ∧ follows t ∧
            t.ac[l].gaps = { gaps with
              proxy := if kind = kindProxy then min (gaps.proxy + 1) 4294967295 else gaps.proxy
              mark := if kind = kindProxy then gaps.mark else min (gaps.mark + 1) 4294967295
              earliest := some (min (gaps.earliest.getD now) now)
              latest := some (max (gaps.latest.getD now) now) }
        let size := 9 + payload.length
        (gaps.any = false →
          (∀ i : Fin 4, s.ac[l].filling = some i → b[i].used + size ≤ 16381 → placed (add i [rec_] b)) ∧
          (∀ i j : Fin 4, s.ac[l].filling = some i → 16381 < b[i].used + size → s.ac[l].lowestFree = some j →
            placed (add j [rec_] (close i b))) ∧
          (∀ j : Fin 4, s.ac[l].filling = none → s.ac[l].lowestFree = some j → placed (add j [rec_] b)) ∧
          (∀ i : Fin 4, s.ac[l].filling = some i → 16381 < b[i].used + size → s.ac[l].lowestFree = none →
            counted (close i b))) ∧
        (gaps.any = true →
          (∀ i : Fin 4, s.ac[l].filling = some i → b[i].used + 47 + size ≤ 16381 → placed (add i [gap, rec_] b)) ∧
          (∀ i j : Fin 4, s.ac[l].filling = some i → b[i].used + 47 ≤ 16381 → 16381 < b[i].used + 47 + size →
            s.ac[l].lowestFree = some j → placed (add j [rec_] (close i (add i [gap] b)))) ∧
          (∀ i j : Fin 4, s.bounded → s.ac[l].filling = some i → 16381 < b[i].used + 47 →
            s.ac[l].lowestFree = some j → b[j].records = [] → placed (add j [gap, rec_] (close i b))) ∧
          (∀ j : Fin 4, s.ac[l].filling = none → s.ac[l].lowestFree = some j → b[j].records = [] →
            placed (add j [gap, rec_] b)) ∧
          (∀ i : Fin 4, s.ac[l].filling = some i → 16381 < b[i].used + 47 + size → s.ac[l].lowestFree = none →
            counted (if b[i].used + size ≤ 16381 then b else close i b)) ∧
          (s.ac[l].filling = none → s.ac[l].lowestFree = none → counted b))) ∧
      (s.station = none ∨ (s.ac[l].filling = none ∧ s.ac[l].lowestFree = none) →
        ∃ t, taken t ∧ t.ac[l].buffers = s.ac[l].buffers ∧
          (kind = kindProxy → t.ac[l].gaps.proxy = min (s.ac[l].gaps.proxy + 1) 4294967295) ∧
          (kind = kindMark → t.ac[l].gaps.mark = min (s.ac[l].gaps.mark + 1) 4294967295))))

/-! ### Rules of measurement and judgement -/

/-- A page matches an entry on the bits of its mask; it passes the filter when pass-all is set, or when it matches an
enabled ACCEPT entry or none is enabled, and matches no enabled REJECT entry. -/
def Obligations.FilterPassesByItsRule : Prop :=
  (∀ (e : FilterEntry) (id : BitVec 16),
    e.hits id = true ↔ ∀ i : Nat, e.mask.getLsbD i = true → id.getLsbD i = e.value.getLsbD i) ∧
  (∀ (t : FilterTable) (id : BitVec 16),
    t.passes id = true ↔ t.passAll = true ∨
      (((∃ e ∈ t.entries.toList, e.enabled = true ∧ e.sense = .accept ∧ e.hits id = true) ∨
        ¬ ∃ e ∈ t.entries.toList, e.enabled = true ∧ e.sense = .accept) ∧
      ¬ ∃ e ∈ t.entries.toList, e.enabled = true ∧ e.sense = .reject ∧ e.hits id = true))

/-- The five verdict checks of a judged segment: when each is SKIPPED, when it FAILs and PASSes, and the measured value and
limit that a FAIL carries. -/
def Obligations.VerdictChecksFollowTheirRules : Prop :=
  ∀ rule : RuleSet,
    (checkTarget rule none).result = .skipped ∧
    (∀ v : Int,
      ((checkTarget rule (some v)).result = .fail ↔ rule.tolerance < ((v - rule.target).natAbs : Int)) ∧
      ((checkTarget rule (some v)).result = .pass ↔ ((v - rule.target).natAbs : Int) ≤ rule.tolerance) ∧
      (checkTarget rule (some v)).measured = v ∧ (checkTarget rule (some v)).limit = rule.target) ∧
    (∀ peak : Option Int,
      ((checkPeak rule peak).result = .skipped ↔ rule.peakCeiling = none ∨ peak = none) ∧
      (∀ c p : Int, rule.peakCeiling = some c → peak = some p →
        ((checkPeak rule peak).result = .fail ↔ c < p) ∧ ((checkPeak rule peak).result = .pass ↔ p ≤ c) ∧
        (checkPeak rule peak).measured = p ∧ (checkPeak rule peak).limit = c)) ∧
    (∀ (kind : SegKind) (reference integrated : Option Int),
      ((checkRelative rule kind reference integrated).result = .skipped ↔
        kind = .programme ∨ kind = .junction ∨ rule.relativeCeiling = none ∨ reference = none ∨ integrated = none) ∧
      (∀ c r v : Int, kind = .commercial ∨ kind = .promotion → rule.relativeCeiling = some c → reference = some r →
        integrated = some v →
        ((checkRelative rule kind reference integrated).result = .fail ↔ c < v - r) ∧
        ((checkRelative rule kind reference integrated).result = .pass ↔ v - r ≤ c) ∧
        (checkRelative rule kind reference integrated).measured = v ∧
        (checkRelative rule kind reference integrated).limit = r + c)) ∧
    (∀ (duty : Duty) (coverage : Option Nat),
      ((checkCoverage rule duty coverage).result = .skipped ↔ duty = .exempt ∨ coverage = none) ∧
      (∀ v : Nat, duty = .required → coverage = some v →
        ((checkCoverage rule duty coverage).result = .fail ↔ v < rule.minCoverage) ∧
        ((checkCoverage rule duty coverage).result = .pass ↔ rule.minCoverage ≤ v) ∧
        (checkCoverage rule duty coverage).measured = v ∧
        (checkCoverage rule duty coverage).limit = rule.minCoverage)) ∧
    (∀ late early : Nat,
      ((checkLate rule late early).result = .fail ↔ rule.lateLimit < late + early) ∧
      ((checkLate rule late early).result = .pass ↔ late + early ≤ rule.lateLimit) ∧
      (checkLate rule late early).measured = (late + early : Nat) ∧
      (checkLate rule late early).limit = rule.lateLimit)

/-- A power is reported as the largest tenth whose bound it reaches, from -99.9 to +20.0 LUFS; a power of 0 as -99.9. A
sample magnitude is reported as the largest tenth whose bound it reaches, from -99.9 to 0.0 dBFS. And what a cell adds to
that power and magnitude: its samples, normalised, go through the two filter sections of each position of its layout, a
position that the last layout lacks beginning at rest, and an open tile gains a good cell, the energies of the weighted
signals by their channel weights, without LFE, and the largest magnitude of all its samples. -/
def Obligations.PowersAndPeaksAreReportedInTenths : Prop :=
  (∀ power : Rat, 0 ≤ power →
    let v := reportedTenth power
    v ≤ 200 ∧ -999 ≤ v ∧
    (-999 < v → loudnessBound v ≤ (power : ℝ)) ∧ (v < 200 → (power : ℝ) < loudnessBound (v + 1)) ∧
    (power = 0 → v = -999)) ∧
  (∀ m : Nat,
    let v := reportedPeak m
    v ≤ 0 ∧ -999 ≤ v ∧
    (-999 < v → peakBound v ≤ (m : ℝ)) ∧ (v < 0 → (m : ℝ) < peakBound (v + 1)) ∧
    (m = 0 → v = -999) ∧ (8388607 ≤ m → v = 0)) ∧
  (∀ (y : Layout) (payload : List Byte) (e : LeLane),
    (payload.length = match y with
      | .mono => 1440
      | .stereo => 2880
      | .surround => 8640) →
    e.takesCell y payload (e.takeCell y payload))

/-- Gating. A tile that is not void behind exactly the three tiles before it, none of them void, completes one block: a block
whose level is -70.0 LUFS or above raises the gated count and its bin by 1, one below raises the below-gate count by 1, and
a count at 2^32 - 1 stays there. A void tile completes no block, nor does one behind a void tile, behind fewer than three or
behind a break in the sequence. So the sum of the bins stays the gated count while neither is at its limit. Integration of
901 bins with at most 2^32 - 1 blocks: UNMEASURED when all are empty; else the relative threshold is the reported mean of
the bins' powers less 10.0, and the integrated loudness the reported mean of the bins strictly above the threshold, both
means from -70.0 to +20.0. -/
def Obligations.GatingCountsEachBlockOnce : Prop :=
  (∀ (g : Gating) (t : Nat) (power : Option Rat), g.bins.length = 901 →
    let h := g.takeTile t power
    let counts : Prop := h.gated ≠ g.gated ∨ h.below ≠ g.below ∨ h.bins ≠ g.bins
    (∀ a b c p : Rat, g.window = [⟨t - 3, some a⟩, ⟨t - 2, some b⟩, ⟨t - 1, some c⟩] → 3 ≤ t → power = some p →
      let level := reportedTenth ((a + b + c + p) / 4)
      (-700 ≤ level →
        h.gated = min (g.gated + 1) 4294967295 ∧ h.below = g.below ∧ (level + 700).toNat ≤ 900 ∧
        h.bins = g.bins.modify (level + 700).toNat (fun n => min (n + 1) 4294967295)) ∧
      (level < -700 → h.gated = g.gated ∧ h.below = min (g.below + 1) 4294967295 ∧ h.bins = g.bins) ∧
      h.window = [⟨t - 2, some b⟩, ⟨t - 1, some c⟩, ⟨t, some p⟩]) ∧
    (power = none → ¬ counts) ∧
    (g.window.length < 3 → ¬ counts) ∧
    (g.window.length ≤ 3 → (∃ x ∈ g.window, x.power = none) → ¬ counts) ∧
    (∀ x, g.window.getLast? = some x → x.tile + 1 ≠ t → ¬ counts ∧ h.window = [⟨t, power⟩]) ∧
    (g.bins.sum = g.gated → g.gated < 4294967295 → g.below < 4294967295 →
      h.bins.length = 901 ∧ h.bins.sum = h.gated ∧ h.window.length ≤ 3 ∧
      g.gated + g.below ≤ h.gated + h.below ∧ h.gated + h.below ≤ g.gated + g.below + 1)) ∧
  (∀ bins : List Nat, bins.length = 901 → bins.sum ≤ 4294967295 →
    ((∀ n ∈ bins, n = 0) → integrate bins = none) ∧
    ((∃ n ∈ bins, n ≠ 0) → ∃ first loudness : Int, integrate bins = some ⟨first - 100, loudness⟩ ∧
      reportsAs (meanBinPower bins (Finset.range 901)) first ∧
      reportsAs (meanBinPower bins ((Finset.range 901).filter (fun b => first - 100 < (b : Int) - 700))) loudness ∧
      -700 ≤ first ∧ first ≤ 200 ∧ -700 ≤ loudness ∧ loudness ≤ 200))

/-- The owner of an extent number under the map: none for extent 0 or one beyond the store, the lane of the
lowest-numbered directed range that holds it, else its distributed share's lane or that lane's pool target. -/
def Obligations.ExtentHasAtMostItsOwner : Prop :=
  ∀ (m : ExtentMap) (n e : Nat),
    (e = 0 ∨ n ≤ e → m.owner n e = none) ∧
    (∀ (i : Fin 4) (r : DirectedRange), 1 ≤ e → e < n → m.directed[i] = some r →
      max r.lo 1 ≤ e → e < min r.hi n →
      (∀ (j : Fin 4) (x : DirectedRange), j < i → m.directed[j] = some x → ¬ (max x.lo 1 ≤ e ∧ e < min x.hi n)) →
      m.owner n e = some r.lane) ∧
    (∀ k : LaneNo, 1 ≤ e → e < n →
      (∀ (j : Fin 4) (x : DirectedRange), m.directed[j] = some x → ¬ (max x.lo 1 ≤ e ∧ e < min x.hi n)) →
      let lo := max m.lo 1
      let share := (min m.hi n - lo) / 8
      lo + k.val * share ≤ e → e < lo + (k.val + 1) * share →
      m.owner n e = some ((m.pooling[k]).getD k)) ∧
    (1 ≤ e → e < n →
      (∀ (j : Fin 4) (x : DirectedRange), m.directed[j] = some x → ¬ (max x.lo 1 ≤ e ∧ e < min x.hi n)) →
      (e < max m.lo 1 ∨ max m.lo 1 + 8 * ((min m.hi n - max m.lo 1) / 8) ≤ e) →
      m.owner n e = none)

/-- An extent is held when some hold of its lane meets its span; one with no tag or no last time is not. -/
def Obligations.HeldExtentIsMetByAHold : Prop :=
  ∀ (t : HoldTable) (x : Extent),
    t.holdsExtent x = true ↔ ∃ (lane : LaneNo) (f l : Nat),
      x.tag = some lane ∧ x.first = some f ∧ x.last = some l ∧
      ∃ h ∈ t.table, h.lane = lane ∧ h.start ≤ l ∧ (h.stop = none ∨ ∃ e, h.stop = some e ∧ f ≤ e)

/-- A finding enters the log at its newest end: while the log holds fewer than 256, or in the place of the oldest removable
record; one of id 0, and one that finds no place, does not enter, and LOG_FULL is set. A failed verdict check makes an ENDED
finding of its kind and severity under the next id, with its segment, measured value and limit. -/
def Obligations.FindingEntersTheLog : Prop :=
  ∀ (f : Finding) (s : State),
    (∀ (l : LaneNo) (g : SegCtx) (rule : RuleSet) (time : Time) (c : Check),
      let t := s.verdictFinding l g rule time c
      t.dev.nextId = nextFindingId s.dev.nextId ∧ t.notices.finding[l] = true ∧ t.statusesFollow ∧
      (s.dev.nextId ≠ 0 → s.dev.log.length < 256 →
        ∃ x, t.dev.log = s.dev.log ++ [x] ∧ x.id = s.dev.nextId ∧ x.lane = some l ∧ x.kind = c.kind ∧
          x.severity = c.severity ∧ x.state = .ended ∧ x.acked = false ∧ x.segId = some g.ident.segId ∧
          x.opened = time ∧ x.ended = some time ∧ x.measured = some c.measured ∧ x.limit = some c.limit)) ∧
    (f.id ≠ 0 → s.dev.log.length < 256 →
      s.enterFinding f = { s with dev := { s.dev with log := s.dev.log ++ [f] } }) ∧
    (∀ (before after : List Finding) (old : Finding), f.id ≠ 0 → 256 ≤ s.dev.log.length →
      s.dev.log = before ++ old :: after → (∀ g ∈ before, g.removable = false) → old.removable = true →
      s.enterFinding f = { s with dev := { s.dev with log := before ++ after ++ [f] } }) ∧
    ((f.id = 0 ∨ (256 ≤ s.dev.log.length ∧ ∀ g ∈ s.dev.log, g.removable = false)) →
      s.enterFinding f = { s with notices := { s.notices with logFull := true } }) ∧
    (f.removable = true ↔ f.state = .withdrawn ∨ (f.state = .ended ∧ f.acked = true))
end

