-- ==== Sys2Proof/Laws/State.lean ====
section
/-! SUPPORT. What each elementary update does to each field of the state: one theorem for an update, whose parts `simp`
uses as one rule for each field. -/

namespace Sys2Proof.Laws

open Sys2Proof.Machine

/-- Every field after `setLiu`. -/
@[simp] theorem setLiu_fields (s : State) (l : LaneNo) (x : Liu) :
    (s.setLiu l x).pending = s.pending ∧ (s.setLiu l x).clock = s.clock ∧
    (s.setLiu l x).freeCount = s.freeCount ∧ (s.setLiu l x).emitted = s.emitted ∧
    (s.setLiu l x).stamp = s.stamp ∧ (s.setLiu l x).attemptDue = s.attemptDue ∧
    (s.setLiu l x).station = s.station ∧ (s.setLiu l x).liu = s.liu.set l x ∧ (s.setLiu l x).le = s.le ∧
    (s.setLiu l x).cc = s.cc ∧ (s.setLiu l x).st = s.st ∧ (s.setLiu l x).verdicts = s.verdicts ∧
    (s.setLiu l x).cm = s.cm ∧ (s.setLiu l x).dev = s.dev ∧ (s.setLiu l x).alarm = s.alarm ∧
    (s.setLiu l x).settings = s.settings ∧ (s.setLiu l x).ac = s.ac ∧ (s.setLiu l x).extents = s.extents ∧
    (s.setLiu l x).sys = s.sys ∧ (s.setLiu l x).scan = s.scan ∧ (s.setLiu l x).format = s.format ∧
    (s.setLiu l x).holds = s.holds ∧ (s.setLiu l x).slots = s.slots ∧
    (s.setLiu l x).exportLink = s.exportLink ∧ (s.setLiu l x).retry = s.retry ∧ (s.setLiu l x).warm = s.warm ∧
    (s.setLiu l x).store = s.store ∧ (s.setLiu l x).link = s.link ∧ (s.setLiu l x).notices = s.notices ∧
    (s.setLiu l x).saveInFlight = s.saveInFlight := by
  refine ⟨?_, ?_⟩ <;> repeat' first | rfl | constructor

/-- Every field after `modLiu`. -/
@[simp] theorem modLiu_fields (s : State) (l : LaneNo) (f : Liu → Liu) :
    (s.modLiu l f).pending = s.pending ∧ (s.modLiu l f).clock = s.clock ∧
    (s.modLiu l f).freeCount = s.freeCount ∧ (s.modLiu l f).emitted = s.emitted ∧
    (s.modLiu l f).stamp = s.stamp ∧ (s.modLiu l f).attemptDue = s.attemptDue ∧
    (s.modLiu l f).station = s.station ∧ (s.modLiu l f).liu = s.liu.set l (f s.liu[l]) ∧
    (s.modLiu l f).le = s.le ∧ (s.modLiu l f).cc = s.cc ∧ (s.modLiu l f).st = s.st ∧
    (s.modLiu l f).verdicts = s.verdicts ∧ (s.modLiu l f).cm = s.cm ∧ (s.modLiu l f).dev = s.dev ∧
    (s.modLiu l f).alarm = s.alarm ∧ (s.modLiu l f).settings = s.settings ∧ (s.modLiu l f).ac = s.ac ∧
    (s.modLiu l f).extents = s.extents ∧ (s.modLiu l f).sys = s.sys ∧ (s.modLiu l f).scan = s.scan ∧
    (s.modLiu l f).format = s.format ∧ (s.modLiu l f).holds = s.holds ∧ (s.modLiu l f).slots = s.slots ∧
    (s.modLiu l f).exportLink = s.exportLink ∧ (s.modLiu l f).retry = s.retry ∧ (s.modLiu l f).warm = s.warm ∧
    (s.modLiu l f).store = s.store ∧ (s.modLiu l f).link = s.link ∧ (s.modLiu l f).notices = s.notices ∧
    (s.modLiu l f).saveInFlight = s.saveInFlight := by
  refine ⟨?_, ?_⟩ <;> repeat' first | rfl | constructor

/-- Every field after `setLe`. -/
@[simp] theorem setLe_fields (s : State) (l : LaneNo) (x : LeLane) :
    (s.setLe l x).pending = s.pending ∧ (s.setLe l x).clock = s.clock ∧ (s.setLe l x).freeCount = s.freeCount ∧
    (s.setLe l x).emitted = s.emitted ∧ (s.setLe l x).stamp = s.stamp ∧
    (s.setLe l x).attemptDue = s.attemptDue ∧ (s.setLe l x).station = s.station ∧ (s.setLe l x).liu = s.liu ∧
    (s.setLe l x).le = s.le.set l x ∧ (s.setLe l x).cc = s.cc ∧ (s.setLe l x).st = s.st ∧
    (s.setLe l x).verdicts = s.verdicts ∧ (s.setLe l x).cm = s.cm ∧ (s.setLe l x).dev = s.dev ∧
    (s.setLe l x).alarm = s.alarm ∧ (s.setLe l x).settings = s.settings ∧ (s.setLe l x).ac = s.ac ∧
    (s.setLe l x).extents = s.extents ∧ (s.setLe l x).sys = s.sys ∧ (s.setLe l x).scan = s.scan ∧
    (s.setLe l x).format = s.format ∧ (s.setLe l x).holds = s.holds ∧ (s.setLe l x).slots = s.slots ∧
    (s.setLe l x).exportLink = s.exportLink ∧ (s.setLe l x).retry = s.retry ∧ (s.setLe l x).warm = s.warm ∧
    (s.setLe l x).store = s.store ∧ (s.setLe l x).link = s.link ∧ (s.setLe l x).notices = s.notices ∧
    (s.setLe l x).saveInFlight = s.saveInFlight := by
  refine ⟨?_, ?_⟩ <;> repeat' first | rfl | constructor

/-- Every field after `modLe`. -/
@[simp] theorem modLe_fields (s : State) (l : LaneNo) (f : LeLane → LeLane) :
    (s.modLe l f).pending = s.pending ∧ (s.modLe l f).clock = s.clock ∧ (s.modLe l f).freeCount = s.freeCount ∧
    (s.modLe l f).emitted = s.emitted ∧ (s.modLe l f).stamp = s.stamp ∧
    (s.modLe l f).attemptDue = s.attemptDue ∧ (s.modLe l f).station = s.station ∧ (s.modLe l f).liu = s.liu ∧
    (s.modLe l f).le = s.le.set l (f s.le[l]) ∧ (s.modLe l f).cc = s.cc ∧ (s.modLe l f).st = s.st ∧
    (s.modLe l f).verdicts = s.verdicts ∧ (s.modLe l f).cm = s.cm ∧ (s.modLe l f).dev = s.dev ∧
    (s.modLe l f).alarm = s.alarm ∧ (s.modLe l f).settings = s.settings ∧ (s.modLe l f).ac = s.ac ∧
    (s.modLe l f).extents = s.extents ∧ (s.modLe l f).sys = s.sys ∧ (s.modLe l f).scan = s.scan ∧
    (s.modLe l f).format = s.format ∧ (s.modLe l f).holds = s.holds ∧ (s.modLe l f).slots = s.slots ∧
    (s.modLe l f).exportLink = s.exportLink ∧ (s.modLe l f).retry = s.retry ∧ (s.modLe l f).warm = s.warm ∧
    (s.modLe l f).store = s.store ∧ (s.modLe l f).link = s.link ∧ (s.modLe l f).notices = s.notices ∧
    (s.modLe l f).saveInFlight = s.saveInFlight := by
  refine ⟨?_, ?_⟩ <;> repeat' first | rfl | constructor

/-- Every field after `setCc`. -/
@[simp] theorem setCc_fields (s : State) (l : LaneNo) (x : CcLane) :
    (s.setCc l x).pending = s.pending ∧ (s.setCc l x).clock = s.clock ∧ (s.setCc l x).freeCount = s.freeCount ∧
    (s.setCc l x).emitted = s.emitted ∧ (s.setCc l x).stamp = s.stamp ∧
    (s.setCc l x).attemptDue = s.attemptDue ∧ (s.setCc l x).station = s.station ∧ (s.setCc l x).liu = s.liu ∧
    (s.setCc l x).le = s.le ∧ (s.setCc l x).cc = s.cc.set l x ∧ (s.setCc l x).st = s.st ∧
    (s.setCc l x).verdicts = s.verdicts ∧ (s.setCc l x).cm = s.cm ∧ (s.setCc l x).dev = s.dev ∧
    (s.setCc l x).alarm = s.alarm ∧ (s.setCc l x).settings = s.settings ∧ (s.setCc l x).ac = s.ac ∧
    (s.setCc l x).extents = s.extents ∧ (s.setCc l x).sys = s.sys ∧ (s.setCc l x).scan = s.scan ∧
    (s.setCc l x).format = s.format ∧ (s.setCc l x).holds = s.holds ∧ (s.setCc l x).slots = s.slots ∧
    (s.setCc l x).exportLink = s.exportLink ∧ (s.setCc l x).retry = s.retry ∧ (s.setCc l x).warm = s.warm ∧
    (s.setCc l x).store = s.store ∧ (s.setCc l x).link = s.link ∧ (s.setCc l x).notices = s.notices ∧
    (s.setCc l x).saveInFlight = s.saveInFlight := by
  refine ⟨?_, ?_⟩ <;> repeat' first | rfl | constructor

/-- Every field after `modCc`. -/
@[simp] theorem modCc_fields (s : State) (l : LaneNo) (f : CcLane → CcLane) :
    (s.modCc l f).pending = s.pending ∧ (s.modCc l f).clock = s.clock ∧ (s.modCc l f).freeCount = s.freeCount ∧
    (s.modCc l f).emitted = s.emitted ∧ (s.modCc l f).stamp = s.stamp ∧
    (s.modCc l f).attemptDue = s.attemptDue ∧ (s.modCc l f).station = s.station ∧ (s.modCc l f).liu = s.liu ∧
    (s.modCc l f).le = s.le ∧ (s.modCc l f).cc = s.cc.set l (f s.cc[l]) ∧ (s.modCc l f).st = s.st ∧
    (s.modCc l f).verdicts = s.verdicts ∧ (s.modCc l f).cm = s.cm ∧ (s.modCc l f).dev = s.dev ∧
    (s.modCc l f).alarm = s.alarm ∧ (s.modCc l f).settings = s.settings ∧ (s.modCc l f).ac = s.ac ∧
    (s.modCc l f).extents = s.extents ∧ (s.modCc l f).sys = s.sys ∧ (s.modCc l f).scan = s.scan ∧
    (s.modCc l f).format = s.format ∧ (s.modCc l f).holds = s.holds ∧ (s.modCc l f).slots = s.slots ∧
    (s.modCc l f).exportLink = s.exportLink ∧ (s.modCc l f).retry = s.retry ∧ (s.modCc l f).warm = s.warm ∧
    (s.modCc l f).store = s.store ∧ (s.modCc l f).link = s.link ∧ (s.modCc l f).notices = s.notices ∧
    (s.modCc l f).saveInFlight = s.saveInFlight := by
  refine ⟨?_, ?_⟩ <;> repeat' first | rfl | constructor

/-- Every field after `setSt`. -/
@[simp] theorem setSt_fields (s : State) (l : LaneNo) (x : StLane) :
    (s.setSt l x).pending = s.pending ∧ (s.setSt l x).clock = s.clock ∧ (s.setSt l x).freeCount = s.freeCount ∧
    (s.setSt l x).emitted = s.emitted ∧ (s.setSt l x).stamp = s.stamp ∧
    (s.setSt l x).attemptDue = s.attemptDue ∧ (s.setSt l x).station = s.station ∧ (s.setSt l x).liu = s.liu ∧
    (s.setSt l x).le = s.le ∧ (s.setSt l x).cc = s.cc ∧ (s.setSt l x).st = s.st.set l x ∧
    (s.setSt l x).verdicts = s.verdicts ∧ (s.setSt l x).cm = s.cm ∧ (s.setSt l x).dev = s.dev ∧
    (s.setSt l x).alarm = s.alarm ∧ (s.setSt l x).settings = s.settings ∧ (s.setSt l x).ac = s.ac ∧
    (s.setSt l x).extents = s.extents ∧ (s.setSt l x).sys = s.sys ∧ (s.setSt l x).scan = s.scan ∧
    (s.setSt l x).format = s.format ∧ (s.setSt l x).holds = s.holds ∧ (s.setSt l x).slots = s.slots ∧
    (s.setSt l x).exportLink = s.exportLink ∧ (s.setSt l x).retry = s.retry ∧ (s.setSt l x).warm = s.warm ∧
    (s.setSt l x).store = s.store ∧ (s.setSt l x).link = s.link ∧ (s.setSt l x).notices = s.notices ∧
    (s.setSt l x).saveInFlight = s.saveInFlight := by
  refine ⟨?_, ?_⟩ <;> repeat' first | rfl | constructor

/-- Every field after `modSt`. -/
@[simp] theorem modSt_fields (s : State) (l : LaneNo) (f : StLane → StLane) :
    (s.modSt l f).pending = s.pending ∧ (s.modSt l f).clock = s.clock ∧ (s.modSt l f).freeCount = s.freeCount ∧
    (s.modSt l f).emitted = s.emitted ∧ (s.modSt l f).stamp = s.stamp ∧
    (s.modSt l f).attemptDue = s.attemptDue ∧ (s.modSt l f).station = s.station ∧ (s.modSt l f).liu = s.liu ∧
    (s.modSt l f).le = s.le ∧ (s.modSt l f).cc = s.cc ∧ (s.modSt l f).st = s.st.set l (f s.st[l]) ∧
    (s.modSt l f).verdicts = s.verdicts ∧ (s.modSt l f).cm = s.cm ∧ (s.modSt l f).dev = s.dev ∧
    (s.modSt l f).alarm = s.alarm ∧ (s.modSt l f).settings = s.settings ∧ (s.modSt l f).ac = s.ac ∧
    (s.modSt l f).extents = s.extents ∧ (s.modSt l f).sys = s.sys ∧ (s.modSt l f).scan = s.scan ∧
    (s.modSt l f).format = s.format ∧ (s.modSt l f).holds = s.holds ∧ (s.modSt l f).slots = s.slots ∧
    (s.modSt l f).exportLink = s.exportLink ∧ (s.modSt l f).retry = s.retry ∧ (s.modSt l f).warm = s.warm ∧
    (s.modSt l f).store = s.store ∧ (s.modSt l f).link = s.link ∧ (s.modSt l f).notices = s.notices ∧
    (s.modSt l f).saveInFlight = s.saveInFlight := by
  refine ⟨?_, ?_⟩ <;> repeat' first | rfl | constructor

/-- Every field after `setCm`. -/
@[simp] theorem setCm_fields (s : State) (l : LaneNo) (x : CmLane) :
    (s.setCm l x).pending = s.pending ∧ (s.setCm l x).clock = s.clock ∧ (s.setCm l x).freeCount = s.freeCount ∧
    (s.setCm l x).emitted = s.emitted ∧ (s.setCm l x).stamp = s.stamp ∧
    (s.setCm l x).attemptDue = s.attemptDue ∧ (s.setCm l x).station = s.station ∧ (s.setCm l x).liu = s.liu ∧
    (s.setCm l x).le = s.le ∧ (s.setCm l x).cc = s.cc ∧ (s.setCm l x).st = s.st ∧
    (s.setCm l x).verdicts = s.verdicts ∧ (s.setCm l x).cm = s.cm.set l x ∧ (s.setCm l x).dev = s.dev ∧
    (s.setCm l x).alarm = s.alarm ∧ (s.setCm l x).settings = s.settings ∧ (s.setCm l x).ac = s.ac ∧
    (s.setCm l x).extents = s.extents ∧ (s.setCm l x).sys = s.sys ∧ (s.setCm l x).scan = s.scan ∧
    (s.setCm l x).format = s.format ∧ (s.setCm l x).holds = s.holds ∧ (s.setCm l x).slots = s.slots ∧
    (s.setCm l x).exportLink = s.exportLink ∧ (s.setCm l x).retry = s.retry ∧ (s.setCm l x).warm = s.warm ∧
    (s.setCm l x).store = s.store ∧ (s.setCm l x).link = s.link ∧ (s.setCm l x).notices = s.notices ∧
    (s.setCm l x).saveInFlight = s.saveInFlight := by
  refine ⟨?_, ?_⟩ <;> repeat' first | rfl | constructor

/-- Every field after `modCm`. -/
@[simp] theorem modCm_fields (s : State) (l : LaneNo) (f : CmLane → CmLane) :
    (s.modCm l f).pending = s.pending ∧ (s.modCm l f).clock = s.clock ∧ (s.modCm l f).freeCount = s.freeCount ∧
    (s.modCm l f).emitted = s.emitted ∧ (s.modCm l f).stamp = s.stamp ∧
    (s.modCm l f).attemptDue = s.attemptDue ∧ (s.modCm l f).station = s.station ∧ (s.modCm l f).liu = s.liu ∧
    (s.modCm l f).le = s.le ∧ (s.modCm l f).cc = s.cc ∧ (s.modCm l f).st = s.st ∧
    (s.modCm l f).verdicts = s.verdicts ∧ (s.modCm l f).cm = s.cm.set l (f s.cm[l]) ∧
    (s.modCm l f).dev = s.dev ∧ (s.modCm l f).alarm = s.alarm ∧ (s.modCm l f).settings = s.settings ∧
    (s.modCm l f).ac = s.ac ∧ (s.modCm l f).extents = s.extents ∧ (s.modCm l f).sys = s.sys ∧
    (s.modCm l f).scan = s.scan ∧ (s.modCm l f).format = s.format ∧ (s.modCm l f).holds = s.holds ∧
    (s.modCm l f).slots = s.slots ∧ (s.modCm l f).exportLink = s.exportLink ∧ (s.modCm l f).retry = s.retry ∧
    (s.modCm l f).warm = s.warm ∧ (s.modCm l f).store = s.store ∧ (s.modCm l f).link = s.link ∧
    (s.modCm l f).notices = s.notices ∧ (s.modCm l f).saveInFlight = s.saveInFlight := by
  refine ⟨?_, ?_⟩ <;> repeat' first | rfl | constructor

/-- Every field after `setAc`. -/
@[simp] theorem setAc_fields (s : State) (l : LaneNo) (x : AcLane) :
    (s.setAc l x).pending = s.pending ∧ (s.setAc l x).clock = s.clock ∧ (s.setAc l x).freeCount = s.freeCount ∧
    (s.setAc l x).emitted = s.emitted ∧ (s.setAc l x).stamp = s.stamp ∧
    (s.setAc l x).attemptDue = s.attemptDue ∧ (s.setAc l x).station = s.station ∧ (s.setAc l x).liu = s.liu ∧
    (s.setAc l x).le = s.le ∧ (s.setAc l x).cc = s.cc ∧ (s.setAc l x).st = s.st ∧
    (s.setAc l x).verdicts = s.verdicts ∧ (s.setAc l x).cm = s.cm ∧ (s.setAc l x).dev = s.dev ∧
    (s.setAc l x).alarm = s.alarm ∧ (s.setAc l x).settings = s.settings ∧ (s.setAc l x).ac = s.ac.set l x ∧
    (s.setAc l x).extents = s.extents ∧ (s.setAc l x).sys = s.sys ∧ (s.setAc l x).scan = s.scan ∧
    (s.setAc l x).format = s.format ∧ (s.setAc l x).holds = s.holds ∧ (s.setAc l x).slots = s.slots ∧
    (s.setAc l x).exportLink = s.exportLink ∧ (s.setAc l x).retry = s.retry ∧ (s.setAc l x).warm = s.warm ∧
    (s.setAc l x).store = s.store ∧ (s.setAc l x).link = s.link ∧ (s.setAc l x).notices = s.notices ∧
    (s.setAc l x).saveInFlight = s.saveInFlight := by
  refine ⟨?_, ?_⟩ <;> repeat' first | rfl | constructor

/-- Every field after `modAc`. -/
@[simp] theorem modAc_fields (s : State) (l : LaneNo) (f : AcLane → AcLane) :
    (s.modAc l f).pending = s.pending ∧ (s.modAc l f).clock = s.clock ∧ (s.modAc l f).freeCount = s.freeCount ∧
    (s.modAc l f).emitted = s.emitted ∧ (s.modAc l f).stamp = s.stamp ∧
    (s.modAc l f).attemptDue = s.attemptDue ∧ (s.modAc l f).station = s.station ∧ (s.modAc l f).liu = s.liu ∧
    (s.modAc l f).le = s.le ∧ (s.modAc l f).cc = s.cc ∧ (s.modAc l f).st = s.st ∧
    (s.modAc l f).verdicts = s.verdicts ∧ (s.modAc l f).cm = s.cm ∧ (s.modAc l f).dev = s.dev ∧
    (s.modAc l f).alarm = s.alarm ∧ (s.modAc l f).settings = s.settings ∧
    (s.modAc l f).ac = s.ac.set l (f s.ac[l]) ∧ (s.modAc l f).extents = s.extents ∧ (s.modAc l f).sys = s.sys ∧
    (s.modAc l f).scan = s.scan ∧ (s.modAc l f).format = s.format ∧ (s.modAc l f).holds = s.holds ∧
    (s.modAc l f).slots = s.slots ∧ (s.modAc l f).exportLink = s.exportLink ∧ (s.modAc l f).retry = s.retry ∧
    (s.modAc l f).warm = s.warm ∧ (s.modAc l f).store = s.store ∧ (s.modAc l f).link = s.link ∧
    (s.modAc l f).notices = s.notices ∧ (s.modAc l f).saveInFlight = s.saveInFlight := by
  refine ⟨?_, ?_⟩ <;> repeat' first | rfl | constructor

/-- Every field after `setSlot`. -/
@[simp] theorem setSlot_fields (s : State) (l : SlotNo) (x : Slot) :
    (s.setSlot l x).pending = s.pending ∧ (s.setSlot l x).clock = s.clock ∧
    (s.setSlot l x).freeCount = s.freeCount ∧ (s.setSlot l x).emitted = s.emitted ∧
    (s.setSlot l x).stamp = s.stamp ∧ (s.setSlot l x).attemptDue = s.attemptDue ∧
    (s.setSlot l x).station = s.station ∧ (s.setSlot l x).liu = s.liu ∧ (s.setSlot l x).le = s.le ∧
    (s.setSlot l x).cc = s.cc ∧ (s.setSlot l x).st = s.st ∧ (s.setSlot l x).verdicts = s.verdicts ∧
    (s.setSlot l x).cm = s.cm ∧ (s.setSlot l x).dev = s.dev ∧ (s.setSlot l x).alarm = s.alarm ∧
    (s.setSlot l x).settings = s.settings ∧ (s.setSlot l x).ac = s.ac ∧ (s.setSlot l x).extents = s.extents ∧
    (s.setSlot l x).sys = s.sys ∧ (s.setSlot l x).scan = s.scan ∧ (s.setSlot l x).format = s.format ∧
    (s.setSlot l x).holds = s.holds ∧ (s.setSlot l x).slots = s.slots.set l x ∧
    (s.setSlot l x).exportLink = s.exportLink ∧ (s.setSlot l x).retry = s.retry ∧
    (s.setSlot l x).warm = s.warm ∧ (s.setSlot l x).store = s.store ∧ (s.setSlot l x).link = s.link ∧
    (s.setSlot l x).notices = s.notices ∧ (s.setSlot l x).saveInFlight = s.saveInFlight := by
  refine ⟨?_, ?_⟩ <;> repeat' first | rfl | constructor

/-- Every field after `modSlot`. -/
@[simp] theorem modSlot_fields (s : State) (l : SlotNo) (f : Slot → Slot) :
    (s.modSlot l f).pending = s.pending ∧ (s.modSlot l f).clock = s.clock ∧
    (s.modSlot l f).freeCount = s.freeCount ∧ (s.modSlot l f).emitted = s.emitted ∧
    (s.modSlot l f).stamp = s.stamp ∧ (s.modSlot l f).attemptDue = s.attemptDue ∧
    (s.modSlot l f).station = s.station ∧ (s.modSlot l f).liu = s.liu ∧ (s.modSlot l f).le = s.le ∧
    (s.modSlot l f).cc = s.cc ∧ (s.modSlot l f).st = s.st ∧ (s.modSlot l f).verdicts = s.verdicts ∧
    (s.modSlot l f).cm = s.cm ∧ (s.modSlot l f).dev = s.dev ∧ (s.modSlot l f).alarm = s.alarm ∧
    (s.modSlot l f).settings = s.settings ∧ (s.modSlot l f).ac = s.ac ∧ (s.modSlot l f).extents = s.extents ∧
    (s.modSlot l f).sys = s.sys ∧ (s.modSlot l f).scan = s.scan ∧ (s.modSlot l f).format = s.format ∧
    (s.modSlot l f).holds = s.holds ∧ (s.modSlot l f).slots = s.slots.set l (f s.slots[l]) ∧
    (s.modSlot l f).exportLink = s.exportLink ∧ (s.modSlot l f).retry = s.retry ∧
    (s.modSlot l f).warm = s.warm ∧ (s.modSlot l f).store = s.store ∧ (s.modSlot l f).link = s.link ∧
    (s.modSlot l f).notices = s.notices ∧ (s.modSlot l f).saveInFlight = s.saveInFlight := by
  refine ⟨?_, ?_⟩ <;> repeat' first | rfl | constructor

/-- Every field after `raiseCarriage`. -/
@[simp] theorem raiseCarriage_fields (s : State) (l : LaneNo) :
    (s.raiseCarriage l).pending = s.pending ∧ (s.raiseCarriage l).clock = s.clock ∧
    (s.raiseCarriage l).freeCount = s.freeCount ∧ (s.raiseCarriage l).emitted = s.emitted ∧
    (s.raiseCarriage l).stamp = s.stamp ∧ (s.raiseCarriage l).attemptDue = s.attemptDue ∧
    (s.raiseCarriage l).station = s.station ∧ (s.raiseCarriage l).liu = s.liu ∧ (s.raiseCarriage l).le = s.le ∧
    (s.raiseCarriage l).cc = s.cc ∧ (s.raiseCarriage l).st = s.st ∧ (s.raiseCarriage l).verdicts = s.verdicts ∧
    (s.raiseCarriage l).cm = s.cm ∧ (s.raiseCarriage l).dev = s.dev ∧ (s.raiseCarriage l).alarm = s.alarm ∧
    (s.raiseCarriage l).settings = s.settings ∧ (s.raiseCarriage l).ac = s.ac ∧
    (s.raiseCarriage l).extents = s.extents ∧ (s.raiseCarriage l).sys = s.sys ∧
    (s.raiseCarriage l).scan = s.scan ∧ (s.raiseCarriage l).format = s.format ∧
    (s.raiseCarriage l).holds = s.holds ∧ (s.raiseCarriage l).slots = s.slots ∧
    (s.raiseCarriage l).exportLink = s.exportLink ∧ (s.raiseCarriage l).retry = s.retry ∧
    (s.raiseCarriage l).warm = s.warm ∧ (s.raiseCarriage l).store = s.store ∧
    (s.raiseCarriage l).link = s.link ∧
    (s.raiseCarriage l).notices = { s.notices with carriage := s.notices.carriage.set l true } ∧
    (s.raiseCarriage l).saveInFlight = s.saveInFlight := by
  refine ⟨?_, ?_⟩ <;> repeat' first | rfl | constructor

/-- Every field after `raiseCaption`. -/
@[simp] theorem raiseCaption_fields (s : State) (l : LaneNo) :
    (s.raiseCaption l).pending = s.pending ∧ (s.raiseCaption l).clock = s.clock ∧
    (s.raiseCaption l).freeCount = s.freeCount ∧ (s.raiseCaption l).emitted = s.emitted ∧
    (s.raiseCaption l).stamp = s.stamp ∧ (s.raiseCaption l).attemptDue = s.attemptDue ∧
    (s.raiseCaption l).station = s.station ∧ (s.raiseCaption l).liu = s.liu ∧ (s.raiseCaption l).le = s.le ∧
    (s.raiseCaption l).cc = s.cc ∧ (s.raiseCaption l).st = s.st ∧ (s.raiseCaption l).verdicts = s.verdicts ∧
    (s.raiseCaption l).cm = s.cm ∧ (s.raiseCaption l).dev = s.dev ∧ (s.raiseCaption l).alarm = s.alarm ∧
    (s.raiseCaption l).settings = s.settings ∧ (s.raiseCaption l).ac = s.ac ∧
    (s.raiseCaption l).extents = s.extents ∧ (s.raiseCaption l).sys = s.sys ∧
    (s.raiseCaption l).scan = s.scan ∧ (s.raiseCaption l).format = s.format ∧
    (s.raiseCaption l).holds = s.holds ∧ (s.raiseCaption l).slots = s.slots ∧
    (s.raiseCaption l).exportLink = s.exportLink ∧ (s.raiseCaption l).retry = s.retry ∧
    (s.raiseCaption l).warm = s.warm ∧ (s.raiseCaption l).store = s.store ∧ (s.raiseCaption l).link = s.link ∧
    (s.raiseCaption l).notices = { s.notices with caption := s.notices.caption.set l true } ∧
    (s.raiseCaption l).saveInFlight = s.saveInFlight := by
  refine ⟨?_, ?_⟩ <;> repeat' first | rfl | constructor

/-- Every field after `raiseVerdict`. -/
@[simp] theorem raiseVerdict_fields (s : State) :
    (s.raiseVerdict).pending = s.pending ∧ (s.raiseVerdict).clock = s.clock ∧
    (s.raiseVerdict).freeCount = s.freeCount ∧ (s.raiseVerdict).emitted = s.emitted ∧
    (s.raiseVerdict).stamp = s.stamp ∧ (s.raiseVerdict).attemptDue = s.attemptDue ∧
    (s.raiseVerdict).station = s.station ∧ (s.raiseVerdict).liu = s.liu ∧ (s.raiseVerdict).le = s.le ∧
    (s.raiseVerdict).cc = s.cc ∧ (s.raiseVerdict).st = s.st ∧ (s.raiseVerdict).verdicts = s.verdicts ∧
    (s.raiseVerdict).cm = s.cm ∧ (s.raiseVerdict).dev = s.dev ∧ (s.raiseVerdict).alarm = s.alarm ∧
    (s.raiseVerdict).settings = s.settings ∧ (s.raiseVerdict).ac = s.ac ∧
    (s.raiseVerdict).extents = s.extents ∧ (s.raiseVerdict).sys = s.sys ∧ (s.raiseVerdict).scan = s.scan ∧
    (s.raiseVerdict).format = s.format ∧ (s.raiseVerdict).holds = s.holds ∧ (s.raiseVerdict).slots = s.slots ∧
    (s.raiseVerdict).exportLink = s.exportLink ∧ (s.raiseVerdict).retry = s.retry ∧
    (s.raiseVerdict).warm = s.warm ∧ (s.raiseVerdict).store = s.store ∧ (s.raiseVerdict).link = s.link ∧
    (s.raiseVerdict).notices = { s.notices with verdict := true } ∧
    (s.raiseVerdict).saveInFlight = s.saveInFlight := by
  refine ⟨?_, ?_⟩ <;> repeat' first | rfl | constructor

/-- Every field after `raiseRecall`. -/
@[simp] theorem raiseRecall_fields (s : State) (k : SlotNo) :
    (s.raiseRecall k).pending = s.pending ∧ (s.raiseRecall k).clock = s.clock ∧
    (s.raiseRecall k).freeCount = s.freeCount ∧ (s.raiseRecall k).emitted = s.emitted ∧
    (s.raiseRecall k).stamp = s.stamp ∧ (s.raiseRecall k).attemptDue = s.attemptDue ∧
    (s.raiseRecall k).station = s.station ∧ (s.raiseRecall k).liu = s.liu ∧ (s.raiseRecall k).le = s.le ∧
    (s.raiseRecall k).cc = s.cc ∧ (s.raiseRecall k).st = s.st ∧ (s.raiseRecall k).verdicts = s.verdicts ∧
    (s.raiseRecall k).cm = s.cm ∧ (s.raiseRecall k).dev = s.dev ∧ (s.raiseRecall k).alarm = s.alarm ∧
    (s.raiseRecall k).settings = s.settings ∧ (s.raiseRecall k).ac = s.ac ∧
    (s.raiseRecall k).extents = s.extents ∧ (s.raiseRecall k).sys = s.sys ∧ (s.raiseRecall k).scan = s.scan ∧
    (s.raiseRecall k).format = s.format ∧ (s.raiseRecall k).holds = s.holds ∧
    (s.raiseRecall k).slots = s.slots ∧ (s.raiseRecall k).exportLink = s.exportLink ∧
    (s.raiseRecall k).retry = s.retry ∧ (s.raiseRecall k).warm = s.warm ∧ (s.raiseRecall k).store = s.store ∧
    (s.raiseRecall k).link = s.link ∧
    (s.raiseRecall k).notices = { s.notices with recallEnd := s.notices.recallEnd.set k true } ∧
    (s.raiseRecall k).saveInFlight = s.saveInFlight := by
  refine ⟨?_, ?_⟩ <;> repeat' first | rfl | constructor

/-- Every field after `raiseSaveDone`. -/
@[simp] theorem raiseSaveDone_fields (s : State) (ok : Bool) :
    (s.raiseSaveDone ok).pending = s.pending ∧ (s.raiseSaveDone ok).clock = s.clock ∧
    (s.raiseSaveDone ok).freeCount = s.freeCount ∧ (s.raiseSaveDone ok).emitted = s.emitted ∧
    (s.raiseSaveDone ok).stamp = s.stamp ∧ (s.raiseSaveDone ok).attemptDue = s.attemptDue ∧
    (s.raiseSaveDone ok).station = s.station ∧ (s.raiseSaveDone ok).liu = s.liu ∧
    (s.raiseSaveDone ok).le = s.le ∧ (s.raiseSaveDone ok).cc = s.cc ∧ (s.raiseSaveDone ok).st = s.st ∧
    (s.raiseSaveDone ok).verdicts = s.verdicts ∧ (s.raiseSaveDone ok).cm = s.cm ∧
    (s.raiseSaveDone ok).dev = s.dev ∧ (s.raiseSaveDone ok).alarm = s.alarm ∧
    (s.raiseSaveDone ok).settings = s.settings ∧ (s.raiseSaveDone ok).ac = s.ac ∧
    (s.raiseSaveDone ok).extents = s.extents ∧ (s.raiseSaveDone ok).sys = s.sys ∧
    (s.raiseSaveDone ok).scan = s.scan ∧ (s.raiseSaveDone ok).format = s.format ∧
    (s.raiseSaveDone ok).holds = s.holds ∧ (s.raiseSaveDone ok).slots = s.slots ∧
    (s.raiseSaveDone ok).exportLink = s.exportLink ∧ (s.raiseSaveDone ok).retry = s.retry ∧
    (s.raiseSaveDone ok).warm = s.warm ∧ (s.raiseSaveDone ok).store = s.store ∧
    (s.raiseSaveDone ok).link = s.link ∧
    (s.raiseSaveDone ok).notices = { s.notices with saveDone := some ok } ∧
    (s.raiseSaveDone ok).saveInFlight = s.saveInFlight := by
  refine ⟨?_, ?_⟩ <;> repeat' first | rfl | constructor

/-- Every field after `raiseFormatDone`. -/
@[simp] theorem raiseFormatDone_fields (s : State) :
    (s.raiseFormatDone).pending = s.pending ∧ (s.raiseFormatDone).clock = s.clock ∧
    (s.raiseFormatDone).freeCount = s.freeCount ∧ (s.raiseFormatDone).emitted = s.emitted ∧
    (s.raiseFormatDone).stamp = s.stamp ∧ (s.raiseFormatDone).attemptDue = s.attemptDue ∧
    (s.raiseFormatDone).station = s.station ∧ (s.raiseFormatDone).liu = s.liu ∧ (s.raiseFormatDone).le = s.le ∧
    (s.raiseFormatDone).cc = s.cc ∧ (s.raiseFormatDone).st = s.st ∧ (s.raiseFormatDone).verdicts = s.verdicts ∧
    (s.raiseFormatDone).cm = s.cm ∧ (s.raiseFormatDone).dev = s.dev ∧ (s.raiseFormatDone).alarm = s.alarm ∧
    (s.raiseFormatDone).settings = s.settings ∧ (s.raiseFormatDone).ac = s.ac ∧
    (s.raiseFormatDone).extents = s.extents ∧ (s.raiseFormatDone).sys = s.sys ∧
    (s.raiseFormatDone).scan = s.scan ∧ (s.raiseFormatDone).format = s.format ∧
    (s.raiseFormatDone).holds = s.holds ∧ (s.raiseFormatDone).slots = s.slots ∧
    (s.raiseFormatDone).exportLink = s.exportLink ∧ (s.raiseFormatDone).retry = s.retry ∧
    (s.raiseFormatDone).warm = s.warm ∧ (s.raiseFormatDone).store = s.store ∧
    (s.raiseFormatDone).link = s.link ∧ (s.raiseFormatDone).notices = { s.notices with formatDone := true } ∧
    (s.raiseFormatDone).saveInFlight = s.saveInFlight := by
  refine ⟨?_, ?_⟩ <;> repeat' first | rfl | constructor

/-- Every field after `raiseScanDone`. -/
@[simp] theorem raiseScanDone_fields (s : State) :
    (s.raiseScanDone).pending = s.pending ∧ (s.raiseScanDone).clock = s.clock ∧
    (s.raiseScanDone).freeCount = s.freeCount ∧ (s.raiseScanDone).emitted = s.emitted ∧
    (s.raiseScanDone).stamp = s.stamp ∧ (s.raiseScanDone).attemptDue = s.attemptDue ∧
    (s.raiseScanDone).station = s.station ∧ (s.raiseScanDone).liu = s.liu ∧ (s.raiseScanDone).le = s.le ∧
    (s.raiseScanDone).cc = s.cc ∧ (s.raiseScanDone).st = s.st ∧ (s.raiseScanDone).verdicts = s.verdicts ∧
    (s.raiseScanDone).cm = s.cm ∧ (s.raiseScanDone).dev = s.dev ∧ (s.raiseScanDone).alarm = s.alarm ∧
    (s.raiseScanDone).settings = s.settings ∧ (s.raiseScanDone).ac = s.ac ∧
    (s.raiseScanDone).extents = s.extents ∧ (s.raiseScanDone).sys = s.sys ∧ (s.raiseScanDone).scan = s.scan ∧
    (s.raiseScanDone).format = s.format ∧ (s.raiseScanDone).holds = s.holds ∧
    (s.raiseScanDone).slots = s.slots ∧ (s.raiseScanDone).exportLink = s.exportLink ∧
    (s.raiseScanDone).retry = s.retry ∧ (s.raiseScanDone).warm = s.warm ∧ (s.raiseScanDone).store = s.store ∧
    (s.raiseScanDone).link = s.link ∧ (s.raiseScanDone).notices = { s.notices with scanDone := true } ∧
    (s.raiseScanDone).saveInFlight = s.saveInFlight := by
  refine ⟨?_, ?_⟩ <;> repeat' first | rfl | constructor

/-- Every field after `raiseLogFull`. -/
@[simp] theorem raiseLogFull_fields (s : State) :
    (s.raiseLogFull).pending = s.pending ∧ (s.raiseLogFull).clock = s.clock ∧
    (s.raiseLogFull).freeCount = s.freeCount ∧ (s.raiseLogFull).emitted = s.emitted ∧
    (s.raiseLogFull).stamp = s.stamp ∧ (s.raiseLogFull).attemptDue = s.attemptDue ∧
    (s.raiseLogFull).station = s.station ∧ (s.raiseLogFull).liu = s.liu ∧ (s.raiseLogFull).le = s.le ∧
    (s.raiseLogFull).cc = s.cc ∧ (s.raiseLogFull).st = s.st ∧ (s.raiseLogFull).verdicts = s.verdicts ∧
    (s.raiseLogFull).cm = s.cm ∧ (s.raiseLogFull).dev = s.dev ∧ (s.raiseLogFull).alarm = s.alarm ∧
    (s.raiseLogFull).settings = s.settings ∧ (s.raiseLogFull).ac = s.ac ∧
    (s.raiseLogFull).extents = s.extents ∧ (s.raiseLogFull).sys = s.sys ∧ (s.raiseLogFull).scan = s.scan ∧
    (s.raiseLogFull).format = s.format ∧ (s.raiseLogFull).holds = s.holds ∧ (s.raiseLogFull).slots = s.slots ∧
    (s.raiseLogFull).exportLink = s.exportLink ∧ (s.raiseLogFull).retry = s.retry ∧
    (s.raiseLogFull).warm = s.warm ∧ (s.raiseLogFull).store = s.store ∧ (s.raiseLogFull).link = s.link ∧
    (s.raiseLogFull).notices = { s.notices with logFull := true } ∧
    (s.raiseLogFull).saveInFlight = s.saveInFlight := by
  refine ⟨?_, ?_⟩ <;> repeat' first | rfl | constructor

/-- Every field after `raiseConfigTimeout`. -/
@[simp] theorem raiseConfigTimeout_fields (s : State) :
    (s.raiseConfigTimeout).pending = s.pending ∧ (s.raiseConfigTimeout).clock = s.clock ∧
    (s.raiseConfigTimeout).freeCount = s.freeCount ∧ (s.raiseConfigTimeout).emitted = s.emitted ∧
    (s.raiseConfigTimeout).stamp = s.stamp ∧ (s.raiseConfigTimeout).attemptDue = s.attemptDue ∧
    (s.raiseConfigTimeout).station = s.station ∧ (s.raiseConfigTimeout).liu = s.liu ∧
    (s.raiseConfigTimeout).le = s.le ∧ (s.raiseConfigTimeout).cc = s.cc ∧ (s.raiseConfigTimeout).st = s.st ∧
    (s.raiseConfigTimeout).verdicts = s.verdicts ∧ (s.raiseConfigTimeout).cm = s.cm ∧
    (s.raiseConfigTimeout).dev = s.dev ∧ (s.raiseConfigTimeout).alarm = s.alarm ∧
    (s.raiseConfigTimeout).settings = s.settings ∧ (s.raiseConfigTimeout).ac = s.ac ∧
    (s.raiseConfigTimeout).extents = s.extents ∧ (s.raiseConfigTimeout).sys = s.sys ∧
    (s.raiseConfigTimeout).scan = s.scan ∧ (s.raiseConfigTimeout).format = s.format ∧
    (s.raiseConfigTimeout).holds = s.holds ∧ (s.raiseConfigTimeout).slots = s.slots ∧
    (s.raiseConfigTimeout).exportLink = s.exportLink ∧ (s.raiseConfigTimeout).retry = s.retry ∧
    (s.raiseConfigTimeout).warm = s.warm ∧ (s.raiseConfigTimeout).store = s.store ∧
    (s.raiseConfigTimeout).link = s.link ∧
    (s.raiseConfigTimeout).notices = { s.notices with configTimeout := true } ∧
    (s.raiseConfigTimeout).saveInFlight = s.saveInFlight := by
  refine ⟨?_, ?_⟩ <;> repeat' first | rfl | constructor

/-- Every field after `emit`. -/
@[simp] theorem emit_fields (s : State) (e : Emission) :
    (s.emit e).pending = s.pending ∧ (s.emit e).clock = s.clock ∧ (s.emit e).freeCount = s.freeCount ∧
    (s.emit e).emitted = s.emitted ++ [e] ∧ (s.emit e).stamp = s.stamp ∧ (s.emit e).attemptDue = s.attemptDue ∧
    (s.emit e).station = s.station ∧ (s.emit e).liu = s.liu ∧ (s.emit e).le = s.le ∧ (s.emit e).cc = s.cc ∧
    (s.emit e).st = s.st ∧ (s.emit e).verdicts = s.verdicts ∧ (s.emit e).cm = s.cm ∧ (s.emit e).dev = s.dev ∧
    (s.emit e).alarm = s.alarm ∧ (s.emit e).settings = s.settings ∧ (s.emit e).ac = s.ac ∧
    (s.emit e).extents = s.extents ∧ (s.emit e).sys = s.sys ∧ (s.emit e).scan = s.scan ∧
    (s.emit e).format = s.format ∧ (s.emit e).holds = s.holds ∧ (s.emit e).slots = s.slots ∧
    (s.emit e).exportLink = s.exportLink ∧ (s.emit e).retry = s.retry ∧ (s.emit e).warm = s.warm ∧
    (s.emit e).store = s.store ∧ (s.emit e).link = s.link ∧ (s.emit e).notices = s.notices ∧
    (s.emit e).saveInFlight = s.saveInFlight := by
  refine ⟨?_, ?_⟩ <;> repeat' first | rfl | constructor

/-- Every field after `advanceFree`. -/
@[simp] theorem advanceFree_fields (s : State) :
    (s.advanceFree).pending = s.pending ∧ (s.advanceFree).clock = s.clock ∧
    (s.advanceFree).freeCount = s.freeCount + 1 ∧ (s.advanceFree).emitted = s.emitted ∧
    (s.advanceFree).stamp = s.stamp ∧ (s.advanceFree).attemptDue = s.attemptDue ∧
    (s.advanceFree).station = s.station ∧ (s.advanceFree).liu = s.liu ∧ (s.advanceFree).le = s.le ∧
    (s.advanceFree).cc = s.cc ∧ (s.advanceFree).st = s.st ∧ (s.advanceFree).verdicts = s.verdicts ∧
    (s.advanceFree).cm = s.cm ∧ (s.advanceFree).dev = s.dev ∧ (s.advanceFree).alarm = s.alarm ∧
    (s.advanceFree).settings = s.settings ∧ (s.advanceFree).ac = s.ac ∧ (s.advanceFree).extents = s.extents ∧
    (s.advanceFree).sys = s.sys ∧ (s.advanceFree).scan = s.scan ∧ (s.advanceFree).format = s.format ∧
    (s.advanceFree).holds = s.holds ∧ (s.advanceFree).slots = s.slots ∧
    (s.advanceFree).exportLink = s.exportLink ∧ (s.advanceFree).retry = s.retry ∧
    (s.advanceFree).warm = s.warm ∧ (s.advanceFree).store = s.store ∧ (s.advanceFree).link = s.link ∧
    (s.advanceFree).notices = s.notices ∧ (s.advanceFree).saveInFlight = s.saveInFlight := by
  refine ⟨?_, ?_⟩ <;> repeat' first | rfl | constructor

/-- Every field after `begin`. -/
@[simp] theorem begin_fields (s : State) :
    (s.begin).pending = s.pending ∧ (s.begin).clock = s.clock ∧ (s.begin).freeCount = s.freeCount ∧
    (s.begin).emitted = [] ∧ (s.begin).stamp = s.stamp ∧ (s.begin).attemptDue = s.attemptDue ∧
    (s.begin).station = s.station ∧ (s.begin).liu = s.liu ∧ (s.begin).le = s.le ∧ (s.begin).cc = s.cc ∧
    (s.begin).st = s.st ∧ (s.begin).verdicts = s.verdicts ∧ (s.begin).cm = s.cm ∧ (s.begin).dev = s.dev ∧
    (s.begin).alarm = s.alarm ∧ (s.begin).settings = s.settings ∧ (s.begin).ac = s.ac ∧
    (s.begin).extents = s.extents ∧ (s.begin).sys = s.sys ∧ (s.begin).scan = s.scan ∧
    (s.begin).format = s.format ∧ (s.begin).holds = s.holds ∧ (s.begin).slots = s.slots ∧
    (s.begin).exportLink = s.exportLink ∧ (s.begin).retry = s.retry ∧ (s.begin).warm = s.warm ∧
    (s.begin).store = s.store ∧ (s.begin).link = s.link ∧ (s.begin).notices = s.notices ∧
    (s.begin).saveInFlight = s.saveInFlight := by
  refine ⟨?_, ?_⟩ <;> repeat' first | rfl | constructor

/-- Every field after `landed`. -/
@[simp] theorem landed_fields (s : State) :
    (s.landed).pending = s.pending ∧ (s.landed).clock = s.clock ∧ (s.landed).freeCount = s.freeCount ∧
    (s.landed).emitted = s.emitted ∧ (s.landed).stamp = s.stamp ∧ (s.landed).attemptDue = s.attemptDue ∧
    (s.landed).station = s.station ∧ (s.landed).liu = s.liu ∧ (s.landed).le = s.le ∧ (s.landed).cc = s.cc ∧
    (s.landed).st = s.st ∧ (s.landed).verdicts = s.verdicts ∧ (s.landed).cm = s.cm ∧ (s.landed).dev = s.dev ∧
    (s.landed).alarm = s.alarm ∧ (s.landed).settings = s.settings ∧ (s.landed).ac = s.ac ∧
    (s.landed).extents = s.extents ∧ (s.landed).sys = s.sys ∧ (s.landed).scan = s.scan ∧
    (s.landed).format = s.format ∧ (s.landed).holds = s.holds ∧ (s.landed).slots = s.slots ∧
    (s.landed).exportLink = s.exportLink ∧ (s.landed).retry = s.retry ∧ (s.landed).warm = s.warm ∧
    (s.landed).store = { s.store with inFlight := none } ∧ (s.landed).link = s.link ∧
    (s.landed).notices = s.notices ∧ (s.landed).saveInFlight = s.saveInFlight := by
  refine ⟨?_, ?_⟩ <;> repeat' first | rfl | constructor

/-- Every field after `modExtent`. -/
@[simp] theorem modExtent_fields (s : State) (n : Nat) (f : Extent → Extent) :
    (s.modExtent n f).pending = s.pending ∧ (s.modExtent n f).clock = s.clock ∧
    (s.modExtent n f).freeCount = s.freeCount ∧ (s.modExtent n f).emitted = s.emitted ∧
    (s.modExtent n f).stamp = s.stamp ∧ (s.modExtent n f).attemptDue = s.attemptDue ∧
    (s.modExtent n f).station = s.station ∧ (s.modExtent n f).liu = s.liu ∧ (s.modExtent n f).le = s.le ∧
    (s.modExtent n f).cc = s.cc ∧ (s.modExtent n f).st = s.st ∧ (s.modExtent n f).verdicts = s.verdicts ∧
    (s.modExtent n f).cm = s.cm ∧ (s.modExtent n f).dev = s.dev ∧ (s.modExtent n f).alarm = s.alarm ∧
    (s.modExtent n f).settings = s.settings ∧ (s.modExtent n f).ac = s.ac ∧
    (s.modExtent n f).extents = modExtentIn n f s.extents ∧ (s.modExtent n f).sys = s.sys ∧
    (s.modExtent n f).scan = s.scan ∧ (s.modExtent n f).format = s.format ∧ (s.modExtent n f).holds = s.holds ∧
    (s.modExtent n f).slots = s.slots ∧ (s.modExtent n f).exportLink = s.exportLink ∧
    (s.modExtent n f).retry = s.retry ∧ (s.modExtent n f).warm = s.warm ∧ (s.modExtent n f).store = s.store ∧
    (s.modExtent n f).link = s.link ∧ (s.modExtent n f).notices = s.notices ∧
    (s.modExtent n f).saveInFlight = s.saveInFlight := by
  refine ⟨?_, ?_⟩ <;> repeat' first | rfl | constructor

/-- Every field but the notices after `raiseFinding`. -/
@[simp] theorem raiseFinding_fields (s : State) (lane : Option LaneNo) :
    (s.raiseFinding lane).pending = s.pending ∧ (s.raiseFinding lane).clock = s.clock ∧
    (s.raiseFinding lane).freeCount = s.freeCount ∧ (s.raiseFinding lane).emitted = s.emitted ∧
    (s.raiseFinding lane).stamp = s.stamp ∧ (s.raiseFinding lane).attemptDue = s.attemptDue ∧
    (s.raiseFinding lane).station = s.station ∧ (s.raiseFinding lane).liu = s.liu ∧
    (s.raiseFinding lane).le = s.le ∧ (s.raiseFinding lane).cc = s.cc ∧ (s.raiseFinding lane).st = s.st ∧
    (s.raiseFinding lane).verdicts = s.verdicts ∧ (s.raiseFinding lane).cm = s.cm ∧
    (s.raiseFinding lane).dev = s.dev ∧ (s.raiseFinding lane).alarm = s.alarm ∧
    (s.raiseFinding lane).settings = s.settings ∧ (s.raiseFinding lane).ac = s.ac ∧
    (s.raiseFinding lane).extents = s.extents ∧ (s.raiseFinding lane).sys = s.sys ∧
    (s.raiseFinding lane).scan = s.scan ∧ (s.raiseFinding lane).format = s.format ∧
    (s.raiseFinding lane).holds = s.holds ∧ (s.raiseFinding lane).slots = s.slots ∧
    (s.raiseFinding lane).exportLink = s.exportLink ∧ (s.raiseFinding lane).retry = s.retry ∧
    (s.raiseFinding lane).warm = s.warm ∧ (s.raiseFinding lane).store = s.store ∧
    (s.raiseFinding lane).link = s.link ∧ (s.raiseFinding lane).saveInFlight = s.saveInFlight := by
  cases lane <;> (refine ⟨?_, ?_⟩ <;> repeat' first | rfl | constructor)

/-- Every field after `takeStamp`. -/
@[simp] theorem takeStamp_fields (s : State) :
    s.takeStamp.1 = s.stamp ∧ s.takeStamp.2.stamp = s.stamp + 1 ∧ s.takeStamp.2.pending = s.pending ∧
    s.takeStamp.2.clock = s.clock ∧ s.takeStamp.2.freeCount = s.freeCount ∧ s.takeStamp.2.emitted = s.emitted ∧
    s.takeStamp.2.attemptDue = s.attemptDue ∧ s.takeStamp.2.station = s.station ∧ s.takeStamp.2.liu = s.liu ∧
    s.takeStamp.2.le = s.le ∧ s.takeStamp.2.cc = s.cc ∧ s.takeStamp.2.st = s.st ∧
    s.takeStamp.2.verdicts = s.verdicts ∧ s.takeStamp.2.cm = s.cm ∧ s.takeStamp.2.dev = s.dev ∧
    s.takeStamp.2.alarm = s.alarm ∧ s.takeStamp.2.settings = s.settings ∧ s.takeStamp.2.ac = s.ac ∧
    s.takeStamp.2.extents = s.extents ∧ s.takeStamp.2.sys = s.sys ∧ s.takeStamp.2.scan = s.scan ∧
    s.takeStamp.2.format = s.format ∧ s.takeStamp.2.holds = s.holds ∧ s.takeStamp.2.slots = s.slots ∧
    s.takeStamp.2.exportLink = s.exportLink ∧ s.takeStamp.2.retry = s.retry ∧ s.takeStamp.2.warm = s.warm ∧
    s.takeStamp.2.store = s.store ∧ s.takeStamp.2.link = s.link ∧ s.takeStamp.2.notices = s.notices ∧
    s.takeStamp.2.saveInFlight = s.saveInFlight := by
  refine ⟨?_, ?_⟩ <;> repeat' first | rfl | constructor

/-- Every field but the place of the free choices after `draw`. -/
@[simp] theorem draw_fields {α : Type} (s : State) (xs : List α) :
    (s.draw xs).2.pending = s.pending ∧ (s.draw xs).2.clock = s.clock ∧ (s.draw xs).2.emitted = s.emitted ∧
    (s.draw xs).2.stamp = s.stamp ∧ (s.draw xs).2.attemptDue = s.attemptDue ∧
    (s.draw xs).2.station = s.station ∧ (s.draw xs).2.liu = s.liu ∧ (s.draw xs).2.le = s.le ∧
    (s.draw xs).2.cc = s.cc ∧ (s.draw xs).2.st = s.st ∧ (s.draw xs).2.verdicts = s.verdicts ∧
    (s.draw xs).2.cm = s.cm ∧ (s.draw xs).2.dev = s.dev ∧ (s.draw xs).2.alarm = s.alarm ∧
    (s.draw xs).2.settings = s.settings ∧ (s.draw xs).2.ac = s.ac ∧ (s.draw xs).2.extents = s.extents ∧
    (s.draw xs).2.sys = s.sys ∧ (s.draw xs).2.scan = s.scan ∧ (s.draw xs).2.format = s.format ∧
    (s.draw xs).2.holds = s.holds ∧ (s.draw xs).2.slots = s.slots ∧ (s.draw xs).2.exportLink = s.exportLink ∧
    (s.draw xs).2.retry = s.retry ∧ (s.draw xs).2.warm = s.warm ∧ (s.draw xs).2.store = s.store ∧
    (s.draw xs).2.link = s.link ∧ (s.draw xs).2.notices = s.notices ∧
    (s.draw xs).2.saveInFlight = s.saveInFlight := by
  rcases xs with _ | ⟨x, _ | ⟨y, rest⟩⟩ <;> (refine ⟨?_, ?_⟩ <;> repeat' first | rfl | constructor)

/-- Every field but the retry timer after `syncRetry`. -/
@[simp] theorem syncRetry_fields (s : State) :
    s.syncRetry.pending = s.pending ∧ s.syncRetry.clock = s.clock ∧ s.syncRetry.freeCount = s.freeCount ∧
    s.syncRetry.emitted = s.emitted ∧ s.syncRetry.stamp = s.stamp ∧ s.syncRetry.attemptDue = s.attemptDue ∧
    s.syncRetry.station = s.station ∧ s.syncRetry.liu = s.liu ∧ s.syncRetry.le = s.le ∧ s.syncRetry.cc = s.cc ∧
    s.syncRetry.st = s.st ∧ s.syncRetry.verdicts = s.verdicts ∧ s.syncRetry.cm = s.cm ∧
    s.syncRetry.dev = s.dev ∧ s.syncRetry.alarm = s.alarm ∧ s.syncRetry.settings = s.settings ∧
    s.syncRetry.ac = s.ac ∧ s.syncRetry.extents = s.extents ∧ s.syncRetry.sys = s.sys ∧
    s.syncRetry.scan = s.scan ∧ s.syncRetry.format = s.format ∧ s.syncRetry.holds = s.holds ∧
    s.syncRetry.slots = s.slots ∧ s.syncRetry.exportLink = s.exportLink ∧ s.syncRetry.warm = s.warm ∧
    s.syncRetry.store = s.store ∧ s.syncRetry.link = s.link ∧ s.syncRetry.notices = s.notices ∧
    s.syncRetry.saveInFlight = s.saveInFlight := by
  unfold State.syncRetry
  split
  · split <;> (refine ⟨?_, ?_⟩ <;> repeat' first | rfl | constructor)
  · refine ⟨?_, ?_⟩ <;> repeat' first | rfl | constructor

/-! ### The control link's exchange and the WANTED mark -/

/-- An exchange of no byte shifts nothing. -/
@[simp] theorem exchange_nil (s : State) : s.exchange [] = s := rfl

/-- An exchange whose first byte is that of SEND takes the rest as a frame. -/
@[simp] theorem exchange_send (rest : List Byte) (s : State) :
    s.exchange (sendByte :: rest) = s.takeFrame rest := rfl

/-- An exchange whose first byte is that of COLLECT clocks out a byte against each of the rest. -/
@[simp] theorem exchange_collect (rest : List Byte) (s : State) :
    s.exchange (collectByte :: rest) = s.collect rest.length := rfl

/-- An exchange with another first byte shows the link status and fill bytes. -/
theorem exchange_other {first : Byte} (rest : List Byte) (s : State) (hs : first ≠ sendByte)
    (hc : first ≠ collectByte) : s.exchange (first :: rest) = s.showStatus rest.length := by
  simp only [State.exchange, if_neg hs, if_neg hc]

/-- A WANTED lane that has no extent left stays as it is. -/
theorem leaveExtent_wanted {l : LaneNo} {s : State} (h : s.ac[l].alloc.isWanted = true) : s.leaveExtent l = s := by
  simp only [State.leaveExtent, if_pos h]

/-- A lane that is not WANTED and has no extent left is IDLE. -/
theorem leaveExtent_idle {l : LaneNo} {s : State} (h : s.ac[l].alloc.isWanted = false) :
    s.leaveExtent l = s.setAlloc l .idle := by
  simp only [State.leaveExtent, h, Bool.false_eq_true, if_false]

end Sys2Proof.Laws
end

