-- ==== Sys2Proof/Laws/Allocate.lean ====
section
/-! SUPPORT. The boundary of an event: `allocate` leaves a settled state as it is, and settles every state. A lane's weight
says how far it is from having an extent; a round of attempts that owes another lowers the sum of the weights. -/

namespace Sys2Proof.Laws

open Sys2Proof.Machine

/-! ### A settled state -/

theorem allocateN_of_settled (n : Nat) (s : State) (h : s.settled) : s.allocateN (n + 1) = s := by
  obtain ⟨a, b⟩ := h
  have e : allLanes.filter s.needsExtent = [] := by
    simp [allLanes, b]
  simp [State.allocateN, e, a]
  cases s
  cases a
  rfl

/-- On a settled state the boundary of an event does nothing. -/
theorem allocate_of_settled (s : State) (h : s.settled) : s.allocate = s := allocateN_of_settled 19 s h

/-! ### Weights -/

/-- How far a lane is from having an extent: 2 while it may come to want one, 1 while it wants one. -/
def weight (warm : Bool) (a : AcLane) : Nat := match a.alloc with
  | .idle => if warm && !a.holdsRecords then 0 else 2
  | .wanted => 1
  | .chosen _ => 0
  | .writing _ => 0

theorem weight_le (warm : Bool) (a : AcLane) : weight warm a ≤ 2 := by
  unfold weight
  split
  · split <;> omega
  · omega
  · omega
  · omega

/-- The sum of the weights of some lanes. -/
def weights (s : State) (lanes : List LaneNo) : Nat := (lanes.map (fun l => weight s.warm.isSome s.ac[l])).sum

/-- `t` is no farther than `s` from having its extents, and owes no attempt that `s` does not unless it is nearer. -/
structure Nearer (s t : State) : Prop where
  warm : t.warm = s.warm
  lane : ∀ l : LaneNo, weight s.warm.isSome t.ac[l] ≤ weight s.warm.isSome s.ac[l]
  owed : t.attemptDue = true → s.attemptDue = true ∨
    ∃ l : LaneNo, weight s.warm.isSome t.ac[l] < weight s.warm.isSome s.ac[l]

theorem Nearer.refl (s : State) : Nearer s s := ⟨rfl, fun _ => Nat.le_refl _, Or.inl⟩

theorem Nearer.trans {s t u : State} (a : Nearer s t) (b : Nearer t u) : Nearer s u := by
  have w := a.warm
  have bl := b.lane
  have bo := b.owed
  rw [w] at bl bo
  refine ⟨b.warm.trans w, fun l => (bl l).trans (a.lane l), fun h => ?_⟩
  rcases bo h with h | ⟨l, h⟩
  · rcases a.owed h with h | ⟨l, h⟩
    · exact Or.inl h
    · exact Or.inr ⟨l, Nat.lt_of_le_of_lt (bl l) h⟩
  · exact Or.inr ⟨l, Nat.lt_of_lt_of_le h (a.lane l)⟩

theorem Nearer.foldl {α : Type} (f : State → α → State) (h : ∀ s x, Nearer s (f s x)) :
    ∀ (xs : List α) (s : State), Nearer s (xs.foldl f s)
  | [], s => Nearer.refl s
  | x :: xs, s => (h s x).trans (Nearer.foldl f h xs (f s x))

theorem mem_allLanes (l : LaneNo) : l ∈ allLanes := by
  revert l
  decide

theorem sum_map_le {α : Type} (f g : α → Nat) (xs : List α) (h : ∀ x, f x ≤ g x) :
    (xs.map f).sum ≤ (xs.map g).sum := by
  induction xs with
  | nil => exact Nat.le_refl _
  | cons x xs ih =>
    simp only [List.map_cons, List.sum_cons]
    exact Nat.add_le_add (h x) ih

theorem sum_map_lt {α : Type} (f g : α → Nat) (xs : List α) (h : ∀ x, f x ≤ g x) (y : α) (hy : y ∈ xs)
    (lt : f y < g y) : (xs.map f).sum < (xs.map g).sum := by
  induction xs with
  | nil => exact absurd hy List.not_mem_nil
  | cons x xs ih =>
    simp only [List.map_cons, List.sum_cons]
    rcases List.mem_cons.mp hy with rfl | m
    · exact Nat.add_lt_add_of_lt_of_le lt (sum_map_le f g xs h)
    · exact Nat.add_lt_add_of_le_of_lt (h x) (ih m)

/-- What is left to do at a boundary. -/
def cost (s : State) : Nat := weights s allLanes + if s.attemptDue then 1 else 0

theorem cost_le (s : State) : cost s ≤ 17 := by
  have h : weights s allLanes ≤ (allLanes.map (fun _ => 2)).sum :=
    sum_map_le _ _ _ (fun l => weight_le _ _)
  have e : (allLanes.map (fun _ => 2)).sum = 16 := by decide
  unfold cost
  split <;> omega

theorem Nearer.weights_le {s t : State} (h : Nearer s t) : weights t allLanes ≤ weights s allLanes := by
  unfold weights
  rw [h.warm]
  exact sum_map_le _ _ _ h.lane

/-- A nearer state that owes an attempt, when `s` owes none, weighs less. -/
theorem Nearer.weights_lt {s t : State} (h : Nearer s t) (n : s.attemptDue = false) (o : t.attemptDue = true) :
    weights t allLanes < weights s allLanes := by
  rcases h.owed o with e | ⟨l, e⟩
  · rw [n] at e
    exact absurd e (by decide)
  · unfold weights
    rw [h.warm]
    exact sum_map_lt _ _ _ h.lane l (mem_allLanes l) e

/-! ### Operations that do not touch the allocation states -/

/-- `t` has the allocation states of `s`, and while a warm reset flushes its page buffers as well. -/
structure Calm (s t : State) : Prop where
  warm : t.warm = s.warm
  alloc : ∀ l : LaneNo, t.ac[l].alloc = s.ac[l].alloc
  buffers : s.warm.isSome = true → ∀ l : LaneNo, t.ac[l].buffers = s.ac[l].buffers

theorem Calm.refl (s : State) : Calm s s := ⟨rfl, fun _ => rfl, fun _ _ => rfl⟩

theorem Calm.trans {s t u : State} (a : Calm s t) (b : Calm t u) : Calm s u :=
  ⟨b.warm.trans a.warm, fun l => (b.alloc l).trans (a.alloc l),
    fun h l => (b.buffers (by rw [a.warm]; exact h) l).trans (a.buffers h l)⟩

/-- An update that touches neither the lanes of the archive nor the warm reset is calm. -/
theorem calm_of_ac {s t : State} (w : t.warm = s.warm) (a : t.ac = s.ac) : Calm s t :=
  ⟨w, fun _ => by rw [a], fun _ _ => by rw [a]⟩

theorem Calm.weight {s t : State} (h : Calm s t) (l : LaneNo) :
    weight s.warm.isSome t.ac[l] = weight s.warm.isSome s.ac[l] := by
  unfold Laws.weight
  rw [h.alloc l]
  split
  · cases e : s.warm.isSome
    · simp
    · have b := h.buffers e l
      have r : t.ac[l].holdsRecords = s.ac[l].holdsRecords := by
        unfold AcLane.holdsRecords
        rw [b]
      rw [r]
  · rfl
  · rfl
  · rfl

theorem Calm.nearer {s t : State} (h : Calm s t) (n : t.attemptDue = s.attemptDue) : Nearer s t :=
  ⟨h.warm, fun l => Nat.le_of_eq (h.weight l), fun e => Or.inl (n ▸ e)⟩

theorem getElem_setAc_self (s : State) (l : LaneNo) (x : AcLane) : (s.setAc l x).ac[l] = x := by
  simp

theorem getElem_setAc_ne (s : State) (l k : LaneNo) (x : AcLane) (h : k ≠ l) : (s.setAc l x).ac[k] = s.ac[k] := by
  have e : l.val ≠ k.val := fun e => h (Fin.ext e).symm
  simpa using Vector.getElem_set_ne (xs := s.ac) (hi := l.isLt) (hj := k.isLt) e

/-- One lane of the archive changes without its allocation state, and not its buffers while a warm reset flushes. -/
theorem calm_modAc (l : LaneNo) (f : AcLane → AcLane) (s : State) (a : ∀ x, (f x).alloc = x.alloc)
    (b : s.warm.isSome = true → ∀ x, (f x).buffers = x.buffers) : Calm s (s.modAc l f) := by
  have self : (s.modAc l f).ac[l] = f s.ac[l] := getElem_setAc_self s l _
  refine ⟨rfl, fun k => ?_, fun w k => ?_⟩ <;> by_cases e : k = l
  · subst e
    rw [self, a]
  · rw [State.modAc, getElem_setAc_ne s l k _ e]
  · subst e
    rw [self, b w]
  · rw [State.modAc, getElem_setAc_ne s l k _ e]

theorem calm_reportBuffers (l : LaneNo) (s : State) : Calm s (s.reportBuffers l) := by
  unfold State.reportBuffers
  repeat' split
  all_goals exact calm_of_ac rfl rfl

theorem take_alloc (stamp : Nat) (r : Record) (a : AcLane) : (a.take stamp r).alloc = a.alloc := by
  have append (i : Fin 4) (r : Record) (a : AcLane) : (a.append i r).alloc = a.alloc := rfl
  have closed (a : AcLane) : (a.closeFilling stamp).alloc = a.alloc := by
    unfold AcLane.closeFilling
    split <;> rfl
  have place (r : Record) (a : AcLane) : (a.place stamp r).2.alloc = a.alloc := by
    unfold AcLane.place
    split
    · rfl
    · dsimp only
      split
      · exact closed a
      · exact closed a
  unfold AcLane.take
  dsimp only
  split
  · split
    · exact (place _ _).trans (place _ _)
    · split
      · rfl
      · exact closed a
  · split
    · exact place r a
    · exact place r a

theorem calm_archive (l : LaneNo) (kind : Byte) (time : Time) (content : List Byte) (s : State) :
    Calm s (s.archive l kind time content) := by
  unfold State.archive
  split
  · exact Calm.refl s
  · rename_i w
    split
    · exact calm_modAc l _ s (fun _ => rfl) (fun _ _ => rfl)
    · have a : Calm s s.takeStamp.2 := calm_of_ac rfl rfl
      exact (a.trans (calm_modAc l _ s.takeStamp.2 (take_alloc _ _) (fun h => absurd h w))).trans
        (calm_reportBuffers l _)

theorem archive_attemptDue (l : LaneNo) (kind : Byte) (time : Time) (content : List Byte) (s : State) :
    (s.archive l kind time content).attemptDue = s.attemptDue := by
  have report (t : State) : (t.reportBuffers l).attemptDue = t.attemptDue := by
    unfold State.reportBuffers
    repeat' split
    all_goals rfl
  unfold State.archive
  split
  · rfl
  · split
    · rfl
    · exact report _

theorem calm_setHoldEnd (id finding stop : Nat) (s : State) : Calm s (s.setHoldEnd id finding stop) := by
  unfold State.setHoldEnd
  split <;> exact calm_of_ac rfl rfl

theorem driveLines_calm (s : State) :
    s.driveLines.warm = s.warm ∧ s.driveLines.ac = s.ac ∧ s.driveLines.attemptDue = s.attemptDue := by
  unfold State.driveLines
  dsimp only
  repeat' split
  all_goals exact ⟨rfl, rfl, rfl⟩

theorem reassess_calm (s : State) :
    s.reassess.warm = s.warm ∧ s.reassess.ac = s.ac ∧ s.reassess.attemptDue = s.attemptDue :=
  driveLines_calm _

theorem raiseFinding_calm (lane : Option LaneNo) (s : State) :
    (s.raiseFinding lane).warm = s.warm ∧ (s.raiseFinding lane).ac = s.ac ∧
      (s.raiseFinding lane).attemptDue = s.attemptDue := by
  unfold State.raiseFinding
  split <;> exact ⟨rfl, rfl, rfl⟩

theorem calm_announce (f : Finding) (time : Time) (s : State) :
    Calm s (s.announce f time) ∧ (s.announce f time).attemptDue = s.attemptDue := by
  unfold State.announce
  dsimp only
  have tail (t : State) : Calm t ((t.raiseFinding f.lane).reassess) ∧
      ((t.raiseFinding f.lane).reassess).attemptDue = t.attemptDue := by
    have a := reassess_calm (t.raiseFinding f.lane)
    have b := raiseFinding_calm f.lane t
    exact ⟨calm_of_ac (a.1.trans b.1) (a.2.1.trans b.2.1), a.2.2.trans b.2.2⟩
  split
  · exact ⟨(calm_archive _ _ _ _ s).trans (tail _).1, (tail _).2.trans (archive_attemptDue _ _ _ _ s)⟩
  · exact tail s

theorem calm_holdFor (ask : Option HoldAsk) (f : Finding) (s : State) :
    Calm s (s.holdFor ask f).2 ∧ (s.holdFor ask f).2.attemptDue = s.attemptDue := by
  unfold State.holdFor
  split
  · split
    · exact ⟨Calm.refl s, rfl⟩
    · exact ⟨(calm_of_ac rfl rfl : Calm s (s.changeHolds _)), rfl⟩
  · exact ⟨Calm.refl s, rfl⟩

theorem calm_enterFinding (f : Finding) (s : State) :
    Calm s (s.enterFinding f) ∧ (s.enterFinding f).attemptDue = s.attemptDue := by
  unfold State.enterFinding
  split <;> exact ⟨calm_of_ac rfl rfl, rfl⟩

theorem calm_createFinding (d : Draft) (ask : Option HoldAsk) (s : State) :
    Calm s (s.createFinding d ask).2 ∧ (s.createFinding d ask).2.attemptDue = s.attemptDue := by
  unfold State.createFinding
  dsimp only
  have a := calm_holdFor ask
    { id := s.dev.nextId, lane := d.lane, kind := d.kind, severity := d.severity, state := d.state, acked := false
      segId := d.segId, opened := d.opened, activated := d.activated, ended := d.ended
      measured := d.measured, limit := d.limit, holdId := none, unheld := false }
    { s with dev := { s.dev with nextId := nextFindingId s.dev.nextId } }
  have b (f : Finding) (t : State) : Calm t ((t.enterFinding f).announce f d.opened) ∧
      ((t.enterFinding f).announce f d.opened).attemptDue = t.attemptDue :=
    ⟨(calm_enterFinding f t).1.trans (calm_announce f _ _).1, (calm_announce f _ _).2.trans (calm_enterFinding f t).2⟩
  have c : Calm s { s with dev := { s.dev with nextId := nextFindingId s.dev.nextId } } := calm_of_ac rfl rfl
  refine ⟨c.trans (a.1.trans (b _ _).1), (b _ _).2.trans a.2⟩

theorem calm_changeFinding (f : Finding) (time : Time) (s : State) : Calm s (s.changeFinding f time) := by
  unfold State.changeFinding
  dsimp only
  refine Calm.trans ?_ (calm_announce _ _ _).1
  split <;> exact calm_of_ac rfl rfl

theorem calm_settleOpen (time : Time) (postRoll : Nat) (f : Option Finding) (s : State) :
    Calm s (s.settleOpen time postRoll f) := by
  unfold State.settleOpen State.settleFinding
  split
  · split
    · exact calm_changeFinding _ _ s
    · refine Calm.trans ?_ (calm_changeFinding _ _ _)
      unfold State.endHoldOf
      split
      · exact calm_setHoldEnd _ _ _ s
      · exact Calm.refl s
    · exact Calm.refl s
    · exact Calm.refl s
  · exact Calm.refl s

theorem calm_endStalled (l : LaneNo) (s : State) : Calm s (s.endStalled l) := by
  have a : Calm s (s.modCm l (fun c => { c with stalledFinding := none })) := calm_of_ac rfl rfl
  exact a.trans (calm_settleOpen _ _ _ _)

theorem calm_endShort (l : LaneNo) (s : State) : Calm s (s.endShort l) := by
  have a : Calm s (s.modCm l (fun c => { c with shortFinding := none })) := calm_of_ac rfl rfl
  exact a.trans (calm_settleOpen _ _ _ _)

theorem calm_openShort (l : LaneNo) (s : State) : Calm s (s.openShort l) := by
  unfold State.openShort
  split
  · exact Calm.refl s
  · exact (calm_createFinding _ _ s).1.trans (calm_of_ac rfl rfl)

theorem calm_openStalled (l : LaneNo) (s : State) :
    Calm s (s.openStalled l) ∧ (s.openStalled l).attemptDue = s.attemptDue := by
  unfold State.openStalled
  split
  · exact ⟨Calm.refl s, rfl⟩
  · exact ⟨(calm_createFinding _ _ s).1.trans (calm_of_ac rfl rfl), (calm_createFinding _ _ s).2⟩

theorem calm_inEitherOrder (f g : State → State) (hf : ∀ s, Calm s (f s)) (hg : ∀ s, Calm s (g s)) (s : State) :
    Calm s (inEitherOrder f g s) := by
  unfold inEitherOrder
  split
  · exact ((calm_of_ac rfl rfl : Calm s s.advanceFree).trans (hf _)).trans (hg _)
  · exact ((calm_of_ac rfl rfl : Calm s s.advanceFree).trans (hg _)).trans (hf _)

theorem calm_reportChoice (l : LaneNo) (short : Bool) (s : State) : Calm s (s.reportChoice l short) := by
  unfold State.reportChoice
  dsimp only
  refine Calm.trans (calm_modAc l (fun a => { a with stalled := false, short := short }) s (fun _ => rfl)
    (fun _ _ => rfl)) ?_
  have h : ∀ t : State, Calm t ((fun t : State =>
      if (short && !s.ac[l].short) = true then t.openShort l
      else if (!short && s.ac[l].short) = true then t.endShort l else t) t) := by
    intro t
    dsimp only
    split
    · exact calm_openShort l t
    · split
      · exact calm_endShort l t
      · exact Calm.refl t
  split
  · exact calm_inEitherOrder _ _ (calm_endStalled l) h _
  · split
    · exact calm_endStalled l _
    · exact h _

/-! ### Attempts -/

theorem syncRetry_calm (s : State) :
    s.syncRetry.warm = s.warm ∧ s.syncRetry.ac = s.ac ∧ s.syncRetry.attemptDue = s.attemptDue := by
  unfold State.syncRetry
  repeat' split
  all_goals exact ⟨rfl, rfl, rfl⟩

/-- A lane's allocation state becomes one of lower weight, or of none. -/
theorem nearer_setAlloc (l : LaneNo) (x : AllocState) (s : State)
    (h : weight s.warm.isSome { s.ac[l] with alloc := x } ≤ weight s.warm.isSome s.ac[l]) :
    Nearer s (s.setAlloc l x) := by
  have a := syncRetry_calm (s.modAc l (fun a => { a with alloc := x }))
  unfold State.setAlloc
  refine ⟨a.1, fun k => ?_, fun e => Or.inl (a.2.2 ▸ e)⟩
  rw [a.2.1]
  by_cases e : k = l
  · subst e
    rw [State.modAc, getElem_setAc_self]
    exact h
  · rw [State.modAc, getElem_setAc_ne s l k _ e]

theorem setAlloc_weight (l : LaneNo) (x : AllocState) (s : State) :
    weight s.warm.isSome (s.setAlloc l x).ac[l] = weight s.warm.isSome { s.ac[l] with alloc := x } := by
  have a := syncRetry_calm (s.modAc l (fun a => { a with alloc := x }))
  unfold State.setAlloc
  rw [a.2.1, State.modAc, getElem_setAc_self]

theorem isWanted_iff (x : AllocState) : x.isWanted = true ↔ x = .wanted := by
  cases x <;> simp [AllocState.isWanted]

/-- A choice makes a lane that is WANTED nearer. -/
theorem nearer_takeChoice (l : LaneNo) (x : Extent) (short : Bool) (s : State) (h : s.ac[l].alloc = .wanted) :
    Nearer s (s.takeChoice l x short) := by
  unfold State.takeChoice
  dsimp only
  have one : weight s.warm.isSome s.ac[l] = 1 := by
    unfold weight
    rw [h]
  let t : State := { (s.modExtent x.no (Extent.wiped .erasing)) with
    store := { (s.modExtent x.no (Extent.wiped .erasing)).store with
      erases := (s.modExtent x.no (Extent.wiped .erasing)).store.erases ++ [EraseWait.mk x.no (some l)] } }
  have na : Nearer t (t.setAlloc l (.chosen x.no)) := nearer_setAlloc l _ t (by
    show weight _ { s.ac[l] with alloc := .chosen x.no } ≤ _
    exact Nat.zero_le _)
  have zero : weight t.warm.isSome (t.setAlloc l (.chosen x.no)).ac[l] = 0 := setAlloc_weight l _ t
  have r := calm_reportChoice l short (t.setAlloc l (.chosen x.no))
  have w1 := na.warm
  refine ⟨r.warm.trans w1, fun k => ?_, fun _ => Or.inr ⟨l, ?_⟩⟩
  · have e := r.weight k
    rw [w1] at e
    exact (Nat.le_of_eq e).trans (na.lane k)
  · have e := r.weight l
    rw [w1] at e
    show weight t.warm.isSome _ < weight s.warm.isSome s.ac[l]
    rw [e, zero, one]
    exact Nat.one_pos

theorem holdsRecords_of_empty (a : AcLane) (h : a.buffers = Vector.replicate 4 .empty) : a.holdsRecords = false := by
  unfold AcLane.holdsRecords
  rw [h]
  decide

theorem nearer_noCandidate (l : LaneNo) (s : State) (h : s.ac[l].alloc = .wanted) : Nearer s (s.noCandidate l) := by
  have one : weight s.warm.isSome s.ac[l] = 1 := by
    unfold weight
    rw [h]
  unfold State.noCandidate
  split
  · rename_i w
    let t : State := s.modAc l (fun a => { a with buffers := Vector.replicate 4 .empty })
    have self : t.ac[l] = { s.ac[l] with buffers := Vector.replicate 4 .empty } := getElem_setAc_self s l _
    have zero : weight true { t.ac[l] with alloc := .idle } = 0 := by
      have e : ({ t.ac[l] with alloc := .idle } : AcLane).holdsRecords = false :=
        holdsRecords_of_empty _ (by rw [self])
      unfold weight
      dsimp only
      rw [e]
      rfl
    have nt : Nearer s t := by
      refine ⟨rfl, fun k => ?_, Or.inl⟩
      by_cases e : k = l
      · subst e
        rw [self, one]
        unfold weight
        dsimp only
        rw [h]
      · rw [show t.ac[k] = s.ac[k] from getElem_setAc_ne s l k _ e]
    refine nt.trans (nearer_setAlloc l .idle t ?_)
    have tw : t.warm.isSome = true := w
    rw [tw, zero]
    exact Nat.zero_le _
  · split
    · exact Nearer.refl s
    · have a := calm_openStalled l (s.modAc l (fun a => { a with stalled := true }))
      exact ((calm_modAc l (fun a => { a with stalled := true }) s (fun _ => rfl) (fun _ _ => rfl)).trans
        a.1).nearer a.2

theorem foldl_retired (ns : List Nat) (s : State) :
    (ns.foldl (fun (t : State) n => t.modExtent n (Extent.cleared .retired)) s).warm = s.warm ∧
    (ns.foldl (fun (t : State) n => t.modExtent n (Extent.cleared .retired)) s).ac = s.ac ∧
    (ns.foldl (fun (t : State) n => t.modExtent n (Extent.cleared .retired)) s).attemptDue = s.attemptDue := by
  induction ns generalizing s with
  | nil => exact ⟨rfl, rfl, rfl⟩
  | cons n ns ih => exact ih (s.modExtent n (Extent.cleared .retired))

/-- An attempt brings a state nearer. -/
theorem nearer_attempt (l : LaneNo) (s : State) : Nearer s (s.attempt l) := by
  unfold State.attempt
  split
  · rename_i h
    have wanted : s.ac[l].alloc = .wanted := (isWanted_iff _).mp ((Bool.and_eq_true _ _).mp h).1
    dsimp only
    have r := foldl_retired (choose s.protects ((s.candidates l).length + 1) (s.candidates l) []).2 s
    have w : (List.foldl (fun (t : State) n => t.modExtent n (Extent.cleared .retired)) s
        (choose s.protects ((s.candidates l).length + 1) (s.candidates l) []).2).ac[l].alloc = .wanted := by
      rw [r.2.1]
      exact wanted
    refine Nearer.trans ((calm_of_ac r.1 r.2.1).nearer r.2.2) ?_
    split
    · exact nearer_takeChoice l _ _ _ w
    · exact nearer_takeChoice l _ _ _ w
    · exact nearer_noCandidate l _ w
  · exact Nearer.refl s

/-! ### The boundary settles -/

theorem draw_calm {α : Type} (xs : List α) (s : State) :
    (s.draw xs).2.warm = s.warm ∧ (s.draw xs).2.ac = s.ac ∧ (s.draw xs).2.attemptDue = s.attemptDue := by
  unfold State.draw
  split <;> exact ⟨rfl, rfl, rfl⟩

theorem needsExtent_iff (s : State) (l : LaneNo) :
    s.needsExtent l = true ↔ s.ac[l].alloc = .idle ∧ s.ac[l].holdsRecords = true := by
  simp [State.needsExtent]

theorem setAlloc_ne (l k : LaneNo) (x : AllocState) (s : State) (h : k ≠ l) : (s.setAlloc l x).ac[k] = s.ac[k] := by
  have a := syncRetry_calm (s.modAc l (fun a => { a with alloc := x }))
  unfold State.setAlloc
  rw [a.2.1, State.modAc, getElem_setAc_ne s l k _ h]

theorem setAlloc_self (l : LaneNo) (x : AllocState) (s : State) :
    (s.setAlloc l x).ac[l] = { s.ac[l] with alloc := x } := by
  have a := syncRetry_calm (s.modAc l (fun a => { a with alloc := x }))
  unfold State.setAlloc
  rw [a.2.1, State.modAc, getElem_setAc_self]

/-- Lanes that need an extent become WANTED, the others stay. -/
theorem entering_ac (ls : List LaneNo) (s : State) (k : LaneNo) :
    (ls.foldl (fun t l => t.setAlloc l .wanted) s).ac[k]
      = if k ∈ ls then { s.ac[k] with alloc := .wanted } else s.ac[k] := by
  induction ls generalizing s with
  | nil => simp
  | cons l ls ih =>
    rw [List.foldl_cons, ih]
    by_cases e : k = l
    · subst e
      rw [setAlloc_self, if_pos List.mem_cons_self]
      split <;> rfl
    · rw [setAlloc_ne l k _ s e]
      have m : k ∈ l :: ls ↔ k ∈ ls := by simp [e]
      simp only [m]

theorem entering_rest (ls : List LaneNo) (s : State) :
    (ls.foldl (fun t l => t.setAlloc l .wanted) s).warm = s.warm ∧
      (ls.foldl (fun t l => t.setAlloc l .wanted) s).attemptDue = s.attemptDue := by
  induction ls generalizing s with
  | nil => exact ⟨rfl, rfl⟩
  | cons l ls ih =>
    have a := syncRetry_calm (s.modAc l (fun a => { a with alloc := .wanted }))
    have b := ih (s.setAlloc l .wanted)
    exact ⟨b.1.trans a.1, b.2.trans a.2.2⟩

/-- The state of a round once lanes have entered WANTED and no attempt is owed. -/
def entered (s : State) : State :=
  { (allLanes.filter s.needsExtent).foldl (fun t l => t.setAlloc l .wanted) s with attemptDue := false }

/-- The attempts of a round. -/
def dueLanes (s : State) : List LaneNo :=
  if ((allLanes.filter s.needsExtent).foldl (fun t l => t.setAlloc l .wanted) s).attemptDue then
    allLanes.filter (fun l => ((allLanes.filter s.needsExtent).foldl (fun t l => t.setAlloc l .wanted) s).ac[l].alloc.isWanted)
  else allLanes.filter s.needsExtent

theorem allocateN_succ (n : Nat) (s : State) :
    s.allocateN (n + 1) = if (dueLanes s).isEmpty then entered s
      else State.allocateN n (((entered s).draw (dueLanes s)).1.foldl (fun t l => t.attempt l)
        ((entered s).draw (dueLanes s)).2) := rfl

theorem entered_lane (s : State) (k : LaneNo) :
    (entered s).ac[k] = if s.needsExtent k = true then { s.ac[k] with alloc := .wanted } else s.ac[k] := by
  have h := entering_ac (allLanes.filter s.needsExtent) s k
  simp only [List.mem_filter, mem_allLanes k, true_and] at h
  exact h

/-- A lane that enters is lighter by it. -/
theorem entered_weight (s : State) (k : LaneNo) :
    weight s.warm.isSome (entered s).ac[k] ≤ weight s.warm.isSome s.ac[k] ∧
      (s.needsExtent k = true → weight s.warm.isSome (entered s).ac[k] < weight s.warm.isSome s.ac[k]) := by
  rw [entered_lane]
  split
  · rename_i h
    have e := (needsExtent_iff s k).mp h
    have two : weight s.warm.isSome s.ac[k] = 2 := by
      unfold weight
      rw [e.1, e.2]
      simp
    have one : weight s.warm.isSome { s.ac[k] with alloc := .wanted } = 1 := rfl
    rw [two, one]
    exact ⟨Nat.le_succ 1, fun _ => Nat.lt_succ_self 1⟩
  · rename_i h
    exact ⟨Nat.le_refl _, fun e => absurd e h⟩

theorem entered_warm (s : State) : (entered s).warm = s.warm := (entering_rest _ s).1

/-- A round in which nothing is due has settled. -/
theorem entered_settled (s : State) (h : (dueLanes s).isEmpty = true) : (entered s).settled := by
  have none (k : LaneNo) : s.needsExtent k = false := by
    by_contra c
    have c : s.needsExtent k = true := by simpa using c
    have m : k ∈ allLanes.filter s.needsExtent := List.mem_filter.mpr ⟨mem_allLanes k, c⟩
    have e : dueLanes s = [] := by simpa using h
    unfold dueLanes at e
    split at e
    · have w := entering_ac (allLanes.filter s.needsExtent) s k
      rw [if_pos m] at w
      have : k ∈ allLanes.filter (fun l =>
          ((allLanes.filter s.needsExtent).foldl (fun t l => t.setAlloc l .wanted) s).ac[l].alloc.isWanted) :=
        List.mem_filter.mpr ⟨mem_allLanes k, by rw [w]; rfl⟩
      rw [e] at this
      exact absurd this List.not_mem_nil
    · rw [e] at m
      exact absurd m List.not_mem_nil
  refine ⟨rfl, fun k => ?_⟩
  have l := entered_lane s k
  rw [if_neg (by rw [none k]; decide)] at l
  unfold State.needsExtent
  rw [l]
  exact none k

/-- A round in which something is due costs. -/
theorem round_cost (s : State) (h : (dueLanes s).isEmpty = false) :
    cost (((entered s).draw (dueLanes s)).1.foldl (fun t l => t.attempt l) ((entered s).draw (dueLanes s)).2)
      < cost s := by
  have d := draw_calm (dueLanes s) (entered s)
  have n : Nearer (entered s)
      (((entered s).draw (dueLanes s)).1.foldl (fun t l => t.attempt l) ((entered s).draw (dueLanes s)).2) :=
    ((calm_of_ac d.1 d.2.1).nearer d.2.2).trans
      (Nearer.foldl (fun (t : State) l => t.attempt l) (fun t l => nearer_attempt l t) _ _)
  have w : weights (entered s) allLanes ≤ weights s allLanes := by
    unfold weights
    rw [entered_warm]
    exact sum_map_le _ _ _ (fun k => (entered_weight s k).1)
  have le := n.weights_le
  have lt := n.weights_lt rfl
  have first : s.attemptDue = true ∨ weights (entered s) allLanes < weights s allLanes := by
    cases a : s.attemptDue
    · right
      have r := (entering_rest (allLanes.filter s.needsExtent) s).2
      have e : dueLanes s = allLanes.filter s.needsExtent := by
        unfold dueLanes
        rw [r, a]
        simp
      have ne : allLanes.filter s.needsExtent ≠ [] := by
        rw [← e]
        intro c
        rw [c] at h
        exact absurd h (by decide)
      obtain ⟨k, m⟩ := List.exists_mem_of_ne_nil _ ne
      have m := (List.mem_filter.mp m).2
      unfold weights
      rw [entered_warm]
      exact sum_map_lt _ _ _ (fun k => (entered_weight s k).1) k (mem_allLanes k) ((entered_weight s k).2 m)
    · exact Or.inl rfl
  generalize ((entered s).draw (dueLanes s)).1.foldl (fun t l => t.attempt l) ((entered s).draw (dueLanes s)).2 = t
    at *
  unfold cost
  cases o : t.attemptDue
  · rcases first with f | f
    · rw [f]
      simp only [Bool.false_eq_true, if_false, if_true]
      omega
    · simp only [Bool.false_eq_true, if_false]
      omega
  · have lt := lt o
    rcases first with f | f
    · rw [f]
      omega
    · simp only [if_true]
      omega

theorem settled_allocateN : ∀ (n : Nat) (s : State), cost s < n → (s.allocateN n).settled
  | 0, _, h => absurd h (Nat.not_lt_zero _)
  | n + 1, s, h => by
    rw [allocateN_succ]
    split
    · rename_i e
      exact entered_settled s e
    · rename_i e
      have e : (dueLanes s).isEmpty = false := by simpa using e
      exact settled_allocateN n _ (Nat.lt_of_lt_of_le (round_cost s e) (Nat.le_of_lt_succ h))

/-- The boundary of an event settles every state. -/
theorem settled_allocate (s : State) : s.allocate.settled :=
  settled_allocateN 20 s (Nat.lt_of_le_of_lt (cost_le s) (by decide))

end Sys2Proof.Laws
end

