-- ==== Sys2Proof/Laws/Buffers.lean ====
section
/-! SUPPORT. What placing a record and a flush do to the states of a lane's page buffers: at most one buffer is FILLING
(R138), and none is behind a flush (R150). -/

namespace Sys2Proof.Laws

open Sys2Proof.Machine

/-- At most one page buffer of a lane is FILLING. -/
def OneFilling (a : AcLane) : Prop :=
  ∀ i j : Fin 4, a.buffers[i].state = .filling → a.buffers[j].state = .filling → i = j

/-- No page buffer of a lane is FILLING. -/
def NoneFilling (a : AcLane) : Prop := ∀ i : Fin 4, a.buffers[i].state ≠ .filling

theorem NoneFilling.one {a : AcLane} (h : NoneFilling a) : OneFilling a := fun i _ hi _ => absurd hi (h i)

theorem getElem_setBuffer (a : AcLane) (i j : Fin 4) (b : PageBuffer) :
    (a.setBuffer i b).buffers[j] = if j = i then b else a.buffers[j] := by
  by_cases h : j = i
  · subst h; simp [AcLane.setBuffer]
  · simp only [AcLane.setBuffer, h, if_false]
    exact Vector.getElem_set_ne _ _ (fun e => h (Fin.ext e.symm))

theorem filling_some {a : AcLane} {i : Fin 4} (h : a.filling = some i) : a.buffers[i].state = .filling := by
  have := List.find?_some h
  simpa using this

theorem filling_none {a : AcLane} (h : a.filling = none) : NoneFilling a := by
  intro i hi
  have := List.find?_eq_none.mp h i (List.mem_finRange i)
  simp only [beq_iff_eq] at this
  exact this hi

/-- Replacing a buffer by one that is not FILLING keeps at most one FILLING. -/
theorem OneFilling.setBuffer {a : AcLane} (h : OneFilling a) (i : Fin 4) (b : PageBuffer) (hb : b.state ≠ .filling) :
    OneFilling (a.setBuffer i b) := by
  intro j k hj hk
  rw [getElem_setBuffer] at hj hk
  split at hj
  · exact absurd hj hb
  · split at hk
    · exact absurd hk hb
    · exact h j k hj hk

/-- The FILLING buffer replaced by one that is not leaves none FILLING. -/
theorem OneFilling.replaced {a : AcLane} (h : OneFilling a) {i : Fin 4} (hi : a.filling = some i) (b : PageBuffer)
    (hb : b.state ≠ .filling) : NoneFilling (a.setBuffer i b) := by
  intro j hj
  rw [getElem_setBuffer] at hj
  split at hj
  · exact hb hj
  · exact absurd (h j i hj (filling_some hi)) (by assumption)

/-- Closing the FILLING buffer leaves none FILLING. -/
theorem OneFilling.closeFilling {a : AcLane} (h : OneFilling a) (stamp : Nat) : NoneFilling (a.closeFilling stamp) := by
  unfold AcLane.closeFilling
  split
  · next i hi => exact h.replaced hi _ (by simp)
  · next hi => exact filling_none hi

/-- Appending to the FILLING buffer, or to any buffer while none is FILLING, leaves one FILLING. -/
theorem oneFilling_append {a : AcLane} (i : Fin 4) (r : Record) (h : OneFilling a)
    (hi : a.buffers[i].state = .filling ∨ NoneFilling a) : OneFilling (a.append i r) := by
  have only : ∀ j : Fin 4, (a.append i r).buffers[j].state = .filling → j = i := by
    intro j hj
    unfold AcLane.append at hj
    rw [getElem_setBuffer] at hj
    split at hj
    · assumption
    · rcases hi with hi | hi
      · exact h j i hj hi
      · exact absurd hj (hi j)
  intro j k hj hk
  rw [only j hj, only k hk]

theorem fillingWithRoom_some {a : AcLane} {n : Nat} {i : Fin 4} (h : a.fillingWithRoom n = some i) :
    a.filling = some i := by
  unfold AcLane.fillingWithRoom at h
  split at h
  · next j hj =>
    split at h
    · rw [hj, h]
    · exact absurd h (by simp)
  · exact absurd h (by simp)

/-- Placing a record keeps at most one FILLING. -/
theorem OneFilling.place {a : AcLane} (h : OneFilling a) (stamp : Nat) (r : Record) : OneFilling (a.place stamp r).2 := by
  unfold AcLane.place
  split
  · next i hi => exact oneFilling_append i r h (Or.inl (filling_some (fillingWithRoom_some hi)))
  · dsimp only
    split
    · exact oneFilling_append _ r (h.closeFilling stamp).one (Or.inr (h.closeFilling stamp))
    · exact (h.closeFilling stamp).one

/-- Taking a record keeps at most one FILLING. -/
theorem OneFilling.take {a : AcLane} (h : OneFilling a) (stamp : Nat) (r : Record) : OneFilling (a.take stamp r) := by
  unfold AcLane.take
  split
  · split
    · exact (h.place stamp _).place stamp r
    · dsimp only
      split
      · exact h
      · exact (h.closeFilling stamp).one
  · dsimp only
    split
    · exact h.place stamp r
    · exact h.place stamp r

/-- The GAP record of a flush keeps at most one FILLING. -/
theorem OneFilling.flushGaps {a : AcLane} (h : OneFilling a) (stamp : Nat) (time : Time) :
    OneFilling (a.flushGaps stamp time) := by
  unfold AcLane.flushGaps
  split
  · exact h.place stamp _
  · exact h

/-- A flush leaves no buffer FILLING. -/
theorem OneFilling.flushFilling {a : AcLane} (h : OneFilling a) (stamp : Nat) : NoneFilling (a.flushFilling stamp) := by
  unfold AcLane.flushFilling
  split
  · next i hi =>
    split
    · exact h.replaced hi _ (by simp [PageBuffer.empty])
    · exact h.closeFilling stamp
  · next hi => exact filling_none hi

end Sys2Proof.Laws
end

