-- ==== Sys2Proof/Laws/Holds.lean ====
section
/-! SUPPORT. What putting holds in order of id can do: the holds stay, the order rises, and a list in order stays as it
is. -/

namespace Sys2Proof.Laws

open Sys2Proof.Machine

theorem insertHold_perm (h : Hold) (hs : List Hold) : (insertHold h hs).Perm (h :: hs) := by
  induction hs with
  | nil => exact List.Perm.refl _
  | cons x rest ih =>
    unfold insertHold
    split
    · exact List.Perm.refl _
    · exact (ih.cons x).trans (List.Perm.swap h x rest)

/-- Behind holds of lower ids a hold stands last. -/
theorem insertHold_last (h : Hold) (hs : List Hold) (lower : ∀ x ∈ hs, x.id < h.id) : insertHold h hs = hs ++ [h] := by
  induction hs with
  | nil => rfl
  | cons x rest ih =>
    have a := lower x List.mem_cons_self
    rw [insertHold, if_neg (by omega), ih (fun y hy => lower y (List.mem_cons_of_mem x hy))]
    rfl

/-- Among holds of other ids the order of ids goes on rising. -/
theorem insertHold_rising (h : Hold) (hs : List Hold) (other : ∀ x ∈ hs, x.id ≠ h.id)
    (rising : hs.Pairwise (fun x y => x.id < y.id)) : (insertHold h hs).Pairwise (fun x y => x.id < y.id) := by
  induction hs with
  | nil => exact List.pairwise_singleton _ h
  | cons x rest ih =>
    have ⟨first, tail⟩ := List.pairwise_cons.mp rising
    have a := other x List.mem_cons_self
    unfold insertHold
    split
    · refine List.pairwise_cons.mpr ⟨fun y hy => ?_, rising⟩
      rcases List.mem_cons.mp hy with e | m
      · exact e ▸ ‹_›
      · exact lt_trans ‹_› (first y m)
    · refine List.pairwise_cons.mpr ⟨fun y hy => ?_, ih (fun y hy => other y (List.mem_cons_of_mem x hy)) tail⟩
      rcases List.mem_cons.mp ((insertHold_perm h rest).mem_iff.mp hy) with e | m
      · rw [e]; omega
      · exact first y m

theorem insertAll_perm (xs acc : List Hold) : (xs.foldl (fun hs h => insertHold h hs) acc).Perm (xs ++ acc) := by
  induction xs generalizing acc with
  | nil => exact List.Perm.refl _
  | cons x rest ih =>
    exact (ih _).trans (((insertHold_perm x acc).append_left rest).trans List.perm_middle)

theorem insertAll_sorted (xs acc : List Hold) (rising : (acc ++ xs).Pairwise (fun x y => x.id < y.id)) :
    xs.foldl (fun hs h => insertHold h hs) acc = acc ++ xs := by
  induction xs generalizing acc with
  | nil => exact (List.append_nil acc).symm
  | cons x rest ih =>
    have lower := (List.pairwise_append.mp rising).2.2
    rw [List.foldl_cons, insertHold_last x acc (fun y hy => lower y hy x List.mem_cons_self),
      ih (acc ++ [x]) (by simpa using rising)]
    simp

/-- The holds of a copy are entered whole. -/
theorem ascending_perm (t : HoldTable) : t.ascending.Perm t.table := by
  simpa [HoldTable.ascending] using insertAll_perm t.table []

/-- A copy in order of id, as the part writes it, is entered as it stands. -/
theorem ascending_sorted (t : HoldTable) (rising : t.table.Pairwise (fun x y => x.id < y.id)) :
    t.ascending = t.table := by
  simpa [HoldTable.ascending] using insertAll_sorted t.table [] (by simpa using rising)

end Sys2Proof.Laws
end

