-- ==== Sys2Proof/Laws/Integration.lean ====
section
/-! SUPPORT. The comparisons of integration are exact: each is decided at the last precision at the latest, since a sum of
even powers of 10^(1/200) stays away from every multiple of an odd one; so a reported mean of bins is the manual's. -/

namespace Sys2Proof.Laws

open Polynomial Sys2Proof.Machine

/-! ### A positive root of 10 -/

theorem irreducible_X_pow_sub_ten {n : ℕ} (hn : n ≠ 0) : Irreducible (X ^ n - C (10 : ℚ)) := by
  have hz : Irreducible (X ^ n - C (10 : ℤ)) := by
    have hd := degree_X_pow_sub_C (Nat.pos_of_ne_zero hn) (10 : ℤ)
    have hm : (X ^ n - C (10 : ℤ)).Monic := monic_X_pow_sub_C _ hn
    refine irreducible_of_eisenstein_criterion (P := Ideal.span {(2 : ℤ)}) ?_ ?_ ?_ ?_ ?_ hm.isPrimitive
    · exact (Ideal.span_singleton_prime (by norm_num)).2 Int.prime_two
    · rw [hm.leadingCoeff, Ideal.mem_span_singleton]
      norm_num
    · intro k hk
      rw [hd] at hk
      have hk : k < n := by exact_mod_cast hk
      rw [coeff_sub, coeff_X_pow, coeff_C, if_neg (by omega), Ideal.mem_span_singleton]
      split <;> norm_num
    · rw [hd]
      exact_mod_cast Nat.pos_of_ne_zero hn
    · rw [Ideal.span_singleton_pow, Ideal.mem_span_singleton, coeff_sub, coeff_X_pow, coeff_C_zero, if_neg (Ne.symm hn)]
      norm_num
  have := (Monic.irreducible_iff_irreducible_map_fraction_map (K := ℚ) (monic_X_pow_sub_C (10 : ℤ) hn)).1 hz
  have ten : algebraMap ℤ ℚ 10 = 10 := by norm_num
  have hmap : (X ^ n - C (10 : ℤ)).map (algebraMap ℤ ℚ) = X ^ n - C (10 : ℚ) := by
    rw [Polynomial.map_sub, Polynomial.map_pow, map_X, map_C, ten]
  rwa [hmap] at this

theorem minpoly_root {n : ℕ} {r : ℝ} (hn : n ≠ 0) (hr : r ^ n = 10) : minpoly ℚ r = X ^ n - C (10 : ℚ) := by
  refine (minpoly.eq_of_irreducible_of_monic (irreducible_X_pow_sub_ten hn) ?_ (monic_X_pow_sub_C _ hn)).symm
  simp [hr]

/-- An integer polynomial that vanishes at an even root of 10 vanishes at its negative. -/
theorem aeval_neg_root {n : ℕ} {r : ℝ} (hn : n ≠ 0) (even : Even n) (hr : r ^ n = 10) (g : ℤ[X])
    (h : aeval r g = 0) : aeval (-r) g = 0 := by
  have hg : aeval r (g.map (algebraMap ℤ ℚ)) = 0 := by rw [aeval_map_algebraMap]; exact h
  obtain ⟨q, hq⟩ := minpoly.dvd ℚ r hg
  have : aeval (-r) (g.map (algebraMap ℤ ℚ)) = 0 := by
    rw [hq, minpoly_root hn hr]
    simp [even.neg_pow, hr]
  rwa [aeval_map_algebraMap] at this

/-- The value of an integer polynomial at a root of 10 is 0 or away from 0: the product with its conjugates is a whole
number. -/
theorem one_le_aeval_root {n : ℕ} {r : ℝ} (hn : n ≠ 0) (pos : 0 < r) (hr : r ^ n = 10) (g : ℤ[X])
    (hg : aeval r g ≠ 0) (B : ℝ) (bound : ∀ z : ℂ, ‖z‖ = r → ‖aeval z g‖ ≤ B) :
    1 ≤ |aeval r g| * B ^ (n - 1) := by
  classical
  let K := IntermediateField.adjoin ℚ {r}
  have rint : IsIntegral ℤ r := ⟨X ^ n - C 10, monic_X_pow_sub_C _ hn, by simp [hr]⟩
  have hint : IsIntegral ℚ r := rint.tower_top
  have : FiniteDimensional ℚ K := IntermediateField.adjoin.finiteDimensional hint
  let x : K := IntermediateField.AdjoinSimple.gen ℚ r
  let a : K := aeval x g
  have hx : x ^ n = 10 := by
    apply Subtype.ext
    push_cast
    exact hr
  have ha : ((a : K) : ℝ) = aeval r g := by
    have := (aeval_algHom_apply (K.val.restrictScalars ℤ) x g).symm
    simpa [a, x] using this
  have ha0 : a ≠ 0 := fun h => hg (by rw [← ha, h]; rfl)
  have xint : IsIntegral ℤ x := ⟨X ^ n - C 10, monic_X_pow_sub_C _ hn, by simp [hx]⟩
  have aint : IsIntegral ℤ a := by
    have : a ∈ Algebra.adjoin ℤ {x} := aeval_mem_adjoin_singleton ℤ x
    exact IsIntegral.of_mem_of_fg _ xint.fg_adjoin_singleton _ this
  obtain ⟨m, hm⟩ := IsIntegrallyClosed.isIntegral_iff.1 (Algebra.isIntegral_norm ℚ aint)
  have hnorm : Algebra.norm ℚ a ≠ 0 := Algebra.norm_ne_zero_iff.2 ha0
  have hm0 : m ≠ 0 := by rintro rfl; exact hnorm (by rw [← hm]; simp)
  have hprod := Algebra.norm_eq_prod_embeddings ℚ ℂ a
  have hσ (σ : K →ₐ[ℚ] ℂ) : ‖σ a‖ ≤ B := by
    have hs : σ a = aeval (σ x) g := (aeval_algHom_apply (σ.restrictScalars ℤ) x g).symm
    rw [hs]
    refine bound _ ?_
    have hpow : ‖σ x‖ ^ n = r ^ n := by
      rw [← norm_pow, ← map_pow, hx, hr, map_ofNat]
      norm_num
    exact (pow_left_inj₀ (norm_nonneg _) pos.le hn).1 hpow
  let σ₀ : K →ₐ[ℚ] ℂ := (Complex.ofRealAm.restrictScalars ℚ).comp K.val
  have h0 : ‖σ₀ a‖ = |aeval r g| := by
    have : σ₀ a = ((a : ℝ) : ℂ) := rfl
    rw [this, Complex.norm_real, Real.norm_eq_abs, ha]
  have card : Fintype.card (K →ₐ[ℚ] ℂ) = n := by
    rw [AlgHom.card, IntermediateField.adjoin.finrank hint, minpoly_root hn hr]
    exact natDegree_X_pow_sub_C
  have one : (1 : ℝ) ≤ ‖(algebraMap ℚ ℂ) (Algebra.norm ℚ a)‖ := by
    rw [← hm]
    have : (algebraMap ℚ ℂ) (algebraMap ℤ ℚ m) = (m : ℂ) := by simp
    rw [this, Complex.norm_intCast]
    exact_mod_cast Int.one_le_abs hm0
  rw [hprod, norm_prod, ← Finset.mul_prod_erase _ _ (Finset.mem_univ σ₀), h0] at one
  refine one.trans (mul_le_mul_of_nonneg_left ?_ (abs_nonneg _))
  calc ∏ σ ∈ Finset.univ.erase σ₀, ‖σ a‖ ≤ ∏ _σ ∈ Finset.univ.erase σ₀, B :=
        Finset.prod_le_prod (fun _ _ => norm_nonneg _) fun σ _ => hσ σ
    _ = B ^ (n - 1) := by
        rw [Finset.prod_const, Finset.card_erase_of_mem (Finset.mem_univ _), Finset.card_univ, card]


/-! ### The mean of bin powers against a bound -/

/-- 10^(1/200): the bins' powers are its even powers, and the bounds of the tenths its odd ones, over one divisor. -/
noncomputable def root200 : ℝ := (10 : ℝ) ^ ((1 : ℝ) / 200)

theorem root200_pos : 0 < root200 := Real.rpow_pos_of_pos (by norm_num) _

theorem root200_pow : root200 ^ 200 = 10 := by
  unfold root200
  rw [← Real.rpow_natCast, ← Real.rpow_mul (by norm_num)]
  norm_num

theorem root200_le : root200 ≤ 2 := by
  refine le_of_pow_le_pow_left₀ (n := 200) (by norm_num) (by norm_num) ?_
  rw [root200_pow]
  norm_num

theorem one_le_root200 : 1 ≤ root200 := by
  refine le_of_pow_le_pow_left₀ (n := 200) (by norm_num) root200_pos.le ?_
  rw [root200_pow]
  norm_num

/-- The weighted sum of the even powers of a number: the bins with their counts. -/
noncomputable def binSum (xs : List (Nat × Nat)) : ℝ := (xs.map (fun x => (x.2 : ℝ) * root200 ^ (2 * x.1))).sum

/-- The counts together. -/
def countSum (xs : List (Nat × Nat)) : Nat := (xs.map Prod.snd).sum

/-- The polynomial whose value at the root is the sum less N times an odd power. -/
noncomputable def gapPoly (xs : List (Nat × Nat)) (N e : Nat) : ℤ[X] :=
  (xs.map (fun x => C (x.2 : ℤ) * X ^ (2 * x.1))).sum - C (N : ℤ) * X ^ e

theorem aeval_gapPoly {A : Type} [CommRing A] (z : A) (xs : List (Nat × Nat)) (N e : Nat) :
    aeval z (gapPoly xs N e) = (xs.map (fun x => (x.2 : A) * z ^ (2 * x.1))).sum - N * z ^ e := by
  unfold gapPoly
  rw [map_sub, map_list_sum, List.map_map]
  congr 1
  · congr 1
    refine List.map_congr_left fun x _ => ?_
    simp
  · simp

/-- The sum is never an odd power's multiple, and stays away from it by far more than the last precision leaves open. -/
theorem gap_apart (xs : List (Nat × Nat)) (e : Nat) (N : Nat) (hN : 0 < N) (hcount : countSum xs = N) (hlt : N < 2 ^ 32)
    (hb : ∀ x ∈ xs, x.1 ≤ 900) (he : e ≤ 1801) (odd : Odd e) :
    1 ≤ |binSum xs - N * root200 ^ e| * (2 ^ 64 : ℝ) ^ 199 := by
  have hv : aeval root200 (gapPoly xs N e) = binSum xs - N * root200 ^ e := aeval_gapPoly root200 xs N e
  have hsum : ∀ (ys : List (Nat × Nat)), (∀ x ∈ ys, x.1 ≤ 900) →
      (ys.map (fun x => (x.2 : ℝ) * root200 ^ (2 * x.1))).sum ≤ (countSum ys : ℝ) * 10 ^ 9 := by
    intro ys hy
    induction ys with
    | nil => simp [countSum]
    | cons y ys ih =>
      have h := ih fun x hx => hy x (List.mem_cons_of_mem _ hx)
      have hp : root200 ^ (2 * y.1) ≤ 10 ^ 9 := by
        calc root200 ^ (2 * y.1) ≤ root200 ^ (200 * 9) :=
              pow_le_pow_right₀ one_le_root200 (by have := hy y (List.mem_cons_self ..); omega)
          _ = 10 ^ 9 := by rw [pow_mul, root200_pow]
      have := mul_le_mul_of_nonneg_left hp (Nat.cast_nonneg (α := ℝ) y.2)
      simp only [List.map_cons, List.sum_cons, countSum, Nat.cast_add] at h ⊢
      linarith
  have hr : root200 ^ e ≤ 2 * 10 ^ 9 := by
    calc root200 ^ e ≤ root200 ^ (200 * 9 + 1) := pow_le_pow_right₀ one_le_root200 (by omega)
      _ = 10 ^ 9 * root200 := by rw [pow_succ, pow_mul, root200_pow]
      _ ≤ 2 * 10 ^ 9 := by linarith [root200_le]
  have hN' : (N : ℝ) < 2 ^ 32 := by exact_mod_cast hlt
  rw [← hv]
  refine one_le_aeval_root (n := 200) (by norm_num) root200_pos root200_pow _ ?_ _ fun z hz => ?_
  · intro h0
    have h1 := aeval_neg_root (n := 200) (by norm_num) (by decide) root200_pow _ h0
    rw [aeval_gapPoly, odd.neg_pow] at h1
    have hpos : 0 < (N : ℝ) * root200 ^ e := mul_pos (by exact_mod_cast hN) (pow_pos root200_pos _)
    have hnn : 0 ≤ (xs.map (fun x => (x.2 : ℝ) * (-root200) ^ (2 * x.1))).sum := by
      refine List.sum_nonneg fun y hy => ?_
      obtain ⟨x, -, rfl⟩ := List.mem_map.1 hy
      rw [pow_mul]
      positivity
    linarith
  · rw [aeval_gapPoly]
    have hle : ‖(xs.map (fun x => (x.2 : ℂ) * z ^ (2 * x.1))).sum‖ ≤ (countSum xs : ℝ) * 10 ^ 9 := by
      refine le_trans ?_ (hsum xs hb)
      clear hcount hsum hv hb
      induction xs with
      | nil => simp
      | cons x xs ih =>
        simp only [List.map_cons, List.sum_cons]
        refine (norm_add_le _ _).trans (add_le_add ?_ ih)
        rw [norm_mul, norm_pow, hz, Complex.norm_natCast]
    have hne : ‖(N : ℂ) * z ^ e‖ = N * root200 ^ e := by rw [norm_mul, norm_pow, hz, Complex.norm_natCast]
    refine (norm_sub_le _ _).trans ?_
    rw [hne]
    rw [hcount] at hle
    have hNn : (0 : ℝ) ≤ N := Nat.cast_nonneg _
    have := mul_le_mul_of_nonneg_left hr hNn
    norm_num
    nlinarith

/-! ### Powers of the root between whole numbers -/

theorem rootBelow_spec (k m : Nat) : ∀ (bits x : Nat), x ^ k ≤ m → m < (x + 2 ^ bits) ^ k →
    rootBelow k m bits x ^ k ≤ m ∧ m < (rootBelow k m bits x + 1) ^ k
  | 0, x, h, g => ⟨h, by simpa [rootBelow] using g⟩
  | bits + 1, x, h, g => by
    have e : x + 2 ^ (bits + 1) = x + 2 ^ bits + 2 ^ bits := by ring
    rw [e] at g
    unfold rootBelow
    dsimp only
    split
    · rename_i hy
      exact rootBelow_spec k m bits _ hy g
    · rename_i hy
      exact rootBelow_spec k m bits x h (Nat.lt_of_not_le hy)

/-- 2^p * r^j lies between neighbouring whole numbers, the lower one `rootPower`. -/
theorem rootPower_bounds (p j : Nat) (hj : j < 200) :
    (rootPower p j : ℝ) ≤ 2 ^ p * root200 ^ j ∧ 2 ^ p * root200 ^ j < rootPower p j + 1 := by
  have hm : ((2 ^ (200 * p) * 10 ^ j : Nat) : ℝ) = (2 ^ p * root200 ^ j) ^ 200 := by
    push_cast
    rw [mul_pow, ← pow_mul, ← pow_mul, mul_comm p 200, mul_comm j 200, pow_mul root200, root200_pow]
  have top : 2 ^ (200 * p) * 10 ^ j < (0 + 2 ^ (p + 4)) ^ 200 := by
    have : (10 : Nat) ^ j < 16 ^ 200 := (Nat.pow_lt_pow_right (by norm_num) hj).trans_le (Nat.pow_le_pow_left (by norm_num) _)
    calc 2 ^ (200 * p) * 10 ^ j < 2 ^ (200 * p) * 16 ^ 200 := Nat.mul_lt_mul_of_pos_left this (by positivity)
      _ = (0 + 2 ^ (p + 4)) ^ 200 := by
          rw [Nat.zero_add, pow_add, mul_pow, ← pow_mul, mul_comm p 200]
          norm_num
  obtain ⟨lo, hi⟩ := rootBelow_spec 200 (2 ^ (200 * p) * 10 ^ j) (p + 4) 0 (by simp) top
  have pos : (0 : ℝ) ≤ 2 ^ p * root200 ^ j := by have := root200_pos; positivity
  constructor
  · refine le_of_pow_le_pow_left₀ (n := 200) (by norm_num) pos ?_
    have := (Nat.cast_le (α := ℝ)).2 lo
    rwa [hm, Nat.cast_pow] at this
  · refine lt_of_pow_lt_pow_left₀ 200 (add_nonneg (Nat.cast_nonneg _) zero_le_one) ?_
    have := (Nat.cast_lt (α := ℝ)).2 hi
    rwa [hm, Nat.cast_pow, Nat.cast_add, Nat.cast_one] at this

theorem powerBelow_bounds (p j : Nat) :
    (powerBelow p j : ℝ) ≤ 2 ^ p * root200 ^ j ∧ 2 ^ p * root200 ^ j < powerBelow p j + powerSlack j := by
  obtain ⟨lo, hi⟩ := rootPower_bounds p (j % 200) (Nat.mod_lt _ (by norm_num))
  have hj : root200 ^ j = root200 ^ (j % 200) * 10 ^ (j / 200) := by
    conv_lhs => rw [← Nat.mod_add_div j 200, pow_add, pow_mul, root200_pow]
  have pos : (0 : ℝ) < 10 ^ (j / 200) := by positivity
  unfold powerBelow powerSlack
  push_cast
  rw [hj, ← mul_assoc]
  constructor
  · exact mul_le_mul_of_nonneg_right lo pos.le
  · nlinarith [mul_lt_mul_of_pos_right hi pos]

theorem foldl_add_map {α : Type} (f : α → Nat) (xs : List α) (a : Nat) :
    xs.foldl (fun b x => b + f x) a = a + (xs.map f).sum := by
  induction xs generalizing a with
  | nil => simp
  | cons x xs ih => rw [List.foldl_cons, ih, List.map_cons, List.sum_cons, Nat.add_assoc]

theorem blockCount_eq (xs : List (Nat × Nat)) : blockCount xs = countSum xs := by
  unfold blockCount countSum
  rw [foldl_add_map, Nat.zero_add]

/-- The sums that `meanReachesAt` compares bound the sum of the powers, a count times 10^9 apart. -/
theorem sums_bounds (p : Nat) (xs : List (Nat × Nat)) (hb : ∀ x ∈ xs, x.1 ≤ 900) :
    let low := (xs.map (fun x => x.2 * powerBelow p (2 * x.1))).sum
    let high := (xs.map (fun x => x.2 * (powerBelow p (2 * x.1) + powerSlack (2 * x.1)))).sum
    (low : ℝ) ≤ 2 ^ p * binSum xs ∧ 2 ^ p * binSum xs ≤ high ∧ high ≤ low + countSum xs * 10 ^ 9 := by
  intro low high
  induction xs with
  | nil => simp [low, high, binSum, countSum]
  | cons x xs ih =>
    obtain ⟨a, b, c⟩ := ih fun y hy => hb y (List.mem_cons_of_mem _ hy)
    obtain ⟨lo, hi⟩ := powerBelow_bounds p (2 * x.1)
    have slack : powerSlack (2 * x.1) ≤ 10 ^ 9 :=
      Nat.pow_le_pow_right (by norm_num) (by have := hb x (List.mem_cons_self ..); omega)
    have n0 : (0 : ℝ) ≤ x.2 := Nat.cast_nonneg _
    have lo' := mul_le_mul_of_nonneg_left lo n0
    have hi' := mul_le_mul_of_nonneg_left hi.le n0
    simp only [low, high, binSum, countSum, List.map_cons, List.sum_cons, Nat.cast_add, Nat.cast_mul, mul_add] at a b c ⊢
    refine ⟨by nlinarith, by nlinarith, ?_⟩
    have := Nat.mul_le_mul_left x.2 slack
    nlinarith

/-- A decided comparison is right, and an undecided one leaves a difference that is small against 2^p. -/
theorem meanReachesAt_spec (xs : List (Nat × Nat)) (e p : Nat) (he : e ≤ 1801) (hb : ∀ x ∈ xs, x.1 ≤ 900)
    (pos : 0 < countSum xs) :
    (meanReachesAt xs e p = some true → countSum xs * root200 ^ e ≤ binSum xs) ∧
    (meanReachesAt xs e p = some false → binSum xs ≤ countSum xs * root200 ^ e) ∧
    (meanReachesAt xs e p = none →
      2 ^ p * |binSum xs - countSum xs * root200 ^ e| ≤ 2 * countSum xs * 10 ^ 9) := by
  obtain ⟨a, b, c⟩ := sums_bounds p xs hb
  obtain ⟨lo, hi⟩ := powerBelow_bounds p e
  have slack : powerSlack e ≤ 10 ^ 9 := Nat.pow_le_pow_right (by norm_num) (by omega)
  have n0 : (0 : ℝ) < countSum xs := by exact_mod_cast pos
  have lo' := mul_le_mul_of_nonneg_left lo n0.le
  have hi' := mul_lt_mul_of_pos_left hi n0
  have two : (0 : ℝ) < 2 ^ p := by positivity
  have slack' : (powerSlack e : ℝ) ≤ 10 ^ 9 := by exact_mod_cast slack
  have slack'' := mul_le_mul_of_nonneg_left slack' n0.le
  unfold meanReachesAt
  simp only [foldl_add_map, Nat.zero_add, blockCount_eq]
  generalize (xs.map (fun x => x.2 * powerBelow p (2 * x.1))).sum = low at a b c
  generalize (xs.map (fun x => x.2 * (powerBelow p (2 * x.1) + powerSlack (2 * x.1)))).sum = high at a b c
  have c' : (high : ℝ) ≤ low + countSum xs * 10 ^ 9 := by exact_mod_cast c
  split
  · rename_i h
    have h' : (countSum xs : ℝ) * (powerBelow p e + powerSlack e) ≤ low := by exact_mod_cast h
    refine ⟨fun _ => ?_, by simp, by simp⟩
    refine le_of_mul_le_mul_left ?_ two
    nlinarith
  · split
    · rename_i h
      have h' : (high : ℝ) ≤ countSum xs * powerBelow p e := by exact_mod_cast h
      refine ⟨by simp, fun _ => ?_, by simp⟩
      refine le_of_mul_le_mul_left ?_ two
      nlinarith
    · rename_i h g
      refine ⟨by simp, by simp, fun _ => ?_⟩
      have h' : (low : ℝ) < countSum xs * (powerBelow p e + powerSlack e) := by exact_mod_cast Nat.lt_of_not_le h
      have g' : (countSum xs : ℝ) * powerBelow p e < high := by exact_mod_cast Nat.lt_of_not_le g
      rw [← abs_of_pos two, ← abs_mul, abs_le]
      constructor <;> nlinarith

/-- The comparison is decided, at the last precision at the latest (log 33). -/
theorem firstDecided_spec (xs : List (Nat × Nat)) (e : Nat) (he : e ≤ 1801) (odd : Odd e) (hb : ∀ x ∈ xs, x.1 ≤ 900)
    (pos : 0 < countSum xs) (lt : countSum xs < 2 ^ 32) :
    firstDecided xs e [64, 256, 1024, 4096, 16384] = true ↔ countSum xs * root200 ^ e ≤ binSum xs := by
  have apart := gap_apart xs e (countSum xs) pos rfl lt hb he odd
  have ne : binSum xs ≠ countSum xs * root200 ^ e := by
    intro h
    rw [h, sub_self, abs_zero, zero_mul] at apart
    norm_num at apart
  have right (p : Nat) (v : Bool) (h : meanReachesAt xs e p = some v) :
      v = true ↔ countSum xs * root200 ^ e ≤ binSum xs := by
    obtain ⟨a, b, -⟩ := meanReachesAt_spec xs e p he hb pos
    cases v
    · have := lt_of_le_of_ne (b h) ne
      simp [this]
    · simp [a h]
  have last : meanReachesAt xs e 16384 ≠ none := by
    intro h
    have c := (meanReachesAt_spec xs e 16384 he hb pos).2.2 h
    have n : (countSum xs : ℝ) < 2 ^ 32 := by exact_mod_cast lt
    have small : 2 * (countSum xs : ℝ) * 10 ^ 9 < 2 ^ 64 := by
      calc 2 * (countSum xs : ℝ) * 10 ^ 9 ≤ 2 * 2 ^ 32 * 10 ^ 9 := by gcongr
        _ < 2 ^ 64 := by norm_num
    have c' := lt_of_le_of_lt c small
    have split : (2 : ℝ) ^ 16384 = 2 ^ 64 * (2 ^ 64) ^ 199 * 2 ^ 3584 := by rw [← pow_mul, ← pow_add, ← pow_add]
    have big : (1 : ℝ) ≤ 2 ^ 3584 := one_le_pow₀ (by norm_num)
    rw [split] at c'
    have p64 : (0 : ℝ) < 2 ^ 64 := by positivity
    generalize (2 : ℝ) ^ 64 = B at apart c' p64
    generalize (2 : ℝ) ^ 3584 = D at big c'
    generalize |binSum xs - countSum xs * root200 ^ e| = d at apart c'
    have : B * 1 ≤ B * (d * B ^ 199 * D) := by
      refine mul_le_mul_of_nonneg_left ?_ p64.le
      nlinarith
    nlinarith
  have step (p : Nat) (rest : List Nat) (h : firstDecided xs e rest = true ↔ countSum xs * root200 ^ e ≤ binSum xs) :
      firstDecided xs e (p :: rest) = true ↔ countSum xs * root200 ^ e ≤ binSum xs := by
    unfold firstDecided
    split
    · rename_i v hv
      exact right p v hv
    · exact h
  refine step _ _ (step _ _ (step _ _ (step _ _ ?_)))
  unfold firstDecided
  split
  · rename_i v hv
    exact right _ v hv
  · rename_i hn
    exact absurd hn last

/-! ### The reported mean (R51 to R53) -/

/-- The divisor between the manual's powers and the powers of the root: 10^(-6.9309). -/
noncomputable def binUnit : ℝ := (10 : ℝ) ^ (-(69309 : ℝ) / 10000)

theorem binUnit_pos : 0 < binUnit := Real.rpow_pos_of_pos (by norm_num) _

theorem root200_rpow (j : Nat) : root200 ^ j = (10 : ℝ) ^ ((j : ℝ) / 200) := by
  unfold root200
  rw [← Real.rpow_natCast, ← Real.rpow_mul (by norm_num)]
  congr 1
  ring

theorem binPower_eq (b : Nat) : binPower b = binUnit * root200 ^ (2 * b) := by
  unfold binPower binUnit
  rw [root200_rpow, ← Real.rpow_add (by norm_num)]
  congr 1
  push_cast
  ring

theorem loudnessBound_eq (n : Int) (e : Nat) (h : 2 * n + 1399 = e) : loudnessBound n = binUnit * root200 ^ e := by
  unfold loudnessBound binUnit
  rw [root200_rpow, ← Real.rpow_add (by norm_num)]
  congr 1
  have : (e : ℝ) = 2 * n + 1399 := by exact_mod_cast h.symm
  rw [this]
  ring

theorem loudnessBound_mono {m n : Int} (h : m ≤ n) : loudnessBound m ≤ loudnessBound n := by
  unfold loudnessBound
  have : (m : ℝ) ≤ n := by exact_mod_cast h
  exact Real.rpow_le_rpow_of_exponent_le (by norm_num) (by linarith)

/-- The mean power of bins given with their counts. -/
noncomputable def meanOf (xs : List (Nat × Nat)) : ℝ :=
  (xs.map (fun x => (x.2 : ℝ) * binPower x.1)).sum / countSum xs

theorem meanOf_eq (xs : List (Nat × Nat)) : meanOf xs = binUnit * binSum xs / countSum xs := by
  unfold meanOf binSum
  congr 1
  rw [← List.sum_map_mul_left]
  congr 1
  refine List.map_congr_left fun x _ => ?_
  rw [binPower_eq]
  ring

/-- The comparison that integration makes is the manual's. -/
theorem meanReaches_iff (xs : List (Nat × Nat)) (n : Int) (low : -700 < n) (high : n ≤ 201) (hb : ∀ x ∈ xs, x.1 ≤ 900)
    (pos : 0 < countSum xs) (lt : countSum xs < 2 ^ 32) : meanReaches xs n = true ↔ loudnessBound n ≤ meanOf xs := by
  obtain ⟨e, he⟩ : ∃ e : Nat, 2 * n + 1399 = e := ⟨(2 * n + 1399).toNat, by omega⟩
  have hn : ¬ n ≤ -700 := by omega
  have hodd : Odd e := ⟨e / 2, by omega⟩
  have hc : (0 : ℝ) < countSum xs := by exact_mod_cast pos
  unfold meanReaches
  rw [if_neg hn, he, Int.toNat_natCast, firstDecided_spec xs e (by omega) hodd hb pos lt, loudnessBound_eq n e he,
    meanOf_eq, le_div_iff₀ hc, mul_assoc, mul_le_mul_iff_right₀ binUnit_pos, mul_comm]

/-- Halving finds where a property that falls from true to false still holds. -/
theorem largestBelow_spec (p : Int → Bool) : ∀ (k : Nat) (lo hi : Int), p lo = true → p hi = false → lo < hi →
    hi - lo ≤ 2 ^ k → p (largestBelow p k lo hi) = true ∧ p (largestBelow p k lo hi + 1) = false ∧
      lo ≤ largestBelow p k lo hi ∧ largestBelow p k lo hi < hi
  | 0, lo, hi, h, g, lt, le => by
    have : hi = lo + 1 := by simp at le; omega
    subst this
    exact ⟨h, g, Int.le_refl _, lt⟩
  | k + 1, lo, hi, h, g, lt, le => by
    unfold largestBelow
    split
    · have : hi = lo + 1 := by omega
      subst this
      exact ⟨h, g, Int.le_refl _, lt⟩
    · rename_i far
      rw [pow_succ] at le
      dsimp only
      split
      · rename_i mid
        obtain ⟨a, b, c, d⟩ := largestBelow_spec p k ((lo + hi) / 2) hi mid g (by omega) (by omega)
        exact ⟨a, b, by omega, d⟩
      · rename_i mid
        obtain ⟨a, b, c, d⟩ := largestBelow_spec p k lo ((lo + hi) / 2) h (by simpa using mid) (by omega) (by omega)
        exact ⟨a, b, c, by omega⟩

/-- Every bin's power lies from -70.0 to +20.0, so the mean does. -/
theorem meanOf_range (xs : List (Nat × Nat)) (hb : ∀ x ∈ xs, x.1 ≤ 900) (pos : 0 < countSum xs) :
    loudnessBound (-700) ≤ meanOf xs ∧ meanOf xs < loudnessBound 201 := by
  have hc : (0 : ℝ) < countSum xs := by exact_mod_cast pos
  have lowest (b : Nat) : loudnessBound (-700) ≤ binPower b := by
    unfold loudnessBound binPower
    refine Real.rpow_le_rpow_of_exponent_le (by norm_num) ?_
    have : (0 : ℝ) ≤ b := Nat.cast_nonneg _
    push_cast
    linarith
  have highest : binPower 900 < loudnessBound 201 := by
    unfold loudnessBound binPower
    exact Real.rpow_lt_rpow_of_exponent_lt (by norm_num) (by norm_num)
  have below (b : Nat) (h : b ≤ 900) : binPower b ≤ binPower 900 := by
    unfold binPower
    refine Real.rpow_le_rpow_of_exponent_le (by norm_num) ?_
    have : (b : ℝ) ≤ 900 := by exact_mod_cast h
    push_cast
    linarith
  have sums : ∀ ys : List (Nat × Nat), (∀ x ∈ ys, x.1 ≤ 900) →
      countSum ys * loudnessBound (-700) ≤ (ys.map (fun x => (x.2 : ℝ) * binPower x.1)).sum ∧
      (ys.map (fun x => (x.2 : ℝ) * binPower x.1)).sum ≤ countSum ys * binPower 900 := by
    intro ys hy
    induction ys with
    | nil => simp [countSum]
    | cons y ys ih =>
      obtain ⟨a, b⟩ := ih fun x hx => hy x (List.mem_cons_of_mem _ hx)
      have n0 : (0 : ℝ) ≤ y.2 := Nat.cast_nonneg _
      have c := mul_le_mul_of_nonneg_left (lowest y.1) n0
      have d := mul_le_mul_of_nonneg_left (below y.1 (hy y (List.mem_cons_self ..))) n0
      simp only [countSum, List.map_cons, List.sum_cons, Nat.cast_add, add_mul] at a b ⊢
      exact ⟨add_le_add c a, add_le_add d b⟩
  obtain ⟨a, b⟩ := sums xs hb
  unfold meanOf
  refine ⟨(le_div_iff₀ hc).2 (by linarith), lt_of_le_of_lt ((div_le_iff₀ hc).2 (by linarith)) highest⟩

/-- The reported mean of bins is the manual's reported tenth of their mean power, and no clamp acts (R52, R53). -/
theorem reportedMean_spec (xs : List (Nat × Nat)) (hb : ∀ x ∈ xs, x.1 ≤ 900) (pos : 0 < countSum xs)
    (lt : countSum xs < 2 ^ 32) :
    reportsAs (meanOf xs) (reportedMean xs) ∧ -700 ≤ reportedMean xs ∧ reportedMean xs ≤ 200 := by
  obtain ⟨lowest, highest⟩ := meanOf_range xs hb pos
  have iff (n : Int) (low : -700 < n) (high : n ≤ 201) := meanReaches_iff xs n low high hb pos lt
  have bottom : meanReaches xs (-700) = true := by simp [meanReaches]
  unfold reportedMean reportedBetween
  rw [bottom]
  simp only [Bool.not_true, Bool.false_eq_true, if_false]
  split
  · rename_i top
    exact ⟨⟨(iff 200 (by norm_num) (by norm_num)).1 top, highest⟩, by norm_num, le_refl _⟩
  · rename_i top
    have top : meanReaches xs 200 = false := by simpa using top
    obtain ⟨a, b, c, d⟩ := largestBelow_spec (meanReaches xs) 11 (-700) 200 bottom top (by norm_num) (by norm_num)
    generalize largestBelow (meanReaches xs) 11 (-700) 200 = v at a b c d
    refine ⟨⟨?_, ?_⟩, c, d.le⟩
    · rcases Int.lt_or_eq_of_le c with h | h
      · exact (iff v h (by omega)).1 a
      · rw [← h]
        exact lowest
    · have := mt (iff (v + 1) (by omega) (by omega)).2 (by simp [b])
      exact not_le.1 this

end Sys2Proof.Laws
end

