-- ==== Sys2Proof/Laws/Kept.lean ====
section
/-! SUPPORT. What archiving, findings, holds and allocation leave as it was: one relation, closed under composition, and
one theorem for each shared operation. A proof about a command cites these and never unfolds the operations. -/

namespace Sys2Proof.Laws

open Sys2Proof.Machine

/-- A Lane Intake Unit but for what hold-off drives. -/
def liuCore (x : Liu) : Liu :=
  { x with holdOff := false, resend := none, counters := { x.counters with holdsSent := 0 } }

/-- `t` differs from `s` at most in the archive's side of the part: page buffers, allocation, extents, waiting erases,
holds and their copies, findings and statuses, alarm lines, notices, hold-off, what was emitted, and the model's own
counters. -/
structure Kept (s t : State) : Prop where
  pending : t.pending = s.pending
  clock : t.clock = s.clock
  station : t.station = s.station
  le : t.le = s.le
  cc : t.cc = s.cc
  st : t.st = s.st
  verdicts : t.verdicts = s.verdicts
  settings : t.settings = s.settings
  scan : t.scan = s.scan
  format : t.format = s.format
  slots : t.slots = s.slots
  exportLink : t.exportLink = s.exportLink
  warm : t.warm = s.warm
  link : t.link = s.link
  saveInFlight : t.saveInFlight = s.saveInFlight
  mode : t.alarm.mode = s.alarm.mode
  configTimer : t.alarm.configTimer = s.alarm.configTimer
  inForce : t.alarm.inForce = s.alarm.inForce
  liu : ∀ l : LaneNo, liuCore t.liu[l] = liuCore s.liu[l]
  quiet : ∀ l : LaneNo, s.laneEnabled l = false → t.liu[l] = s.liu[l]
  store : { t.store with erases := s.store.erases } = s.store
  appendPage : t.sys.appendPage = s.sys.appendPage
  generation : t.sys.generation = s.sys.generation
  saved : t.sys.saved = s.sys.saved
  emitted : s.emitted <+: t.emitted

theorem Kept.refl (s : State) : Kept s s := by
  constructor <;> first | rfl | (intro l; rfl) | (intro l _; rfl)

/-- A lane takes cells after as before. -/
theorem Kept.laneEnabled {s t : State} (h : Kept s t) (l : LaneNo) : t.laneEnabled l = s.laneEnabled l := by
  unfold State.laneEnabled State.settingsKnown State.laneSettings
  rw [h.scan, h.settings]

theorem Kept.trans {s t u : State} (a : Kept s t) (b : Kept t u) : Kept s u where
  pending := b.pending.trans a.pending
  clock := b.clock.trans a.clock
  station := b.station.trans a.station
  le := b.le.trans a.le
  cc := b.cc.trans a.cc
  st := b.st.trans a.st
  verdicts := b.verdicts.trans a.verdicts
  settings := b.settings.trans a.settings
  scan := b.scan.trans a.scan
  format := b.format.trans a.format
  slots := b.slots.trans a.slots
  exportLink := b.exportLink.trans a.exportLink
  warm := b.warm.trans a.warm
  link := b.link.trans a.link
  saveInFlight := b.saveInFlight.trans a.saveInFlight
  mode := b.mode.trans a.mode
  configTimer := b.configTimer.trans a.configTimer
  inForce := b.inForce.trans a.inForce
  liu := fun l => (b.liu l).trans (a.liu l)
  quiet := fun l hl => (b.quiet l ((a.laneEnabled l).trans hl)).trans (a.quiet l hl)
  store := by
    have h1 := a.store
    have h2 := b.store
    rw [← h1, ← h2]
  appendPage := b.appendPage.trans a.appendPage
  generation := b.generation.trans a.generation
  saved := b.saved.trans a.saved
  emitted := a.emitted.trans b.emitted

/-- A fold of operations that each keep, keeps. -/
theorem Kept.foldl {α : Type} (f : State → α → State) (h : ∀ s x, Kept s (f s x)) :
    ∀ (xs : List α) (s : State), Kept s (xs.foldl f s)
  | [], s => Kept.refl s
  | x :: xs, s => (h s x).trans (Kept.foldl f h xs (f s x))

/-- A Lane Intake Unit that replaces another of the same core. -/
theorem liuCore_set (s : State) (l : LaneNo) (x : Liu) (h : liuCore x = liuCore s.liu[l]) (k : LaneNo) :
    liuCore (s.liu.set l x)[k] = liuCore s.liu[k] := by
  by_cases e : l.val = k.val
  · have : l = k := Fin.ext e
    subst this
    simpa using h
  · have : (s.liu.set l x)[k] = s.liu[k] := by
      simpa using Vector.getElem_set_ne (xs := s.liu) (hi := l.isLt) (hj := k.isLt) e
    rw [this]

/-! ### Hold-off and records -/

/-- Hold-off of a lane that takes cells changes, and what goes with it is sent. -/
theorem kept_hold (l : LaneNo) (x : Liu) (e : List Emission) (s : State) (he : s.laneEnabled l = true)
    (h : liuCore x = liuCore s.liu[l]) (hp : s.emitted <+: e) :
    Kept s { s with liu := s.liu.set l x, emitted := e } := by
  constructor <;> first | rfl | skip
  · exact fun k => liuCore_set s l x h k
  · intro k hk
    by_cases e : l.val = k.val
    · have : l = k := Fin.ext e
      subst this
      rw [he] at hk
      exact absurd hk (by decide)
    · simpa using Vector.getElem_set_ne (xs := s.liu) (hi := l.isLt) (hj := k.isLt) e
  · exact hp

theorem kept_modAc (l : LaneNo) (f : AcLane → AcLane) (s : State) : Kept s (s.modAc l f) := by
  constructor <;> first | rfl | (intro l; rfl) | (intro l _; rfl)

theorem kept_modCm (l : LaneNo) (f : CmLane → CmLane) (s : State) : Kept s (s.modCm l f) := by
  constructor <;> first | rfl | (intro l; rfl) | (intro l _; rfl)

theorem kept_holdOffOn (l : LaneNo) (s : State) (h : s.laneEnabled l = true) : Kept s (s.holdOffOn l) := by
  have e : s.holdOffOn l = { s with
      liu := s.liu.set l { s.liu[l] with holdOff := true, resend := some (s.clock + 100)
                                         counters := { s.liu[l].counters with
                                           holdsSent := s.liu[l].counters.holdsSent + 1 } }
      emitted := s.emitted ++ [.laneCell l (holdCell l 20)] } := by
    simp [State.holdOffOn, State.sendHold, State.modLiu, State.setLiu, State.emit]
  rw [e]
  exact kept_hold l _ _ s h rfl (List.prefix_append _ _)

theorem kept_holdOffOff (l : LaneNo) (s : State) (h : s.laneEnabled l = true) : Kept s (s.holdOffOff l) := by
  have e : s.holdOffOff l = { s with
      liu := s.liu.set l { s.liu[l] with holdOff := false, resend := none
                                         counters := { s.liu[l].counters with
                                           holdsSent := s.liu[l].counters.holdsSent + 1 } }
      emitted := s.emitted ++ [.laneCell l (holdCell l 0)] } := by
    simp [State.holdOffOff, State.sendHold, State.modLiu, State.setLiu, State.emit]
  rw [e]
  exact kept_hold l _ _ s h rfl (List.prefix_append _ _)

theorem kept_reportBuffers (l : LaneNo) (s : State) : Kept s (s.reportBuffers l) := by
  unfold State.reportBuffers
  split
  · exact Kept.refl s
  · rename_i h
    have he : s.laneEnabled l = true := by
      cases hb : s.laneEnabled l
      · simp [hb] at h
      · rfl
    split
    · split
      · exact Kept.refl s
      · exact kept_holdOffOn l s he
    · split
      · exact kept_holdOffOff l s he
      · exact Kept.refl s

theorem kept_takeStamp (s : State) : Kept s s.takeStamp.2 := by
  constructor <;> first | rfl | (intro l; rfl) | (intro l _; rfl)

/-- Everything archiving a record can do outside the archive's side: nothing. -/
theorem kept_archive (l : LaneNo) (kind : Byte) (time : Time) (content : List Byte) (s : State) :
    Kept s (s.archive l kind time content) := by
  unfold State.archive
  split
  · exact Kept.refl s
  · split
    · exact kept_modAc l _ s
    · exact ((kept_takeStamp s).trans (kept_modAc l _ _)).trans (kept_reportBuffers l _)

/-! ### Holds -/

theorem queueHolds_kept (t : HoldTable) (x : SysExtent) :
    (x.queueHolds t).appendPage = x.appendPage ∧ (x.queueHolds t).generation = x.generation ∧
      (x.queueHolds t).saved = x.saved := by
  unfold SysExtent.queueHolds
  split
  · exact ⟨rfl, rfl, rfl⟩
  · exact ⟨rfl, rfl, rfl⟩

theorem kept_changeHolds (t : HoldTable) (s : State) : Kept s (s.changeHolds t) := by
  have h := queueHolds_kept t s.sys
  constructor <;> first | rfl | (intro l; rfl) | (intro l _; rfl) | exact h.1 | exact h.2.1 | exact h.2.2

theorem kept_attemptDue (b : Bool) (s : State) : Kept s { s with attemptDue := b } := by
  constructor <;> first | rfl | (intro l; rfl) | (intro l _; rfl)

theorem kept_setHoldEnd (id finding stop : Nat) (s : State) : Kept s (s.setHoldEnd id finding stop) := by
  unfold State.setHoldEnd
  split
  · exact (kept_changeHolds _ s).trans (kept_attemptDue true _)
  · exact Kept.refl s

theorem kept_releaseHold (id : Nat) (s : State) : Kept s (s.releaseHold id) :=
  (kept_changeHolds _ s).trans (kept_attemptDue true _)

theorem kept_closeOpenEnds (which : Hold → Bool) (s : State) : Kept s (s.closeOpenEnds which) := by
  unfold State.closeOpenEnds
  dsimp only
  split
  · exact Kept.refl s
  · exact kept_changeHolds _ s

/-! ### Findings -/

theorem kept_notices (n : Notices) (s : State) : Kept s { s with notices := n } := by
  constructor <;> first | rfl | (intro l; rfl) | (intro l _; rfl)

theorem kept_dev (d : CmDevice) (s : State) : Kept s { s with dev := d } := by
  constructor <;> first | rfl | (intro l; rfl) | (intro l _; rfl)

theorem kept_raiseFinding (lane : Option LaneNo) (s : State) : Kept s (s.raiseFinding lane) := by
  unfold State.raiseFinding
  split <;> exact kept_notices _ s

theorem pairedChange_kept (clock : Nat) (old new : Status) (a : Alarm) :
    (a.pairedChange clock old new).mode = a.mode ∧ (a.pairedChange clock old new).configTimer = a.configTimer ∧
      (a.pairedChange clock old new).inForce = a.inForce := by
  unfold Alarm.pairedChange
  split
  · exact ⟨rfl, rfl, rfl⟩
  · split
    · exact ⟨rfl, rfl, rfl⟩
    · split
      · unfold Alarm.startPaired
        split <;> exact ⟨rfl, rfl, rfl⟩
      · exact ⟨rfl, rfl, rfl⟩

theorem kept_driveLines (s : State) : Kept s s.driveLines := by
  unfold State.driveLines
  have h := pairedChange_kept s.clock s.alarm.overall s.overallOf { s.alarm with overall := s.overallOf }
  dsimp only
  repeat' split
  all_goals
    constructor <;> first
      | rfl | (intro l; rfl) | (intro l _; rfl) | exact h.1 | exact h.2.1 | exact h.2.2

theorem kept_reassess (s : State) : Kept s s.reassess := by
  refine Kept.trans ?_ (kept_driveLines _)
  constructor <;> first | rfl | (intro l; rfl) | (intro l _; rfl)

theorem kept_announce (f : Finding) (time : Time) (s : State) : Kept s (s.announce f time) := by
  unfold State.announce
  dsimp only
  refine Kept.trans ?_ (kept_reassess _)
  refine Kept.trans ?_ (kept_raiseFinding _ _)
  split
  · exact kept_archive _ _ _ _ s
  · exact Kept.refl s

theorem kept_enterFinding (f : Finding) (s : State) : Kept s (s.enterFinding f) := by
  unfold State.enterFinding
  split
  · exact kept_dev _ s
  · exact kept_notices _ s

theorem kept_holdFor (ask : Option HoldAsk) (f : Finding) (s : State) : Kept s (s.holdFor ask f).2 := by
  unfold State.holdFor
  split
  · split
    · exact Kept.refl s
    · exact kept_changeHolds _ s
  · exact Kept.refl s

/-- Everything the creation of a finding can do outside the archive's side: nothing. -/
theorem kept_createFinding (d : Draft) (ask : Option HoldAsk) (s : State) : Kept s (s.createFinding d ask).2 := by
  unfold State.createFinding
  dsimp only
  refine Kept.trans ?_ (kept_announce _ _ _)
  refine Kept.trans ?_ (kept_enterFinding _ _)
  refine Kept.trans ?_ (kept_holdFor _ _ _)
  exact kept_dev _ s

theorem kept_changeFinding (f : Finding) (time : Time) (s : State) : Kept s (s.changeFinding f time) := by
  unfold State.changeFinding
  dsimp only
  refine Kept.trans ?_ (kept_announce _ _ _)
  split
  · exact kept_dev _ s
  · exact kept_notices _ s

theorem kept_refreshFinding (f : Finding) (s : State) : Kept s (s.refreshFinding f) := by
  unfold State.refreshFinding
  split
  · exact kept_dev _ s
  · exact Kept.refl s

theorem kept_activateFinding (time : Time) (ask : Option HoldAsk) (f : Finding) (s : State) :
    Kept s (s.activateFinding time ask f).2 :=
  (kept_holdFor ask _ s).trans (kept_changeFinding _ _ _)

theorem kept_endHoldOf (f : Finding) (time : Time) (postRoll : Nat) (s : State) :
    Kept s (s.endHoldOf f time postRoll) := by
  unfold State.endHoldOf
  split
  · exact kept_setHoldEnd _ _ _ s
  · exact Kept.refl s

theorem kept_settleFinding (time : Time) (postRoll : Nat) (f : Finding) (s : State) :
    Kept s (s.settleFinding time postRoll f) := by
  unfold State.settleFinding
  split
  · exact kept_changeFinding _ _ s
  · exact (kept_endHoldOf _ _ _ s).trans (kept_changeFinding _ _ _)
  · exact Kept.refl s
  · exact Kept.refl s

theorem kept_settleOpen (time : Time) (postRoll : Nat) (f : Option Finding) (s : State) :
    Kept s (s.settleOpen time postRoll f) := by
  unfold State.settleOpen
  split
  · exact kept_settleFinding _ _ _ s
  · exact Kept.refl s

theorem kept_acknowledge (which : Finding → Bool) (s : State) : Kept s (s.acknowledge which) :=
  (kept_dev _ s).trans (kept_reassess _)

/-! ### Carriage conditions and the archive's reports -/

theorem kept_openLaneCondition (l : LaneNo) (w : LaneCondition) (s : State) : Kept s (s.openLaneCondition l w) := by
  unfold State.openLaneCondition
  split
  · exact Kept.refl s
  · exact (kept_createFinding _ _ s).trans (kept_modCm l _ _)

theorem kept_settleLaneCondition (l : LaneNo) (w : LaneCondition) (s : State) :
    Kept s (s.settleLaneCondition l w) :=
  (kept_modCm l _ s).trans (kept_settleOpen _ _ _ _)

theorem kept_settleLaneConditions (l : LaneNo) (s : State) : Kept s (s.settleLaneConditions l) :=
  (kept_settleLaneCondition l .lost s).trans (kept_settleLaneCondition l .drift _)

theorem kept_cmCarriage (l : LaneNo) (new : Carriage) (s : State) : Kept s (s.cmCarriage l new) := by
  unfold State.cmCarriage
  split
  · exact kept_openLaneCondition l _ s
  · exact kept_openLaneCondition l _ s
  · exact kept_settleLaneConditions l s
  · exact kept_settleLaneConditions l s
  · exact Kept.refl s

theorem kept_graceExpired (l : LaneNo) (w : LaneCondition) (s : State) : Kept s (s.graceExpired l w) := by
  unfold State.graceExpired
  split
  · exact kept_modCm l _ s
  · exact (kept_activateFinding _ _ _ s).trans (kept_modCm l _ _)

theorem kept_openStalled (l : LaneNo) (s : State) : Kept s (s.openStalled l) := by
  unfold State.openStalled
  split
  · exact Kept.refl s
  · exact (kept_createFinding _ _ s).trans (kept_modCm l _ _)

theorem kept_endStalled (l : LaneNo) (s : State) : Kept s (s.endStalled l) :=
  (kept_modCm l _ s).trans (kept_settleOpen _ _ _ _)

theorem kept_openShort (l : LaneNo) (s : State) : Kept s (s.openShort l) := by
  unfold State.openShort
  split
  · exact Kept.refl s
  · exact (kept_createFinding _ _ s).trans (kept_modCm l _ _)

theorem kept_endShort (l : LaneNo) (s : State) : Kept s (s.endShort l) :=
  (kept_modCm l _ s).trans (kept_settleOpen _ _ _ _)

theorem kept_openStoreLost (s : State) : Kept s s.openStoreLost := by
  unfold State.openStoreLost
  split
  · exact Kept.refl s
  · dsimp only
    exact (kept_createFinding _ _ s).trans (kept_dev _ _)

theorem kept_endStoreLost (s : State) : Kept s s.endStoreLost :=
  (kept_dev _ s).trans (kept_settleOpen _ _ _ _)

theorem kept_storeFault (lane : Option LaneNo) (s : State) : Kept s (s.storeFault lane) := kept_createFinding _ _ s

theorem kept_configTimeoutFinding (s : State) : Kept s s.configTimeoutFinding := kept_createFinding _ _ s

theorem kept_settingsDefaultedFinding (s : State) : Kept s s.settingsDefaultedFinding := kept_createFinding _ _ s

theorem kept_lateMarkFinding (l : LaneNo) (segId effTile lastOpened : Nat) (s : State) :
    Kept s (s.lateMarkFinding l segId effTile lastOpened) := kept_createFinding _ _ s

theorem kept_markOverflowFinding (l : LaneNo) (segId : Nat) (s : State) :
    Kept s (s.markOverflowFinding l segId) := kept_createFinding _ _ s

/-! ### Allocation -/

theorem kept_modExtent (n : Nat) (f : Extent → Extent) (s : State) : Kept s (s.modExtent n f) := by
  constructor <;> first | rfl | (intro l; rfl) | (intro l _; rfl)

theorem kept_syncRetry (s : State) : Kept s s.syncRetry := by
  unfold State.syncRetry
  repeat' split
  all_goals constructor <;> first | rfl | (intro l; rfl) | (intro l _; rfl)

theorem kept_setAlloc (l : LaneNo) (x : AllocState) (s : State) : Kept s (s.setAlloc l x) :=
  (kept_modAc l _ s).trans (kept_syncRetry _)

theorem kept_advanceFree (s : State) : Kept s s.advanceFree := by
  constructor <;> first | rfl | (intro l; rfl) | (intro l _; rfl)

theorem kept_inEitherOrder (f g : State → State) (hf : ∀ s, Kept s (f s)) (hg : ∀ s, Kept s (g s)) (s : State) :
    Kept s (inEitherOrder f g s) := by
  unfold inEitherOrder
  split
  · exact ((kept_advanceFree s).trans (hf _)).trans (hg _)
  · exact ((kept_advanceFree s).trans (hg _)).trans (hf _)

theorem kept_draw {α : Type} (xs : List α) (s : State) : Kept s (s.draw xs).2 := by
  unfold State.draw
  split
  · exact Kept.refl s
  · exact Kept.refl s
  · constructor <;> first | rfl | (intro l; rfl) | (intro l _; rfl)

theorem kept_reportChoice (l : LaneNo) (short : Bool) (s : State) : Kept s (s.reportChoice l short) := by
  unfold State.reportChoice
  dsimp only
  refine Kept.trans (kept_modAc l (fun a => { a with stalled := false, short := short }) s) ?_
  have h : ∀ t : State, Kept t ((fun t : State =>
      if (short && !s.ac[l].short) = true then t.openShort l
      else if (!short && s.ac[l].short) = true then t.endShort l else t) t) := by
    intro t
    dsimp only
    split
    · exact kept_openShort l t
    · split
      · exact kept_endShort l t
      · exact Kept.refl t
  split
  · exact kept_inEitherOrder _ _ (kept_endStalled l) h _
  · split
    · exact kept_endStalled l _
    · exact h _

theorem kept_erases (xs : List EraseWait) (s : State) : Kept s { s with store := { s.store with erases := xs } } := by
  constructor <;> first | rfl | (intro l; rfl) | (intro l _; rfl)

theorem kept_takeChoice (l : LaneNo) (x : Extent) (short : Bool) (s : State) : Kept s (s.takeChoice l x short) :=
  (((kept_modExtent _ _ s).trans (kept_erases _ _)).trans (kept_setAlloc l _ _)).trans (kept_reportChoice l short _)

theorem kept_noCandidate (l : LaneNo) (s : State) : Kept s (s.noCandidate l) := by
  unfold State.noCandidate
  split
  · exact (kept_modAc l _ s).trans (kept_setAlloc l _ _)
  · split
    · exact Kept.refl s
    · exact (kept_modAc l _ s).trans (kept_openStalled l _)

theorem kept_attempt (l : LaneNo) (s : State) : Kept s (s.attempt l) := by
  unfold State.attempt
  split
  · dsimp only
    refine Kept.trans (Kept.foldl (fun (t : State) n => t.modExtent n (Extent.cleared .retired))
      (fun t n => kept_modExtent n _ t) (choose s.protects ((s.candidates l).length + 1) (s.candidates l) []).2 s) ?_
    split
    · exact kept_takeChoice l _ _ _
    · exact kept_takeChoice l _ _ _
    · exact kept_noCandidate l _
  · exact Kept.refl s

/-- Attempts for some lanes in a free order, and then a further round. -/
theorem kept_round (n : Nat) (ih : ∀ s : State, Kept s (s.allocateN n)) (due : List LaneNo) (s : State) :
    Kept s (if due.isEmpty = true then s
      else State.allocateN n ((s.draw due).1.foldl (fun t l => t.attempt l) (s.draw due).2)) := by
  split
  · exact Kept.refl s
  · exact ((kept_draw due s).trans (Kept.foldl (fun (t : State) l => t.attempt l)
      (fun t l => kept_attempt l t) _ _)).trans (ih _)

theorem kept_allocateN : ∀ (n : Nat) (s : State), Kept s (s.allocateN n)
  | 0, s => Kept.refl s
  | n + 1, s =>
    ((Kept.foldl (fun (t : State) l => t.setAlloc l .wanted) (fun t l => kept_setAlloc l _ t)
      (allLanes.filter s.needsExtent) s).trans (kept_attemptDue false _)).trans
      (kept_round n (kept_allocateN n) _ _)

/-- Everything the boundary of an event can do outside the archive's side: nothing. -/
theorem kept_allocate (s : State) : Kept s s.allocate := kept_allocateN 20 s

theorem kept_offerSeal (l : LaneNo) (x : Extent) (s : State) : Kept s (s.offerSeal l x) := by
  unfold State.offerSeal
  exact (kept_takeStamp s).trans (kept_modAc l _ _)

theorem kept_leaveExtent (l : LaneNo) (s : State) : Kept s (s.leaveExtent l) := by
  unfold State.leaveExtent
  split
  · exact Kept.refl s
  · exact kept_setAlloc l _ s

theorem kept_sealExtent (l : LaneNo) (ext : Nat) (s : State) : Kept s (s.sealExtent l ext) := by
  unfold State.sealExtent
  dsimp only
  refine Kept.trans ?_ (kept_leaveExtent l _)
  split
  · split
    · exact kept_modExtent _ _ s
    · exact (kept_modExtent _ _ s).trans (kept_offerSeal l _ _)
  · exact Kept.refl s

end Sys2Proof.Laws
end

