-- ==== Sys2Proof/Laws/Loudness.lean ====
section
/-! SUPPORT. What a cell and the closing of tiles make of a Loudness Engine, said once: the record that a close builds, the
history and windows along several closes, and the samples, filters and energies of a cell. A proof about a tile or a cell
cites these and never unfolds the operations. -/

namespace Sys2Proof.Laws

open Sys2Proof.Machine

/-! ### Closing tiles (R28 to R38) -/

theorem power_eq (a : TileAcc) : a.power = closingPower a := by
  unfold TileAcc.power closingPower
  push_cast
  rfl

theorem newestEntries_append (n m : Nat) (h xs : List TileEntry) (le : n ≤ m) :
    newestEntries n (newestEntries m h ++ xs) = newestEntries n (h ++ xs) := by
  unfold newestEntries
  rw [List.drop_append, List.drop_append, List.drop_drop, List.length_append, List.length_append, List.length_drop]
  by_cases hm : h.length ≤ m
  · have : h.length - m = 0 := by omega
    simp only [this, Nat.sub_zero]
    congr 2
    omega
  · congr 2 <;> omega

/-- A history keeps what its entries with one more would keep (R32). -/
theorem newest30_append (h xs : List TileEntry) : newest30 (newest30 h ++ xs) = newest30 (h ++ xs) :=
  newestEntries_append 30 30 h xs (Nat.le_refl _)

theorem foldl_add_eq_sum (ps : List Rat) (a : Rat) : ps.foldl (· + ·) a = a + ps.sum := by
  induction ps generalizing a with
  | nil => simp
  | cons p ps ih => rw [List.foldl_cons, ih, List.sum_cons]; ring

theorem meanPower_eq (ps : List Rat) : meanPower ps = ps.sum / (ps.length : Nat) := by
  unfold meanPower
  rw [foldl_add_eq_sum, zero_add]

/-- The momentary value that a close computes is that of R33. -/
theorem momentaryIs_after (h : List TileEntry) (old : Windowed) :
    momentaryIs h old (momentaryAfter (newest30 h) old) := by
  have four : newestEntries 4 (newest30 h) = h.drop (h.length - 4) := by
    have := newestEntries_append 4 30 h [] (by decide)
    simpa [newest30, newestEntries] using this
  unfold momentaryIs momentaryAfter
  rw [four]
  generalize hl : h.drop (h.length - 4) = l
  have len : l.length ≤ 4 := by rw [← hl, List.length_drop]; omega
  constructor
  · intro p q u v hp
    obtain ⟨a, b, c, d, rfl⟩ : ∃ a b c d, l = [a, b, c, d] := by
      have : l.length = 4 := by simpa using congrArg List.length hp
      match l, this with
      | [a, b, c, d], _ => exact ⟨a, b, c, d, rfl⟩
    simp only [List.map_cons, List.map_nil, List.cons.injEq, and_true] at hp
    obtain ⟨ha, hb, hc, hd⟩ := hp
    simp [ha, hb, hc, hd, meanPower]
  · intro h
    have : ¬ (l.length = 4 ∧ (l.filterMap TileEntry.power).length = 4) := by
      rintro ⟨h4, hp⟩
      rcases h with h | h
      · simp [h4] at h
      · have := List.filterMap_length_eq_length.1 (hp.trans h4.symm)
        obtain ⟨x, hx, hn⟩ := List.mem_map.1 h
        have := this x hx
        simp [hn] at this
    simp only [this, if_false]

/-- The short-term value that a close computes is that of R34. -/
theorem shortTermIs_after (h : List TileEntry) (old : Windowed) :
    shortTermIs h old (shortTermAfter (newest30 h) old) := by
  have thirty : newestEntries 30 (newest30 h) = newest30 h := by
    have := newest30_append h []
    simpa [newest30, newestEntries] using this
  unfold shortTermIs shortTermAfter
  rw [thirty]
  constructor
  · intro h20
    simp only [h20, if_true, meanPower_eq]
  · intro h20
    simp only [Nat.not_le.2 h20, if_false]

/-- Closing a tile: the record it builds, and the engine after it (R28 to R38). -/
theorem closeTile_spec (silence : Int) (now : Time) (alive : Bool) (segId : Option Nat) (a : TileAcc) (e : LeLane) :
    let r := (e.closeTile silence now alive segId a).1
    r.measures silence e a ∧ r.closeTime = now ∧ r.alive = alive ∧ r.segId = segId ∧
    (e.closeTile silence now alive segId a).2 = { e with
      acc := none
      history := newest30 (e.history ++ [⟨a.tile, closingPower a⟩])
      momentary := r.momentary
      shortTerm := r.shortTerm
      newest := some r } := by
  have hp := power_eq a
  refine ⟨?_, rfl, rfl, rfl, ?_⟩
  · constructor <;> simp only [LeLane.closeTile, hp]
    · simp [TileRecord.void, closingPower]
    · cases closingPower a <;> simp
    · exact momentaryIs_after _ _
    · exact shortTermIs_after _ _
  · simp only [LeLane.closeTile, hp]
    rfl

theorem momentaryIs_newest30 (h : List TileEntry) (x : TileEntry) (old new : Windowed) :
    momentaryIs (newest30 h ++ [x]) old new ↔ momentaryIs (h ++ [x]) old new := by
  have := newestEntries_append 4 30 h [x] (by decide)
  unfold newestEntries at this
  unfold momentaryIs newest30
  rw [this]

theorem shortTermIs_newest30 (h : List TileEntry) (x : TileEntry) (old new : Windowed) :
    shortTermIs (newest30 h ++ [x]) old new ↔ shortTermIs (h ++ [x]) old new := by
  unfold shortTermIs
  rw [newest30_append]

/-- The windows look back over at most 30 tiles. -/
theorem windowsAlong_newest30 : ∀ (xs h : List TileEntry) (old new : Windowed × Windowed),
    windowsAlong (newest30 h) xs old new ↔ windowsAlong h xs old new
  | [], _, _, _ => Iff.rfl
  | x :: xs, h, old, new => by
    unfold windowsAlong
    have step (w : Windowed × Windowed) :
        windowsAlong (newest30 h ++ [x]) xs w new ↔ windowsAlong (h ++ [x]) xs w new := by
      rw [← windowsAlong_newest30 xs (newest30 h ++ [x]), newest30_append, windowsAlong_newest30 xs]
    simp only [momentaryIs_newest30, shortTermIs_newest30, step]

/-- The first of several closes and the rest behind it. -/
theorem closedAlong_cons (x : TileEntry) (xs : List TileEntry) (e f g : LeLane) (w : Windowed × Windowed)
    (history : f.history = newest30 (e.history ++ [x])) (momentary : momentaryIs (e.history ++ [x]) e.momentary w.1)
    (shortTerm : shortTermIs (e.history ++ [x]) e.shortTerm w.2) (kept : (f.momentary, f.shortTerm) = w)
    (rest : f.closedAlong xs g) : e.closedAlong (x :: xs) g := by
  obtain ⟨rh, rw_⟩ := rest
  rw [history] at rh rw_
  refine ⟨by rw [rh, newest30_append, List.append_assoc]; rfl, w, momentary, shortTerm, ?_⟩
  rw [← windowsAlong_newest30, ← kept]
  exact rw_

/-- A tile that closes stands in the history and the windows, before those that close behind it (R32 to R34). -/
theorem closedAlong_closeTile (silence : Int) (now : Time) (alive : Bool) (segId : Option Nat) (a : TileAcc)
    (xs : List TileEntry) (e f g : LeLane) (tracked : f.history = (e.closeTile silence now alive segId a).2.history)
    (momentary : f.momentary = (e.closeTile silence now alive segId a).2.momentary)
    (shortTerm : f.shortTerm = (e.closeTile silence now alive segId a).2.shortTerm) (rest : f.closedAlong xs g) :
    e.closedAlong (⟨a.tile, closingPower a⟩ :: xs) g := by
  obtain ⟨m, -, -, -, after⟩ := closeTile_spec silence now alive segId a e
  refine closedAlong_cons _ xs e f g (f.momentary, f.shortTerm) (by rw [tracked, after]) ?_ ?_ rfl rest
  · rw [momentary, after]
    exact m.momentary
  · rw [shortTerm, after]
    exact m.shortTerm

/-! ### A cell's samples (R22) -/

/-- The samples of a payload of whole samples, by their place (R22, R199). -/
theorem samples_eq : ∀ (n : Nat) (payload : List Byte), payload.length = 3 * n →
    samples payload = (List.range n).map (fun j => sampleAt payload 0 j 0)
  | 0, payload, h => by
    obtain rfl : payload = [] := by simpa using h
    rfl
  | n + 1, payload, h => by
    match payload, h with
    | a :: b :: c :: rest, h =>
      rw [List.range_succ_eq_map, List.map_cons, samples, List.map_map, samples_eq n rest (by simp at h; omega)]
      congr 1
      · have ha := a.isLt
        have hb := b.isLt
        have hc := c.isLt
        simp only [sampleAt, Nat.mul_zero, Nat.zero_add, List.getD_cons_zero, List.getD_cons_succ]
        have n : (a ++ b ++ c).toNat = a.toNat * 65536 + b.toNat * 256 + c.toNat := by
          rw [BitVec.toNat_append, BitVec.toNat_append, ← Nat.shiftLeft_add_eq_or_of_lt hb,
            ← Nat.shiftLeft_add_eq_or_of_lt hc, Nat.shiftLeft_eq, Nat.shiftLeft_eq]
          ring
        rw [BitVec.toInt_eq_toNat_cond, n]
        push_cast
        split <;> split <;> omega

theorem framesOf_map (f : Nat → Int) (n : Nat) : ∀ (k s : Nat),
    framesOf n k ((List.range' s (n * k)).map f)
      = (List.range k).map (fun j => (List.range n).map (fun i => f (s + n * j + i)))
  | 0, _ => rfl
  | k + 1, s => by
    have e : List.range' s (n * (k + 1)) = List.range' s n ++ List.range' (s + n) (n * k) := by
      rw [Nat.mul_succ, Nat.add_comm (n * k), List.range'_append_1]
    rw [framesOf, e, List.map_append, List.take_left' (by simp), List.drop_left' (by simp), framesOf_map f n k (s + n),
      List.range_succ_eq_map, List.map_cons, List.map_map]
    congr 1
    · rw [List.range'_eq_map_range, List.map_map]
      rfl
    · refine List.map_congr_left fun j _ => List.map_congr_left fun i _ => ?_
      congr 1
      simp only [Nat.succ_eq_add_one]
      ring

/-! ### A channel position over a cell (R23) -/

/-- The filter of a position before frame `n`, from its filter before the cell on. -/
def filterAt (f : PositionFilter) (raw : Nat → Int) : Nat → PositionFilter
  | 0 => f
  | n + 1 => ((filterAt f raw n).feed (raw n)).2

/-- The weighted signal of a position at frame `n`. -/
def weightedAt (f : PositionFilter) (raw : Nat → Int) (n : Nat) : Rat := ((filterAt f raw n).feed (raw n)).1

/-- A signal with the two values before the cell in front of it. -/
def behindTwo (old older : Rat) (y : Nat → Rat) : Nat → Rat
  | 0 => older
  | 1 => old
  | n + 2 => y n

/-- A position's weighted signal over a cell is that of R23. -/
theorem weighs_filterAt (f : PositionFilter) (raw : Nat → Int) :
    f.weighs (filterAt f raw 480) raw (behindTwo f.lowCut.y1 f.lowCut.y2 (weightedAt f raw)) := by
  let shelfOut (n : Nat) : Rat := sectionOutput highShelf (filterAt f raw n).shelf (normalised (raw n))
  let x := behindTwo f.shelf.u1 f.shelf.u2 (fun n => normalised (raw n))
  let v := behindTwo f.shelf.y1 f.shelf.y2 shelfOut
  let u := behindTwo f.lowCut.u1 f.lowCut.u2 shelfOut
  let y := behindTwo f.lowCut.y1 f.lowCut.y2 (weightedAt f raw)
  have inv (n : Nat) : filterAt f raw n = ⟨⟨x (n + 1), x n, v (n + 1), v n⟩, ⟨u (n + 1), u n, y (n + 1), y n⟩⟩ := by
    induction n with
    | zero => rfl
    | succ n ih =>
      have hx : x (n + 1 + 1) = normalised (raw n) := rfl
      have hv : v (n + 1 + 1) = sectionOutput highShelf (filterAt f raw n).shelf (normalised (raw n)) := rfl
      have hu : u (n + 1 + 1) = v (n + 1 + 1) := rfl
      have hy : y (n + 1 + 1) = sectionOutput lowCutFilter (filterAt f raw n).lowCut (v (n + 1 + 1)) := rfl
      rw [hy, hu, hv, hx, filterAt, PositionFilter.feed, ih]
      rfl
  refine ⟨x, v, u, fun n _ => ⟨rfl, rfl⟩, ⟨rfl, rfl, rfl, rfl, fun n _ => ?_, ?_⟩, ⟨rfl, rfl, rfl, rfl, fun n _ => ?_, ?_⟩⟩
  · have hv : v (n + 2) = sectionOutput highShelf (filterAt f raw n).shelf (x (n + 2)) := rfl
    rw [hv, inv n]
    simp only [sectionOutput, highShelf]
    norm_num
  · rw [inv 480]
  · have hy : y (n + 2) = sectionOutput lowCutFilter (filterAt f raw n).lowCut (u (n + 2)) := rfl
    show y (n + 2) = 1.0 * u (n + 2) + (-2.0) * u (n + 1) + 1.0 * u n - (-1.99004745) * y (n + 1) - 0.99007225 * y n
    rw [hy, inv n]
    simp only [sectionOutput, lowCutFilter]
    norm_num
  · rw [inv 480]

/-! ### The frames of a cell (R22, R27) -/

/-- The energy of a position's weighted signal. -/
theorem energyOf_weightedAt (f : PositionFilter) (raw : Nat → Int) (a b : Rat) :
    energyOf (behindTwo a b (weightedAt f raw)) = ∑ n ∈ Finset.range 480, weightedAt f raw n ^ 2 := rfl

theorem cell_mono (f : Filters) (c : Nat → Int) (N : Nat) :
    ((List.range N).map (fun n => [c n])).foldl (CellWork.frame [.c]) ⟨f, 0⟩
      = ⟨{ f with c := filterAt f.c c N }, ∑ n ∈ Finset.range N, weightedAt f.c c n ^ 2⟩ := by
  induction N with
  | zero => rfl
  | succ N ih =>
    rw [List.range_succ, List.map_append, List.foldl_append, ih, Finset.sum_range_succ]
    simp only [List.map_cons, List.map_nil, List.foldl_cons, List.foldl_nil, CellWork.frame, List.zip_cons_cons,
      List.zip_nil_left, Filters.get, Filters.put, Position.weight, filterAt, weightedAt]
    congr 1
    ring

theorem cell_stereo (f : Filters) (l r : Nat → Int) (N : Nat) :
    ((List.range N).map (fun n => [l n, r n])).foldl (CellWork.frame [.l, .r]) ⟨f, 0⟩
      = ⟨{ f with l := filterAt f.l l N, r := filterAt f.r r N },
        ∑ n ∈ Finset.range N, weightedAt f.l l n ^ 2 + ∑ n ∈ Finset.range N, weightedAt f.r r n ^ 2⟩ := by
  induction N with
  | zero => simp [filterAt]
  | succ N ih =>
    rw [List.range_succ, List.map_append, List.foldl_append, ih, Finset.sum_range_succ, Finset.sum_range_succ]
    simp only [List.map_cons, List.map_nil, List.foldl_cons, List.foldl_nil, CellWork.frame, List.zip_cons_cons,
      List.zip_nil_left, Filters.get, Filters.put, Position.weight, filterAt, weightedAt]
    congr 1
    ring

theorem cell_surround (f : Filters) (l r c lfe ls rs : Nat → Int) (N : Nat) :
    ((List.range N).map (fun n => [l n, r n, c n, lfe n, ls n, rs n])).foldl
        (CellWork.frame [.l, .r, .c, .lfe, .ls, .rs]) ⟨f, 0⟩
      = ⟨⟨filterAt f.c c N, filterAt f.l l N, filterAt f.r r N, filterAt f.lfe lfe N, filterAt f.ls ls N,
          filterAt f.rs rs N⟩,
        ∑ n ∈ Finset.range N, weightedAt f.l l n ^ 2 + ∑ n ∈ Finset.range N, weightedAt f.r r n ^ 2
          + ∑ n ∈ Finset.range N, weightedAt f.c c n ^ 2 + 1.41 * ∑ n ∈ Finset.range N, weightedAt f.ls ls n ^ 2
          + 1.41 * ∑ n ∈ Finset.range N, weightedAt f.rs rs n ^ 2⟩ := by
  induction N with
  | zero => simp [filterAt]
  | succ N ih =>
    rw [List.range_succ, List.map_append, List.foldl_append, ih]
    simp only [Finset.sum_range_succ, List.map_cons, List.map_nil, List.foldl_cons, List.foldl_nil, CellWork.frame,
      List.zip_cons_cons, List.zip_nil_left, Filters.get, Filters.put, Position.weight, filterAt, weightedAt]
    congr 1
    ring

end Sys2Proof.Laws
end

