-- ==== Sys2Proof/Laws/Owned.lean ====
section
/-! SUPPORT. Which findings the Compliance Monitor keeps: what the shared operations leave of them, and that every one kept
for a lane's conditions names that lane through the operations that open, settle and report findings, up to allocation. -/

namespace Sys2Proof.Laws

open Sys2Proof.Machine

/-- `t` keeps the findings that `s` keeps. -/
structure SameKept (s t : State) : Prop where
  lanes : ∀ l : LaneNo, t.cm[l].kept = s.cm[l].kept
  device : t.dev.storeLost = s.dev.storeLost

theorem SameKept.refl (s : State) : SameKept s s := ⟨fun _ => rfl, rfl⟩

theorem SameKept.trans {s t u : State} (a : SameKept s t) (b : SameKept t u) : SameKept s u :=
  ⟨fun l => (b.lanes l).trans (a.lanes l), b.device.trans a.device⟩

/-- What keeps the same findings keeps them with their owners. -/
theorem SameKept.owned {s t : State} (h : SameKept s t) (o : s.findingsOwned) : t.findingsOwned where
  lanes l f hf := o.lanes l f (h.lanes l ▸ hf)
  device f hf := o.device f (h.device ▸ hf)

/-! ### Operations that keep the same findings -/

theorem sameKept_reportBuffers (l : LaneNo) (s : State) : SameKept s (s.reportBuffers l) := by
  unfold State.reportBuffers
  repeat' split
  all_goals exact ⟨fun _ => rfl, rfl⟩

theorem sameKept_archive (l : LaneNo) (kind : Byte) (time : Time) (content : List Byte) (s : State) :
    SameKept s (s.archive l kind time content) := by
  unfold State.archive
  split
  · exact .refl s
  · split
    · exact ⟨fun _ => rfl, rfl⟩
    · rename_i t
      exact SameKept.trans (t := (s.takeStamp.2.modAc l (AcLane.take s.stamp ⟨kind, t, content⟩)))
        ⟨fun _ => rfl, rfl⟩ (sameKept_reportBuffers l _)

theorem sameKept_raiseFinding (lane : Option LaneNo) (s : State) : SameKept s (s.raiseFinding lane) := by
  unfold State.raiseFinding
  split <;> exact ⟨fun _ => rfl, rfl⟩

theorem sameKept_driveLines (s : State) : SameKept s s.driveLines := by
  unfold State.driveLines
  dsimp only
  repeat' split
  all_goals exact ⟨fun _ => rfl, rfl⟩

theorem sameKept_reassess (s : State) : SameKept s s.reassess := by
  refine SameKept.trans ⟨fun l => ?_, ?_⟩ (sameKept_driveLines _)
  · show ((Vector.ofFn fun l => { s.cm[l] with status := statusOf s.dev.log (some l) })[l]).kept = _
    simp [CmLane.kept]
  · rfl

theorem sameKept_announce (f : Finding) (time : Time) (s : State) : SameKept s (s.announce f time) := by
  unfold State.announce
  refine SameKept.trans ?_ (sameKept_reassess _)
  refine SameKept.trans ?_ (sameKept_raiseFinding _ _)
  split
  · exact sameKept_archive _ _ _ _ s
  · exact .refl s

theorem sameKept_enterFinding (f : Finding) (s : State) : SameKept s (s.enterFinding f) := by
  unfold State.enterFinding
  split <;> exact ⟨fun _ => rfl, rfl⟩

theorem sameKept_holdFor (ask : Option HoldAsk) (f : Finding) (s : State) : SameKept s (s.holdFor ask f).2 := by
  unfold State.holdFor
  split
  · split
    · exact .refl s
    · exact ⟨fun _ => rfl, rfl⟩
  · exact .refl s

theorem sameKept_createFinding (d : Draft) (ask : Option HoldAsk) (s : State) :
    SameKept s (s.createFinding d ask).2 := by
  unfold State.createFinding
  dsimp only
  refine SameKept.trans ?_ (sameKept_announce _ _ _)
  refine SameKept.trans ?_ (sameKept_enterFinding _ _)
  exact SameKept.trans (t := { s with dev := { s.dev with nextId := nextFindingId s.dev.nextId } })
    ⟨fun _ => rfl, rfl⟩ (sameKept_holdFor _ _ _)

theorem sameKept_changeFinding (f : Finding) (time : Time) (s : State) : SameKept s (s.changeFinding f time) := by
  unfold State.changeFinding
  dsimp only
  refine SameKept.trans ?_ (sameKept_announce _ _ _)
  split <;> exact ⟨fun _ => rfl, rfl⟩

theorem sameKept_refreshFinding (f : Finding) (s : State) : SameKept s (s.refreshFinding f) := by
  unfold State.refreshFinding
  split <;> exact ⟨fun _ => rfl, rfl⟩

theorem sameKept_activateFinding (time : Time) (ask : Option HoldAsk) (f : Finding) (s : State) :
    SameKept s (s.activateFinding time ask f).2 :=
  (sameKept_holdFor ask _ s).trans (sameKept_changeFinding _ _ _)

theorem sameKept_endHoldOf (f : Finding) (time : Time) (postRoll : Nat) (s : State) :
    SameKept s (s.endHoldOf f time postRoll) := by
  unfold State.endHoldOf
  split
  · unfold State.setHoldEnd
    split <;> exact ⟨fun _ => rfl, rfl⟩
  · exact .refl s

theorem sameKept_settleOpen (time : Time) (postRoll : Nat) (f : Option Finding) (s : State) :
    SameKept s (s.settleOpen time postRoll f) := by
  unfold State.settleOpen
  split
  · unfold State.settleFinding
    split
    · exact sameKept_changeFinding _ _ s
    · exact (sameKept_endHoldOf _ _ _ s).trans (sameKept_changeFinding _ _ _)
    · exact .refl s
    · exact .refl s
  · exact .refl s

/-! ### The lane a finding names -/

/-- Asking for a hold leaves the lane a finding names. -/
theorem holdFor_lane (ask : Option HoldAsk) (f : Finding) (s : State) : (s.holdFor ask f).1.lane = f.lane := by
  unfold State.holdFor
  repeat' split
  all_goals rfl

/-- A finding names the lane it was created for. -/
theorem createFinding_lane (d : Draft) (ask : Option HoldAsk) (s : State) :
    (s.createFinding d ask).1.lane = d.lane :=
  holdFor_lane _ _ _

theorem activateFinding_lane (time : Time) (ask : Option HoldAsk) (f : Finding) (s : State) :
    (s.activateFinding time ask f).1.lane = f.lane :=
  holdFor_lane _ _ _

/-! ### Changes of a lane's conditions -/

/-- A lane whose conditions keep only findings of its own may replace them. -/
theorem owned_modCm (l : LaneNo) (f : CmLane → CmLane) (s : State) (o : s.findingsOwned)
    (h : ∀ x ∈ (f s.cm[l]).kept, x.lane = some l) : (s.modCm l f).findingsOwned where
  lanes k x hx := by
    by_cases e : l = k
    · subst e
      have e : (s.modCm l f).cm[l] = f s.cm[l] := by simp [State.modCm, State.setCm]
      exact h x (e ▸ hx)
    · have e : (s.modCm l f).cm[k] = s.cm[k] := by
        simpa [State.modCm, State.setCm] using
          Vector.getElem_set_ne (xs := s.cm) (hi := l.isLt) (hj := k.isLt) (fun h => e (Fin.ext h))
      exact o.lanes k x (e ▸ hx)
  device x hx := o.device x hx

/-- A lane's conditions keep one finding in place of another or of none: nothing but it is new. -/
theorem kept_withCond (c : CmLane) (w : LaneCondition) (x : LaneCond) :
    ∀ f ∈ (c.withCond w x).kept, f ∈ c.kept ∨ x.finding = some f := by
  intro f hf
  cases w <;> simp only [CmLane.withCond, CmLane.kept, List.mem_append, Option.mem_toList] at hf ⊢ <;> tauto

theorem kept_withStalled (c : CmLane) (x : Option Finding) :
    ∀ f ∈ ({ c with stalledFinding := x } : CmLane).kept, f ∈ c.kept ∨ x = some f := by
  intro f hf
  simp only [CmLane.kept, List.mem_append, Option.mem_toList] at hf ⊢
  tauto

theorem kept_withShort (c : CmLane) (x : Option Finding) :
    ∀ f ∈ ({ c with shortFinding := x } : CmLane).kept, f ∈ c.kept ∨ x = some f := by
  intro f hf
  simp only [CmLane.kept, List.mem_append, Option.mem_toList] at hf ⊢
  tauto

theorem owned_openLaneCondition (l : LaneNo) (w : LaneCondition) (s : State) (o : s.findingsOwned) :
    (s.openLaneCondition l w).findingsOwned := by
  unfold State.openLaneCondition
  split
  · exact o
  · dsimp only
    refine owned_modCm l _ _ ((sameKept_createFinding _ _ s).owned o) fun x hx => ?_
    rcases kept_withCond _ _ _ x hx with h | h
    · exact ((sameKept_createFinding _ _ s).owned o).lanes l x h
    · rw [← Option.some.inj h]
      exact createFinding_lane _ _ s

theorem owned_settleLaneCondition (l : LaneNo) (w : LaneCondition) (s : State) (o : s.findingsOwned) :
    (s.settleLaneCondition l w).findingsOwned := by
  refine (sameKept_settleOpen _ _ _ _).owned (owned_modCm l _ s o fun x hx => ?_)
  rcases kept_withCond _ _ _ x hx with h | h
  · exact o.lanes l x h
  · exact absurd h (by simp)

theorem owned_cmCarriage (l : LaneNo) (new : Carriage) (s : State) (o : s.findingsOwned) :
    (s.cmCarriage l new).findingsOwned := by
  unfold State.cmCarriage
  split
  · exact owned_openLaneCondition l _ s o
  · exact owned_openLaneCondition l _ s o
  · exact owned_settleLaneCondition l _ _ (owned_settleLaneCondition l _ s o)
  · exact owned_settleLaneCondition l _ _ (owned_settleLaneCondition l _ s o)
  · exact o

theorem owned_graceExpired (l : LaneNo) (w : LaneCondition) (s : State) (o : s.findingsOwned) :
    (s.graceExpired l w).findingsOwned := by
  unfold State.graceExpired
  split
  · refine owned_modCm l _ s o fun x hx => ?_
    rcases kept_withCond _ _ _ x hx with h | h
    · exact o.lanes l x h
    · exact absurd h (by simp)
  · rename_i f hf
    dsimp only
    refine owned_modCm l _ _ ((sameKept_activateFinding _ _ _ s).owned o) fun x hx => ?_
    rcases kept_withCond _ _ _ x hx with h | h
    · exact ((sameKept_activateFinding _ _ _ s).owned o).lanes l x h
    · rw [← Option.some.inj h, activateFinding_lane]
      refine o.lanes l f ?_
      cases w <;> simp only [CmLane.cond] at hf <;>
        simp only [CmLane.kept, List.mem_append, Option.mem_toList] <;> tauto

theorem owned_openStalled (l : LaneNo) (s : State) (o : s.findingsOwned) : (s.openStalled l).findingsOwned := by
  unfold State.openStalled
  split
  · exact o
  · dsimp only
    refine owned_modCm l _ _ ((sameKept_createFinding _ _ s).owned o) fun x hx => ?_
    rcases kept_withStalled _ _ x hx with h | h
    · exact ((sameKept_createFinding _ _ s).owned o).lanes l x h
    · rw [← Option.some.inj h]
      exact createFinding_lane _ _ s

theorem owned_endStalled (l : LaneNo) (s : State) (o : s.findingsOwned) : (s.endStalled l).findingsOwned := by
  refine (sameKept_settleOpen _ _ _ _).owned (owned_modCm l _ s o fun x hx => ?_)
  rcases kept_withStalled _ _ x hx with h | h
  · exact o.lanes l x h
  · exact absurd h (by simp)

theorem owned_openShort (l : LaneNo) (s : State) (o : s.findingsOwned) : (s.openShort l).findingsOwned := by
  unfold State.openShort
  split
  · exact o
  · dsimp only
    refine owned_modCm l _ _ ((sameKept_createFinding _ _ s).owned o) fun x hx => ?_
    rcases kept_withShort _ _ x hx with h | h
    · exact ((sameKept_createFinding _ _ s).owned o).lanes l x h
    · rw [← Option.some.inj h]
      exact createFinding_lane _ _ s

theorem owned_endShort (l : LaneNo) (s : State) (o : s.findingsOwned) : (s.endShort l).findingsOwned := by
  refine (sameKept_settleOpen _ _ _ _).owned (owned_modCm l _ s o fun x hx => ?_)
  rcases kept_withShort _ _ x hx with h | h
  · exact o.lanes l x h
  · exact absurd h (by simp)

theorem owned_openStoreLost (s : State) (o : s.findingsOwned) : s.openStoreLost.findingsOwned := by
  unfold State.openStoreLost
  split
  · exact o
  · dsimp only
    refine ⟨((sameKept_createFinding _ _ s).owned o).lanes, fun x hx => ?_⟩
    rw [← Option.some.inj (Option.mem_toList.mp hx)]
    exact createFinding_lane _ _ s

theorem owned_endStoreLost (s : State) (o : s.findingsOwned) : s.endStoreLost.findingsOwned :=
  (sameKept_settleOpen _ _ _ _).owned ⟨o.lanes, fun _ hx => absurd hx (by simp)⟩

/-! ### The watched segment -/

theorem owned_watch (l : LaneNo) (ident : Identity) (ruleSet : Option (Fin 16)) (s : State) (o : s.findingsOwned) :
    (s.watch l ident ruleSet).findingsOwned :=
  owned_modCm l _ s o fun x hx => o.lanes l x (by
    simp only [CmLane.kept, Watched.kept, RunCond.fresh, OverCond.fresh, List.mem_append, Option.toList_some,
      Option.toList_none, List.flatMap_cons, List.flatMap_nil, List.not_mem_nil, false_or, or_false] at hx ⊢
    tauto)

theorem owned_unwatch (l : LaneNo) (closeTime : Time) (s : State) (o : s.findingsOwned) :
    (s.unwatch l closeTime).findingsOwned := by
  unfold State.unwatch
  split
  · exact o
  · refine (((sameKept_settleOpen _ _ _ _).trans (sameKept_settleOpen _ _ _ _)).trans
      (sameKept_settleOpen _ _ _ _)).owned (owned_modCm l _ s o fun x hx => o.lanes l x ?_)
    simp only [CmLane.kept, List.mem_append, Option.toList_none, List.flatMap_nil, List.not_mem_nil, false_or] at hx ⊢
    tauto

/-- A check's condition keeps a finding of its lane, or none. -/
def KeptFor (l : LaneNo) (f : Option Finding) : Prop := ∀ x, f = some x → x.lane = some l

/-- Holding a condition leaves the lane its finding names. -/
theorem holdCondition_owned (rule : RuleSet) (start closeTime : Time) (measured : Int) (grace : Nat) (f : Finding)
    (s : State) :
    (s.holdCondition rule start closeTime measured grace f).1.2.lane = f.lane ∧
      SameKept s (s.holdCondition rule start closeTime measured grace f).2 := by
  unfold State.holdCondition
  dsimp only
  split
  · split
    · exact ⟨activateFinding_lane _ _ _ _, sameKept_activateFinding _ _ _ _⟩
    · exact ⟨rfl, sameKept_refreshFinding _ _⟩
  · exact ⟨rfl, sameKept_refreshFinding _ _⟩

theorem runHolds_owned (l : LaneNo) (kind : FindingKind) (severity : Severity) (limit : Nat) (rule : RuleSet)
    (segId : Nat) (closeTime : Time) (c : RunCond) (s : State) (k : KeptFor l c.finding) :
    KeptFor l (s.runHolds l kind severity limit rule segId closeTime c).1.finding ∧
      SameKept s (s.runHolds l kind severity limit rule segId closeTime c).2 := by
  unfold State.runHolds
  dsimp only
  split
  · rename_i f hf
    have h := holdCondition_owned rule (if c.run = 0 then closeTime else c.start) closeTime ((c.run + 1 : Nat) : Int)
      c.grace f s
    exact ⟨fun x hx => by rw [← Option.some.inj hx]; exact h.1.trans (k f hf), h.2⟩
  · split
    · exact ⟨fun x hx => by rw [← Option.some.inj hx]; exact createFinding_lane _ _ s, sameKept_createFinding _ _ s⟩
    · exact ⟨fun _ hx => by simp at hx, .refl s⟩

theorem runEnds_owned (l : LaneNo) (rule : RuleSet) (closeTime : Time) (c : RunCond) (s : State) :
    KeptFor l (s.runEnds rule closeTime c).1.finding ∧ SameKept s (s.runEnds rule closeTime c).2 :=
  ⟨fun _ hx => by simp [State.runEnds, RunCond.fresh] at hx, sameKept_settleOpen _ _ _ s⟩

theorem deadAirTile_owned (l : LaneNo) (rule : RuleSet) (segId : Nat) (r : TileRecord) (c : RunCond) (s : State)
    (k : KeptFor l c.finding) :
    KeptFor l (s.deadAirTile l rule segId r c).1.finding ∧ SameKept s (s.deadAirTile l rule segId r c).2 := by
  unfold State.deadAirTile
  split
  · exact ⟨k, .refl s⟩
  · split
    · exact runHolds_owned l _ _ _ rule segId _ c s k
    · exact runEnds_owned l rule _ c s

theorem captionGapTile_owned (l : LaneNo) (rule : RuleSet) (duty : Duty) (segId : Nat) (r : TileRecord) (c : RunCond)
    (s : State) (k : KeptFor l c.finding) :
    KeptFor l (s.captionGapTile l rule duty segId r c).1.finding ∧
      SameKept s (s.captionGapTile l rule duty segId r c).2 := by
  unfold State.captionGapTile
  split
  · exact ⟨k, .refl s⟩
  · split
    · exact runEnds_owned l rule _ c s
    · exact runHolds_owned l _ _ _ rule segId _ c s k

theorem shortTermTile_owned (l : LaneNo) (rule : RuleSet) (segId : Nat) (r : TileRecord) (c : OverCond) (s : State)
    (k : KeptFor l c.finding) :
    KeptFor l (s.shortTermTile l rule segId r c).1.finding ∧ SameKept s (s.shortTermTile l rule segId r c).2 := by
  unfold State.shortTermTile
  split
  · exact ⟨k, .refl s⟩
  · split
    · exact ⟨k, .refl s⟩
    · split
      · split
        · split
          · rename_i f hf
            have h := holdCondition_owned rule c.start r.closeTime
              (max r.shortTerm.value (f.measured.getD r.shortTerm.value)) c.grace f s
            exact ⟨fun x hx => by rw [← Option.some.inj hx]; exact h.1.trans (k f hf), h.2⟩
          · exact ⟨k, .refl s⟩
        · exact ⟨fun x hx => by rw [← Option.some.inj hx]; exact createFinding_lane _ _ s,
            sameKept_createFinding _ _ s⟩
      · exact ⟨fun _ hx => by simp [OverCond.fresh] at hx, sameKept_settleOpen _ _ _ s⟩

/-- A tile record leaves every kept finding with its lane. -/
theorem owned_cmTile (l : LaneNo) (r : TileRecord) (s : State) (o : s.findingsOwned) :
    (s.cmTile l r).findingsOwned := by
  unfold State.cmTile
  split
  · exact o
  · rename_i w rule hw
    have hw : s.cm[l].watched = some w := by
      unfold State.watchedRule at hw
      repeat' split at hw
      all_goals simp_all
    have mine (f : Option Finding) (h : ∀ x, f = some x → x ∈ w.kept) : KeptFor l f :=
      fun x hx => o.lanes l x (by simp only [CmLane.kept, hw, List.mem_append, Option.toList_some,
        List.flatMap_cons, List.flatMap_nil, List.append_nil]; tauto)
    have a := deadAirTile_owned l rule w.ident.segId r w.deadAir s (mine _ fun x hx => by simp [Watched.kept, hx])
    have b := captionGapTile_owned l rule w.ident.duty w.ident.segId r w.captionGap
      (s.deadAirTile l rule w.ident.segId r w.deadAir).2 (mine _ fun x hx => by simp [Watched.kept, hx])
    have c := shortTermTile_owned l rule w.ident.segId r w.stCeiling
      ((s.deadAirTile l rule w.ident.segId r w.deadAir).2.captionGapTile l rule w.ident.duty w.ident.segId r
        w.captionGap).2 (mine _ fun x hx => by simp [Watched.kept, hx])
    have o' := ((a.2.trans b.2).trans c.2).owned o
    dsimp only
    refine owned_modCm l _ _ o' fun x hx => ?_
    simp only [CmLane.kept, Watched.kept, List.mem_append, Option.mem_toList, Option.toList_some, List.flatMap_cons,
      List.flatMap_nil, List.append_nil] at hx
    have rest := o'.lanes l x
    simp only [CmLane.kept, List.mem_append, Option.mem_toList] at rest
    rcases hx with (((((h | h) | h) | h) | h) | h) | h
    all_goals first | exact a.1 x h | exact b.1 x h | exact c.1 x h | exact rest (by tauto)

/-! ### Allocation -/

theorem sameKept_modAc (l : LaneNo) (f : AcLane → AcLane) (s : State) : SameKept s (s.modAc l f) :=
  ⟨fun _ => rfl, rfl⟩

theorem sameKept_setAlloc (l : LaneNo) (x : AllocState) (s : State) : SameKept s (s.setAlloc l x) := by
  unfold State.setAlloc State.syncRetry
  repeat' split
  all_goals exact ⟨fun _ => rfl, rfl⟩

/-- An invariant of two things done in a free order is one of both. -/
theorem owned_inEitherOrder (f g : State → State) (hf : ∀ s : State, s.findingsOwned → (f s).findingsOwned)
    (hg : ∀ s : State, s.findingsOwned → (g s).findingsOwned) (s : State) (o : s.findingsOwned) :
    (inEitherOrder f g s).findingsOwned := by
  have o' : s.advanceFree.findingsOwned := ⟨o.lanes, o.device⟩
  unfold inEitherOrder
  split
  · exact hg _ (hf _ o')
  · exact hf _ (hg _ o')

theorem owned_reportChoice (l : LaneNo) (short : Bool) (s : State) (o : s.findingsOwned) :
    (s.reportChoice l short).findingsOwned := by
  have report (t : State) (h : t.findingsOwned) (a b : Bool) :
      (if a then t.openShort l else if b then t.endShort l else t).findingsOwned := by
    split
    · exact owned_openShort l t h
    · split
      · exact owned_endShort l t h
      · exact h
  have o' := (sameKept_modAc l (fun a => { a with stalled := false, short := short }) s).owned o
  unfold State.reportChoice
  dsimp only
  split
  · exact owned_inEitherOrder _ _ (owned_endStalled l) (fun t h => report t h _ _) _ o'
  · split
    · exact owned_endStalled l _ o'
    · exact report _ o' _ _

theorem owned_attempt (l : LaneNo) (s : State) (o : s.findingsOwned) : (s.attempt l).findingsOwned := by
  have retired (ns : List Nat) : ∀ t : State, t.findingsOwned →
      (ns.foldl (fun t n => t.modExtent n (Extent.cleared .retired)) t).findingsOwned := by
    induction ns with
    | nil => exact fun _ h => h
    | cons n ns ih => exact fun t h => ih _ ⟨h.lanes, h.device⟩
  have takes (x : Extent) (short : Bool) (t : State) (h : t.findingsOwned) : (t.takeChoice l x short).findingsOwned :=
    owned_reportChoice l short _ ((sameKept_setAlloc l _ _).owned ⟨h.lanes, h.device⟩)
  unfold State.attempt
  split
  · dsimp only
    split
    · exact takes _ _ _ (retired _ s o)
    · exact takes _ _ _ (retired _ s o)
    · unfold State.noCandidate
      split
      · exact (sameKept_setAlloc l _ _).owned ((sameKept_modAc l _ _).owned (retired _ s o))
      · split
        · exact retired _ s o
        · exact owned_openStalled l _ ((sameKept_modAc l _ _).owned (retired _ s o))
  · exact o

/-- Allocation keeps every finding with the lane it names. -/
theorem owned_allocateN : ∀ (n : Nat) (s : State), s.findingsOwned → (s.allocateN n).findingsOwned
  | 0, _, o => o
  | n + 1, s, o => by
    have fold (f : LaneNo → State → State) (h : ∀ l t, t.findingsOwned → (f l t).findingsOwned) (ls : List LaneNo) :
        ∀ t : State, t.findingsOwned → (ls.foldl (fun t l => f l t) t).findingsOwned := by
      induction ls with
      | nil => exact fun _ h => h
      | cons l ls ih => exact fun t o => ih _ (h l t o)
    have wanted := fold (fun l t => t.setAlloc l .wanted) (fun l t h => (sameKept_setAlloc l _ t).owned h)
      (allLanes.filter s.needsExtent) s o
    have e : (entered s).findingsOwned := ⟨wanted.lanes, wanted.device⟩
    rw [allocateN_succ]
    split
    · exact e
    · refine owned_allocateN n _ (fold (fun l t => t.attempt l) owned_attempt _ _ ?_)
      unfold State.draw
      split
      · exact e
      · exact e
      · exact ⟨e.lanes, e.device⟩

theorem owned_allocate (s : State) (o : s.findingsOwned) : s.allocate.findingsOwned := owned_allocateN 20 s o

end Sys2Proof.Laws
end

