-- ==== Sys2Proof/Laws/Pages.lean ====
section
/-! SUPPORT. A store page that the part builds passes its own check, and its fields read back at their offsets. -/

namespace Sys2Proof.Laws

open Sys2Proof.Machine

theorem crcBytes_length (bs : List Byte) : (crcBytes bs).length = 2 := rfl

/-- A page is a body of 16,382 bytes and its check value. -/
theorem buildPage_eq (kind : Byte) (fields : List Byte) (h : fields.length ≤ pageRoom) :
    ∃ body, buildPage kind fields = body ++ crcBytes body ∧ body.length = 16382 ∧
      body = kind :: (fields ++ List.replicate (pageRoom - fields.length) 0#8) := by
  refine ⟨_, rfl, ?_, rfl⟩
  have : pageRoom = 16381 := rfl
  simp only [List.length_cons, List.length_append, List.length_replicate]
  omega

theorem pageCheckOk_buildPage (kind : Byte) (fields : List Byte) (h : fields.length ≤ pageRoom) :
    pageCheckOk (buildPage kind fields) = true := by
  obtain ⟨body, e, n, -⟩ := buildPage_eq kind fields h
  rw [e]
  simp [pageCheckOk, n, crcBytes_length]

theorem pageIs_buildPage (kind : Byte) (fields : List Byte) (h : fields.length ≤ pageRoom) :
    pageIs kind (buildPage kind fields) = true := by
  rw [pageIs, pageCheckOk_buildPage kind fields h]
  simp [buildPage]

/-- A page of one kind is not of another. -/
theorem pageIs_buildPage_ne (kind other : Byte) (fields : List Byte) (h : kind ≠ other) :
    pageIs other (buildPage kind fields) = false := by
  simp [pageIs, buildPage, h]

theorem field_buildPage (kind : Byte) (fields : List Byte) (off w : Nat) (h : off + w ≤ fields.length) :
    field (buildPage kind fields) (off + 1) w = field fields off w := by
  unfold field buildPage
  apply List.map_congr_left
  intro i hi
  have hi : i < w := List.mem_range.mp hi
  have e : off + 1 + i = (off + i) + 1 := by omega
  simp only [e, List.cons_append, List.getD_cons_succ, List.append_assoc]
  rw [List.getD_append _ _ _ _ (by omega)]

theorem numberAt_buildPage (kind : Byte) (fields : List Byte) (off w : Nat) (h : off + w ≤ fields.length) :
    numberAt (buildPage kind fields) (off + 1) w = numberAt fields off w := by
  simp only [numberAt, field_buildPage kind fields off w h]

/-- A rule set number, a lane or NONE is read from an image as it was written. -/
theorem appliedOrNone_noneCode (k : Nat) [NeZero k] (small : k ≤ 255) (x : Option (Fin k)) :
    appliedOrNone k (noneCode x) = x := by
  cases x with
  | none => rfl
  | some j =>
    have h := j.isLt
    have c : clampNat 0 (k - 1) j.val = j.val := by
      unfold clampNat
      rw [if_neg (by omega), if_neg (by omega)]
    show (if j.val = 255 then none else some (Fin.ofNat k (clampNat 0 (k - 1) j.val))) = some j
    rw [if_neg (by omega), c]
    exact congrArg some (Fin.ext (Nat.mod_eq_of_lt h))

end Sys2Proof.Laws
end

