-- ==== Sys2Proof/Laws/PerInstr.lean ====
section
/-! SUPPORT. Every request row's payload has the length that Table 12-2 gives its request, and its frame that length and 10
bytes more; one lemma for each command. -/

namespace Sys2Proof.Laws

open Sys2Proof.Machine

/-- The payload length that Table 12-2 gives a request. -/
def payloadLength : Request → Nat
  | .conf => 0
  | .runm => 0
  | .timeAbsolute _ => 7
  | .timeStep _ => 5
  | .save => 0
  | .fmat => 0
  | .rsta => 0
  | .lrst _ => 1
  | .lane _ => 33
  | .filtEntry _ => 9
  | .filtPassAll _ _ => 9
  | .rule _ => 32
  | .rmap _ _ _ => 3
  | .xmapDistributed _ _ => 12
  | .xmapDirected _ _ => 12
  | .xmapPooling _ _ => 12
  | .dsev _ => 5
  | .alrm _ _ => 3
  | .setr _ _ => 2
  | .stat _ => 1
  | .metr _ => 1
  | .verd _ => 4
  | .find _ => 4
  | .note => 0
  | .capt _ => 1
  | .extnByNumber _ => 5
  | .extnByLaneTime _ _ => 8
  | .hlst _ => 2
  | .ackfSingle _ => 5
  | .ackfAllUpTo _ => 5
  | .hold _ _ _ => 14
  | .hrel _ => 2
  | .rcal _ _ _ _ => 14
  | .rstp _ => 1

@[simp] theorem be_length (w n : Nat) : (be w n).length = w := by
  induction w with
  | zero => rfl
  | succ w ih => simp [be, ih]

@[simp] theorem tenths_length (z : Int) : (tenths z).length = 2 := by simp [tenths, beInt]

theorem optional_length {α : Type} (w : Nat) (f : α → List Byte) (h : ∀ x, (f x).length = w) (x : Option α) :
    (optional w f x).length = w + 1 := by
  cases x <;> simp [Machine.optional, h]

@[simp] theorem optional_be_length (w : Nat) (x : Option Nat) : (optional w (be w) x).length = w + 1 :=
  optional_length w (be w) (be_length w) x

@[simp] theorem optional_tenths_length (x : Option Int) : (optional 2 tenths x).length = 3 :=
  optional_length 2 tenths tenths_length x

@[simp] theorem directedBytes_length (r : Option DirectedFields) : (directedBytes r).length = 10 :=
  optional_length 9 _ (by intro d; simp) r

@[simp] theorem requestTag_bytes_length (t : Tag) : t.bytes.length = 4 := by cases t <;> rfl

theorem requestBytes_length (r : Request) : (requestBytes r).length = payloadLength r := by
  cases r <;>
    simp [requestBytes, payloadLength, laneBytes, filterBytes, passAllBytes, ruleBytes]

theorem requestFrame_length (seq : Byte) (r : Request) : (requestFrame seq r).length = 10 + payloadLength r := by
  have h := requestBytes_length r
  simp [requestFrame, buildFrame, crcBytes, h]
  try omega

theorem tagOf_requestTag (r : Request) : tagOf (requestTag r).bytes = some (requestTag r) := by
  cases r <;> rfl

end Sys2Proof.Laws

namespace Sys2Proof.Laws.RequestEncodes

open Sys2Proof.Machine

/-- The request of a row, if it is one, has a payload and a frame of the length that Section 12 gives, and its kind tag
names it. -/
def Statement (i : Instr) : Prop :=
  ∀ (seq : Byte) (r : Request), i.request = some (seq, r) →
    (requestBytes r).length = payloadLength r ∧ (requestFrame seq r).length = 10 + payloadLength r ∧
      tagOf (requestTag r).bytes = some (requestTag r)

theorem all (i : Instr) : Statement i := fun seq r _ =>
  ⟨requestBytes_length r, requestFrame_length seq r, tagOf_requestTag r⟩

theorem inboundCell (lane : LaneNo) (bytes : List Byte) :
    Statement (.inboundCell lane bytes) := all _

theorem exportHoldCell (bytes : List Byte) :
    Statement (.exportHoldCell bytes) := all _

theorem exportHoldExpiry :
    Statement (.exportHoldExpiry) := all _

theorem exportCellSent :
    Statement (.exportCellSent) := all _

theorem gapTimerExpiry (lane : LaneNo) :
    Statement (.gapTimerExpiry lane) := all _

theorem rateWindowCompletion (lane : LaneNo) :
    Statement (.rateWindowCompletion lane) := all _

theorem holdOffResend (lane : LaneNo) :
    Statement (.holdOffResend lane) := all _

theorem keepaliveExpiry (lane : LaneNo) :
    Statement (.keepaliveExpiry lane) := all _

theorem laneGraceExpiry (lane : LaneNo) (which : LaneCondition) :
    Statement (.laneGraceExpiry lane which) := all _

theorem configTimerExpiry :
    Statement (.configTimerExpiry) := all _

theorem swapTimerExpiry :
    Statement (.swapTimerExpiry) := all _

theorem retryTimerExpiry :
    Statement (.retryTimerExpiry) := all _

theorem storeIssue :
    Statement (.storeIssue) := all _

theorem storeTimeout :
    Statement (.storeTimeout) := all _

theorem identifyRetry :
    Statement (.identifyRetry) := all _

theorem identifyCompletion (result : IdentifyResult) :
    Statement (.identifyCompletion result) := all _

theorem laneProgramCompletion (ok : Bool) :
    Statement (.laneProgramCompletion ok) := all _

theorem systemProgramCompletion (ok : Bool) :
    Statement (.systemProgramCompletion ok) := all _

theorem systemEraseCompletion (ok : Bool) :
    Statement (.systemEraseCompletion ok) := all _

theorem laneEraseCompletion (ok : Bool) :
    Statement (.laneEraseCompletion ok) := all _

theorem formatEraseCompletion (ok : Bool) :
    Statement (.formatEraseCompletion ok) := all _

theorem scanReadCompletion (result : ReadResult) :
    Statement (.scanReadCompletion result) := all _

theorem recallReadCompletion (result : ReadResult) :
    Statement (.recallReadCompletion result) := all _

theorem coldReset :
    Statement (.coldReset) := all _

theorem warmResetComplete :
    Statement (.warmResetComplete) := all _

theorem incompleteFrame (bytes : List Byte) :
    Statement (.incompleteFrame bytes) := all _

theorem droppedFrame (bytes : List Byte) :
    Statement (.droppedFrame bytes) := all _

theorem rejectReply (bytes : List Byte) :
    Statement (.rejectReply bytes) := all _

theorem unknownTag (bytes : List Byte) :
    Statement (.unknownTag bytes) := all _

theorem collect (clocked : Nat) :
    Statement (.collect clocked) := all _

theorem conf (seq : Byte) :
    Statement (.conf seq) := all _

theorem runm (seq : Byte) :
    Statement (.runm seq) := all _

theorem timeAbsolute (seq : Byte) (time : Nat) :
    Statement (.timeAbsolute seq time) := all _

theorem timeStep (seq : Byte) (step : Nat) :
    Statement (.timeStep seq step) := all _

theorem save (seq : Byte) :
    Statement (.save seq) := all _

theorem fmat (seq : Byte) :
    Statement (.fmat seq) := all _

theorem rsta (seq : Byte) :
    Statement (.rsta seq) := all _

theorem lrst (seq : Byte) (lane : Nat) :
    Statement (.lrst seq lane) := all _

theorem lane (seq : Byte) (f : LaneFields) :
    Statement (.lane seq f) := all _

theorem filtEntry (seq : Byte) (f : FilterEntryFields) :
    Statement (.filtEntry seq f) := all _

theorem filtPassAll (seq : Byte) (lane flag : Nat) :
    Statement (.filtPassAll seq lane flag) := all _

theorem rule (seq : Byte) (f : RuleFields) :
    Statement (.rule seq f) := all _

theorem rmap (seq : Byte) (lane kind set : Nat) :
    Statement (.rmap seq lane kind set) := all _

theorem xmapDistributed (seq : Byte) (lo hi : Nat) :
    Statement (.xmapDistributed seq lo hi) := all _

theorem xmapDirected (seq : Byte) (number : Nat) (range : Option DirectedFields) :
    Statement (.xmapDirected seq number range) := all _

theorem xmapPooling (seq : Byte) (lane target : Nat) :
    Statement (.xmapPooling seq lane target) := all _

theorem dsev (seq : Byte) (f : SeverityFields) :
    Statement (.dsev seq f) := all _

theorem alrm (seq : Byte) (protocol timeout : Nat) :
    Statement (.alrm seq protocol timeout) := all _

theorem setr (seq : Byte) (group index : Nat) :
    Statement (.setr seq group index) := all _

theorem stat (seq : Byte) (target : Nat) :
    Statement (.stat seq target) := all _

theorem metr (seq : Byte) (lane : Nat) :
    Statement (.metr seq lane) := all _

theorem verd (seq : Byte) (start : Nat) :
    Statement (.verd seq start) := all _

theorem find (seq : Byte) (start : Nat) :
    Statement (.find seq start) := all _

theorem note (seq : Byte) :
    Statement (.note seq) := all _

theorem capt (seq : Byte) (lane : Nat) :
    Statement (.capt seq lane) := all _

theorem extnByNumber (seq : Byte) (number : Nat) :
    Statement (.extnByNumber seq number) := all _

theorem extnByLaneTime (seq : Byte) (lane time : Nat) :
    Statement (.extnByLaneTime seq lane time) := all _

theorem hlst (seq : Byte) (start : Nat) :
    Statement (.hlst seq start) := all _

theorem ackfSingle (seq : Byte) (id : Nat) :
    Statement (.ackfSingle seq id) := all _

theorem ackfAllUpTo (seq : Byte) (id : Nat) :
    Statement (.ackfAllUpTo seq id) := all _

theorem hold (seq : Byte) (lane start : Nat) (stop : Option Nat) :
    Statement (.hold seq lane start stop) := all _

theorem hrel (seq : Byte) (id : Nat) :
    Statement (.hrel seq id) := all _

theorem rcal (seq : Byte) (lane t1 t0 slot : Nat) :
    Statement (.rcal seq lane t1 t0 slot) := all _

theorem rstp (seq : Byte) (slot : Nat) :
    Statement (.rstp seq slot) := all _

end Sys2Proof.Laws.RequestEncodes
end

