-- ==== Sys2Proof/Laws/Recalls.lean ====
section
/-! SUPPORT. What the shared operations of the recalls do: the choice of the next extent, what follows a sent slot page, and
the beginning of an export cell. A proof about a recall cites these and never unfolds the operations. -/

namespace Sys2Proof.Laws

open Sys2Proof.Machine

/-! ### The next extent (R176) -/

/-- `e` is the first of the extents with the lowest first time. -/
def Earliest (xs : List Extent) (e : Extent) : Prop :=
  ∃ before after : List Extent, xs = before ++ e :: after ∧
    (∀ z ∈ before, e.first.getD 0 < z.first.getD 0) ∧ (∀ z ∈ after, e.first.getD 0 ≤ z.first.getD 0)

theorem earliestOf_append (xs : List Extent) (x : Extent) :
    earliestOf (xs ++ [x]) = match earliestOf xs with
      | none => some x
      | some b => if x.first.getD 0 < b.first.getD 0 then some x else some b := by
  unfold earliestOf
  rw [List.foldl_append]
  rfl

theorem earliestOf_spec (xs : List Extent) :
    (earliestOf xs = none ↔ xs = []) ∧ ∀ e, earliestOf xs = some e → Earliest xs e := by
  induction xs using List.reverseRecOn with
  | nil => simp [earliestOf]
  | append_singleton xs x ih =>
    rw [earliestOf_append]
    rcases hb : earliestOf xs with _ | b
    · have : xs = [] := ih.1.1 hb
      subst this
      exact ⟨by simp, fun e he => ⟨[], [], by simp_all⟩⟩
    · obtain ⟨before, after, hxs, hbefore, hafter⟩ := ih.2 b hb
      dsimp only
      split
      · rename_i hlt
        refine ⟨by simp, fun e he => ?_⟩
        obtain rfl : x = e := by simpa using he
        refine ⟨xs, [], rfl, fun z hz => ?_, by simp⟩
        rw [hxs] at hz
        rcases List.mem_append.1 hz with hz | hz
        · exact hlt.trans (hbefore z hz)
        · rcases List.mem_cons.1 hz with rfl | hz
          · exact hlt
          · exact hlt.trans_le (hafter z hz)
      · rename_i hge
        refine ⟨by simp, fun e he => ?_⟩
        obtain rfl : b = e := by simpa using he
        refine ⟨before, after ++ [x], by simp [hxs], hbefore, fun z hz => ?_⟩
        rcases List.mem_append.1 hz with hz | hz
        · exact hafter z hz
        · simp at hz; subst hz; omega

/-- The test of a recall's next extent, as the model makes it. -/
def mayReadB (q : RecallRequest) (m : EndMarker) (p : Nat) (e : Extent) : Bool :=
  e.readableBy q.lane && decide (p ≤ e.last.getD 0) && decide (e.first.getD 0 ≤ q.t1)
    && decide (e.first.getD 0 ≤ m.first)

theorem mayRead_iff (q : RecallRequest) (m : EndMarker) (p : Nat) (e : Extent) :
    mayReadB q m p e = true ↔ q.mayRead m p e := by
  unfold mayReadB Extent.readableBy RecallRequest.mayRead
  rcases e.first with _ | f <;> rcases e.last with _ | l <;> simp [and_assoc]

theorem picks_of_earliest (q : RecallRequest) (m : EndMarker) (p : Nat) (xs : List Extent) (e : Extent)
    (h : Earliest (xs.filter (mayReadB q m p)) e) : q.picks m p xs e := by
  obtain ⟨before, after, hxs, hbefore, hafter⟩ := h
  obtain ⟨a, b, rfl, ha, hb⟩ := List.filter_eq_append_iff.1 hxs
  obtain ⟨c, d, rfl, hc, he, hd⟩ := List.filter_eq_cons_iff.1 hb
  refine ⟨a ++ c, d, by simp, (mayRead_iff ..).1 he, fun z hz hm => ?_, fun z hz hm => ?_⟩
  · rcases List.mem_append.1 hz with hz | hz
    · exact hbefore z (ha ▸ List.mem_filter.2 ⟨hz, (mayRead_iff ..).2 hm⟩)
    · exact absurd ((mayRead_iff ..).2 hm) (by simpa using hc z hz)
  · exact hafter z (hd ▸ List.mem_filter.2 ⟨hz, (mayRead_iff ..).2 hm⟩)

/-- What the next extent of a recall is. -/
theorem nextExtent_spec (s : State) (x : Slot) (q : RecallRequest) (m : EndMarker) (p : Nat) (hq : x.request = some q)
    (hm : x.marker = some m) (hp : x.p = some p) :
    (s.nextExtent x = none → ∀ e ∈ s.extents, ¬ q.mayRead m p e) ∧
    ∀ e, s.nextExtent x = some e → q.picks m p s.extents e := by
  have h : s.nextExtent x = earliestOf (s.extents.filter (mayReadB q m p)) := by
    unfold State.nextExtent
    rw [hq, hm, hp]
    rfl
  rw [h]
  refine ⟨fun h e he hr => ?_, fun e he => picks_of_earliest _ _ _ _ _ ((earliestOf_spec _).2 e he)⟩
  have := List.filter_eq_nil_iff.1 ((earliestOf_spec _).1.1 h) e he
  exact this ((mayRead_iff ..).2 hr)

theorem picks_shrinks (q : RecallRequest) (m : EndMarker) (p last : Nat) (xs : List Extent) (e : Extent)
    (h : q.picks m p xs e) (hl : e.last = some last) :
    (xs.filter (mayReadB q m (last + 1))).length < (xs.filter (mayReadB q m p)).length := by
  obtain ⟨before, after, rfl, hm, -, -⟩ := h
  have hle : ∀ ys : List Extent,
      (ys.filter (mayReadB q m (last + 1))).length ≤ (ys.filter (mayReadB q m p)).length := by
    intro ys
    simp only [← List.countP_eq_length_filter]
    refine List.countP_mono_left fun z _ hz => ?_
    obtain ⟨-, -, f, l, -, hl', hpl, -⟩ := hm
    simp [mayReadB] at hz ⊢
    grind
  have he : mayReadB q m p e = true := (mayRead_iff ..).2 hm
  have hn : mayReadB q m (last + 1) e = false := by
    simp [mayReadB, hl]
  have a := hle before
  have b := hle after
  simp [List.filter_append, he, hn]
  omega

/-! ### The slot after its page (R176, R177, R181) -/

/-- What a recall's progress changes: its slot, which is now `y`, its notice, set if the recall has ended, and whether an
allocation attempt is owed. -/
structure SlotStep (k : SlotNo) (s : State) (y : Slot) (t : State) : Prop where
  shape : ∃ (due : Bool) (notices : Notices),
    t = { s with slots := s.slots.set k y, attemptDue := due, notices := notices }
  notice : y.state = .done → t.notices.recallEnd[k] = true

theorem SlotStep.slot {k : SlotNo} {s t : State} {y : Slot} (h : SlotStep k s y t) : t.slots[k] = y := by
  obtain ⟨d, n, rfl⟩ := h.shape
  simp

/-- One step of a slot behind another. -/
theorem SlotStep.after {k : SlotNo} {s t u : State} {x y : Slot} (h : SlotStep k t y u)
    (first : ∃ due : Bool, t = { s with slots := s.slots.set k x, attemptDue := due }) : SlotStep k s y u := by
  obtain ⟨d, n, rfl⟩ := h.shape
  obtain ⟨e, rfl⟩ := first
  exact ⟨⟨d, n, by simp⟩, h.notice⟩

theorem endDone_step (k : SlotNo) (s : State) (p : Nat) (hp : s.slots[k].p = some p) :
    SlotStep k s (s.slots[k].doneAt p) (s.endDone k) := by
  refine ⟨⟨true, (s.raiseRecall k).notices, ?_⟩, fun _ => ?_⟩
  · simp only [State.endDone, State.modSlot, State.setSlot, State.raiseRecall, Slot.doneAt, Slot.endCellFor, hp,
      Option.getD_some]
  · simp [State.endDone, State.modSlot, State.setSlot, State.raiseRecall]

theorem pagesOf_eq (x : Slot) (m : EndMarker) (e : Extent) (hm : x.marker = some m) :
    x.pagesOf e = m.pagesToRead e := by
  unfold Slot.pagesOf EndMarker.pagesToRead EndMarker.names
  rw [hm]
  simp

/-- An extent that a recall finishes: p passes its last time, and what follows is fixed (R177). -/
theorem finishExtent_eq (k : SlotNo) (e : Extent) (s : State) (q : RecallRequest) (m : EndMarker) (last : Nat)
    (hq : s.slots[k].request = some q) (hm : s.slots[k].marker = some m) (hl : e.last = some last)
    [Decidable (q.endsAt m last e)] :
    s.finishExtent k e = { s with
      slots := s.slots.set k { s.slots[k] with
        p := some (last + 1), position := none, after := if q.endsAt m last e then .finish else .choose }
      attemptDue := true } := by
  have after : (if (decide (q.t1 < last + 1) || m.names e) = true then AfterPage.finish else .choose)
      = if q.endsAt m last e then .finish else .choose := by
    simp [RecallRequest.endsAt, EndMarker.names]
  simp only [State.finishExtent, State.modSlot, State.setSlot, Slot.atMarker, hq, hm, hl, Option.getD_some, after]

/-- A slot that needs an extent takes its next, or ends DONE; nothing else changes (R176). -/
theorem chooseExtentN_step (k : SlotNo) (q : RecallRequest) (m : EndMarker) : ∀ (n p : Nat) (s : State),
    s.slots[k].active = true → s.slots[k].request = some q → s.slots[k].marker = some m → s.slots[k].p = some p →
    (s.extents.filter (mayReadB q m p)).length < n →
    ∃ y, Slot.TakesNext s.extents q m p s.slots[k] y ∧ SlotStep k s y (s.chooseExtentN k n)
  | 0, _, _, _, _, _, _, h => absurd h (Nat.not_lt_zero _)
  | n + 1, p, s, ha, hq, hm, hp, h => by
    have next := nextExtent_spec s s.slots[k] q m p hq hm hp
    cases he : s.nextExtent s.slots[k] with
    | none =>
      refine ⟨_, .ends p _ (next.1 he), ?_⟩
      simp only [State.chooseExtentN, he]
      exact endDone_step k s p hp
    | some e =>
      have picked := next.2 e he
      obtain ⟨-, -, -, hmay, -, -⟩ := id picked
      obtain ⟨-, -, first, last, hf, hl, -⟩ := hmay
      have hp' := pagesOf_eq s.slots[k] m e hm
      by_cases hz : m.pagesToRead e = 0
      · classical
        have hfin := finishExtent_eq k e s q m last hq hm hl
        simp only [State.chooseExtentN, he, hp', hz, if_true, hfin]
        by_cases hend : q.endsAt m last e
        · simp only [hend, if_true, Vector.getElem_set_self, Fin.getElem_fin]
          refine ⟨_, .finishes p last _ e picked hz hl hend, ?_⟩
          let x : Slot := { s.slots[k] with p := some (last + 1), position := none, after := .finish }
          have done := endDone_step k { s with slots := s.slots.set k x, attemptDue := true } (last + 1) (by simp [x])
          simpa [x] using done.after ⟨true, rfl⟩
        · simp only [hend, if_false, Vector.getElem_set_self, Fin.getElem_fin]
          have lt := picks_shrinks q m p last s.extents e picked hl
          obtain ⟨y, hy, hs⟩ := chooseExtentN_step k q m n (last + 1)
            { s with
              slots := s.slots.set k { s.slots[k] with p := some (last + 1), position := none, after := .choose }
              attemptDue := true }
            (by simpa [Slot.active] using ha) (by simpa using hq) (by simpa using hm) (by simp) (by dsimp only; omega)
          refine ⟨y, .passes p last _ y e picked hz hl hend (by simpa using hy), ?_⟩
          simpa using hs.after ⟨true, rfl⟩
      · refine ⟨_, .reads p _ e picked (Nat.pos_of_ne_zero hz), ?_⟩
        simp only [State.chooseExtentN, he, hp', hz, if_false]
        refine ⟨⟨s.attemptDue, s.notices, rfl⟩, fun hd => ?_⟩
        have hd : s.slots[k].state = .done := hd
        rw [Slot.active, hd] at ha
        exact absurd ha (by decide)

/-- What follows when a slot's page is sent or taken (R176, R177, R181). -/
theorem slotPageSent_step (k : SlotNo) (q : RecallRequest) (m : EndMarker) (p : Nat) (s : State)
    (ha : s.slots[k].active = true) (hq : s.slots[k].request = some q) (hm : s.slots[k].marker = some m)
    (hp : s.slots[k].p = some p) :
    ∃ y, s.slots[k].goesOn s.extents q m p y ∧ SlotStep k s y (s.slotPageSent k) := by
  have stays : SlotStep k s s.slots[k] s := by
    refine ⟨⟨s.attemptDue, s.notices, by simp⟩, fun hd => ?_⟩
    rw [Slot.active, hd] at ha
    exact absurd ha (by decide)
  by_cases he : s.slots[k].page = []
  · cases hf : s.slots[k].after with
    | more =>
      refine ⟨_, ⟨fun _ => rfl, ?_, ?_⟩, ?_⟩
      · simp [-Fin.getElem_fin, hf]
      · simp [-Fin.getElem_fin, hf]
      · simpa [-Fin.getElem_fin, State.slotPageSent, State.chooseExtent, ha, he, hf] using stays
    | choose =>
      obtain ⟨y, hy, hs⟩ := chooseExtentN_step k q m (s.extents.length + 1) p s ha hq hm hp
        (Nat.lt_succ_of_le (List.length_filter_le ..))
      refine ⟨y, ⟨?_, ?_, fun _ _ => hy⟩, ?_⟩
      · simp [-Fin.getElem_fin, he, hf]
      · simp [-Fin.getElem_fin, hf]
      · simpa [-Fin.getElem_fin, State.slotPageSent, State.chooseExtent, ha, he, hf] using hs
    | finish =>
      refine ⟨_, ⟨?_, fun _ _ => rfl, ?_⟩, ?_⟩
      · simp [-Fin.getElem_fin, he, hf]
      · simp [-Fin.getElem_fin, hf]
      · simpa [-Fin.getElem_fin, State.slotPageSent, State.chooseExtent, ha, he, hf] using endDone_step k s p hp
  · refine ⟨_, ⟨fun _ => rfl, ?_, ?_⟩, ?_⟩
    · simp [-Fin.getElem_fin, he]
    · simp [-Fin.getElem_fin, he]
    · simpa [-Fin.getElem_fin, State.slotPageSent, State.chooseExtent, ha, he] using stays

/-! ### A page taken (R177) -/

/-- The slot after a page, before anything follows: the next page, the next extent, or the end of the recall behind the
records of the slot page. -/
def pageTaken (m : EndMarker) (e : Extent) (page last : Nat) (late atEnd : Bool) (x : Slot) : Slot :=
  if m.pagesToRead e ≤ page then
    { x with p := some (last + 1), position := none, after := if late || atEnd then .finish else .choose }
  else if late then { x with position := none, after := .finish }
  else { x with position := some (e.no, page + 1), after := .more }

/-- The last page to read in an extent finishes it, another leads to the next page. -/
theorem pageDone_eq (k : SlotNo) (ext page last : Nat) (q : RecallRequest) (m : EndMarker) (e : Extent) (atEnd : Bool)
    (s : State) (hq : s.slots[k].request = some q) (hm : s.slots[k].marker = some m) (he : s.extentOf ext = some e)
    (hl : e.last = some last) (hend : atEnd = true ↔ q.endsAt m last e) :
    s.pageDone k ext page = { s with
      slots := s.slots.set k (pageTaken m e page last false atEnd s.slots[k])
      attemptDue := s.attemptDue || decide (m.pagesToRead e ≤ page) } := by
  classical
  have hno : e.no = ext := by
    have := List.find?_some he
    simpa using this
  have hfin := finishExtent_eq k e s q m last hq hm hl
  unfold State.pageDone pageTaken
  simp only [he, pagesOf_eq s.slots[k] m e hm]
  by_cases hz : m.pagesToRead e ≤ page
  · by_cases ha : atEnd = true
    · simp only [hz, if_true, hfin, ha, hend.1 ha, decide_true, Bool.or_true]
    · have : ¬ q.endsAt m last e := fun h => ha (hend.2 h)
      simp only [hz, if_true, hfin, this, Bool.not_eq_true] at ha ⊢
      simp only [ha, Bool.or_false, decide_true, Bool.or_true, Bool.false_eq_true, if_false]
  · simp only [hz, if_false, State.modSlot, State.setSlot, hno, decide_false, Bool.or_false, Bool.false_eq_true]

/-- A recall's page that was read: its records within the request are the slot page, and the slot stands as after the
page; what follows is `slotPageSent_step`. -/
theorem recallRead_ok (k : SlotNo) (ext page last : Nat) (q : RecallRequest) (m : EndMarker) (e : Extent)
    (atEnd late : Bool) (bytes : List Byte) (s : State) (hq : s.slots[k].request = some q)
    (hm : s.slots[k].marker = some m) (he : s.extentOf ext = some e) (hl : e.last = some last)
    (hend : atEnd = true ↔ q.endsAt m last e) (hlate : late = true ↔ ∃ w ∈ pageRecords bytes, q.t1 < w.time) :
    s.recallRead k ext page (.ok bytes) = State.slotPageSent k { s with
      slots := s.slots.set k (pageTaken m e page last late atEnd { s.slots[k] with
        page := ((pageRecords bytes).takeWhile (fun w => decide (w.time ≤ q.t1))).filter (fun w => decide (q.t0 ≤ w.time)) })
      attemptDue := s.attemptDue || decide (m.pagesToRead e ≤ page) } := by
  have hlen : ((pageRecords bytes).takeWhile (fun w => decide (w.time ≤ q.t1))).length < (pageRecords bytes).length
      ↔ late = true := by
    rw [hlate]
    generalize pageRecords bytes = ws
    induction ws with
    | nil => simp
    | cons w ws ih =>
      by_cases h : w.time ≤ q.t1
      · have : ¬ q.t1 < w.time := by omega
        simp [h, ih, this]
      · have : q.t1 < w.time := by omega
        simp [h, this]
  have h := pageDone_eq k ext page last q m e atEnd (s.modSlot k (fun x => { x with
    page := ((pageRecords bytes).takeWhile (fun w => decide (w.time ≤ q.t1))).filter (fun w => decide (q.t0 ≤ w.time)) }))
    (by simpa [State.modSlot, State.setSlot] using hq) (by simpa [State.modSlot, State.setSlot] using hm) he hl hend
  unfold State.recallRead State.takeRecords
  dsimp only
  split
  · rename_i hr
    rw [hq] at hr
    exact absurd hr (by simp)
  · rename_i r hr
    obtain rfl : q = r := Option.some.inj (hq.symm.trans hr)
    rw [h]
    by_cases hz : m.pagesToRead e ≤ page <;> cases late <;>
      simp [hlen, hz, pageTaken, State.modSlot, State.setSlot]

/-- A page that reads ERASED or FAIL is counted and passed over. -/
theorem recallRead_unreadable (k : SlotNo) (ext page last : Nat) (q : RecallRequest) (m : EndMarker) (e : Extent)
    (atEnd : Bool) (r : ReadResult) (s : State) (hq : s.slots[k].request = some q)
    (hm : s.slots[k].marker = some m) (he : s.extentOf ext = some e) (hl : e.last = some last)
    (hend : atEnd = true ↔ q.endsAt m last e) (hr : r = .erased ∨ r = .fail) :
    s.recallRead k ext page r = State.slotPageSent k { s with
      slots := s.slots.set k (pageTaken m e page last false atEnd { s.slots[k] with
        unreadable := next32 s.slots[k].unreadable })
      attemptDue := s.attemptDue || decide (m.pagesToRead e ≤ page) } := by
  have h := pageDone_eq k ext page last q m e atEnd
    (s.modSlot k (fun x => { x with unreadable := next32 x.unreadable })) (by simpa [State.modSlot, State.setSlot] using hq)
    (by simpa [State.modSlot, State.setSlot] using hm) he hl hend
  rcases hr with rfl | rfl <;> simp only [State.recallRead, h] <;> simp [State.modSlot, State.setSlot]

/-! ### The export link (R179) -/

/-- No cell begins while one is being sent, while the export hold is ON, or with no cell ready. -/
theorem startExport_idle (s : State)
    (h : s.exportLink.sending.isSome = true ∨ s.exportLink.hold.isSome = true ∨ ∀ m : SlotNo, s.slots[m].ready m = none) :
    s.startExport = s := by
  rcases h with h | h | h
  · simp [State.startExport, h]
  · simp [State.startExport, h]
  · have h0 : Slot.ready 0 (s.slots[0]'(by decide)) = none := h 0
    have h1 : Slot.ready 1 (s.slots[1]'(by decide)) = none := h 1
    simp [State.startExport, State.exportTurn, h0, h1]

/-- The state when slot `m` has begun a cell. -/
def exportBegun (m : SlotNo) (isEnd : Bool) (bytes : List Byte) (s : State) : State := { s with
  emitted := s.emitted ++ [.exportCell bytes]
  slots := s.slots.set m { s.slots[m] with
    seq := next32 s.slots[m].seq, endCell := if isEnd then none else s.slots[m].endCell }
  exportLink := { s.exportLink with sending := some ⟨m, isEnd, true⟩, lastSlot := some m } }

/-- A slot sends next when the other has nothing ready, or sent the most recent cell. -/
theorem startExport_turn (s : State) (m n : SlotNo) (isEnd : Bool) (bytes : List Byte)
    (hs : s.exportLink.sending = none) (hh : s.exportLink.hold = none) (hmn : m ≠ n)
    (hm : s.slots[m].ready m = some (isEnd, bytes))
    (hn : s.slots[n].ready n = none ∨ s.exportLink.lastSlot = some n) :
    s.startExport = exportBegun m isEnd bytes s := by
  have key : ∀ m n : SlotNo, m ≠ n → (m = 0 ∧ n = 1) ∨ (m = 1 ∧ n = 0) := by decide
  rcases key m n hmn with ⟨rfl, rfl⟩ | ⟨rfl, rfl⟩
  · replace hm : Slot.ready 0 (s.slots[0]'(by decide)) = some (isEnd, bytes) := hm
    replace hn : Slot.ready 1 (s.slots[1]'(by decide)) = none ∨ _ := hn
    cases h : Slot.ready 1 (s.slots[1]'(by decide)) with
    | none => simp [State.startExport, State.exportTurn, exportBegun, hs, hh, hm, h, State.modSlot, State.setSlot, State.emit]
    | some c =>
      have hn : s.exportLink.lastSlot = some 1 := by simpa [h] using hn
      simp [State.startExport, State.exportTurn, exportBegun, hs, hh, hm, hn, h, State.modSlot, State.setSlot, State.emit]
  · replace hm : Slot.ready 1 (s.slots[1]'(by decide)) = some (isEnd, bytes) := hm
    replace hn : Slot.ready 0 (s.slots[0]'(by decide)) = none ∨ _ := hn
    cases h : Slot.ready 0 (s.slots[0]'(by decide)) with
    | none => simp [State.startExport, State.exportTurn, exportBegun, hs, hh, hm, h, State.modSlot, State.setSlot, State.emit]
    | some c =>
      have hn : s.exportLink.lastSlot = some 0 := by simpa [h] using hn
      simp [State.startExport, State.exportTurn, exportBegun, hs, hh, hm, hn, h, State.modSlot, State.setSlot, State.emit]

/-- A cell that a slot offers by the manual's layout is the one that the model has ready (R179, R199). -/
theorem ready_of_offersCell (k : SlotNo) (x : Slot) (isEnd : Bool) (bytes : List Byte)
    (h : x.offersCell k isEnd bytes) : x.ready k = some (isEnd, bytes) := by
  obtain ⟨q, covered, hq, hb, h⟩ := h
  rcases h with ⟨r, rest, hi, hp, hc⟩ | ⟨e, hi, hp, he, hc⟩
  · have : 5 + (1 + (2 + (6 + r.content.length))) = 14 + r.content.length := by omega
    simp [Slot.ready, hp, recordCell, buildCell, Slot.laneByte, hq, hb, hc, hi, recordBytes, slotByte, kindRecord,
      be_length]
    grind
  · simp [Slot.ready, hp, he, endCellBytes, buildCell, Slot.laneByte, hq, hb, hc, hi, slotByte, kindRecallEnd, be_length]
    cases hcause : e.cause <;> simp [be, EndCause.code]

theorem ready_none (k : SlotNo) (x : Slot) : x.ready k = none ↔ x.page = [] ∧ x.endCell = none := by
  unfold Slot.ready
  rcases hp : x.page with _ | ⟨r, rest⟩ <;> rcases he : x.endCell with _ | e <;> simp

end Sys2Proof.Laws
end

