-- ==== Sys2Proof/Tests/Slice0.lean ====
section
/-! SUPPORT. The model's own tests: ill-formed commands that the checks refuse, commands with a few of their results, and for
each obligation with hypotheses a concrete state and operands that meet them together, clause by clause. -/

namespace Sys2Proof.Tests

set_option Elab.async false

open Sys2Proof.Machine

/-! ### Ill-formed commands -/

theorem test_a_byte_field_of_256_is_refused : (Instr.metr 0 256).wellFormed = false := by decide
theorem test_a_two_byte_field_of_65536_is_refused : (Instr.hrel 0 65536).wellFormed = false := by decide
theorem test_a_four_byte_field_of_2_to_32_is_refused : (Instr.verd 0 4294967296).wellFormed = false := by decide
theorem test_a_time_of_2_to_48_is_refused : (Instr.timeAbsolute 0 281474976710656).wellFormed = false := by decide

def ruleFields : RuleFields :=
  ⟨15, -400, 50, some 200, none, some (-300), 1000, 10, 6000, 4294967295, 600, 1, 0, 600, 255⟩

theorem test_tenths_beyond_16_bits_are_refused :
    (Instr.rule 0 { ruleFields with target := 32768 }).wellFormed = false ∧
      (Instr.rule 0 { ruleFields with peakCeiling := some (-32769) }).wellFormed = false ∧
      (Instr.rule 0 ruleFields).wellFormed = true := by decide
theorem test_a_directed_range_field_too_wide_is_refused :
    (Instr.xmapDirected 0 1 (some ⟨4294967296, 1, 0⟩)).wellFormed = false ∧
      (Instr.xmapDirected 0 1 none).wellFormed = true := by decide
theorem test_a_lane_request_field_too_wide_is_refused :
    (Instr.lane 0 { LaneSettings.default.fields 0 with earlyLimit := 4294967296 }).wellFormed = false := by decide
theorem test_a_filter_field_too_wide_is_refused :
    (Instr.filtEntry 0 ⟨0, 0, 0, 65536, 0, 1⟩).wellFormed = false := by decide
theorem test_a_severity_request_field_too_wide_is_refused : (Instr.dsev 0 ⟨0, 0, 0, 65536⟩).wellFormed = false := by
  decide
theorem test_a_short_page_is_refused : (Instr.scanReadCompletion (.ok [0#8])).wellFormed = false ∧
    (Instr.recallReadCompletion (.ok [0#8])).wellFormed = false := by decide

/-! ### States the tests start from -/

/-- The scan has ended, nothing is on the store link. -/
def ready : State :=
  { State.reset with
    emitted := [], scan := .done, extents := freshExtents 16
    store := { StorePort.reset with inFlight := none, count := some 16, returned := some 16 } }

/-- The same in CONFIG. -/
def config : State :=
  { ready with alarm := { Alarm.reset with mode := .config, configTimer := .running 60000 } }

/-- The same with station time set: the allocation gate is open. -/
def timed : State := { ready with station := some 5000 }

/-- The same with lane 0 enabled. -/
def enabled : State :=
  { ready with settings := { Settings.default with
      lanes := Settings.default.lanes.set 0 { LaneSettings.default with enabled := true } } }

/-- A finding of lane 0 in a state. -/
def finding (id : Nat) (state : FindingState) (acked : Bool) : Finding :=
  ⟨id, some 0, .laneLost, .breach, state, acked, none, none, none, none, none, none, none, false⟩

/-- An operation in flight since the clock's 0. -/
def flying (op : StoreOp) (s : State) : State :=
  { s with store := { s.store with inFlight := some ⟨⟨op, false⟩, 0⟩ } }

/-- The same with the mark that its completion is to be discarded. -/
def withdrawn (op : StoreOp) (s : State) : State :=
  { s with store := { s.store with inFlight := some ⟨⟨op, true⟩, 0⟩ } }

/-- Lane 0 with its OPEN extent 3. -/
def writing (s : State) : State :=
  s.modAc 0 (fun a => { a with alloc := .writing ⟨3, 5000, 0, false, 0⟩ })

/-- A recall of lane 0 in slot 0. -/
def recalling (st : SlotState) (s : State) : State :=
  s.setSlot 0 { Slot.reset with state := st, request := some ⟨0, 1000, 2000⟩ }

theorem test_ready_is_settled : ready.settled := ⟨rfl, by decide +kernel⟩
theorem test_timed_is_settled : timed.settled := ⟨rfl, by decide +kernel⟩
theorem test_enabled_is_settled : enabled.settled := ⟨rfl, by decide +kernel⟩

/-- The parts of `bounded` that no decision settles, from what a decision does settle. -/
theorem test_tiles_and_turn_from_data (s : State)
    (h : (∀ l : LaneNo, s.le[l].acc.map TileAcc.tile = s.liu[l].openTile ∧
        (s.liu[l].lossTile = none ∨ s.liu[l].lossTile = s.le[l].history.getLast?.map TileEntry.tile)) ∧
      (s.exportLink.sending = none ∨ s.exportLink.lastSlot = s.exportLink.sending.map Sending.slot)) :
    (s.warm = none → ∀ l : LaneNo, s.le[l].acc.map TileAcc.tile = s.liu[l].openTile ∧
      ∀ o : Nat, s.liu[l].lossTile = some o → s.le[l].history.getLast?.map TileEntry.tile = some o) ∧
    (∀ c : Sending, s.exportLink.sending = some c → s.exportLink.lastSlot = some c.slot) := by
  refine ⟨fun _ l => ⟨(h.1 l).1, fun o ho => ?_⟩, fun c hc => ?_⟩
  · rcases (h.1 l).2 with g | g
    · rw [g] at ho; cases ho
    · rw [← g, ho]
  · rcases h.2 with g | g
    · rw [g] at hc; cases hc
    · rw [g, hc]; rfl

theorem test_ready_is_bounded : ready.bounded :=
  ⟨by decide, by decide, by decide, by decide, by decide, by decide +kernel, by decide +kernel, by decide +kernel,
    by decide +kernel, by decide, by decide, (test_tiles_and_turn_from_data _ (by decide +kernel)).1,
    (test_tiles_and_turn_from_data _ (by decide +kernel)).2⟩

/-! ### Steps, resets, frames -/

theorem test_meets_StepRunsFrontCommand :
    ({ ready with pending := [.storeIssue, .collect 2] } : State).pending = .storeIssue :: [.collect 2] := rfl
theorem test_meets_TickQueuesEveryDueEventOnce : ready.pending = [] := rfl
theorem test_meets_StepKeepsBounds : ready.bounded ∧ ∃ t, step ready = .next t := ⟨test_ready_is_bounded, _, rfl⟩
theorem test_meets_StepKeepsStatuses : (ready.statusesFollow ∧ ready.findingsOwned) ∧ ∃ t, step ready = .next t :=
  ⟨⟨⟨by decide +kernel, by decide +kernel, by decide +kernel⟩, ⟨by decide +kernel, by decide +kernel⟩⟩, _, rfl⟩
theorem test_meets_StepKeepsSettled : ready.settled ∧ ∃ t, step ready = .next t := ⟨test_ready_is_settled, _, rfl⟩
theorem test_meets_RequestPayloadReadsBack :
    (Request.timeAbsolute 281474976710655).wellFormed = true ∧ (Request.rule ruleFields).wellFormed = true ∧
      (Request.hold 255 0 none).wellFormed = true := by decide
theorem test_meets_FrameDoesWhatItsRequestDoes :
    (Instr.hrel 9 65535).request = some (9, .hrel 65535) ∧ (Request.hrel 65535).wellFormed = true := by decide
theorem test_meets_IncompleteFrameIsCounted :
    ready.readyToTake = true ∧ frameWhole [] = false ∧ frameWhole (frameStart :: List.replicate 8 0#8) = false := by
  decide +kernel

/-- A reply waits. -/
def replying : State := { ready with link := ⟨.replying, [], [1#8, 2#8], 0, 0, 0⟩ }

theorem test_meets_FrameIsDroppedWhileNotReady :
    replying.readyToTake = false ∧ (Instr.conf 3).request = some (3, .conf) := by decide +kernel
theorem test_meets_FailedFrameIsAnsweredAtOnce :
    ready.readyToTake = true ∧
    (frameWhole (List.replicate 6 0#8 ++ [4#8, 1#8]) = true ∧ 1024 < numberAt (List.replicate 6 0#8 ++ [4#8, 1#8]) 6 2) ∧
    (frameWhole (List.replicate 10 0#8) = true ∧ numberAt (List.replicate 10 0#8) 6 2 ≤ 1024 ∧
      frameCheckOk (List.replicate 10 0#8) = false) ∧
    (frameWhole (buildFrame 1 rejtTag []) = true ∧ numberAt (buildFrame 1 rejtTag []) 6 2 ≤ 1024 ∧
      frameCheckOk (buildFrame 1 rejtTag []) = true ∧ tagOf (frameTag (buildFrame 1 rejtTag [])) = none) ∧
    (frameWhole (buildFrame 1 Tag.conf.bytes [0#8]) = true ∧
      numberAt (buildFrame 1 Tag.conf.bytes [0#8]) 6 2 ≤ 1024 ∧
      frameCheckOk (buildFrame 1 Tag.conf.bytes [0#8]) = true ∧
      tagOf (frameTag (buildFrame 1 Tag.conf.bytes [0#8])) = some .conf ∧
      readRequest .conf (framePayload (buildFrame 1 Tag.conf.bytes [0#8])) = none) := by decide +kernel
theorem test_meets_CollectShiftsTheReplyOut :
    (replying.link.state = .replying ∧ replying.link.reply.length ≤ 2) ∧ 1 < replying.link.reply.length ∧
      ready.link.state ≠ .replying ∧ [7#8, 8#8].length = 2 ∧ 0x52#8 ≠ 0x53#8 ∧ 0x52#8 ≠ 0x43#8 := by decide +kernel
theorem test_fill_bytes_stand_against_what_the_host_shifts_in :
    (ready.begin.exchange [0x43#8, 1#8, 2#8]).emitted = [.shiftedOut [0x80#8, 0#8, 0#8]] ∧
    (ready.begin.exchange [0x53#8, 1#8]).emitted = [.shiftedOut [0x80#8, 0#8]] ∧
    (replying.begin.collect 3).emitted = [.shiftedOut [0x40#8, 1#8, 2#8, 0#8]] ∧
    (ready.begin.exchange []).emitted = [] := by decide +kernel
theorem test_meets_QueriesChangeOnlyTheLink : ready.readyToTake = true := by decide +kernel
theorem test_meets_SetrAndExtnReadBack :
    ready.readyToTake = true ∧ ready.settingsKnown = true ∧ ready.scanning = false ∧
    (ready.extentOf 15).isSome = true ∧ ready.extentOf 16 = none ∧ ready.extentAt 0 0 = none := by decide +kernel

/-- Extent 4 holds sealed records of lane 0. -/
def archived : State :=
  { timed with extents := (freshExtents 16).map (fun x =>
      if x.no = 4 then ⟨4, .sealed, some 0, some 1000, some 2000, 2, false⟩ else x) }

theorem test_an_extent_is_found_by_lane_and_time :
    (archived.extentAt 0 1000).isSome = true ∧ (archived.extentAt 0 2000).isSome = true ∧
      archived.scanning = false := by decide +kernel
theorem test_meets_RefusedRequestsChangeOnlyTheLink :
    (ready.readyToTake = true ∧ (Instr.save 1).request = some (1, .save) ∧ configOnly .save = true ∧
      ready.alarm.mode = .run ∧ ready.settingsKnown = true) ∧
    (config.readyToTake = true ∧ config.alarm.mode = .config ∧ (8 : Nat) ≤ 8 ∧
      8 ≤ LaneFields.lane { LaneSettings.default.fields 0 with lane := 8 } ∧
      8 ≤ FilterEntryFields.entry ⟨0, 8, 0, 0, 0, 1⟩ ∧ 16 ≤ RuleFields.set { ruleFields with set := 16 } ∧
      (16 : Nat) ≠ 255 ∧ DirectedFields.lane ⟨1, 2, 8⟩ = 8) ∧
    (State.reset.readyToTake = true ∧ State.reset.settingsKnown = false ∧ State.reset.scanning = true) := by
  decide +kernel

/-! ### Settings, mode, time -/

theorem test_meets_SettingRequestsApplyTheirValues :
    (config.readyToTake = true ∧ config.alarm.mode = .config ∧ config.saveInFlight = false) ∧
    ruleFields.set = (15 : Fin 16).val ∧ segKindOf 4 = some .junction ∧ ruleEntryOf 255 = some none ∧
    ruleEntryOf 15 = some (some 15) ∧
    (let busy : State := { config with saveInFlight := true };
      busy.readyToTake = true ∧ busy.alarm.mode = .config ∧ busy.saveInFlight = true) := by decide +kernel
theorem test_a_rule_at_its_bounds_stands :
    (appliedRule ruleFields).fields 15 = ruleFields := by decide +kernel

/-- CONFIG with lane 0 enabled. -/
def configEnabled : State :=
  { enabled with alarm := { Alarm.reset with mode := .config, configTimer := .running 60000 } }

theorem test_meets_LaneRequestReplacesTheLanesSettings :
    (config.readyToTake = true ∧ config.alarm.mode = .config ∧
      (appliedLane (LaneSettings.default.fields 0)).enabled = (config.laneSettings 0).enabled) ∧
    ((appliedLane { LaneSettings.default.fields 0 with enabled := 1 }).enabled = true ∧
      (config.laneSettings 0).enabled = false ∧ 2 ≤ config.ac[(0 : LaneNo)].canTake ∧
      config.liu[(0 : LaneNo)].holdOff = false) ∧
    (configEnabled.readyToTake = true ∧ configEnabled.alarm.mode = .config ∧
      (appliedLane (LaneSettings.default.fields 0)).enabled = false ∧
      (configEnabled.laneSettings 0).enabled = true) := by decide +kernel
/-- Lane 0 has one buffer that can take records. -/
def crowded (s : State) : State :=
  s.modAc 0 (fun a => { a with buffers := (Vector.replicate 4 ⟨.waiting, [⟨recMark, 4000, [0#8]⟩], 0, false⟩).set 3 .empty })

theorem test_meets_LaneRequestReplacesTheLanesSettings_when_crowded :
    let s := crowded config;
    s.readyToTake = true ∧ s.alarm.mode = .config ∧ s.settingsKnown = true ∧ (s.laneSettings 0).enabled = false ∧
      (appliedLane { LaneSettings.default.fields 0 with enabled := 1 }).enabled = true ∧
      s.ac[(0 : LaneNo)].canTake ≤ 1 ∧ s.liu[(0 : LaneNo)].holdOff = false := by decide +kernel
theorem test_meets_MapRequestsChangeTheExtentMap :
    config.readyToTake = true ∧ config.alarm.mode = .config ∧ DirectedFields.lane ⟨0, 70000, 7⟩ = (7 : LaneNo).val ∧
      poolTargetOf 255 = some none ∧ poolTargetOf 7 = some (some 7) := by decide +kernel

theorem test_an_image_clamps_rule_sets_and_pool_targets :
    (let x := readImage (List.replicate 1684 16#8);
      x.ruleMap[(0 : LaneNo)].programme = some 15 ∧ x.extentMap.pooling[(7 : LaneNo)] = some 7) ∧
    (let x := readImage (List.replicate 1684 254#8);
      x.ruleMap[(7 : LaneNo)].junction = some 15 ∧ x.extentMap.pooling[(0 : LaneNo)] = some 7) ∧
    (let x := readImage (List.replicate 1684 255#8);
      x.ruleMap[(7 : LaneNo)].junction = none ∧ x.extentMap.pooling[(0 : LaneNo)] = none) ∧
    (let x := readImage (List.replicate 1684 7#8);
      x.ruleMap[(7 : LaneNo)].junction = some 7 ∧ x.extentMap.pooling[(0 : LaneNo)] = some 7) := by decide +kernel

/-- Lane 0 has an open segment. -/
def segmented : State :=
  timed.modSt 0 (fun x => { x with seg := some (.opened ⟨77, .programme, .required⟩ none false (some 4000)) })

/-- Lane 0 has a remembered identity, in CONFIG. -/
def remembering : State :=
  config.modSt 0 (fun x => { x with remembered := some ⟨77, .programme, .required⟩ })

theorem test_meets_ConfEntersConfig :
    (segmented.readyToTake = true ∧ segmented.settingsKnown = true ∧ segmented.alarm.mode = .run ∧
      segmented.st[(0 : LaneNo)].seg.isSome = true ∧ (∀ k : LaneNo, k ≠ 0 → segmented.st[k].seg = none) ∧
      segmented.alarm.inForce = .steady) ∧
    (config.readyToTake = true ∧ config.settingsKnown = true ∧ config.alarm.mode = .config) ∧
    (let paired : State := { segmented with alarm := { Alarm.reset with inForce := .paired } };
      paired.readyToTake = true ∧ paired.settingsKnown = true ∧ paired.alarm.inForce = .paired ∧
        paired.alarm.mode = .run) := by
  decide +kernel
theorem test_meets_RunmLeavesConfig :
    (remembering.readyToTake = true ∧ remembering.alarm.mode = .config ∧ remembering.format = none ∧
      remembering.st[(0 : LaneNo)].remembered = some ⟨77, .programme, .required⟩ ∧
      remembering.st[(1 : LaneNo)].remembered = none ∧ remembering.settings.protocolSet = .steady) ∧
    (let formatting : State := { config with format := some 15 };
      formatting.readyToTake = true ∧ formatting.alarm.mode = .config ∧ formatting.format ≠ none) ∧
    (let paired : State := { config with settings := { Settings.default with protocolSet := .paired } };
      paired.format = none ∧ paired.settings.protocolSet = .paired ∧ paired.alarm.overall ≠ .breach ∧
        paired.readyToTake = true ∧ paired.alarm.mode = .config) := by
  decide +kernel
theorem test_meets_TimeSetsStationTimeOrIsRefused :
    (ready.readyToTake = true ∧ ready.station = none ∧ ready.scanning = false ∧ ready.latestSealed.getD 0 ≤ 0) ∧
    (let s : State := { config with station := some 5000 };
      s.readyToTake = true ∧ s.station = some 5000 ∧ s.alarm.mode = .config ∧ (5000 : Nat) ≤ 5000 ∧
        5000 + 281474976705655 ≤ 281474976710655 ∧ 281474976710655 < 5000 + 281474976705656 ∧ (4999 : Nat) < 5000) ∧
    (State.reset.readyToTake = true ∧ State.reset.station = none ∧ State.reset.scanning = true) ∧
    (let s : State := { archived with station := none };
      s.readyToTake = true ∧ s.station = none ∧ s.scanning = false ∧ 1999 < s.latestSealed.getD 0) ∧
    (timed.readyToTake = true ∧ timed.station = some 5000 ∧ timed.alarm.mode = .run) := by decide +kernel

/-! ### Format, resets, notices, findings, holds, recalls -/

theorem test_meets_FmatBeginsTheFormat :
    (config.readyToTake = true ∧ config.alarm.mode = .config ∧ config.scanning = false ∧ config.format = none ∧
      config.holds.table = [] ∧ (∀ k : SlotNo, config.slots[k].active = false) ∧ config.store.inFlight = none ∧
      config.store.interrupted = none ∧ config.alarm.configTimer = .running 60000) ∧
    (let s := ({ config with retry := some 700 } : State).modAc 0 (fun a => { a with alloc := .wanted });
      s.ac[(0 : LaneNo)].alloc = .wanted ∧ s.anyWanted = true ∧ s.retry.isSome = true ∧ s.readyToTake = true ∧
        s.alarm.mode = .config ∧ s.holds.table = []) ∧
    (let s : State := { config with scan := .awaiting };
      s.readyToTake = true ∧ s.alarm.mode = .config ∧ s.scanning = true) ∧
    (let s : State := { config with format := some 1 };
      s.readyToTake = true ∧ s.alarm.mode = .config ∧ s.scanning = false ∧ s.format ≠ none) ∧
    (let s : State := { config with holds := ⟨[⟨1, 0, 0, none, .host, false⟩], 2⟩ };
      s.readyToTake = true ∧ s.alarm.mode = .config ∧ s.scanning = false ∧ s.format = none ∧ s.holds.table ≠ []) ∧
    (let s := recalling .paused config;
      s.readyToTake = true ∧ s.alarm.mode = .config ∧ s.scanning = false ∧ s.format = none ∧ s.holds.table = [] ∧
        ∃ k : SlotNo, s.slots[k].active = true) := by decide +kernel
theorem test_meets_RstaBeginsTheWarmReset :
    (ready.readyToTake = true ∧ ready.scanning = false ∧ ready.format = none) ∧
    (let s := recalling .running config;
      s.readyToTake = true ∧ s.scanning = false ∧ s.format = none ∧ s.alarm.mode = .config ∧
        s.slots[(0 : SlotNo)].active = true ∧ s.slots[(1 : SlotNo)].active = false) ∧
    (let s : State := { ready with format := some 1 };
      s.readyToTake = true ∧ s.scanning = false ∧ s.format ≠ none) := by decide +kernel
theorem test_meets_LrstResetsTheNamedLane :
    (ready.readyToTake = true ∧ ready.st[(7 : LaneNo)].seg = none ∧ ready.gateOpen = false) ∧
    (segmented.readyToTake = true ∧ segmented.st[(0 : LaneNo)].seg.isSome = true) ∧
    (let s := recalling .paused ready;
      s.readyToTake = true ∧ s.slots[(0 : SlotNo)].active = true ∧
        s.slots[(0 : SlotNo)].request.map RecallRequest.lane = some 0 ∧ s.slots[(1 : SlotNo)].active = false) := by
  decide +kernel
/-- Lane 0 has a FILLING buffer with a record, behind an OPEN extent with a page. -/
def buffering : State :=
  ({ ready with extents := ready.extents.map (fun x =>
      if x.no = 3 then ⟨3, .opened, some 0, some 1000, some 2000, 1, false⟩ else x) } : State).modAc 0 (fun a => { a with
    alloc := .writing ⟨3, 1000, 0, true, 0⟩
    buffers := a.buffers.set 0 ⟨.filling, [⟨recMark, 4000, [0#8]⟩], 0, false⟩ })

theorem test_a_lane_reset_flushes_the_lane :
    (let t := buffering.laneReset 0;
      t.ac[(0 : LaneNo)].buffers[(0 : Fin 4)].state = .waiting ∧
        t.ac[(0 : LaneNo)].buffers[(0 : Fin 4)].sealAfter = true) ∧
    (let t := (buffering.modAc 0 (fun a => { a with buffers := Vector.replicate 4 .empty })).laneReset 0;
      t.ac[(0 : LaneNo)].alloc = .idle ∧ t.ac[(0 : LaneNo)].seals = [⟨3, 2, 1000, 2000, 1, 2⟩]) := by decide +kernel
/-- Lane 0 writes into its OPEN extent 3, of some pages, with page buffers, and the gate is open. -/
def committing (pages : Nat) (buffers : Vector PageBuffer 4) : State :=
  ({ timed with extents := timed.extents.map (fun x =>
      if x.no = 3 then ⟨3, .opened, some 0, some 1000, some 2000, pages, false⟩ else x) } : State).modAc 0 (fun a => { a with
    alloc := .writing ⟨3, 1000, 0, true, 0⟩
    buffers := buffers })

/-- A page buffer with a record. -/
def loaded (state : BufferState) (sealAfter : Bool) : PageBuffer := ⟨state, [⟨recMark, 4000, [0#8]⟩], 1, sealAfter⟩

theorem test_meets_LrstResetsTheNamedLane_with_the_gate_open :
    (let s := committing 4 #v[loaded .waiting false, loaded .programming false, loaded .filling false, .empty];
      s.readyToTake = true ∧ s.gateOpen = true ∧ s.ac[(0 : LaneNo)].alloc = .writing ⟨3, 1000, 0, true, 0⟩ ∧
        s.ac[(0 : LaneNo)].buffers[(2 : Fin 4)].records ≠ []) ∧
    (∀ pages ∈ [0, 4], let s := committing pages (Vector.replicate 4 .empty);
      s.readyToTake = true ∧ s.gateOpen = true ∧ s.attemptDue = false ∧ (∀ l : LaneNo, s.needsExtent l = false) ∧
        s.anyWanted = false ∧ (∀ i : Fin 4, s.ac[(0 : LaneNo)].buffers[i] = ⟨.free, [], 0, false⟩) ∧
        s.ac[(0 : LaneNo)].gaps = .zero ∧ s.st[(0 : LaneNo)].seg = none ∧ s.cm[(0 : LaneNo)].lost.finding = none ∧
        s.cm[(0 : LaneNo)].drift.finding = none ∧ (s.extentOf 3).map Extent.pages = some pages) := by decide +kernel
theorem test_committing_is_bounded_and_owned :
    let s := committing 4 #v[loaded .waiting false, loaded .programming false, loaded .filling false, .empty];
    s.findingsOwned ∧ s.bounded :=
  ⟨⟨by decide +kernel, by decide +kernel⟩, by decide, by decide, by decide, by decide, by decide, by decide +kernel,
    by decide +kernel, by decide +kernel, by decide +kernel, by decide, by decide,
    (test_tiles_and_turn_from_data _ (by decide +kernel)).1, (test_tiles_and_turn_from_data _ (by decide +kernel)).2⟩
theorem test_meets_NoteReturnsEveryNotice :
    (ready.readyToTake = true ∧ ready.notices.recallEnd[(0 : SlotNo)] = false) ∧
    (let s : State := { recalling .aborted ready with
        notices := { Notices.empty with recallEnd := Vector.replicate 2 true } };
      s.readyToTake = true ∧ s.notices.recallEnd[(0 : SlotNo)] = true ∧ s.slots[(0 : SlotNo)].state = .aborted) := by
  decide +kernel
theorem test_meets_AckfAcknowledges :
    ready.readyToTake = true ∧ ready.dev.log.any (fun f => f.id == 1 && f.ackable) = false ∧
    (let s : State := { ready with dev := { CmDevice.reset with log := [finding 1 .active false] } };
      s.readyToTake = true ∧ s.dev.log.any (fun f => f.id == 1 && f.ackable) = true) := by decide +kernel

/-- Hold 1 stands in the table. -/
def holding : State := { ready with holds := ⟨[⟨1, 0, 1000, none, .host, false⟩], 2⟩ }

theorem test_meets_HoldAndHrelChangeTheHoldTable :
    (ready.readyToTake = true ∧ ready.scanning = false ∧ ready.holds.table.length < 64) ∧
    (State.reset.readyToTake = true ∧ State.reset.scanning = true) ∧
    (let s : State := { ready with
        holds := ⟨(List.range 64).map (fun i => ⟨i + 1, 0, 0, none, .host, false⟩), 65⟩ };
      s.readyToTake = true ∧ s.scanning = false ∧ (7 : Nat) < 8 ∧ 64 ≤ s.holds.table.length) ∧
    (holding.readyToTake = true ∧ holding.settingsKnown = true ∧ holding.holds.uses 2 = false ∧
      holding.holds.uses 1 = true ∧ holding.anyWanted = false) := by decide +kernel
theorem test_holding_is_settled : holding.settled := ⟨rfl, by decide +kernel⟩
theorem test_meets_RecallsStartAndStop :
    (archived.readyToTake = true ∧ archived.scanning = false ∧ archived.format = none ∧
      archived.slots[(1 : SlotNo)].state = .idle ∧ archived.newestExtent 7 = none ∧
      archived.newestExtent 0 = some ⟨1000, 4, 2⟩) ∧
    (archived.extents = archived.extents.take 4 ++ ⟨4, .sealed, some 0, some 1000, some 2000, 2, false⟩
        :: archived.extents.drop 5 ∧
      (min 2000 3000 ≤ 2000 ∧ 1000 ≤ 3000 ∧ 1000 ≤ 1000) ∧
      (∀ x ∈ archived.extents.take 4 ++ archived.extents.drop 5, x.tag = none)) ∧
    ¬ (min 2001 3000 ≤ 2000) ∧
    (let s := recalling .done ready;
      s.readyToTake = true ∧ s.scanning = false ∧ s.format = none ∧ s.slots[(0 : SlotNo)].state ≠ .idle ∧
        s.slots[(0 : SlotNo)].active = false) ∧
    (let s := recalling .paused ready;
      s.readyToTake = true ∧ s.slots[(0 : SlotNo)].active = true) := by decide +kernel
theorem test_meets_RecallsStartAndStop_for_refusals :
    (State.reset.readyToTake = true ∧ State.reset.scanning = true) ∧
    (let s : State := { ready with format := some 1 };
      s.readyToTake = true ∧ s.scanning = false ∧ s.format ≠ none) ∧
    (ready.readyToTake = true ∧ ready.scanning = false ∧ ready.format = none ∧ (8 ≤ 8 ∨ 2 ≤ 1) ∧ (8 ≤ 7 ∨ 2 ≤ 2)) := by
  decide +kernel

/-! ### Timers -/

/-- In CONFIG at the config timer's expiry, with an unacknowledged BREACH finding of lane 0 ACTIVE. -/
def breached : State :=
  { config with
    clock := 60000
    alarm := { config.alarm with overall := .breach }
    dev := { CmDevice.reset with log := [finding 1 .active false], nextId := 2 }
    cm := config.cm.set 0 { CmLane.reset with status := .breach } }

/-- Lane 0's timers stand at an expiry of 100. -/
def ticking (clock : Nat) : State :=
  { ({ ready with clock := clock, alarm := { Alarm.reset with
        mode := .config, configTimer := .running 100, swap := some 100, inForce := .paired }, retry := some 100 } : State)
    with
    liu := ready.liu.set 0 { Liu.reset with
      carriage := .present, gapTimer := some 100, openTile := some 7, holdOff := true, resend := some 100 }
    le := ready.le.set 0 { LeLane.reset with acc := some ⟨7, 4, 0, 0⟩ }
    cc := ready.cc.set 0 { CcLane.reset with live := true, keepalive := some 100 }
    cm := ready.cm.set 0 { CmLane.reset with lost := ⟨some (finding 1 .pending false), some 100⟩ } }

theorem test_meets_ResendKeepaliveAndSwapTimersExpire :
    (let s := ticking 100;
      timerDue s.liu[(0 : LaneNo)].resend s.clock = true ∧ s.liu[(0 : LaneNo)].holdOff = true ∧ s.warm = none ∧
        timerDue s.cc[(0 : LaneNo)].keepalive s.clock = true ∧ timerDue s.alarm.swap s.clock = true) ∧
    (let s := ticking 99;
      timerDue s.liu[(0 : LaneNo)].resend s.clock = false ∧ timerDue s.cc[(0 : LaneNo)].keepalive s.clock = false ∧
        timerDue s.alarm.swap s.clock = false) := by decide +kernel
theorem test_meets_ResendKeepaliveAndSwapTimersExpire_for_hold_off :
    (∀ s ∈ [enabled, crowded enabled], s.warm = none ∧ s.laneEnabled 0 = true ∧ s.liu[(0 : LaneNo)].holdOff = false) ∧
    (crowded enabled).ac[(0 : LaneNo)].canTake ≤ 1 ∧ 2 ≤ enabled.ac[(0 : LaneNo)].canTake ∧
    (let s := enabled.modLiu 0 (fun x => { x with holdOff := true });
      s.warm = none ∧ s.laneEnabled 0 = true ∧ 2 ≤ s.ac[(0 : LaneNo)].canTake ∧ s.liu[(0 : LaneNo)].holdOff = true) ∧
    (enabled.ac[(0 : LaneNo)].canTake ≤ 1 ↔ enabled.liu[(0 : LaneNo)].holdOff = true) := by decide +kernel
theorem test_ticking_is_settled : (ticking 100).settled := ⟨rfl, by decide +kernel⟩
theorem test_meets_ConfigTimerExpiryLeavesConfig :
    (ticking 100).alarm.configTimer.due (ticking 100).clock = true ∧
      (ticking 99).alarm.configTimer.due (ticking 99).clock = false ∧
      remembering.st[(0 : LaneNo)].remembered = some ⟨77, .programme, .required⟩ ∧
      ({ remembering with clock := 60000 } : State).alarm.configTimer.due 60000 = true ∧
      remembering.settings.protocolSet = .steady ∧ remembering.alarm.overall ≠ .breach ∧
      (let s : State := { breached with settings := { Settings.default with protocolSet := .paired } };
        s.settings.protocolSet = .paired ∧ s.alarm.overall = .breach ∧ s.alarm.configTimer.due s.clock = true) := by
  decide +kernel
theorem test_remembering_and_breached_are_settled_and_follow :
    (remembering.settled ∧ remembering.statusesFollow) ∧ (breached.settled ∧ breached.statusesFollow) :=
  ⟨⟨⟨rfl, by decide +kernel⟩, ⟨by decide +kernel, by decide +kernel, by decide +kernel⟩⟩,
    ⟨⟨rfl, by decide +kernel⟩, ⟨by decide +kernel, by decide +kernel, by decide +kernel⟩⟩⟩

/-- Lane 0 is WANTED, with a page buffer that waits. -/
def wanting (s : State) : State :=
  s.modAc 0 (fun a => { a with
    alloc := .wanted
    buffers := a.buffers.set 0 ⟨.waiting, [⟨recMark, 4000, [0#8]⟩], 0, false⟩ })

theorem test_meets_RetryTimerMakesAttempts :
    (timerDue (ticking 100).retry (ticking 100).clock = true ∧ (ticking 100).gateOpen = false) ∧
    (let s : State := { wanting timed with retry := some 0 };
      timerDue s.retry s.clock = true ∧ s.gateOpen = true ∧ s.ac[(0 : LaneNo)].alloc = .wanted ∧
        (∀ k : LaneNo, k ≠ 0 → s.ac[k].alloc ≠ .wanted) ∧
        ((s.candidates 0).find? (fun x => x.state == .free)).isSome = true ∧
        s.ac[(0 : LaneNo)].stalled = false ∧ s.ac[(0 : LaneNo)].short = false) := by decide +kernel
/-- Lane 0 is WANTED and its only extent, 1, is SEALED. -/
def starved (faulty held stalled : Bool) : State :=
  ({ wanting timed with
    retry := some 0
    settings := { Settings.default with
      floorDays := 1
      extentMap := { ExtentMap.default with
        lo := 1, hi := 1, directed := ExtentMap.default.directed.set 0 (some ⟨1, 2, 0⟩) } }
    holds := ⟨if held then [⟨1, 0, 1000, none, .host, false⟩] else [], 2⟩
    extents := (freshExtents 16).map (fun x =>
      if x.no = 1 then ⟨1, .sealed, some 0, some 1000, some 2000, 2, faulty⟩ else x) } : State).modAc 0
    (fun a => { a with stalled := stalled })

theorem test_meets_RetryTimerMakesAttempts_when_starved :
    (∀ s ∈ [starved false false true, starved true false false, starved false true false, starved false true true],
      timerDue s.retry s.clock = true ∧ s.gateOpen = true ∧ s.ac[(0 : LaneNo)].alloc = .wanted ∧
      (∀ k : LaneNo, k ≠ 0 → s.ac[k].alloc ≠ .wanted) ∧ s.warm = none ∧
      (s.candidates 0).map Extent.no = [1] ∧ ∀ x ∈ s.candidates 0, x.state = .sealed) ∧
    (∀ x ∈ (starved false false true).candidates 0, x.faulty = false ∧ (starved false false true).protects x = false) ∧
    (∀ x ∈ (starved true false false).candidates 0, x.faulty = true ∧ (starved true false false).protects x = false) ∧
    (∀ x ∈ (starved false true false).candidates 0, (starved false true false).protects x = true) ∧
    (let s : State := { starved false true false with warm := some ⟨Vector.replicate 8 false, false⟩ };
      s.warm.isSome = true ∧ s.gateOpen = true ∧ ∀ x ∈ s.candidates 0, s.protects x = true) := by decide +kernel
theorem test_starved_is_settled :
    (starved false false true).settled ∧ (starved true false false).settled ∧ (starved false true false).settled ∧
      (starved false true true).settled :=
  ⟨⟨rfl, by decide +kernel⟩, ⟨rfl, by decide +kernel⟩, ⟨rfl, by decide +kernel⟩, ⟨rfl, by decide +kernel⟩⟩
/-- Lane 0 keeps a RETENTION_SHORT and an ARCHIVE_STALLED finding of its own, and the store is lost. -/
def reporting (s : State) : State :=
  { s.modCm 0 (fun c => { c with
      shortFinding := some (finding 1 .active false), stalledFinding := some (finding 2 .active false) }) with
    dev := { CmDevice.reset with storeLost := some { finding 3 .active false with lane := none } } }

theorem test_meets_findingsOwned_in_the_attempts_and_completions :
    (ticking 100).findingsOwned ∧ (reporting (starved false true true)).findingsOwned ∧
      (reporting (wanting timed)).findingsOwned ∧
      (flying (.laneProgram 0 (.content 0) 3 5)
        (committing 4 #v[loaded .programming true, loaded .waiting false, .empty, .empty])).findingsOwned :=
  ⟨⟨by decide +kernel, by decide +kernel⟩, ⟨by decide +kernel, by decide +kernel⟩, ⟨by decide +kernel, by decide +kernel⟩,
    ⟨by decide +kernel, by decide +kernel⟩⟩
theorem test_wanting_is_settled : ({ wanting timed with retry := some 0 } : State).settled := ⟨rfl, by decide +kernel⟩
/-- The same with lane 0 IDLE and enabled. -/
def starting (s : State) : State :=
  State.modAc 0 (fun _ => .reset) { s with settings := { s.settings with lanes := enabled.settings.lanes }, retry := none }

theorem test_meets_RetryTimerMakesAttempts_at_once :
    (∀ s ∈ [starting timed, starting (starved false true false)],
      s.attemptDue = false ∧ (∀ l : LaneNo, s.needsExtent l = false) ∧ s.warm = none ∧ s.gateOpen = true ∧
        s.ac[(0 : LaneNo)].stalled = false ∧ s.ac[(0 : LaneNo)].alloc = .idle ∧ s.ac[(0 : LaneNo)].gaps.any = false ∧
        s.anyWanted = false ∧
        intakeCheck (s.laneEnabled 0) 0 s.liu[(0 : LaneNo)] (gather (buildCell 0 kindProxy [1#8])) = none) ∧
    (((starting timed).candidates 0).find? (fun x => x.state == .free)).isSome = true ∧
    (∀ y ∈ (starting (starved false true false)).candidates 0,
      y.state = .sealed ∧ (starting (starved false true false)).protects y = true) ∧
    (∀ t ∈ [wanting timed, starved false true false],
      let s := flying .identify { t with store := { t.store with up := false, nextIdentify := some 5000 } };
      s.store.inFlight = some ⟨⟨.identify, false⟩, 0⟩ ∧ s.store.up = false ∧ s.store.count = some 16 ∧
        s.station.isSome = true ∧ s.scanning = false ∧ s.format = none ∧ s.ac[(0 : LaneNo)].alloc = .wanted ∧
        (∀ k : LaneNo, k ≠ 0 → s.ac[k].alloc ≠ .wanted) ∧ s.dev.storeLost.bind Finding.holdId = none ∧
        s.attemptDue = false ∧ s.warm = none ∧ s.ac[(0 : LaneNo)].stalled = false) := by decide +kernel
theorem test_fresh_conditions_are_owned (s : State) (c : s.cm = State.reset.cm) (d : s.dev = .reset) : s.findingsOwned where
  lanes l f hf := by
    have e : ∀ k : LaneNo, State.reset.cm[k].kept = [] := by decide +kernel
    rw [c, e l] at hf
    exact absurd hf (by simp)
  device f hf := by
    rw [d] at hf
    exact absurd hf (by simp [CmDevice.reset])
theorem test_meets_findingsOwned_with_fresh_conditions :
    ∀ s ∈ [wanting timed, starved false false true, starved true false false, starved false true false,
        starved false true true, starting timed, starting (starved false true false), committing 0 (Vector.replicate 4 .empty)],
      s.cm = State.reset.cm ∧ s.dev = .reset := by decide +kernel
theorem test_meets_GapTimerExpiryLosesTheLane :
    (let s := ticking 100;
      timerDue s.liu[(0 : LaneNo)].gapTimer s.clock = true ∧ s.liu[(0 : LaneNo)].carriage ≠ .lost ∧
        s.liu[(0 : LaneNo)].openTile.isSome = true ∧ s.le[(0 : LaneNo)].acc = some ⟨7, 4, 0, 0⟩) ∧
    (let s : State := State.modLiu 0 (fun x => { x with openTile := none }) (ticking 100);
      timerDue s.liu[(0 : LaneNo)].gapTimer s.clock = true ∧ s.liu[(0 : LaneNo)].openTile = none) ∧
    timerDue (ticking 99).liu[(0 : LaneNo)].gapTimer (ticking 99).clock = false := by decide +kernel

/-- Lane 0's rate window has lasted its time, with a count. -/
def windowed (c : Carriage) (count : Nat) : State :=
  { ({ ready with clock := 10000 } : State) with
    liu := ready.liu.set 0 { Liu.reset with carriage := c, window := some ⟨0, count⟩ } }

theorem test_meets_RateWindowIsJudged :
    (∀ s ∈ [windowed .present 989, windowed .present 1010, windowed .drift 1011, windowed .drift 990],
      s.liu[(0 : LaneNo)].window.map RateWindow.start = some 0 ∧ 0 + 10000 ≤ s.clock ∧
        (s.laneSettings 0).rateLow = 990 ∧ (s.laneSettings 0).rateHigh = 1010) ∧
    (windowed .present 1010).liu[(0 : LaneNo)].carriage = .present ∧
    (windowed .drift 1011).liu[(0 : LaneNo)].carriage = .drift := by decide +kernel
theorem test_windowed_is_settled : (windowed .present 1010).settled := ⟨rfl, by decide +kernel⟩
theorem test_meets_GraceExpiryActivatesTheFinding :
    timerDue ((ticking 100).cm[(0 : LaneNo)].cond .lost).grace (ticking 100).clock = true ∧
      ((ticking 100).cm[(0 : LaneNo)].cond .lost).finding = some (finding 1 .pending false) := by decide +kernel

/-- A finding of lane 0 in a condition, with a measured value. -/
def measuring (state : FindingState) : Finding := { finding 1 state false with measured := some 9 }

/-- A tile record of lane 0. -/
def tileRecord (void silent alive stale : Bool) : TileRecord :=
  ⟨7, some 6000, 10, if void then none else some 1, some (-7), ⟨-7, stale⟩, ⟨-50, stale⟩, -50, silent, alive, some 77⟩

theorem test_meets_GraceExpiryActivatesTheFinding_for_a_watched_segment :
    (∀ s a, (tileRecord true s a true).void = true ∧ (tileRecord false s a false).void = false ∧
      (tileRecord false s a false).silent = s ∧ (tileRecord false s a false).alive = a) ∧
    ((tileRecord false true true false).shortTerm = ⟨-50, false⟩ ∧
      (appliedRule ruleFields).shortCeiling = some 200 ∧ RuleSet.default.shortCeiling = none ∧
      ({ RuleSet.default with shortCeiling := some (-51) } : RuleSet).shortCeiling = some (-51) ∧ (-51 : Int) < -50) ∧
    (RunCond.fresh.finding = none ∧ RunCond.fresh.run + 1 < 10 ∧ 10 ≤ (⟨9, some 1, 0, none⟩ : RunCond).run + 1 ∧
      (⟨9, some 1, 3, some (measuring .pending)⟩ : RunCond).finding = some (measuring .pending)) ∧
    ((⟨true, some 1, 3, some (measuring .active)⟩ : OverCond).isOver = true ∧ OverCond.fresh.isOver = false ∧
      (measuring .active).measured = some 9) ∧
    (let w : Watched := ⟨⟨77, .programme, .required⟩, some 0, ⟨9, some 1, 3, some (measuring .pending)⟩, .fresh,
        ⟨true, some 1, 3, some { measuring .active with id := 2 }⟩⟩;
      let s : State := { ready with cm := ready.cm.set 0 { CmLane.reset with watched := some w } };
      let findings := w.deadAir.finding.toList ++ w.captionGap.finding.toList ++ w.stCeiling.finding.toList;
      s.cm[(0 : LaneNo)].watched = some w ∧ findings.length = 2 ∧
        ∀ f ∈ findings, ∀ g ∈ findings, g.id = f.id → g = f) := by decide +kernel

/-! ### The store -/

def holdsWrite : SysWrite := ⟨1, 0, .holds ⟨[], 1⟩, false⟩
def saveWrite : SysWrite := ⟨1, 0, .image .default, true⟩

theorem test_meets_StoreIssuesInOrder :
    State.reset.mayIssue = false ∧
    (let s : State := { ready with store := { ready.store with interrupted := some ⟨.sysErase, false⟩ } };
      s.mayIssue = true ∧ s.store.interrupted = some ⟨.sysErase, false⟩) ∧
    (let s : State := { ready with sys := ⟨some 4095, 2, 0, none, [holdsWrite]⟩ };
      s.mayIssue = true ∧ s.store.interrupted = none ∧ s.settingsKnown = true ∧ s.sys.queue = [holdsWrite] ∧
        s.sys.appendPage = some 4095) ∧
    (let s : State := { ready with sys := ⟨none, 2, 0, none, [holdsWrite]⟩ };
      s.mayIssue = true ∧ s.store.interrupted = none ∧ s.settingsKnown = true ∧ s.sys.queue ≠ [] ∧
        s.sys.appendPage = none) ∧
    (let s : State := { ready with scan := .system 0 .empty };
      s.mayIssue = true ∧ s.store.interrupted = none ∧ s.scan = .system 0 .empty) ∧
    (let s : State := { ready with scan := .extents 1 (.sealPage 0 0) true };
      s.mayIssue = true ∧ s.store.interrupted = none ∧ s.sys.queue = [] ∧ s.scan = .extents 1 (.sealPage 0 0) true) ∧
    (ready.mayIssue = true ∧ ready.store.interrupted = none ∧ ready.nextOp.isNone = true) := by decide +kernel

/-- Lane 0 has a program of each kind to offer in turn, and lane 1 a later one. -/
def offering (sealing header : Bool) : State :=
  (buffering.modAc 0 (fun a => { a with
      seals := if sealing then [⟨2, 5, 1, 2, 4, 3⟩] else []
      alloc := .writing ⟨3, 1000, 0, !header, 4⟩
      buffers := a.buffers.set 1 ⟨.waiting, [⟨recMark, 4000, [0#8]⟩], 5, false⟩ })).modAc 1 (fun a => { a with
    seals := [⟨9, 5, 1, 2, 4, 6⟩] })

theorem test_meets_StoreIssuesInOrder_for_lanes :
    (∀ s ∈ [offering true true, offering false true, offering false false],
      s.mayIssue = true ∧ s.store.interrupted = none ∧ s.sys.queue = [] ∧ s.scan = .done ∧
      (s.laneOffer 0).isSome = true ∧ ∀ k : LaneNo, k ≠ 0 → ∀ o ∈ (s.laneOffer k).toList, 5 < o.ready) ∧
    ((offering true true).laneOffer 0).map Offer.ready = some 3 ∧
    ((offering false true).laneOffer 0).map Offer.what = some (.header 1000 1000 0) ∧
    ((offering false false).laneOffer 0).map Offer.what = some (.content 1) ∧
    (∀ j : Fin 4, j ≠ 1 → (offering false false).ac[(0 : LaneNo)].buffers[j].state ≠ .waiting) := by decide +kernel
theorem test_meets_StoreIssuesInOrder_for_erases_and_reads :
    (let s : State := { ready with store := { ready.store with erases := [⟨3, some 0⟩, ⟨4, none⟩] } };
      s.mayIssue = true ∧ s.sys.queue = [] ∧ s.scan = .done ∧ (∀ l : LaneNo, s.laneOffer l = none) ∧
        s.store.erases = [⟨3, some 0⟩, ⟨4, none⟩]) ∧
    (let x : Slot := { Slot.reset with state := .running, request := some ⟨0, 1, 2⟩, position := some (4, 1) };
      let s : State := { archived with
        slots := Vector.replicate 2 x, store := { archived.store with lastRecall := some 0 } };
      s.store.erases = [] ∧ s.slots[(1 : SlotNo)].state = .running ∧ s.slots[(1 : SlotNo)].page = [] ∧
        s.slots[(1 : SlotNo)].position = some (4, 1) ∧ s.store.lastRecall = some 0 ∧ s.mayIssue = true ∧
        ∀ l : LaneNo, s.laneOffer l = none) := by decide +kernel

/-- The store is DOWN at a moment, its IDENTIFY due. -/
def down (clock : Nat) : State :=
  { ready with clock := clock, store := { ready.store with up := false, nextIdentify := some 5000 } }

theorem test_meets_StoreTimeoutAndIdentifyRetry :
    (let s : State := { flying .sysErase ready with clock := 500 };
      s.store.inFlight = some ⟨⟨.sysErase, false⟩, 0⟩ ∧ 0 + 500 ≤ s.clock ∧ s.store.up = true) ∧
    (let s := flying .identify (down 500);
      s.store.inFlight = some ⟨⟨.identify, false⟩, 0⟩ ∧ 0 + 500 ≤ s.clock ∧ s.store.up = false) ∧
    (let s : State := { flying .sysErase ready with clock := 499 };
      s.store.inFlight = some ⟨⟨.sysErase, false⟩, 0⟩ ∧ s.clock < 0 + 500) ∧
    ((down 5000).store.up = false ∧ timerDue (down 5000).store.nextIdentify 5000 = true ∧
      (down 5000).store.inFlight = none) ∧ ready.store.up = true := by decide +kernel
theorem test_down_is_settled : (flying .identify (down 500)).settled := ⟨rfl, by decide +kernel⟩
theorem test_meets_IdentifyCompletionSetsTheStoreState :
    (State.reset.store.inFlight = some ⟨⟨.identify, false⟩, 0⟩ ∧ (16 : Nat) ≤ 16 ∧ (65536 : Nat) ≤ 65536 ∧
      State.reset.store.up = true ∧ State.reset.store.count = none) ∧
    (let s := flying .identify (down 500);
      s.store.inFlight = some ⟨⟨.identify, false⟩, 0⟩ ∧ s.store.up = false ∧ s.store.count = some 16 ∧ 17 ≠ 16) := by
  decide +kernel
theorem test_meets_IdentifyCompletionSetsTheStoreState_at_the_first_count :
    let s := flying .identify { State.reset with
      store := { State.reset.store with up := false, nextIdentify := some 5000 } };
    s.store.inFlight = some ⟨⟨.identify, false⟩, 0⟩ ∧ s.store.up = false ∧ s.store.count = none := by decide +kernel
theorem test_reset_is_unsettled_by_nothing : State.reset.attemptDue = false ∧
    ∀ l : LaneNo, State.reset.needsExtent l = false := by decide +kernel
theorem test_meets_LaneProgramCompletes :
    (let s := flying (.laneProgram 0 (.header 5000 4000 0) 3 0) (writing timed);
      s.ac[(0 : LaneNo)].alloc = .writing ⟨3, 5000, 0, false, 0⟩ ∧
        s.store.inFlight = some ⟨⟨.laneProgram 0 (.header 5000 4000 0) 3 0, false⟩, 0⟩) ∧
    (let s := flying (.laneProgram 0 (.content 2) 3 4093) (writing timed);
      s.ac[(0 : LaneNo)].alloc = .writing ⟨3, 5000, 0, false, 0⟩ ∧ (4093 : Nat) ≠ 4094 ∧
        s.ac[(0 : LaneNo)].buffers[(2 : Fin 4)].sealAfter = false ∧
        s.store.inFlight = some ⟨⟨.laneProgram 0 (.content 2) 3 4093, false⟩, 0⟩) ∧
    (flying (.laneProgram 0 (.sealPage ⟨3, 2, 1, 2, 1, 0⟩) 3 2) timed).store.inFlight
      = some ⟨⟨.laneProgram 0 (.sealPage ⟨3, 2, 1, 2, 1, 0⟩) 3 2, false⟩, 0⟩ ∧
    (withdrawn (.laneProgram 0 (.content 2) 3 1) timed).store.inFlight
      = some ⟨⟨.laneProgram 0 (.content 2) 3 1, true⟩, 0⟩ := by decide +kernel
/-- The map that gives every extent to lane 0. -/
def ownedWhole (s : State) : State :=
  { s with settings := { s.settings with extentMap := { ExtentMap.default with
      lo := 1, hi := 1, directed := ExtentMap.default.directed.set 0 (some ⟨1, 100, 0⟩) } } }

/-- Extents other than 3 that were FREE are SEALED for lane 0. -/
def filledUp (s : State) : State :=
  { s with extents := s.extents.map (fun x =>
      if x.state = .free then ⟨x.no, .sealed, some 0, some 10, some 20, 2, false⟩ else x) }

theorem test_meets_LaneProgramCompletes_at_a_seal :
    (∀ s ∈ [committing 4 #v[loaded .programming true, .empty, .empty, .empty],
        committing 4 #v[loaded .programming true, loaded .waiting false, .empty, .empty]],
      let s := flying (.laneProgram 0 (.content 0) 3 5) s;
      s.attemptDue = false ∧ (∀ l : LaneNo, s.needsExtent l = false) ∧ s.gateOpen = true ∧ s.anyWanted = false ∧
        s.ac[(0 : LaneNo)].alloc = .writing ⟨3, 1000, 0, true, 0⟩ ∧ (s.extentOf 3).isSome = true ∧
        s.ac[(0 : LaneNo)].buffers[(0 : Fin 4)].sealAfter = true ∧ s.ac[(0 : LaneNo)].stalled = false ∧
        s.ac[(0 : LaneNo)].short = false ∧
        ((s.candidates 0).find? (fun x => x.state == .free)).map Extent.no = some 1) ∧
    (loaded .waiting false).state ≠ .free ∧ PageBuffer.empty.state = .free ∧ ready.store.inFlight = none := by
  decide +kernel
theorem test_meets_LaneProgramCompletes_at_a_failure :
    (∀ op ∈ [LanePage.content 0, .header 5000 4000 0], ∀ pages ∈ [0, 4], ∀ s ∈
        [committing pages #v[loaded .programming false, loaded .waiting false, .empty, .empty],
          ownedWhole (committing pages #v[loaded .programming false, loaded .waiting false, .empty, .empty])],
      let s := flying (.laneProgram 0 op 3 (pages + 1)) s;
      s.attemptDue = false ∧ (∀ l : LaneNo, s.needsExtent l = false) ∧ s.gateOpen = true ∧ s.anyWanted = false ∧
        s.warm = none ∧ s.ac[(0 : LaneNo)].alloc = .writing ⟨3, 1000, 0, true, 0⟩ ∧
        s.ac[(0 : LaneNo)].buffers[(1 : Fin 4)].state = .waiting ∧ (∀ y ∈ s.extents, y.no = 3 → y.pages = pages) ∧
        ((s.candidates 0).find? (fun x => x.state == .free)).map Extent.no = some 1 ∧ s.extents[1]?.map Extent.no = some 1 ∧
        (∀ y ∈ s.extents.take 1, y.no ≠ 3)) ∧
    (let s := filledUp (ownedWhole (committing 0 #v[loaded .programming false, .empty, .empty, .empty]));
      s.gateOpen = true ∧ s.settings.extentMap.owner s.extents.length 3 = some 0 ∧ s.extents[3]?.map Extent.no = some 3 ∧
        (∀ y ∈ s.extents.take 3, y.state ≠ .free)) ∧
    (committing 0 (Vector.replicate 4 .empty)).settings.extentMap.owner 16 3 ≠ some 0 ∧
    (let s := flying (.laneProgram 0 (.sealPage ⟨4, 3, 1000, 2000, 2, 0⟩) 4 3)
        (archived.modAc 0 (fun a => { a with alloc := .chosen 5 }));
      s.attemptDue = false ∧ (∀ l : LaneNo, s.needsExtent l = false) ∧ s.gateOpen = true ∧
        s.ac[(0 : LaneNo)].alloc ≠ .idle ∧ ∀ y ∈ s.extents, y.no = 4 → y.state = .sealed ∧ y.tag = some 0) := by
  decide +kernel
theorem test_writing_is_settled :
    (flying (.laneProgram 0 (.header 5000 4000 0) 3 0) (writing timed)).settled ∧
      (flying (.laneProgram 0 (.content 2) 3 4093) (writing timed)).settled :=
  ⟨⟨rfl, by decide +kernel⟩, ⟨rfl, by decide +kernel⟩⟩
theorem test_meets_SystemExtentOperationsComplete :
    (flying (.sysProgram 0 saveWrite) ready).store.inFlight = some ⟨⟨.sysProgram 0 saveWrite, false⟩, 0⟩ ∧
    saveWrite.content = .image .default ∧ saveWrite.isSave = true ∧ holdsWrite.content = .holds ⟨[], 1⟩ ∧
    (let s : State := { flying .sysErase ready with sys := ⟨none, 2, 0, none, [saveWrite]⟩ };
      s.store.inFlight = some ⟨⟨.sysErase, false⟩, 0⟩ ∧ s.sys.queue.any SysWrite.isSave = true) := by decide +kernel

/-- Lane 0 has chosen extent 3, whose erase is in flight. -/
def choosing : State := flying (.laneErase 0 3) (timed.modAc 0 (fun a => { a with alloc := .chosen 3 }))

theorem test_meets_LaneEraseCompletes :
    choosing.station = some 5000 ∧ choosing.ac[(0 : LaneNo)].alloc = .chosen 3 ∧ choosing.anyWanted = false ∧
    choosing.store.inFlight = some ⟨⟨.laneErase 0 3, false⟩, 0⟩ ∧
    (withdrawn (.laneErase 0 3) ready).store.inFlight = some ⟨⟨.laneErase 0 3, true⟩, 0⟩ := by decide +kernel
theorem test_choosing_is_settled : choosing.settled := ⟨rfl, by decide +kernel⟩

/-- A format erase of extent 3 in flight, with a number of them left. -/
def formatting (left : Nat) : State :=
  flying (.formatErase 3) { config with
    format := some left, alarm := { config.alarm with configTimer := .paused 40000 } }

theorem test_meets_FormatEraseCompletes :
    ((formatting 2).store.inFlight = some ⟨⟨.formatErase 3, false⟩, 0⟩ ∧ (formatting 2).format = some 2 ∧
      (1 : Nat) < 2) ∧
    ((formatting 1).store.inFlight = some ⟨⟨.formatErase 3, false⟩, 0⟩ ∧ (formatting 1).format = some 1 ∧
      (1 : Nat) ≤ 1 ∧ (formatting 1).alarm.configTimer = .paused 40000 ∧ (formatting 1).anyWanted = false) := by
  decide +kernel
theorem test_formatting_is_settled : (formatting 2).settled ∧ (formatting 1).settled :=
  ⟨⟨rfl, by decide +kernel⟩, ⟨rfl, by decide +kernel⟩⟩

/-- A header page of lane 7 and a seal page. -/
def headerBytes : List Byte := be 1 7 ++ be 6 5000 ++ be 6 4000 ++ be 4 0 ++ be 4 3
def sealBytes : List Byte := be 6 4000 ++ be 6 4100 ++ be 2 1

theorem test_a_header_page_is_read :
    readHeader 3 (buildPage pageHeader headerBytes) = some (7, 4000) := by
  have a := Laws.pageIs_buildPage pageHeader headerBytes (by decide)
  have b := Laws.numberAt_buildPage pageHeader headerBytes 17 4 (by decide)
  have c := Laws.numberAt_buildPage pageHeader headerBytes 0 1 (by decide)
  have d := Laws.numberAt_buildPage pageHeader headerBytes 7 6 (by decide)
  rw [readHeader, a, b, c, d]
  decide
theorem test_a_seal_page_is_read :
    readSeal (buildPage pageSeal sealBytes) = some (4000, 4100, 1) := by
  have a := Laws.pageIs_buildPage pageSeal sealBytes (by decide)
  have b := Laws.numberAt_buildPage pageSeal sealBytes 0 6 (by decide)
  have c := Laws.numberAt_buildPage pageSeal sealBytes 6 6 (by decide)
  have d := Laws.numberAt_buildPage pageSeal sealBytes 12 2 (by decide)
  rw [readSeal, a, b, c, d]
  decide

/-- A scan read in flight at a place of the scan. -/
def reading (scan : Scan) (e p : Nat) : State := flying (.scanRead e p) { ready with scan := scan }

theorem test_meets_ScanReadsAdvanceTheScan :
    (∀ s ∈ [reading (.system 4094 .empty) 3 0, reading (.system 0 .empty) 3 0, reading (.system 4095 .empty) 3 0,
        reading (.extents 14 .header true) 3 0, reading (.extents 3 .header false) 3 0,
        reading (.extents 3 (.sealPage 7 4000) false) 3 0, reading (.extents 3 (.content 7 4000 4094 9) false) 3 0,
        reading (.extents 3 (.content 7 4000 1 0) false) 3 0, reading (.extents 15 .header true) 3 0],
      s.store.inFlight = some ⟨⟨.scanRead 3 0, false⟩, 0⟩ ∧ s.attemptDue = false ∧
        (∀ l : LaneNo, s.needsExtent l = false) ∧ s.extents.length = 16 ∧ s.holds.table = [] ∧ s.sys.queue = []) ∧
    ReadResult.fail ≠ .erased ∧ 4094 < 4095 ∧ 14 + 1 < 16 ∧ 16 ≤ 15 + 1 ∧ 3 + 1 < 16 ∧
    (let f : Found := ⟨none, some (4, ⟨[⟨1, 0, 5, none, .host, true⟩], 2⟩), some (4, 1)⟩;
      f.holds.map Prod.snd = some ⟨[⟨1, 0, 5, none, .host, true⟩], 2⟩ ∧ Found.empty.holds = none ∧
        (([] ++ [⟨1, 0, 5, none, .host, true⟩] : List Hold).map Hold.id).Nodup) := by decide +kernel
/-- A restored hold that finding 3 left open, and one of the host. -/
def openHolds (restored : Bool) : HoldTable :=
  ⟨[⟨1, 0, 1500, none, .finding 3, restored⟩, ⟨2, 0, 1500, none, .host, restored⟩], 3⟩

theorem test_open_holds_are_left_open_and_not : (openHolds true).table.map (fun h => decide (h.stop = none)) = [true, true] ∧
    Hold.leftOpen ⟨1, 0, 1500, none, .finding 3, true⟩ ∧ ¬ Hold.leftOpen ⟨2, 0, 1500, none, .host, true⟩ :=
  ⟨rfl, ⟨rfl, 3, rfl⟩, fun h => nomatch h.2.choose_spec⟩
theorem test_meets_ScanReadsAdvanceTheScan_at_the_last_extent :
    (∀ scan ∈ [Scan.extents 15 .header true, .extents 15 (.sealPage 0 4000) false, .extents 15 (.content 0 4000 3 9) true],
      let s : State := { reading scan 15 0 with
        extents := archived.extents, holds := openHolds true };
      s.store.inFlight = some ⟨⟨.scanRead 15 0, false⟩, 0⟩ ∧ s.attemptDue = false ∧ (∀ l : LaneNo, s.needsExtent l = false) ∧
        s.station = none ∧ s.scan = scan ∧ s.extents.length ≤ 15 + 1 ∧ s.holds.table.all Hold.restored = true) ∧
    (∃ x ∈ archived.extents, x.state = .sealed ∧ x.tag = some 0 ∧ x.first = some 1000 ∧ x.last = some 2000) ∧
    (∀ x ∈ ready.extents, ¬ (x.state = .sealed ∧ x.tag = some 0)) := by decide +kernel
theorem test_a_content_page_of_no_record_is_good :
    pageIs pageContent (buildPage pageContent []) = true ∧ readSeal (buildPage pageContent []) = none := by
  have a := Laws.pageIs_buildPage pageContent [] (by decide)
  refine ⟨a, ?_⟩
  have b : pageIs pageSeal (buildPage pageContent []) = false := by
    have h : (buildPage pageContent []).getD 0 0#8 = pageContent := by simp [buildPage]
    rw [pageIs, h]
    rfl
  rw [readSeal, b]
  rfl
theorem test_meets_RecallReadFillsTheSlotPage :
    (withdrawn (.recallRead 0 4 1) ready).store.inFlight = some ⟨⟨.recallRead 0 4 1, true⟩, 0⟩ ∧
    (let s := flying (.recallRead 0 4 1) (recalling .running archived);
      s.store.inFlight = some ⟨⟨.recallRead 0 4 1, false⟩, 0⟩ ∧ s.slots[(0 : SlotNo)].page = [] ∧
        s.slots[(0 : SlotNo)].request = some ⟨0, 1000, 2000⟩) := by decide +kernel
/-- The read of a page of extent 4 for slot 0, whose recall at 1000 ends at t1 with an end marker of two pages in an extent;
lane 3, the owner of extent 4, wants it. -/
def pageRead (t1 ext page : Nat) : State :=
  (flying (.recallRead 0 4 page) (archived.setSlot 0 { Slot.reset with
    state := .running, request := some ⟨0, 1000, t1⟩, marker := some ⟨1000, ext, 2⟩, p := some 1000 })).modAc 3
      (fun a => { a with alloc := .wanted })

/-- A content page's first bytes: a MARK record of a time, and no more. -/
def pageOf (time : Nat) : List Byte := [pageContent] ++ recordBytes ⟨recMark, time, [7#8]⟩

theorem test_meets_RecallReadFillsTheSlotPage_for_what_follows :
    (∀ t1 ∈ [2000, 3000], ∀ ext ∈ [4, 5], ∀ page ∈ [1, 2], let s := pageRead t1 ext page;
      s.store.inFlight = some ⟨⟨.recallRead 0 4 page, false⟩, 0⟩ ∧ s.slots[(0 : SlotNo)].page = [] ∧
        s.slots[(0 : SlotNo)].state = .running ∧ s.slots[(0 : SlotNo)].request = some ⟨0, 1000, t1⟩ ∧
        s.slots[(0 : SlotNo)].marker = some ⟨1000, ext, 2⟩ ∧ s.slots[(0 : SlotNo)].p = some 1000 ∧
        s.attemptDue = false ∧ (∀ l : LaneNo, s.needsExtent l = false) ∧
        s.extentOf 4 = some ⟨4, .sealed, some 0, some 1000, some 2000, 2, false⟩ ∧ s.gateOpen = true ∧
        s.ac[(3 : LaneNo)].alloc = .wanted ∧ (∀ n : LaneNo, n ≠ 3 → s.ac[n].alloc ≠ .wanted) ∧
        s.candidates 3 = [⟨4, .sealed, some 0, some 1000, some 2000, 2, false⟩] ∧
        s.holds.holdsExtent ⟨4, .sealed, some 0, some 1000, some 2000, 2, false⟩ = false ∧
        s.slots[(1 : SlotNo)].pins ⟨4, .sealed, some 0, some 1000, some 2000, 2, false⟩ = false) ∧
    (∀ ext ∈ [4, 5], EndMarker.pagesToRead ⟨1000, ext, 2⟩ ⟨4, .sealed, some 0, some 1000, some 2000, 2, false⟩ = 2) ∧
    (pageRecords (pageOf 2000)).map Record.time = [2000] ∧ (pageRecords (pageOf 2001)).map Record.time = [2001] := by
  decide +kernel
theorem test_what_a_finished_extent_does_to_its_recall :
    (⟨0, 1000, 2000⟩ : RecallRequest).endsAt ⟨1500, 5, 1⟩ 2000 ⟨4, .sealed, some 0, some 1000, some 2000, 2, false⟩ ∧
    (⟨0, 1000, 3000⟩ : RecallRequest).endsAt ⟨1000, 4, 1⟩ 2000 ⟨4, .sealed, some 0, some 1000, some 2000, 2, false⟩ ∧
    ¬ (⟨0, 1000, 3000⟩ : RecallRequest).endsAt ⟨1500, 5, 1⟩ 2000 ⟨4, .sealed, some 0, some 1000, some 2000, 2, false⟩ ∧
    (⟨0, 1000, 3000⟩ : RecallRequest).picks ⟨1500, 5, 1⟩ 2000 [⟨4, .sealed, some 0, some 1000, some 2000, 2, false⟩]
      ⟨4, .sealed, some 0, some 1000, some 2000, 2, false⟩ := by
  refine ⟨Or.inl (by decide), Or.inr ⟨rfl, rfl⟩, ?_, [], [], rfl, ?_, by simp, by simp⟩
  · unfold RecallRequest.endsAt
    decide
  · exact ⟨rfl, Or.inr rfl, 1000, 2000, rfl, rfl, by decide, by decide, by decide⟩

theorem test_meets_ExportHoldPausesRecalls :
    exportHoldTime (holdCell 0 65535) = some (65534 + 1) ∧ exportHoldTime (holdCell 0 0) = some 0 ∧
    exportHoldTime [] = none ∧
    (let s : State := { ready with exportLink := ⟨some 100, some ⟨0, false, true⟩, none⟩, clock := 100 };
      s.exportLink.sending.isSome = true ∧ timerDue s.exportLink.hold s.clock = true ∧
        timerDue s.exportLink.hold 99 = false) := by decide +kernel
theorem test_meets_ExportCellSentIsCounted :
    (let s : State := { recalling .running ready with exportLink := ⟨none, some ⟨0, false, true⟩, none⟩ };
      s.exportLink.sending = some ⟨0, false, true⟩) ∧
    (let s : State := { recalling .done ready with exportLink := ⟨none, some ⟨0, true, true⟩, none⟩ };
      s.exportLink.sending = some ⟨0, true, true⟩ ∧ s.slots[(0 : SlotNo)].state = .done ∧
        s.slots[(0 : SlotNo)].noticeTaken = false) ∧
    ready.exportLink.sending = none := by decide +kernel
/-- Slot 0 has a record of one byte ready, and slot 1 its RECALL_END. -/
def exporting : State :=
  (ready.setSlot 0 { Slot.reset with
    state := .running, request := some ⟨3, 1000, 2000⟩, marker := some ⟨1000, 4, 2⟩, p := some 2001, seq := 5
    page := [⟨recMark, 1500, [7#8]⟩], after := .finish }).setSlot 1 { Slot.reset with
    state := .done, request := some ⟨4, 0, 10⟩, p := some 11, exported := 2, endCell := some ⟨.none, 2, 1, 11⟩ }

theorem test_slots_offer_their_cells :
    (∃ bytes, (exporting.slots[(0 : SlotNo)]).offersCell 0 false bytes) ∧
    (∃ bytes, (exporting.slots[(1 : SlotNo)]).offersCell 1 true bytes) ∧
    exporting.exportLink.lastSlot = none ∧ exporting.exportLink.sending = none ∧ exporting.exportLink.hold = none ∧
    (ready.slots[(0 : SlotNo)].page = [] ∧ ready.slots[(0 : SlotNo)].endCell = none) :=
  ⟨⟨_, ⟨3, 1000, 2000⟩, _, rfl, rfl, Or.inl ⟨_, _, rfl, rfl, rfl⟩⟩, ⟨_, ⟨4, 0, 10⟩, _, rfl, rfl, Or.inr ⟨_, rfl, rfl, rfl, rfl⟩⟩,
    rfl, rfl, rfl, rfl, rfl⟩
theorem test_slots_take_turns_and_the_cells_are_those_of_section_12 :
    (∀ last ∈ [(0 : SlotNo), 1],
      let t := State.startExport { exporting with exportLink := ⟨none, none, some last⟩ };
      t.exportLink.lastSlot = some (1 - last) ∧
      (t.exportCells.map (fun c => c.take (c.length - 2))) = [if last = 1 then
          [3#8, 6#8, 0#8, 15#8] ++ [0#8, 0#8, 0#8, 0#8, 5#8] ++ [3#8, 0#8, 1#8, 0#8, 0#8, 0#8, 0#8, 5#8, 220#8, 7#8]
        else [4#8, 7#8, 0#8, 21#8] ++ [1#8, 0#8, 0#8, 0#8, 0#8] ++ [1#8, 0#8] ++ [0#8, 0#8, 0#8, 2#8]
          ++ [0#8, 0#8, 0#8, 1#8] ++ [0#8, 0#8, 0#8, 0#8, 0#8, 11#8]]) := by decide +kernel
theorem test_meets_ExportCellSentIsCounted_for_what_follows :
    (∀ after ∈ [AfterPage.more, .choose, .finish],
      let s : State := State.modSlot 0 (fun x => { x with after := after }) { exporting with
        exportLink := ⟨none, some ⟨0, false, true⟩, some 0⟩ };
      let x := s.slots[(0 : SlotNo)];
      s.exportLink.sending = some ⟨0, false, true⟩ ∧ s.attemptDue = false ∧ (∀ l : LaneNo, s.needsExtent l = false) ∧
        x.state = .running ∧ x.page.tail = [] ∧ x.after = after ∧ x.request = some ⟨3, 1000, 2000⟩ ∧
        x.marker = some ⟨1000, 4, 2⟩ ∧ x.p = some 2001) ∧
    (∀ isEnd ∈ [true, false], let s : State := { exporting with exportLink := ⟨none, some ⟨1, isEnd, false⟩, some 1⟩ };
      s.exportLink.sending = some ⟨1, isEnd, false⟩ ∧ s.attemptDue = false ∧ ∀ l : LaneNo, s.needsExtent l = false) ∧
    (let s : State := { exporting with exportLink := ⟨none, some ⟨1, true, true⟩, some 1⟩ };
      s.exportLink.sending = some ⟨1, true, true⟩ ∧ s.slots[(1 : SlotNo)].state = .done) := by decide +kernel
theorem test_meets_WarmResetClearsThePart :
    (let s : State := { ready with warm := some ⟨Vector.replicate 8 true, false⟩ };
      s.warm = some ⟨Vector.replicate 8 true, false⟩ ∧ s.warmReady = true ∧ s.store.up = true ∧
        ∀ l : LaneNo, s.ac[l].short = false) ∧
    (∀ op ∈ ([.laneProgram 0 (.content 1) 3 1, .laneErase 0 3, .recallRead 0 4 1, .laneProgram 0 (.header 1 2 3) 3 0,
        .laneProgram 0 (.sealPage ⟨3, 2, 1, 2, 1, 0⟩) 3 2] : List StoreOp),
      let s : State := { ready with
        warm := some ⟨Vector.replicate 8 true, true⟩
        store := { ready.store with up := false, interrupted := some ⟨op, false⟩ } };
      s.warmReady = true ∧ s.store.up = false ∧ s.store.interrupted = some ⟨op, false⟩ ∧
        ∀ l : LaneNo, s.ac[l].short = false) := by decide +kernel
theorem test_meets_WarmResetClearsThePart_with_open_holds :
    let s : State := { archived with warm := some ⟨Vector.replicate 8 true, false⟩, holds := openHolds false };
    s.warmReady = true ∧ (∀ l : LaneNo, s.ac[l].short = false) ∧
      s.holds.table.map (fun h => decide (h.stop = none)) = [true, true] := by decide +kernel
theorem test_meets_WarmResetClearsThePart_with_conditions_reported_afresh :
    ∀ up ∈ [true, false],
      let s : State := State.modAc 0 (fun a => { a with short := true }) { archived with
        warm := some ⟨Vector.replicate 8 true, !up⟩, store := { archived.store with up := up } };
      s.warmReady = true ∧ s.store.up = up ∧ s.gateOpen = up ∧ s.ac[(0 : LaneNo)].short = true ∧
        ∀ k : LaneNo, k ≠ 0 → s.ac[k].short = false := by decide +kernel
theorem test_an_interrupted_header_program_is_issued_after_a_warm_reset :
    let s (op : StoreOp) : State := { ready with
      store := { ready.store with up := false, interrupted := some ⟨op, false⟩ } }
    (s (.laneProgram 0 (.header 1 2 3) 3 0)).warmArchive.store.interrupted
      = some ⟨.laneProgram 0 (.header 1 2 3) 3 0, true⟩ ∧
    (s (.laneProgram 0 (.content 1) 3 1)).warmArchive.store.interrupted = none := by decide +kernel

/-! ### Cells -/

theorem test_meets_DiscardedCellOnlyCounts :
    (ready.warm = none ∧ intakeCheck (ready.laneEnabled 0) 0 ready.liu[(0 : LaneNo)] (gather []) = some .disabled) ∧
    (enabled.warm = none ∧
      intakeCheck (enabled.laneEnabled 0) 0 enabled.liu[(0 : LaneNo)] (gather [0#8, 1#8]) = some .check) ∧
    ({ ready with warm := some ⟨Vector.replicate 8 true, false⟩ } : State).warm.isSome = true := by decide +kernel

/-- A MONO cell of lane 0 with a count and a payload. -/
def monoCell (count : Nat) (p : List Byte) : List Byte :=
  0#8 :: 1#8 :: 5#8 :: 160#8 :: 1#8 :: (be 4 count ++ p
    ++ crcBytes (1#8 :: 5#8 :: 160#8 :: 1#8 :: (be 4 count ++ p)))


theorem monoCell_length (count : Nat) (p : List Byte) (h : p.length = 1440) : (monoCell count p).length = 1451 := by
  simp [monoCell, be, Laws.crcBytes_length, h]

theorem gather_monoCell (count : Nat) (p : List Byte) (h : p.length = 1440) :
    gather (monoCell count p) = ⟨monoCell count p, false⟩ := by
  have n := monoCell_length count p h
  have k : (monoCell count p)[1]? = some 1#8 := by simp [monoCell]
  simp only [gather, k]
  rw [List.take_of_length_le (by rw [n]; decide)]
  simp [n, headerSize, maxPayload, kindAudio]

theorem intakeCheck_monoCell (count : Nat) (p : List Byte) (x : Liu) (h : p.length = 1440)
    (fresh : isStale x (monoCell count p) = false) :
    intakeCheck true 0 x (gather (monoCell count p)) = none := by
  rw [gather_monoCell count p h]
  have n := monoCell_length count p h
  have f : monoCell count p = (0#8 :: 1#8 :: 5#8 :: 160#8 :: 1#8 :: (be 4 count ++ p))
      ++ crcBytes (1#8 :: 5#8 :: 160#8 :: 1#8 :: (be 4 count ++ p)) := by
    simp [monoCell]
  have t : (monoCell count p).take 1449 = 0#8 :: 1#8 :: 5#8 :: 160#8 :: 1#8 :: (be 4 count ++ p) := by
    rw [f, List.take_append_of_le_length (by simp [be, h]), List.take_of_length_le (by simp [be, h])]
  have d : (monoCell count p).drop 1449 = crcBytes (1#8 :: 5#8 :: 160#8 :: 1#8 :: (be 4 count ++ p)) := by
    rw [f]; exact List.drop_left' (by simp [be, h])
  have k : (monoCell count p).getD 1 0#8 = 1#8 := by simp [monoCell]
  have hk : headerSize 1#8 = 9 := rfl
  have a : cellCheckOk (monoCell count p) = true := by
    simp only [cellCheckOk, k, n, hk, t, d]
    simp
  have q : cellPayload (monoCell count p) = p := by
    simp only [cellPayload, k, n, hk, t]
    simp [be]
  have e : cellLength (monoCell count p) = 1440 := by
    simp [monoCell, cellLength, numberAt, field, fromBE, List.range_succ]
  have y : cellLayout (monoCell count p) = some .mono := by
    simp [monoCell, cellLayout, numberAt, field, fromBE]
  have l : cellLengthOk (monoCell count p) = true := by
    simp only [cellLengthOk, q, k, e, y, h]
    simp [kindAudio, Layout.payload, Layout.channels]
  have c : cellLane (monoCell count p) = 0 := by simp [monoCell, cellLane, numberAt, field, fromBE]
  have b : inboundKind 1#8 = true := rfl
  simp only [intakeCheck, k, a, c, b, l, fresh]
  decide

/-- 1440 bytes of silence. -/
def silence : List Byte := List.replicate 1440 0#8

/-- Lane 0 is PRESENT with tile 1 open. -/
def listening : State :=
  { enabled with
    liu := enabled.liu.set 0 { Liu.reset with
      carriage := .present, window := some ⟨0, 5⟩, lastCount := some 18, openTile := some 1, gapTimer := some 200 }
    le := enabled.le.set 0 { LeLane.reset with acc := some ⟨1, 5, 0, 0⟩ } }

/-- Lane 0 is in ACQUIRING with tile 1 open and a run behind it. -/
def acquiring (run : Nat) : State :=
  { listening with liu := listening.liu.set 0 { listening.liu[(0 : LaneNo)] with
      carriage := .acquiring, window := none, run := run, runLast := 18 } }

/-- Lane 0 is LOST behind tile 1. -/
def lost : State :=
  { listening with
    liu := listening.liu.set 0 { Liu.reset with carriage := .lost, lossTile := some 1 }
    le := listening.le.set 0 { LeLane.reset with history := [⟨1, some (1 / 100)⟩] } }

/-- Lane 0 is ABSENT, and its history ends with a tile. -/
def returning (tile : Nat) : State :=
  { enabled with le := enabled.le.set 0 { LeLane.reset with history := [⟨tile, none⟩] } }

theorem cellCount_silence (n : Nat) (h : n ∈ [19, 20, 50, 320]) : cellCount (monoCell n silence) = n := by
  simp only [List.mem_cons, List.not_mem_nil, or_false] at h
  rcases h with rfl | rfl | rfl | rfl <;> simp [monoCell, cellCount, numberAt, field, fromBE, be, List.range_succ]
theorem test_a_silent_cell_is_not_stale :
    (∀ s ∈ [listening, acquiring 8, acquiring 9], ∀ n ∈ [19, 20, 50, 320],
      isStale s.liu[(0 : LaneNo)] (monoCell n silence) = false) ∧
    (∀ s ∈ [lost, enabled, returning 7, returning 1], ∀ n ∈ [20, 50, 320], isStale s.liu[(0 : LaneNo)] (monoCell n silence) = false) := by
  have a : ∀ s ∈ [listening, acquiring 8, acquiring 9], s.liu[(0 : LaneNo)].lastCount = some 18 := by decide +kernel
  have b : ∀ s ∈ [lost, enabled, returning 7, returning 1], s.liu[(0 : LaneNo)].lastCount = none ∧
      (s.liu[(0 : LaneNo)].lossTile = some 1 ∨ s.liu[(0 : LaneNo)].lossTile = none) := by decide +kernel
  constructor
  · intro s hs n hn
    rw [isStale, a s hs, cellCount_silence n hn]
    simp only [List.mem_cons, List.not_mem_nil, or_false] at hn
    rcases hn with rfl | rfl | rfl | rfl <;> rfl
  · intro s hs n hn
    rw [isStale, (b s hs).1, cellCount_silence n (List.mem_cons_of_mem _ hn)]
    simp only [List.mem_cons, List.not_mem_nil, or_false] at hn
    rcases (b s hs).2 with h | h
    · rw [h]
      rcases hn with rfl | rfl | rfl <;> rfl
    · rw [h]
theorem test_meets_GoodAudioCellIsPlacedInItsTile (s : State) (n : Nat)
    (h : s ∈ [listening, acquiring 8, acquiring 9] ∧ n ∈ [19, 20, 50, 320] ∨
      s ∈ [lost, enabled, returning 7, returning 1] ∧ n ∈ [20, 50, 320]) :
    s.warm = none ∧ s.settled ∧
    intakeCheck (s.laneEnabled 0) 0 s.liu[(0 : LaneNo)] (gather (monoCell n silence)) = none ∧
    (gather (monoCell n silence)).bytes.getD 1 0#8 = kindAudio ∧
    cellLayout (gather (monoCell n silence)).bytes = some .mono ∧
    cellCount (gather (monoCell n silence)).bytes = n := by
  have p : silence.length = 1440 := List.length_replicate
  have f : isStale s.liu[(0 : LaneNo)] (monoCell n silence) = false := by
    rcases h with h | h
    · exact test_a_silent_cell_is_not_stale.1 s h.1 n h.2
    · exact test_a_silent_cell_is_not_stale.2 s h.1 n h.2
  have m : n ∈ [19, 20, 50, 320] := by
    rcases h with h | h
    · exact h.2
    · exact List.mem_cons_of_mem _ h.2
  have all : ∀ s ∈ [listening, acquiring 8, acquiring 9] ++ [lost, enabled, returning 7, returning 1], s.laneEnabled 0 = true ∧ s.warm = none ∧
      s.attemptDue = false ∧ ∀ l : LaneNo, s.needsExtent l = false := by decide +kernel
  have e := all s (List.mem_append.mpr (h.imp And.left And.left))
  have g := gather_monoCell n silence p
  refine ⟨e.2.1, ⟨e.2.2.1, e.2.2.2⟩, ?_, ?_, ?_, ?_⟩
  · rw [e.1]
    exact intakeCheck_monoCell n silence _ p f
  · rw [g]
    simp [monoCell, kindAudio]
  · rw [g]
    simp [monoCell, cellLayout, numberAt, field, fromBE]
  · rw [g]
    exact cellCount_silence n m
theorem test_meets_GoodAudioCellIsPlacedInItsTile_clauses :
    (listening.liu[(0 : LaneNo)].carriage = .present ∧ listening.liu[(0 : LaneNo)].window = some ⟨0, 5⟩ ∧
      listening.liu[(0 : LaneNo)].openTile = some 1 ∧ listening.le[(0 : LaneNo)].acc = some ⟨1, 5, 0, 0⟩ ∧
      19 / 10 = 1 ∧ 20 / 10 = 1 + 1 ∧ 1 < 50 / 10 ∧ 50 / 10 ≤ 1 + 30) ∧
    (∀ s ∈ [acquiring 8, acquiring 9], s.liu[(0 : LaneNo)].carriage = .acquiring ∧
      s.liu[(0 : LaneNo)].openTile = some 1 ∧ s.liu[(0 : LaneNo)].run ≠ 0 ∧ s.liu[(0 : LaneNo)].runLast = 18) ∧
    (acquiring 8).liu[(0 : LaneNo)].run + 1 < 10 ∧ 10 ≤ (acquiring 9).liu[(0 : LaneNo)].run + 1 ∧
    (lost.liu[(0 : LaneNo)].carriage = .lost ∧ lost.liu[(0 : LaneNo)].openTile = none ∧
      lost.liu[(0 : LaneNo)].lossTile = some 1) ∧
    (enabled.liu[(0 : LaneNo)].carriage = .absent ∧ enabled.liu[(0 : LaneNo)].openTile = none ∧
      enabled.liu[(0 : LaneNo)].lossTile = none ∧ enabled.le[(0 : LaneNo)].history = []) ∧ ¬ (320 / 10 ≤ 1 + 30) ∧
    (∀ tile ∈ [7, 1], (returning tile).liu[(0 : LaneNo)].lossTile = none ∧
      (returning tile).le[(0 : LaneNo)].history.getLast? = some ⟨tile, none⟩) ∧
    7 + 1 ≠ 20 / 10 ∧ 1 + 1 = 20 / 10 := by decide +kernel
theorem test_listening_and_lost_are_bounded (s : State) (h : s ∈ [listening, acquiring 8, lost]) : s.bounded := by
  simp only [List.mem_cons, List.not_mem_nil, or_false] at h
  rcases h with rfl | rfl | rfl <;>
    exact ⟨by decide, by decide, by decide, by decide, by decide, by decide +kernel, by decide +kernel,
      by decide +kernel, by decide +kernel, by decide, by decide, (test_tiles_and_turn_from_data _ (by decide +kernel)).1,
      (test_tiles_and_turn_from_data _ (by decide +kernel)).2⟩

/-- Lane 0 in RUN or CONFIG, with marks, a segment of rule set 2 with a number of tiles, and its watch. -/
def judged (mode : Mode) (queue : List Mark) (tiles : Nat) : State :=
  let ident : Identity := ⟨77, .programme, .required⟩
  { listening with
    alarm := { listening.alarm with mode := mode }
    cm := listening.cm.set 0 { CmLane.reset with watched := some ⟨ident, some 2, .fresh, .fresh, .fresh⟩ }
    st := listening.st.set 0 { StLane.reset with
      queue := queue, seg := some { SegCtx.opened ident (some 2) false (some 4000) with tiles := tiles } } }

theorem test_meets_GoodAudioCellIsPlacedInItsTile_for_carriage_and_segments :
    (let s : State := { listening with
        liu := listening.liu.set 0 { listening.liu[(0 : LaneNo)] with carriage := .drift } };
      s.liu[(0 : LaneNo)].carriage = .drift ∧ s.liu[(0 : LaneNo)].window = some ⟨0, 5⟩ ∧
        s.liu[(0 : LaneNo)].openTile = some 1) ∧
    (∀ s ∈ [acquiring 8, acquiring 9], s.le[(0 : LaneNo)].acc = some ⟨1, 5, 0, 0⟩ ∧ 1 < 20 / 10 ∧ 20 / 10 ≤ 1 + 30) ∧
    (∀ mode ∈ [Mode.run, .config], ∀ queue ∈ [[], [⟨8, .segment .commercial, 1#8, 2⟩, ⟨9, .finish, 0#8, 3⟩],
        [⟨8, .segment .commercial, 1#8, 1⟩, ⟨9, .finish, 0#8, 2⟩]], ∀ tiles ∈ [5, 863999],
      let s := judged mode queue tiles;
      s.liu[(0 : LaneNo)].openTile = some 1 ∧ s.liu[(0 : LaneNo)].carriage = .present ∧
        s.le[(0 : LaneNo)].acc = some ⟨1, 5, 0, 0⟩ ∧ s.alarm.mode = mode ∧ s.attemptDue = false ∧
        s.st[(0 : LaneNo)].queue.Pairwise (fun x z => x.effTile < z.effTile) ∧
        (s.st[(0 : LaneNo)].queue.filter (fun m => decide (m.effTile ≤ 2))).length ≤ 2 ∧
        s.st[(0 : LaneNo)].seg.map SegCtx.tiles = some tiles ∧
        s.cm[(0 : LaneNo)].watched.map Watched.ruleSet = some (some 2)) := by decide +kernel

/-- A caption page of no row. -/
def emptyPage : CaptionPage := ⟨9, 5000, 100, false, false, []⟩

/-- A filter table that accepts page id 8 only. -/
def onlyEight : FilterTable :=
  { FilterTable.default with entries := FilterTable.default.entries.set 0 (FilterEntry.mk true 8#16 0xFFFF#16 .accept) }

/-- Lane 0's filter accepts page id 8 only. -/
def filtered : State :=
  { enabled with settings := { enabled.settings with filters := enabled.settings.filters.set 0 onlyEight } }

theorem test_meets_CaptionPageIsAcceptedOrRejected :
    (∀ s ∈ [enabled, filtered], s.warm = none ∧
      intakeCheck (s.laneEnabled 0) 0 s.liu[(0 : LaneNo)] (gather (buildCell 0 kindCaption (captionBytes emptyPage)))
        = none ∧
      (gather (buildCell 0 kindCaption (captionBytes emptyPage))).bytes.getD 1 0#8 = kindCaption ∧
      parseCaption (cellPayload (gather (buildCell 0 kindCaption (captionBytes emptyPage))).bytes) = some emptyPage) ∧
    enabled.settings.filters[(0 : LaneNo)].passes (BitVec.ofNat 16 emptyPage.pageId) = true ∧
    filtered.settings.filters[(0 : LaneNo)].passes (BitVec.ofNat 16 emptyPage.pageId) = false := by decide +kernel
theorem test_an_absent_lane_has_a_presence_byte :
    (Extent.bytes ⟨4, .free, none, none, none, 0, false⟩).drop 5 = List.replicate 19 0#8 ∧
    (Extent.bytes ⟨4, .sealed, some 7, none, none, 0, false⟩).drop 5 = 1#8 :: 7#8 :: List.replicate 17 0#8 ∧
    Slot.reset.bytes.tail = List.replicate 38 0#8 := by decide +kernel
theorem test_saved_holds_are_entered_in_order_of_id :
    let h (id : Nat) : Hold := ⟨id, 0, 0, none, .host, true⟩;
    HoldTable.ascending ⟨[h 3, h 1, h 2], 4⟩ = [h 1, h 2, h 3] := by decide +kernel
theorem test_filtered_is_settled : filtered.settled := ⟨rfl, by decide +kernel⟩

/-- Marks of effective tiles 1 to n. -/
def marks (n : Nat) : List Mark := (List.range n).map (fun i => ⟨i, .finish, 0#8, i + 1⟩)

theorem test_meets_MarkEntersTheQueue :
    ((marks 4).any (fun x => x.effTile == 4) = true) ∧
    ((marks 3).any (fun x => x.effTile == 9) = false ∧ (marks 3).length < 4 ∧
      (marks 3).Pairwise (fun x y => x.effTile < y.effTile)) ∧
    ((marks 4).any (fun x => x.effTile == 9) = false ∧ 4 ≤ (marks 4).length) := by decide +kernel

/-- A mark payload: an END of segment 7 at count 90, or one of an undefined kind. -/
def endPayload (kind : Nat) : List Byte := be 4 7 ++ be 1 kind ++ be 1 0 ++ be 4 90 ++ be 6 0

/-- Lane 0, enabled, with a queue of marks, a last opened tile and a FILLING buffer. -/
def marking (queue : List Mark) (last : Option Nat) : State :=
  ({ buffering with settings := enabled.settings, station := some 5000 } : State).modSt 0 (fun x => { x with
    queue := queue, lastOpened := last })

theorem test_meets_MarkEntersTheQueue_for_cells :
    (∀ s ∈ [marking [] none, marking (marks 4) (some 8), marking [] (some 9), marking [] none],
      s.warm = none ∧ s.attemptDue = false ∧ (∀ l : LaneNo, s.needsExtent l = false) ∧
      (∀ cell ∈ [buildCell 0 kindMark (endPayload 5), buildCell 0 kindMark (endPayload 6), buildCell 0 kindProxy [1#8]],
        intakeCheck (s.laneEnabled 0) 0 s.liu[(0 : LaneNo)] (gather cell) = none) ∧
      s.ac[(0 : LaneNo)].gaps.any = false ∧ s.ac[(0 : LaneNo)].filling = some 0 ∧
      s.ac[(0 : LaneNo)].buffers[(0 : Fin 4)].used + 9 + 16 ≤ 16381 ∧ s.station = some 5000) ∧
    (let cell := (gather (buildCell 0 kindMark (endPayload 5))).bytes;
      cell.getD 1 0#8 = kindMark ∧ (readMark (cellPayload cell)).map Mark.effTile = some 9) ∧
    (let cell := (gather (buildCell 0 kindMark (endPayload 6))).bytes;
      cell.getD 1 0#8 = kindMark ∧ readMark (cellPayload cell) = none) ∧
    (gather (buildCell 0 kindProxy [1#8])).bytes.getD 1 0#8 = kindProxy ∧ enabled.station = none ∧
    (let s := (marking [] none).modAc 0 (fun a => { a with
        buffers := Vector.replicate 4 ⟨.waiting, [⟨recMark, 4000, [0#8]⟩], 0, false⟩ });
      s.ac[(0 : LaneNo)].filling = none ∧ s.ac[(0 : LaneNo)].lowestFree = none ∧ s.attemptDue = false ∧
        ∀ l : LaneNo, s.needsExtent l = false) := by decide +kernel
theorem test_buffering_has_an_extent : (marking [] none).ac[(0 : LaneNo)].alloc ≠ .idle := by decide +kernel

/-- Lane 0, enabled, whose buffers wait but for buffer 1, which fills with 16 records of a size. -/
def stuffed (size : Nat) (gaps : GapCounts) (free : Bool) : State :=
  (marking [] none).modAc 0 (fun a => { a with
    gaps := gaps
    buffers := ((Vector.replicate 4 ⟨.waiting, [], 0, false⟩).set 1
      ⟨.filling, List.replicate 16 ⟨recMark, 4000, List.replicate (size - 9) 0#8⟩, 0, false⟩).set 3
        (if free then .empty else ⟨.waiting, [], 0, false⟩) })

/-- One mark is pending. -/
def oneGap : GapCounts := { GapCounts.zero with mark := 1 }

theorem test_meets_MarkEntersTheQueue_in_a_full_buffer :
    (∀ gaps ∈ [GapCounts.zero, oneGap], ∀ free ∈ [true, false], ∀ size ∈ [20, 1020, 1023],
      let s := stuffed size gaps free;
      s.warm = none ∧ s.attemptDue = false ∧ s.needsExtent 0 = false ∧ s.station = some 5000 ∧
        s.ac[(0 : LaneNo)].alloc ≠ .idle ∧ s.ac[(0 : LaneNo)].gaps = gaps ∧ s.ac[(0 : LaneNo)].filling = some 1 ∧
        s.ac[(0 : LaneNo)].lowestFree = (if free then some 3 else none) ∧
        s.ac[(0 : LaneNo)].buffers[(1 : Fin 4)].used = 16 * size ∧
        s.ac[(0 : LaneNo)].buffers[(3 : Fin 4)].records = []) ∧
    GapCounts.zero.any = false ∧ oneGap.any = true ∧
    (16 * 20 + 47 + (9 + 16) ≤ 16381 ∧ 16 * 1020 + 47 ≤ 16381 ∧ 16381 < 16 * 1020 + 47 + (9 + 16) ∧
      16 * 1020 + (9 + 16) ≤ 16381 ∧ 16381 < 16 * 1023 + (9 + 16) ∧ 16381 < 16 * 1023 + 47) := by decide +kernel
theorem test_stuffed_is_bounded : (stuffed 1023 oneGap true).bounded :=
  ⟨by decide, by decide, by decide, by decide, by decide, by decide +kernel, by decide +kernel, by decide +kernel,
    by decide +kernel, by decide, by decide, (test_tiles_and_turn_from_data _ (by decide +kernel)).1,
    (test_tiles_and_turn_from_data _ (by decide +kernel)).2⟩
theorem test_meets_MarkEntersTheQueue_before_the_gate_opens :
    let s : State := { stuffed 20 .zero true with store := { ready.store with up := false } };
    s.gateOpen = false ∧ s.station = some 5000 ∧ s.ac[(0 : LaneNo)].filling = some 1 := by decide +kernel

theorem test_meets_CaptionPageIsAcceptedOrRejected_with_a_filling_buffer :
    let s := marking [] none;
    s.warm = none ∧ s.attemptDue = false ∧ (∀ l : LaneNo, s.needsExtent l = false) ∧
      intakeCheck (s.laneEnabled 0) 0 s.liu[(0 : LaneNo)] (gather (buildCell 0 kindCaption (captionBytes emptyPage)))
        = none ∧
      s.settings.filters[(0 : LaneNo)].passes (BitVec.ofNat 16 emptyPage.pageId) = true ∧ s.station = some 5000 ∧
      s.ac[(0 : LaneNo)].gaps.any = false ∧ s.ac[(0 : LaneNo)].filling = some 0 ∧
      s.ac[(0 : LaneNo)].buffers[(0 : Fin 4)].used + 9 + (captionBytes emptyPage).length ≤ 16381 ∧
      s.ac[(0 : LaneNo)].alloc ≠ .idle ∧ enabled.station = none := by decide +kernel

/-! ### Rules of measurement and judgement -/

theorem test_meets_VerdictChecksFollowTheirRules :
    (RuleSet.default.peakCeiling = none ∧ (appliedRule ruleFields).peakCeiling = some (-300)) ∧
    ({ RuleSet.default with relativeCeiling := some 0 } : RuleSet).relativeCeiling = some 0 ∧
    Duty.required ≠ .exempt := by decide +kernel
theorem test_checks_at_their_limits :
    (checkTarget .default (some (-240))).result = .pass ∧ (checkTarget .default (some (-241))).result = .fail ∧
    (checkPeak (appliedRule ruleFields) (some (-300))).result = .pass ∧
    (checkPeak (appliedRule ruleFields) (some (-299))).result = .fail ∧
    (checkCoverage (appliedRule ruleFields) .required (some 999)).result = .fail ∧
    (checkCoverage (appliedRule ruleFields) .required (some 1000)).result = .pass := by decide +kernel
theorem test_meets_PowersAndPeaksAreReportedInTenths : (0 : Rat) ≤ 0 ∧ (0 : Rat) ≤ 1 := by decide +kernel
theorem test_meets_PowersAndPeaksAreReportedInTenths_for_cells :
    ∀ n ∈ [1440, 2880, 8640], ∃ payload : List Byte, payload.length = n :=
  fun n _ => ⟨List.replicate n 0#8, List.length_replicate⟩
theorem test_the_stereo_tile_of_the_manual :
    ((⟨90114, 8, 22368 / 1000, 0⟩ : TileAcc).power.map reportedTenth = some (-230)) ∧
    (⟨90114, 4, 22368 / 1000, 0⟩ : TileAcc).power = none := by decide +kernel
theorem test_the_momentary_value_of_the_manual :
    let h : List TileEntry := [⟨90111, some (6 / 1000)⟩, ⟨90112, some (4 / 1000)⟩, ⟨90113, some (7 / 1000)⟩,
      ⟨90114, some (22368 / 3840000)⟩];
    momentaryAfter h ⟨-999, true⟩ = ⟨-231, false⟩ ∧ momentaryAfter (h ++ [⟨90115, none⟩]) ⟨-231, false⟩ = ⟨-231, true⟩ ∧
      shortTermAfter h ⟨-999, true⟩ = ⟨-999, true⟩ := by decide +kernel
theorem test_peaks_at_the_ends : reportedPeak 0 = -999 ∧ reportedPeak 8388608 = 0 := by decide +kernel
theorem test_meets_GatingCountsEachBlockOnce :
    Gating.empty.bins.length = 901 ∧ Gating.empty.bins.sum = Gating.empty.gated ∧ Gating.empty.gated < 4294967295 ∧
      Gating.empty.below < 4294967295 := by decide +kernel
/-- A histogram with the counts of some bins. -/
def histogram (xs : List (Nat × Nat)) : List Nat := xs.foldl (fun bins x => bins.set x.1 x.2) (List.replicate 901 0)

theorem test_meets_GatingCountsEachBlockOnce_for_integration :
    (∀ xs ∈ [[], [(900, 4294967295)], [(0, 1)]], (histogram xs).length = 901 ∧ (histogram xs).sum ≤ 4294967295 ∧
      ((∀ n ∈ histogram xs, n = 0) ↔ xs = [])) := by decide +kernel
theorem test_the_histograms_of_the_manual :
    integrate (histogram [(300, 2), (470, 6), (500, 2)]) = some ⟨-330, -220⟩ ∧
    integrate (histogram [(0, 4)]) = some ⟨-800, -700⟩ ∧
    integrate (histogram [(900, 12), (650, 3)]) = some ⟨90, 200⟩ ∧ integrate (histogram []) = none := by decide +kernel
theorem test_a_bin_at_the_relative_threshold_is_left_out :
    integrate (histogram [(500, 9), (370, 10)]) = some ⟨-330, -200⟩ := by decide +kernel
theorem test_meets_GatingCountsEachBlockOnce_in_a_gap :
    ([⟨4, none⟩, ⟨5, none⟩, ⟨6, none⟩] : List TileEntry).getLast? = some ⟨6, none⟩ ∧ 6 + 1 ≠ 8 := by decide
theorem test_meets_GatingCountsEachBlockOnce_behind_three_tiles :
    (∀ p ∈ [(0 : Rat), 1], let g : Gating := { Gating.empty with window := [⟨4, some p⟩, ⟨5, some p⟩, ⟨6, some p⟩] };
      g.bins.length = 901 ∧ g.window = [⟨7 - 3, some p⟩, ⟨7 - 2, some p⟩, ⟨7 - 1, some p⟩] ∧ 3 ≤ 7 ∧
        (reportedTenth ((p + p + p + p) / 4) = if p = 0 then -999 else -7)) ∧ (-700 : Int) ≤ -7 ∧ (-999 : Int) < -700 ∧
    (∃ x ∈ ([⟨4, some 1⟩, ⟨5, none⟩, ⟨6, some 1⟩] : List TileEntry), x.power = none) := by decide +kernel

/-- The map with lane 5's directed range over extents 2 and 3. -/
def directedMap : ExtentMap :=
  { ExtentMap.default with directed := ExtentMap.default.directed.set 1 (some ⟨2, 4, 5⟩) }

theorem test_meets_ExtentHasAtMostItsOwner :
    (directedMap.directed[(1 : Fin 4)] = some ⟨2, 4, 5⟩ ∧ max 2 1 ≤ 3 ∧ 3 < min 4 17 ∧
      ∀ j : Fin 4, j < 1 → directedMap.directed[j] = none) ∧
    (∀ j : Fin 4, ExtentMap.default.directed[j] = none) ∧
    (let lo := max ExtentMap.default.lo 1;
      let share := (min ExtentMap.default.hi 17 - lo) / 8;
      share = 2 ∧ lo + 7 * share ≤ 16 ∧ 16 < lo + 8 * share ∧ (16 : Nat) < 17) ∧
    (let lo := max ExtentMap.default.lo 1;
      lo + 8 * ((min ExtentMap.default.hi 18 - lo) / 8) ≤ 17 ∧ (17 : Nat) < 18) := by decide +kernel
theorem test_owners_of_extents :
    directedMap.owner 17 3 = some 5 ∧ directedMap.owner 17 16 = some 7 ∧ directedMap.owner 18 17 = none ∧
      directedMap.owner 17 0 = none ∧ directedMap.owner 17 17 = none := by decide +kernel
theorem test_meets_FindingEntersTheLog :
    ((finding 1 .active false).id ≠ 0 ∧ State.reset.dev.log.length < 256 ∧ State.reset.dev.nextId ≠ 0) ∧
    (let log := (List.replicate 255 (finding 1 .active false)) ++ [finding 2 .ended true];
      256 ≤ log.length ∧ (∀ g ∈ List.replicate 255 (finding 1 .active false), g.removable = false) ∧
        (finding 2 .ended true).removable = true) ∧
    (finding 0 .ended false).id = 0 ∧
    (let log := List.replicate 256 (finding 1 .active false);
      256 ≤ log.length ∧ ∀ g ∈ log, g.removable = false) := by decide +kernel

end Sys2Proof.Tests
end

section
/-! PROOFS. Programme lanes and cell intake: the reset values, the timers of hold-off, captions and lines, the EXPORT HOLD,
discarded cells, and the refutation of the statement of LRST. -/

namespace Sys2Proof.Lanes

open Sys2Proof.Machine Sys2Proof.Laws

/-! ### One lane's part of a block -/

/-- A lane's part reads back as it was set. -/
@[simp] theorem lane_set_self {α : Type} {n : Nat} (v : Vector α n) (i : Fin n) (x : α) : (v.set i x)[i] = x := by
  simp

/-- The parts of the other lanes stay. -/
theorem lane_set_ne {α : Type} {n : Nat} (v : Vector α n) {i j : Fin n} (x : α) (h : j ≠ i) : (v.set i x)[j] = v[j] :=
  Vector.getElem_set_ne _ _ (fun e => h (Fin.ext e).symm)

/-- Replacing a lane's part by what it is changes nothing. -/
theorem lane_set_same {α : Type} {n : Nat} (v : Vector α n) (i : Fin n) : v.set i v[i] = v := by
  simp

/-- Two updates of one lane are the later one. -/
theorem modLiu_modLiu (l : LaneNo) (f g : Liu → Liu) (s : State) :
    (s.modLiu l f).modLiu l g = s.modLiu l (fun x => g (f x)) := by
  simp [State.modLiu, State.setLiu]

/-- A settled state stays so when its archive's side does. -/
theorem settled_of_ac {s t : State} (h : s.settled) (due : t.attemptDue = s.attemptDue) (ac : t.ac = s.ac) : t.settled := by
  refine ⟨due.trans h.1, fun l => ?_⟩
  have hl := h.2 l
  unfold State.needsExtent at hl ⊢
  rw [ac]
  exact hl

/-! ### Reset -/

/-- Settles O3: every value is read off the state at reset. -/
theorem resetLeavesTheManualsValues : Obligations.ResetLeavesTheManualsValues := by
  unfold Obligations.ResetLeavesTheManualsValues
  decide +kernel

/-! ### Hold-off and the timers -/

/-- What goes out with a change of hold-off, and the count of it (R5, R16). -/
theorem sendHold_eq (l : LaneNo) (time : Nat) (s : State) :
    s.sendHold l time = { s with
      emitted := s.emitted ++ [.laneCell l (holdCell l time)]
      liu := s.liu.set l { s.liu[l] with
        counters := { s.liu[l].counters with holdsSent := s.liu[l].counters.holdsSent + 1 } } } := rfl

/-- Hold-off as a change makes it: ON or OFF, the resend timer, and the HOLD cell with its count (R16). -/
def holdSent (l : LaneNo) (on : Bool) (resend : Option Nat) (time : Nat) (s : State) : State :=
  { s with
    emitted := s.emitted ++ [.laneCell l (holdCell l time)]
    liu := s.liu.set l { s.liu[l] with
      holdOff := on
      resend := resend
      counters := { s.liu[l].counters with holdsSent := s.liu[l].counters.holdsSent + 1 } } }

theorem holdOffOn_eq (l : LaneNo) (s : State) : s.holdOffOn l = holdSent l true (some (s.clock + 100)) 20 s := by
  simp [State.holdOffOn, sendHold_eq, holdSent, State.modLiu, State.setLiu]

theorem holdOffOff_eq (l : LaneNo) (s : State) : s.holdOffOff l = holdSent l false none 0 s := by
  simp [State.holdOffOff, sendHold_eq, holdSent, State.modLiu, State.setLiu]

/-- Without a change to make, or on a lane whose hold-off is not driven, nothing is sent (R16, R18, R20). -/
theorem reportBuffers_same (l : LaneNo) (s : State)
    (h : s.warm.isSome = true ∨ s.laneEnabled l = false ∨ (s.ac[l].canTake ≤ 1 ↔ s.liu[l].holdOff = true)) :
    s.reportBuffers l = s := by
  unfold State.reportBuffers
  rcases h with h | h | h
  · simp [h]
  · simp [h]
  · split
    · rfl
    · by_cases c : s.ac[l].canTake ≤ 1
      · rw [if_pos c, if_pos (h.mp c)]
      · rw [if_neg c, if_neg (fun e => c (h.mpr e))]

/-- At most one buffer can take records and hold-off is OFF: it becomes ON (R16). -/
theorem reportBuffers_on (l : LaneNo) (s : State) (w : s.warm = none) (e : s.laneEnabled l = true)
    (c : s.ac[l].canTake ≤ 1) (o : s.liu[l].holdOff = false) :
    s.reportBuffers l = holdSent l true (some (s.clock + 100)) 20 s := by
  simp [State.reportBuffers, -Fin.getElem_fin, w, e, c, o, holdOffOn_eq]

/-- Two buffers or more can take records and hold-off is ON: it becomes OFF (R16). -/
theorem reportBuffers_off (l : LaneNo) (s : State) (w : s.warm = none) (e : s.laneEnabled l = true)
    (c : 2 ≤ s.ac[l].canTake) (o : s.liu[l].holdOff = true) : s.reportBuffers l = holdSent l false none 0 s := by
  have c : ¬ s.ac[l].canTake ≤ 1 := by omega
  simp [State.reportBuffers, -Fin.getElem_fin, w, e, c, o, holdOffOff_eq]

theorem resendHold_eq (l : LaneNo) (s : State) (w : s.warm = none) :
    s.resendHold l = holdSent l s.liu[l].holdOff (some (s.clock + 100)) 20 s := by
  simp [State.resendHold, w, sendHold_eq, holdSent, State.modLiu, State.setLiu]

/-- Replacing a lane's captions by what they are changes nothing. -/
theorem keepaliveExpired_eq (l : LaneNo) (s : State) :
    s.keepaliveExpired l = { s with
      cc := s.cc.set l { s.cc[l] with keepalive := none, live := false }
      notices := if s.cc[l].live then { s.notices with caption := s.notices.caption.set l true } else s.notices } := by
  cases h : s.cc[l].live
  · simp [-Fin.getElem_fin, State.keepaliveExpired, State.setLive, State.modCc, State.setCc, h]
  · simp [-Fin.getElem_fin, State.keepaliveExpired, State.setLive, State.modCc, State.setCc, State.raiseCaption, h]

/-- Settles O32: hold-off by its three cases, and each timer's row by whether the timer has expired. -/
theorem resendKeepaliveAndSwapTimersExpire : Obligations.ResendKeepaliveAndSwapTimersExpire := by
  unfold Obligations.ResendKeepaliveAndSwapTimersExpire
  intro s l
  refine ⟨fun w e => ⟨reportBuffers_on l s w e, reportBuffers_off l s w e,
    fun h => reportBuffers_same l s (Or.inr (Or.inr h))⟩, fun d o w => ?_, fun d => ?_, fun d => ?_, fun d => ?_,
    fun d => ?_, fun d => ?_⟩
  · have due : exec (.holdOffResend l) s = .next (s.begin.resendHold l) := by simp [-Fin.getElem_fin, exec, execHoldOffResend, d, o]
    rw [due, resendHold_eq l s.begin w]
    rfl
  · simp [-Fin.getElem_fin, exec, execHoldOffResend, d, State.begin]
  · have due : exec (.keepaliveExpiry l) s = .next (s.begin.keepaliveExpired l) := by
      simp [-Fin.getElem_fin, exec, execKeepaliveExpiry, d]
    rw [due, keepaliveExpired_eq]
    rfl
  · simp [-Fin.getElem_fin, exec, execKeepaliveExpiry, d, State.begin]
  · simp [exec, execSwapTimerExpiry, d, State.begin, Alarm.swapped, Alarm.show]
  · simp [exec, execSwapTimerExpiry, d, State.begin]

/-! ### The EXPORT HOLD -/

/-- The turn moves the place of the free choices at most. -/
theorem exportTurn_shape (s : State) : ∃ n : Nat, s.exportTurn.2 = { s with freeCount := n } := by
  unfold State.exportTurn
  repeat' split
  all_goals exact ⟨_, rfl⟩

/-- The beginning of a RECALL cell changes a slot's sequence number and its RECALL_END, the recall link but for its hold,
what is emitted and the place of the free choices (R179). -/
theorem startExport_shape (s : State) : ∃ (n : Nat) (slots : Vector Slot 2) (link : RecallLink) (e : List Emission),
    s.startExport = { s with freeCount := n, slots := slots, exportLink := link, emitted := e } ∧
    link.hold = s.exportLink.hold ∧
    ∀ k : SlotNo, slots[k].state = s.slots[k].state ∧ slots[k].page = s.slots[k].page := by
  unfold State.startExport
  split
  · exact ⟨s.freeCount, s.slots, s.exportLink, s.emitted, rfl, rfl, fun _ => ⟨rfl, rfl⟩⟩
  · obtain ⟨n, turn⟩ := exportTurn_shape s
    split
    · next t h =>
      obtain rfl : t = { s with freeCount := n } := by rw [← turn, h]
      exact ⟨n, s.slots, s.exportLink, s.emitted, rfl, rfl, fun _ => ⟨rfl, rfl⟩⟩
    · next k t h =>
      obtain rfl : t = { s with freeCount := n } := by rw [← turn, h]
      split
      · exact ⟨n, s.slots, s.exportLink, s.emitted, rfl, rfl, fun _ => ⟨rfl, rfl⟩⟩
      · refine ⟨n, _, _, _, rfl, rfl, fun m => ?_⟩
        by_cases e : m = k
        · subst e
          simp only [modSlot_fields, lane_set_self, and_self]
        · simp only [modSlot_fields, lane_set_ne _ _ e, and_self]

/-- The end of an EXPORT HOLD and the cell that may begin behind it (R17, R180). -/
theorem exportHoldOff_startExport (s : State) :
    let t := s.exportHoldOff.startExport
    t.exportLink.hold = none ∧
    (∀ k : SlotNo, t.slots[k].state = if s.slots[k].state = .paused then .running else s.slots[k].state) ∧
    t.store = s.store ∧ t.settings = s.settings ∧ t.st = s.st ∧ t.ac = s.ac := by
  obtain ⟨n, slots, link, e, shape, hold, kept⟩ := startExport_shape s.exportHoldOff
  rw [shape]
  refine ⟨hold, fun k => (kept k).1.trans ?_, rfl, rfl, rfl, rfl⟩
  simp only [State.exportHoldOff, Fin.getElem_fin, Vector.getElem_map]
  split <;> rfl

/-- Settles O47: by the hold time that a cell carries, and by whether the hold has expired. -/
theorem exportHoldPausesRecalls : Obligations.ExportHoldPausesRecalls := by
  unfold Obligations.ExportHoldPausesRecalls
  intro s
  have cell (bytes : List Byte) :
      exec (.exportHoldCell bytes) s = .next (s.begin.exportHoldCell bytes).startExport := rfl
  refine ⟨fun bytes n h => ?_, fun bytes h => ⟨_, rfl, ?_⟩, fun bytes h sending => ?_, fun d => ⟨_, rfl, ?_⟩, fun d => ?_⟩
  · rw [cell, startExport_idle _ (Or.inr (Or.inl (by simp [State.exportHoldCell, h, State.exportHoldOn])))]
    simp [State.exportHoldCell, h, State.exportHoldOn, State.begin]
  · simp only [State.exportHoldCell, h]
    exact exportHoldOff_startExport s.begin
  · rw [cell, startExport_idle _ (Or.inl (by simpa [State.exportHoldCell, h] using sending))]
    simp [State.exportHoldCell, h, State.begin]
  · simp only [d, if_true]
    exact exportHoldOff_startExport s.begin
  · simp [exec, execExportHoldExpiry, d, State.begin]

/-! ### Discarded cells -/

/-- Gathering keeps the kind field. -/
theorem gather_kind (bytes : List Byte) : cellKind (gather bytes).bytes = bytes[1]? := by
  unfold gather cellKind
  split
  · rfl
  · next k h =>
    have : 1 < headerSize k + maxPayload k + 2 := by omega
    simp [this]

/-- The checks do not read the assembly buffer of the lane. -/
theorem intakeCheck_assembly (enabled : Bool) (l : LaneNo) (x : Liu) (a b : Assembly) :
    intakeCheck enabled l { x with assembly := b } a = intakeCheck enabled l x a := rfl

/-- Settles O50: a failed check counts and may end the acquisition run, and the settled archive has nothing to attend to. -/
theorem discardedCellOnlyCounts : Obligations.DiscardedCellOnlyCounts := by
  unfold Obligations.DiscardedCellOnlyCounts
  refine fun l bytes s => ⟨fun reason w settled failed => ?_, fun w => ?_⟩
  · have run : exec (.inboundCell l bytes) s = .next (s.begin.inboundCell l bytes) := by
      simp [exec, execInboundCell, w]
    have check : intakeCheck ((s.begin.modLiu l (fun x => { x with assembly := gather bytes })).laneEnabled l) l
        (s.begin.modLiu l (fun x => { x with assembly := gather bytes })).liu[l] (gather bytes) = some reason := by
      rw [← failed]
      simp only [modLiu_fields, begin_fields, Fin.getElem_fin, Vector.getElem_set_self]
      exact intakeCheck_assembly _ _ _ _ _
    rw [run]
    simp only [State.inboundCell, check, State.discardCell, modLiu_modLiu, gather_kind]
    refine congrArg _ ((allocate_of_settled _ (settled_of_ac settled ?_ ?_)).trans ?_) <;> simp [State.modLiu, State.setLiu, State.begin]
  · simp [exec, execInboundCell, w, State.begin]

/-! ### LRST -/

/-- Lane 0 writes into an extent and has two FILLING buffers, the first without a record and the second with no room for
a finding record; the allocation gate is open. No reachable state has two (R138), and the statement does not exclude it. -/
def crowded : State := { State.reset with
  scan := .done
  station := some 5
  store := { StorePort.reset with count := some 16, inFlight := none }
  ac := State.reset.ac.set 0 { AcLane.reset with
    alloc := .writing ⟨3, 0, 0, true, 0⟩
    buffers := #v[⟨.filling, [], 0, false⟩, ⟨.filling, [⟨recMark, 0, List.replicate 16372 0#8⟩], 0, false⟩, .empty,
      .empty] } }

/-- LRST serves its request. -/
theorem exec_lrst (q : Byte) (n : Nat) (s : State) :
    exec (.lrst q n) s = .next (s.begin.serve q (.lrst n) (handleLrst n)) := rfl

/-- The state behind LRST of lane 0 in `crowded`. -/
def crowdedReset : State := crowded.begin.serve 0 (.lrst 0) (handleLrst 0)

/-- The flush frees the first buffer and finds nothing to program, so the extent is left; the lane then wants another for
the records of the second, finds none, and the finding of that closes the second buffer. -/
theorem crowdedReset_buffers : crowdedReset.ac[(0 : LaneNo)].buffers[(1 : Fin 4)].state = .waiting ∧
    ∀ i : Fin 4, crowdedReset.ac[(0 : LaneNo)].buffers[i].sealAfter = false := by
  decide +kernel

theorem crowded_ready : crowded.readyToTake = true := by decide +kernel

theorem crowded_writing : crowded.ac[(0 : LaneNo)].alloc = .writing ⟨3, 0, 0, true, 0⟩ := by decide +kernel

theorem crowded_findingsOwned : crowded.findingsOwned := ⟨by decide +kernel, by decide +kernel⟩

/-- Refutes O27: behind LRST of lane 0 in `crowded` a buffer waits and none is marked to be sealed behind. The statement
supposes at most one FILLING buffer only for some of what it says of the flush. -/
theorem not_lrstResetsTheNamedLane : ¬ Obligations.LrstResetsTheNamedLane := by
  unfold Obligations.LrstResetsTheNamedLane
  intro h
  obtain ⟨t, ht, -, -, -, -, -, -, -, -, -, -, -, -, -, -, -, -, -, flush, -⟩ := h 0 0 crowded crowded_ready
  have e : t = crowdedReset := (Host.Outcome.next.inj ((exec_lrst 0 0 crowded).symm.trans ht)).symm
  subst e
  obtain ⟨-, -, sealed, -⟩ := flush crowded_findingsOwned (Or.inr (Or.inl ⟨_, crowded_writing⟩))
  obtain ⟨i, marked, -⟩ := sealed ⟨1, Or.inl crowdedReset_buffers.1⟩
  rw [crowdedReset_buffers.2 i] at marked
  cases marked

end Sys2Proof.Lanes
end

section
/-! PROOFS. What the shared operations of the archive and the findings leave alone beside `Kept`: notices that are set stay
set, and the carriage conditions, the watched segments and the OPEN extents of every lane are not theirs to make. -/

namespace Sys2Proof.Lanes

open Sys2Proof.Machine Sys2Proof.Laws

/-! ### The relations -/

/-- The notices that stand in `m` stand in `n`. -/
structure Louder (m n : Notices) : Prop where
  carriage : ∀ l : LaneNo, m.carriage[l] = true → n.carriage[l] = true
  finding : ∀ l : LaneNo, m.finding[l] = true → n.finding[l] = true
  device : m.deviceFinding = true → n.deviceFinding = true
  verdict : m.verdict = true → n.verdict = true

theorem Louder.refl (n : Notices) : Louder n n := ⟨fun _ => id, fun _ => id, id, id⟩

theorem Louder.trans {m n p : Notices} (a : Louder m n) (b : Louder n p) : Louder m p :=
  ⟨fun l h => b.carriage l (a.carriage l h), fun l h => b.finding l (a.finding l h), fun h => b.device (a.device h),
    fun h => b.verdict (a.verdict h)⟩

/-- Setting a flag keeps the flags that are set. -/
theorem flag_set {n : Nat} (v : Vector Bool n) (i j : Fin n) (h : v[j] = true) : (v.set i true)[j] = true := by
  by_cases e : j = i
  · subst e; exact lane_set_self v _ true
  · rw [lane_set_ne v true e, h]

/-- Notices stay set and carriage conditions stay as they are. -/
structure Quiet (s t : State) : Prop where
  notices : Louder s.notices t.notices
  lost : ∀ l : LaneNo, t.cm[l].lost = s.cm[l].lost
  drift : ∀ l : LaneNo, t.cm[l].drift = s.cm[l].drift

theorem Quiet.refl (s : State) : Quiet s s := ⟨.refl _, fun _ => rfl, fun _ => rfl⟩

theorem Quiet.trans {s t u : State} (a : Quiet s t) (b : Quiet t u) : Quiet s u :=
  ⟨a.notices.trans b.notices, fun l => (b.lost l).trans (a.lost l), fun l => (b.drift l).trans (a.drift l)⟩

/-- An update that touches neither notices nor lanes' findings is quiet. -/
theorem quiet_of_same {s t : State} (n : t.notices = s.notices) (c : t.cm = s.cm) : Quiet s t :=
  ⟨by rw [n]; exact .refl _, fun _ => by rw [c], fun _ => by rw [c]⟩

/-- Beside what is quiet, the watched segments stay, and no extent becomes OPEN. -/
structure Beside (s t : State) : Prop extends Quiet s t where
  watched : ∀ l : LaneNo, t.cm[l].watched = s.cm[l].watched
  unopened : (∀ x ∈ s.extents, x.state ≠ .opened) → ∀ x ∈ t.extents, x.state ≠ .opened

theorem Beside.refl (s : State) : Beside s s := ⟨.refl s, fun _ => rfl, id⟩

theorem Beside.trans {s t u : State} (a : Beside s t) (b : Beside t u) : Beside s u :=
  ⟨a.toQuiet.trans b.toQuiet, fun l => (b.watched l).trans (a.watched l), b.unopened ∘ a.unopened⟩

/-- An update that touches neither notices nor lanes' findings nor extents. -/
theorem beside_of_same {s t : State} (n : t.notices = s.notices) (c : t.cm = s.cm) (x : t.extents = s.extents) :
    Beside s t :=
  ⟨quiet_of_same n c, fun _ => by rw [c], by rw [x]; exact id⟩

/-- An update of the notices alone that keeps those that are set. -/
theorem beside_of_louder {s t : State} (n : Louder s.notices t.notices) (c : t.cm = s.cm) (x : t.extents = s.extents) :
    Beside s t :=
  ⟨⟨n, fun _ => by rw [c], fun _ => by rw [c]⟩, fun _ => by rw [c], by rw [x]; exact id⟩

/-- An update of a lane's findings that are neither of its carriage nor of its watched segment. -/
theorem beside_modCm (l : LaneNo) (f : CmLane → CmLane) (s : State)
    (h : ∀ c, (f c).lost = c.lost ∧ (f c).drift = c.drift ∧ (f c).watched = c.watched) : Beside s (s.modCm l f) := by
  have each (k : LaneNo) : (s.modCm l f).cm[k] = s.cm[k] ∨ (s.modCm l f).cm[k] = f s.cm[k] := by
    by_cases e : k = l
    · subst e; exact Or.inr (lane_set_self _ _ _)
    · exact Or.inl (lane_set_ne _ _ e)
  refine ⟨⟨.refl _, fun k => ?_, fun k => ?_⟩, fun k => ?_, id⟩ <;> rcases each k with e | e <;> rw [e]
  · exact (h _).1
  · exact (h _).2.1
  · exact (h _).2.2

/-- Everything that a shared operation of the archive and the findings does lies on their side. -/
structure Aside (s t : State) : Prop where
  kept : Kept s t
  beside : Beside s t

theorem Aside.refl (s : State) : Aside s s := ⟨.refl s, .refl s⟩

theorem Aside.trans {s t u : State} (a : Aside s t) (b : Aside t u) : Aside s u :=
  ⟨a.kept.trans b.kept, a.beside.trans b.beside⟩

/-! ### Hold-off, records and holds -/

theorem beside_reportBuffers (l : LaneNo) (s : State) : Beside s (s.reportBuffers l) := by
  unfold State.reportBuffers
  repeat' split
  all_goals exact beside_of_same rfl rfl rfl

theorem aside_archive (l : LaneNo) (kind : Byte) (time : Time) (content : List Byte) (s : State) :
    Aside s (s.archive l kind time content) := by
  refine ⟨kept_archive l kind time content s, ?_⟩
  unfold State.archive
  split
  · exact .refl s
  · split
    · exact beside_of_same rfl rfl rfl
    · refine Beside.trans ?_ (beside_reportBuffers l _)
      exact beside_of_same rfl rfl rfl

theorem beside_setHoldEnd (id finding stop : Nat) (s : State) : Beside s (s.setHoldEnd id finding stop) := by
  unfold State.setHoldEnd
  split <;> exact beside_of_same rfl rfl rfl

theorem beside_closeOpenEnds (which : Hold → Bool) (s : State) : Beside s (s.closeOpenEnds which) := by
  unfold State.closeOpenEnds
  dsimp only
  split <;> exact beside_of_same rfl rfl rfl

/-! ### Findings -/

theorem louder_raiseFinding (lane : Option LaneNo) (s : State) : Louder s.notices (s.raiseFinding lane).notices := by
  cases lane with
  | none => exact ⟨fun _ => id, fun _ => id, fun _ => rfl, id⟩
  | some l => exact ⟨fun _ => id, fun k => flag_set _ l k, id, id⟩

theorem beside_driveLines (s : State) : Beside s s.driveLines := by
  unfold State.driveLines
  dsimp only
  repeat' split
  all_goals exact beside_of_same rfl rfl rfl

theorem beside_reassess (s : State) : Beside s s.reassess := by
  refine Beside.trans ?_ (beside_driveLines _)
  exact ⟨⟨.refl _, fun l => by simp, fun l => by simp⟩, fun l => by simp, id⟩

theorem aside_announce (f : Finding) (time : Time) (s : State) : Aside s (s.announce f time) := by
  refine ⟨kept_announce f time s, ?_⟩
  unfold State.announce
  refine Beside.trans ?_ (beside_reassess _)
  refine Beside.trans ?_ (beside_of_louder (louder_raiseFinding _ _) (by simp) (by simp))
  split
  · exact (aside_archive _ _ _ _ s).beside
  · exact .refl s

theorem beside_enterFinding (f : Finding) (s : State) : Beside s (s.enterFinding f) := by
  unfold State.enterFinding
  split
  · exact beside_of_same rfl rfl rfl
  · exact beside_of_louder ⟨fun _ => id, fun _ => id, id, id⟩ rfl rfl

theorem beside_holdFor (ask : Option HoldAsk) (f : Finding) (s : State) : Beside s (s.holdFor ask f).2 := by
  unfold State.holdFor
  split
  · split <;> exact beside_of_same rfl rfl rfl
  · exact .refl s

theorem aside_createFinding (d : Draft) (ask : Option HoldAsk) (s : State) : Aside s (s.createFinding d ask).2 := by
  refine ⟨kept_createFinding d ask s, ?_⟩
  unfold State.createFinding
  refine Beside.trans ?_ (aside_announce _ _ _).beside
  refine Beside.trans ?_ (beside_enterFinding _ _)
  refine Beside.trans ?_ (beside_holdFor _ _ _)
  exact beside_of_same rfl rfl rfl

theorem aside_changeFinding (f : Finding) (time : Time) (s : State) : Aside s (s.changeFinding f time) := by
  refine ⟨kept_changeFinding f time s, ?_⟩
  unfold State.changeFinding
  refine Beside.trans ?_ (aside_announce _ _ _).beside
  split
  · exact beside_of_same rfl rfl rfl
  · exact beside_of_louder ⟨fun _ => id, fun _ => id, id, id⟩ rfl rfl

theorem aside_refreshFinding (f : Finding) (s : State) : Aside s (s.refreshFinding f) := by
  refine ⟨kept_refreshFinding f s, ?_⟩
  unfold State.refreshFinding
  split <;> exact beside_of_same rfl rfl rfl

theorem aside_activateFinding (time : Time) (ask : Option HoldAsk) (f : Finding) (s : State) :
    Aside s (s.activateFinding time ask f).2 :=
  ⟨kept_activateFinding time ask f s, (beside_holdFor ask _ s).trans (aside_changeFinding _ _ _).beside⟩

theorem beside_endHoldOf (f : Finding) (time : Time) (postRoll : Nat) (s : State) :
    Beside s (s.endHoldOf f time postRoll) := by
  unfold State.endHoldOf
  split
  · exact beside_setHoldEnd _ _ _ s
  · exact .refl s

theorem aside_settleOpen (time : Time) (postRoll : Nat) (f : Option Finding) (s : State) :
    Aside s (s.settleOpen time postRoll f) := by
  refine ⟨kept_settleOpen time postRoll f s, ?_⟩
  unfold State.settleOpen State.settleFinding
  split
  · split
    · exact (aside_changeFinding _ _ _).beside
    · exact (beside_endHoldOf _ _ _ s).trans (aside_changeFinding _ _ _).beside
    · exact .refl s
    · exact .refl s
  · exact .refl s

/-! ### The archive's reports and the boundary of an event -/

theorem beside_openStalled (l : LaneNo) (s : State) : Beside s (s.openStalled l) := by
  unfold State.openStalled
  split
  · exact .refl s
  · exact (aside_createFinding _ _ s).beside.trans (beside_modCm l _ _ (fun _ => ⟨rfl, rfl, rfl⟩))

theorem beside_endStalled (l : LaneNo) (s : State) : Beside s (s.endStalled l) :=
  (beside_modCm l (fun c => { c with stalledFinding := none }) s (fun _ => ⟨rfl, rfl, rfl⟩)).trans
    (aside_settleOpen _ _ _ _).beside

theorem beside_openShort (l : LaneNo) (s : State) : Beside s (s.openShort l) := by
  unfold State.openShort
  split
  · exact .refl s
  · exact (aside_createFinding _ _ s).beside.trans (beside_modCm l _ _ (fun _ => ⟨rfl, rfl, rfl⟩))

theorem beside_endShort (l : LaneNo) (s : State) : Beside s (s.endShort l) :=
  (beside_modCm l (fun c => { c with shortFinding := none }) s (fun _ => ⟨rfl, rfl, rfl⟩)).trans
    (aside_settleOpen _ _ _ _).beside

theorem beside_openStoreLost (s : State) : Beside s s.openStoreLost := by
  unfold State.openStoreLost
  split
  · exact .refl s
  · exact (aside_createFinding _ _ s).beside.trans (beside_of_same rfl rfl rfl)

theorem beside_inEitherOrder (f g : State → State) (hf : ∀ s, Beside s (f s)) (hg : ∀ s, Beside s (g s)) (s : State) :
    Beside s (inEitherOrder f g s) := by
  have free : Beside s s.advanceFree := beside_of_same rfl rfl rfl
  unfold inEitherOrder
  split
  · exact (free.trans (hf _)).trans (hg _)
  · exact (free.trans (hg _)).trans (hf _)

theorem beside_reportChoice (l : LaneNo) (short : Bool) (s : State) : Beside s (s.reportChoice l short) := by
  have report (a b : Bool) (t : State) : Beside t (if a then t.openShort l else if b then t.endShort l else t) := by
    split
    · exact beside_openShort l t
    · split
      · exact beside_endShort l t
      · exact .refl t
  unfold State.reportChoice
  refine Beside.trans (beside_of_same rfl rfl rfl :
    Beside s (s.modAc l (fun a => { a with stalled := false, short := short }))) ?_
  dsimp only
  split
  · exact beside_inEitherOrder _ _ (beside_endStalled l) (report _ _) _
  · split
    · exact beside_endStalled l _
    · exact report _ _ _

/-- An extent that is given up or taken for erase is not OPEN. -/
theorem beside_modExtent (n : Nat) (f : Extent → Extent) (s : State) (h : ∀ x, (f x).state ≠ .opened) :
    Beside s (s.modExtent n f) := by
  refine ⟨quiet_of_same rfl rfl, fun _ => rfl, fun u x hx => ?_⟩
  obtain ⟨y, hy, rfl⟩ := List.mem_map.mp hx
  split
  · exact h y
  · exact u y hy

theorem beside_setAlloc (l : LaneNo) (x : AllocState) (s : State) : Beside s (s.setAlloc l x) := by
  unfold State.setAlloc
  exact beside_of_same (by simp) (by simp) (by simp [State.modAc, State.setAc])

theorem beside_takeChoice (l : LaneNo) (x : Extent) (short : Bool) (s : State) : Beside s (s.takeChoice l x short) := by
  refine Beside.trans ?_ (beside_reportChoice l short _)
  refine Beside.trans ?_ (beside_setAlloc l _ _)
  exact (beside_modExtent x.no _ s (fun _ => by simp [Extent.wiped, Extent.cleared])).trans (beside_of_same rfl rfl rfl)

theorem beside_noCandidate (l : LaneNo) (s : State) : Beside s (s.noCandidate l) := by
  unfold State.noCandidate
  split
  · exact (beside_of_same rfl rfl rfl : Beside s (s.modAc l _)).trans (beside_setAlloc l _ _)
  · split
    · exact .refl s
    · exact (beside_of_same rfl rfl rfl : Beside s (s.modAc l _)).trans (beside_openStalled l _)

theorem Beside.foldl {α : Type} (f : State → α → State) (h : ∀ s x, Beside s (f s x)) :
    ∀ (xs : List α) (s : State), Beside s (xs.foldl f s)
  | [], s => .refl s
  | x :: xs, s => (h s x).trans (Beside.foldl f h xs (f s x))

theorem beside_attempt (l : LaneNo) (s : State) : Beside s (s.attempt l) := by
  unfold State.attempt
  split
  · dsimp only
    refine Beside.trans (Beside.foldl (fun (t : State) n => t.modExtent n (Extent.cleared .retired))
      (fun t n => beside_modExtent n _ t (fun _ => by simp [Extent.cleared]))
      (choose s.protects ((s.candidates l).length + 1) (s.candidates l) []).2 s) ?_
    split
    · exact beside_takeChoice l _ _ _
    · exact beside_takeChoice l _ _ _
    · exact beside_noCandidate l _
  · exact .refl s

theorem beside_allocateN : ∀ (n : Nat) (s : State), Beside s (s.allocateN n)
  | 0, s => .refl s
  | n + 1, s => by
    have enter : Beside s (entered s) :=
      (Beside.foldl (fun (t : State) l => t.setAlloc l .wanted) (fun t l => beside_setAlloc l _ t) _ s).trans
        (beside_of_same rfl rfl rfl)
    rw [allocateN_succ]
    split
    · exact enter
    · refine enter.trans (Beside.trans (beside_of_same (by simp) (by simp) (by simp)) (Beside.trans
        (Beside.foldl (fun (t : State) l => t.attempt l) (fun t l => beside_attempt l t) _ _) (beside_allocateN n _)))

/-- Everything the boundary of an event can do is aside. -/
theorem aside_allocate (s : State) : Aside s s.allocate := ⟨kept_allocate s, beside_allocateN 20 s⟩

/-- A record that is handed to the archive, and the boundary behind it. -/
theorem aside_record (l : LaneNo) (kind : Byte) (time : Time) (content : List Byte) (s : State) :
    Aside s (s.archive l kind time content).allocate :=
  (aside_archive l kind time content s).trans (aside_allocate _)

theorem aside_advanceFree (s : State) : Aside s s.advanceFree := ⟨kept_advanceFree s, beside_of_same rfl rfl rfl⟩

/-! ### What a new finding does -/

/-- An announcement sets the FINDING notice of the lane (R107). -/
theorem announce_raises (f : Finding) (time : Time) (s : State) (l : LaneNo) (h : f.lane = some l) :
    (s.announce f time).notices.finding[l] = true := by
  unfold State.announce
  refine (beside_reassess _).notices.finding l ?_
  rw [h]
  exact lane_set_self _ _ _

theorem createFinding_raises (d : Draft) (ask : Option HoldAsk) (s : State) (l : LaneNo) (h : d.lane = some l) :
    (s.createFinding d ask).2.notices.finding[l] = true :=
  announce_raises _ _ _ l ((createFinding_lane d ask s).trans h)

/-- An announcement leaves the finding log and the next id. -/
theorem announce_dev (f : Finding) (time : Time) (s : State) :
    (s.announce f time).dev = { s.dev with status := (s.announce f time).dev.status } := by
  have report (l : LaneNo) (t : State) : (t.reportBuffers l).dev = t.dev := by
    unfold State.reportBuffers
    repeat' split
    all_goals rfl
  have arch (l : LaneNo) (kind : Byte) (content : List Byte) (t : State) :
      (t.archive l kind time content).dev = t.dev := by
    unfold State.archive
    split
    · rfl
    · split
      · rfl
      · exact report l _
  have drive (t : State) : t.driveLines.dev = t.dev := by
    unfold State.driveLines
    dsimp only
    repeat' split
    all_goals rfl
  have tail (t : State) : (t.raiseFinding f.lane).reassess.dev
      = { t.dev with status := (t.raiseFinding f.lane).reassess.dev.status } := by
    unfold State.reassess
    rw [drive]
    simp
  unfold State.announce
  dsimp only
  split
  · rw [tail, arch]
  · exact tail s

/-- The finding that a creation enters: the next id, and the answer to its request for a hold (R106, R121). -/
theorem createFinding_nextId (d : Draft) (ask : Option HoldAsk) (s : State) :
    (s.createFinding d ask).2.dev.nextId = nextFindingId s.dev.nextId := by
  have hold (f : Finding) (t : State) : (t.holdFor ask f).2.dev = t.dev := by
    unfold State.holdFor
    split
    · split <;> rfl
    · rfl
  have enter (f : Finding) (t : State) : (t.enterFinding f).dev.nextId = t.dev.nextId := by
    unfold State.enterFinding
    split <;> rfl
  unfold State.createFinding
  dsimp only
  rw [announce_dev, enter, hold]

end Sys2Proof.Lanes
end

section
/-! PROOFS. Tile records and carriage: what the condition checks make of a record, what handing a record on leaves alone, and
what a change of carriage does. -/

namespace Sys2Proof.Lanes

open Sys2Proof.Machine Sys2Proof.Laws

/-- Beside the archive's side, at most the watched segments of lanes change. -/
structure Near (s t : State) : Prop where
  kept : Kept s t
  quiet : Quiet s t

theorem Aside.near {s t : State} (h : Aside s t) : Near s t := ⟨h.kept, h.beside.toQuiet⟩

theorem Near.refl (s : State) : Near s s := ⟨.refl s, .refl s⟩

theorem Near.trans {s t u : State} (a : Near s t) (b : Near t u) : Near s u :=
  ⟨a.kept.trans b.kept, a.quiet.trans b.quiet⟩

/-- A change of a lane's watched segment. -/
theorem near_modWatched (l : LaneNo) (w : Option Watched) (s : State) :
    Near s (s.modCm l (fun c => { c with watched := w })) := by
  have each (k : LaneNo) : (s.modCm l (fun c => { c with watched := w })).cm[k] = s.cm[k] ∨
      (s.modCm l (fun c => { c with watched := w })).cm[k] = { s.cm[k] with watched := w } := by
    by_cases e : k = l
    · subst e; exact Or.inr (lane_set_self _ _ _)
    · exact Or.inl (lane_set_ne _ _ e)
  refine ⟨kept_modCm l _ s, .refl _, fun k => ?_, fun k => ?_⟩ <;> rcases each k with e | e <;> rw [e]

/-! ### The condition checks (R109 to R111) -/

/-- What a tile record makes of the runs of a watched segment's checks (R109 to R111). -/
def Ran (r : TileRecord) (rule : RuleSet) (w v : Watched) : Prop :=
  v.ident = w.ident ∧ v.ruleSet = w.ruleSet ∧
  v.deadAir.run = (if r.void then w.deadAir.run else if r.silent then w.deadAir.run + 1 else 0) ∧
  v.captionGap.run = (if w.ident.duty = .exempt ∨ r.void = true then w.captionGap.run
    else if r.alive then 0 else w.captionGap.run + 1) ∧
  (rule.shortCeiling = none ∨ r.void = true ∨ r.shortTerm.stale = true → v.stCeiling.isOver = w.stCeiling.isOver) ∧
  (∀ ceiling : Int, rule.shortCeiling = some ceiling → r.void = false → r.shortTerm.stale = false →
    v.stCeiling.isOver = decide (ceiling < r.shortTerm.value))

theorem holdCondition_aside (rule : RuleSet) (start closeTime : Time) (measured : Int) (grace : Nat) (f : Finding)
    (s : State) : Aside s (s.holdCondition rule start closeTime measured grace f).2 := by
  unfold State.holdCondition
  dsimp only
  split
  · split
    · exact aside_activateFinding _ _ _ _
    · exact aside_refreshFinding _ _
  · exact aside_refreshFinding _ _

/-- A tile that counts for a run adds one to it. -/
theorem runHolds_spec (l : LaneNo) (kind : FindingKind) (severity : Severity) (limit : Nat) (rule : RuleSet)
    (segId : Nat) (closeTime : Time) (c : RunCond) (s : State) :
    (s.runHolds l kind severity limit rule segId closeTime c).1.run = c.run + 1 ∧
      Aside s (s.runHolds l kind severity limit rule segId closeTime c).2 := by
  unfold State.runHolds
  dsimp only
  split
  · exact ⟨rfl, holdCondition_aside _ _ _ _ _ _ _⟩
  · split
    · exact ⟨rfl, aside_createFinding _ _ s⟩
    · exact ⟨rfl, .refl s⟩

theorem runEnds_spec (rule : RuleSet) (closeTime : Time) (c : RunCond) (s : State) :
    (s.runEnds rule closeTime c).1.run = 0 ∧ Aside s (s.runEnds rule closeTime c).2 :=
  ⟨rfl, aside_settleOpen _ _ _ s⟩

theorem deadAirTile_spec (l : LaneNo) (rule : RuleSet) (segId : Nat) (r : TileRecord) (c : RunCond) (s : State) :
    (s.deadAirTile l rule segId r c).1.run = (if r.void then c.run else if r.silent then c.run + 1 else 0) ∧
      Aside s (s.deadAirTile l rule segId r c).2 := by
  unfold State.deadAirTile
  split
  · exact ⟨rfl, .refl s⟩
  · split
    · exact runHolds_spec l _ _ _ rule segId _ c s
    · exact runEnds_spec rule _ c s

theorem captionGapTile_spec (l : LaneNo) (rule : RuleSet) (duty : Duty) (segId : Nat) (r : TileRecord) (c : RunCond)
    (s : State) :
    (s.captionGapTile l rule duty segId r c).1.run = (if duty = .exempt ∨ r.void = true then c.run
        else if r.alive then 0 else c.run + 1) ∧
      Aside s (s.captionGapTile l rule duty segId r c).2 := by
  unfold State.captionGapTile
  split
  · exact ⟨rfl, .refl s⟩
  · split
    · exact runEnds_spec rule _ c s
    · exact runHolds_spec l _ _ _ rule segId _ c s

theorem shortTermTile_spec (l : LaneNo) (rule : RuleSet) (segId : Nat) (r : TileRecord) (c : OverCond) (s : State) :
    (rule.shortCeiling = none ∨ r.void = true ∨ r.shortTerm.stale = true →
      (s.shortTermTile l rule segId r c).1.isOver = c.isOver) ∧
    (∀ ceiling : Int, rule.shortCeiling = some ceiling → r.void = false → r.shortTerm.stale = false →
      (s.shortTermTile l rule segId r c).1.isOver = decide (ceiling < r.shortTerm.value)) ∧
    Aside s (s.shortTermTile l rule segId r c).2 := by
  unfold State.shortTermTile
  split
  · next none_ => exact ⟨fun _ => rfl, fun _ h => by (rw [none_] at h; cases h), .refl s⟩
  · next top some_ =>
    have same (ceiling : Int) (h : rule.shortCeiling = some ceiling) : ceiling = top := by
      rw [some_] at h; exact (Option.some.inj h).symm
    have skip (h : ¬ (r.void || r.shortTerm.stale) = true) :
        ¬ (rule.shortCeiling = none ∨ r.void = true ∨ r.shortTerm.stale = true) := by
      rw [some_]; simpa using h
    split
    · next out => exact ⟨fun _ => rfl, fun _ _ v t => by simp [v, t] at out, .refl s⟩
    · next counts =>
      split
      · next above =>
        have over_ (ceiling : Int) (h : rule.shortCeiling = some ceiling) :
            true = decide (ceiling < r.shortTerm.value) := by rw [same ceiling h]; simpa using above
        split
        · next was =>
          split
          · exact ⟨fun h => absurd h (skip counts), fun c h _ _ => over_ c h, holdCondition_aside _ _ _ _ _ _ _⟩
          · exact ⟨fun _ => rfl, fun c h _ _ => was.trans (over_ c h), .refl s⟩
        · exact ⟨fun h => absurd h (skip counts), fun c h _ _ => over_ c h, aside_createFinding _ _ s⟩
      · next below =>
        exact ⟨fun h => absurd h (skip counts), fun c h _ _ => by rw [same c h]; simpa [OverCond.fresh] using below,
          aside_settleOpen _ _ _ s⟩

/-- A tile record changes findings and its lane's watched segment, whose runs it counts when it names that segment. -/
theorem cmTile_spec (l : LaneNo) (r : TileRecord) (s : State) :
    Near s (s.cmTile l r) ∧
    ∀ (w : Watched) (k : Fin 16), s.cm[l].watched = some w → w.ruleSet = some k → r.segId = some w.ident.segId →
      ∃ v, (s.cmTile l r).cm[l].watched = some v ∧ Ran r s.settings.rules[k] w v := by
  unfold State.cmTile
  split
  · next h =>
    refine ⟨.refl s, fun w k hw hk hr => ?_⟩
    simp only [State.watchedRule, hw, hk, hr, if_true] at h
    cases h
  · next w rule h =>
    obtain ⟨dead, a⟩ := deadAirTile_spec l rule w.ident.segId r w.deadAir s
    obtain ⟨gap, b⟩ := captionGapTile_spec l rule w.ident.duty w.ident.segId r w.captionGap
      (s.deadAirTile l rule w.ident.segId r w.deadAir).2
    obtain ⟨out, over_, c⟩ := shortTermTile_spec l rule w.ident.segId r w.stCeiling
      ((s.deadAirTile l rule w.ident.segId r w.deadAir).2.captionGapTile l rule w.ident.duty w.ident.segId r
        w.captionGap).2
    refine ⟨((a.trans b).trans c).near.trans (near_modWatched l _ _), fun x k hx hk hr => ?_⟩
    have same : w = x ∧ rule = s.settings.rules[k] := by
      simp only [State.watchedRule, hx, hk, hr, if_true, Option.some.injEq, Prod.mk.injEq] at h
      exact ⟨h.1.symm, h.2.symm⟩
    obtain ⟨rfl, ruled⟩ := same
    refine ⟨_, congrArg CmLane.watched (lane_set_self _ _ _), ?_⟩
    rw [← ruled]
    exact ⟨rfl, rfl, dead, gap, out, over_⟩

/-! ### Handing a record on (R39) -/

/-- A record that is handed on joins its segment; the rest is near. The runs of its watched segment are counted. -/
theorem handTile_spec (l : LaneNo) (r : TileRecord) (s : State) :
    Near (s.stTile l r) (s.handTile l r) ∧
    ∀ (w : Watched) (k : Fin 16), s.cm[l].watched = some w → w.ruleSet = some k → r.segId = some w.ident.segId →
      ∃ v, (s.handTile l r).cm[l].watched = some v ∧ Ran r s.settings.rules[k] w v := by
  have st : (s.stTile l r).cm = s.cm ∧ (s.stTile l r).settings = s.settings := by
    unfold State.stTile
    split
    · split <;> exact ⟨rfl, rfl⟩
    · exact ⟨rfl, rfl⟩
  have record (t : State) : Aside t (t.archive l recTile r.closeTime (tileContent l r)).allocate := aside_record _ _ _ _ t
  have checks (t : State) : Near t (t.cmTile l r).allocate := (cmTile_spec l r t).1.trans (aside_allocate _).near
  have counted (t u : State) (c : t.cm[l].watched = s.cm[l].watched) (e : t.settings = s.settings)
      (after : Aside (t.cmTile l r) u) (w : Watched) (k : Fin 16) (hw : s.cm[l].watched = some w)
      (hk : w.ruleSet = some k) (hr : r.segId = some w.ident.segId) :
      ∃ v, u.cm[l].watched = some v ∧ Ran r s.settings.rules[k] w v := by
    obtain ⟨v, hv, ran⟩ := (cmTile_spec l r t).2 w k (c.trans hw) hk hr
    exact ⟨v, (after.beside.watched l).trans hv, e ▸ ran⟩
  unfold State.handTile
  dsimp only
  split
  · exact ⟨(cmTile_spec l r _).1.trans (record _).near, counted _ _ (by rw [st.1]) st.2 (record _)⟩
  · unfold inEitherOrder
    have free := aside_advanceFree (s.stTile l r)
    split
    · refine ⟨(free.near.trans (record _).near).trans (checks _), ?_⟩
      have before := free.trans (record (s.stTile l r).advanceFree)
      exact counted _ _ ((before.beside.watched l).trans (by rw [st.1])) (before.kept.settings.trans st.2)
        (aside_allocate _)
    · refine ⟨(free.near.trans (checks _)).trans (record _).near, ?_⟩
      exact counted _ _ ((free.beside.watched l).trans (by rw [st.1])) (free.kept.settings.trans st.2)
        ((aside_allocate _).trans (record _))

/-! ### Carriage (R7 to R11) -/

/-- The state in which a change of carriage is told to the Compliance Monitor: the notice is set, and an entry to ACQUIRING
has set the filters to rest (R11, R24). -/
def carriageSet (l : LaneNo) (new : Carriage) (s : State) : State :=
  { s with
    liu := s.liu.set l { s.liu[l] with carriage := new }
    le := if new = .acquiring then s.le.set l { s.le[l] with filters := .zero } else s.le
    notices := { s.notices with carriage := s.notices.carriage.set l true } }

theorem setCarriage_same (l : LaneNo) (new : Carriage) (s : State) (h : s.liu[l].carriage = new) :
    s.setCarriage l new = s := by
  unfold State.setCarriage
  rw [if_pos h]

theorem setCarriage_other (l : LaneNo) (new : Carriage) (s : State) (h : s.liu[l].carriage ≠ new) :
    s.setCarriage l new = ((carriageSet l new s).cmCarriage l new).allocate := by
  unfold State.setCarriage carriageSet
  rw [if_neg h]
  split
  · next e => rfl
  · next e => rfl

/-- A change of carriage is its own update, and what lies on the archive's side. -/
theorem setCarriage_kept (l : LaneNo) (new : Carriage) (s : State) (h : s.liu[l].carriage ≠ new) :
    Kept (carriageSet l new s) (s.setCarriage l new) := by
  rw [setCarriage_other l new s h]
  exact (kept_cmCarriage l new _).trans (kept_allocate _)

/-- A lane's condition is replaced; notices and watched segments stay. -/
theorem modCond_spec (l : LaneNo) (w : LaneCondition) (x : LaneCond) (s : State) :
    let t := s.modCm l (fun c => c.withCond w x)
    t.notices = s.notices ∧ (t.cm[l].cond w) = x ∧
    (∀ v, v ≠ w → t.cm[l].cond v = s.cm[l].cond v) ∧ ∀ k : LaneNo, t.cm[k].watched = s.cm[k].watched := by
  refine ⟨rfl, ?_, fun v hv => ?_, fun k => ?_⟩
  · simp only [modCm_fields, lane_set_self]
    cases w <;> rfl
  · simp only [modCm_fields, lane_set_self]
    match v, w, hv with
    | .lost, .drift, _ => rfl
    | .drift, .lost, _ => rfl
    | .lost, .lost, hv => exact absurd rfl hv
    | .drift, .drift, hv => exact absurd rfl hv
  · by_cases e : k = l
    · subst e
      simp only [modCm_fields, lane_set_self]
      cases w <;> rfl
    · simp only [modCm_fields, lane_set_ne _ _ e]

/-- What lies aside leaves a lane's carriage conditions. -/
theorem Aside.cond {s t : State} (h : Aside s t) (l : LaneNo) (w : LaneCondition) : t.cm[l].cond w = s.cm[l].cond w := by
  cases w
  · exact h.beside.lost l
  · exact h.beside.drift l

/-- Entry to LOST or DRIFT leaves the condition's finding open (R114). -/
theorem openLaneCondition_spec (l : LaneNo) (w : LaneCondition) (s : State) :
    let t := s.openLaneCondition l w
    Louder s.notices t.notices ∧ (t.cm[l].cond w).finding.isSome = true ∧
    ∀ k : LaneNo, t.cm[k].watched = s.cm[k].watched := by
  unfold State.openLaneCondition
  split
  · next f h => exact ⟨.refl _, by rw [h]; rfl, fun _ => rfl⟩
  · dsimp only
    have made := aside_createFinding (conditionDraft (some l) (condKind w) ((s.laneSettings l).condSeverity w)
      (decide ((s.laneSettings l).condGrace w = 0)) s.station)
      (if (s.laneSettings l).condGrace w = 0 then s.laneAsk l ((s.laneSettings l).condSeverity w) s.station else none) s
    generalize (s.createFinding _ _) = made_ at made ⊢
    obtain ⟨-, own, -, watched⟩ := modCond_spec l w
      ⟨some made_.1, if (s.laneSettings l).condGrace w = 0 then none
        else some (s.clock + (s.laneSettings l).condGrace w)⟩ made_.2
    exact ⟨made.beside.notices, by rw [own]; rfl, fun k => (watched k).trans (made.beside.watched k)⟩

/-- Settling a condition leaves it without a finding, and the other as it was (R114). -/
theorem settleLaneCondition_spec (l : LaneNo) (w : LaneCondition) (s : State) :
    let t := s.settleLaneCondition l w
    Louder s.notices t.notices ∧ (t.cm[l].cond w).finding = none ∧ (∀ v, v ≠ w → t.cm[l].cond v = s.cm[l].cond v) ∧
    ∀ k : LaneNo, t.cm[k].watched = s.cm[k].watched := by
  unfold State.settleLaneCondition
  dsimp only
  obtain ⟨-, own, others, watched⟩ := modCond_spec l w ⟨none, none⟩ s
  have settled := aside_settleOpen (s.modCm l (fun c => c.withCond w ⟨none, none⟩)).station
    ((s.modCm l (fun c => c.withCond w ⟨none, none⟩)).laneSettings l).postRoll (s.cm[l].cond w).finding
    (s.modCm l (fun c => c.withCond w ⟨none, none⟩))
  exact ⟨settled.beside.notices, by rw [settled.cond, own], fun v hv => (settled.cond l v).trans (others v hv),
    fun k => (settled.beside.watched k).trans (watched k)⟩

/-- What a change of carriage does to notices and findings: the notice is set and stays, LOST and DRIFT open their finding,
and PRESENT and ABSENT leave none open (R11, R114). -/
theorem setCarriage_findings (l : LaneNo) (new : Carriage) (s : State) (h : s.liu[l].carriage ≠ new) :
    let t := s.setCarriage l new
    Louder s.notices t.notices ∧ t.notices.carriage[l] = true ∧
    (new = .lost → t.cm[l].lost.finding.isSome = true) ∧ (new = .drift → t.cm[l].drift.finding.isSome = true) ∧
    (new = .present ∨ new = .absent → t.cm[l].lost.finding = none ∧ t.cm[l].drift.finding = none) ∧
    ∀ k : LaneNo, t.cm[k].watched = s.cm[k].watched := by
  rw [setCarriage_other l new s h]
  have set_ : Louder s.notices (carriageSet l new s).notices := ⟨fun k => flag_set _ l k, fun _ => id, id, id⟩
  have own : (carriageSet l new s).notices.carriage[l] = true := lane_set_self _ _ _
  have done := aside_allocate ((carriageSet l new s).cmCarriage l new)
  have open_ (w : LaneCondition) := openLaneCondition_spec l w (carriageSet l new s)
  have settle : let t := (carriageSet l new s).settleLaneConditions l
      Louder (carriageSet l new s).notices t.notices ∧ t.cm[l].lost.finding = none ∧ t.cm[l].drift.finding = none ∧
      ∀ k : LaneNo, t.cm[k].watched = s.cm[k].watched := by
    obtain ⟨n1, lost, -, w1⟩ := settleLaneCondition_spec l .lost (carriageSet l new s)
    obtain ⟨n2, drift, other, w2⟩ := settleLaneCondition_spec l .drift
      ((carriageSet l new s).settleLaneCondition l .lost)
    refine ⟨n1.trans n2, ?_, drift, fun k => (w2 k).trans (w1 k)⟩
    have := other .lost (by decide)
    exact (congrArg LaneCond.finding this).trans lost
  have told : Louder (carriageSet l new s).notices ((carriageSet l new s).cmCarriage l new).notices ∧
      (new = .lost → ((carriageSet l new s).cmCarriage l new).cm[l].lost.finding.isSome = true) ∧
      (new = .drift → ((carriageSet l new s).cmCarriage l new).cm[l].drift.finding.isSome = true) ∧
      (new = .present ∨ new = .absent → ((carriageSet l new s).cmCarriage l new).cm[l].lost.finding = none ∧
        ((carriageSet l new s).cmCarriage l new).cm[l].drift.finding = none) ∧
      ∀ k : LaneNo, ((carriageSet l new s).cmCarriage l new).cm[k].watched = s.cm[k].watched := by
    cases new with
    | lost => exact ⟨(open_ .lost).1, fun _ => (open_ .lost).2.1, nofun, by simp, (open_ .lost).2.2⟩
    | drift => exact ⟨(open_ .drift).1, nofun, fun _ => (open_ .drift).2.1, by simp, (open_ .drift).2.2⟩
    | present => exact ⟨settle.1, nofun, nofun, fun _ => ⟨settle.2.1, settle.2.2.1⟩, settle.2.2.2⟩
    | absent => exact ⟨settle.1, nofun, nofun, fun _ => ⟨settle.2.1, settle.2.2.1⟩, settle.2.2.2⟩
    | acquiring => exact ⟨.refl _, nofun, nofun, by simp, fun _ => rfl⟩
  obtain ⟨louder, lost, drift, none_, watched⟩ := told
  refine ⟨(set_.trans louder).trans done.beside.notices, done.beside.notices.carriage l (louder.carriage l own),
    fun e => ?_, fun e => ?_, fun e => ?_, fun k => (done.beside.watched k).trans (watched k)⟩
  · rw [done.beside.lost]; exact lost e
  · rw [done.beside.drift]; exact drift e
  · rw [done.beside.lost, done.beside.drift]; exact none_ e

end Sys2Proof.Lanes
end

section
/-! PROOFS. The rate window's completion: what a lane's intake keeps through the archive's side, and how the count of the
window moves the lane between PRESENT and DRIFT. -/

namespace Sys2Proof.Lanes

open Sys2Proof.Machine Sys2Proof.Laws

/-! ### The core of a Lane Intake Unit -/

/-- Two intake units of one core agree but for hold-off. -/
structure SameCore (x y : Liu) : Prop extends shared : x.sameCarriage y where
  runLast : y.runLast = x.runLast
  assembly : y.assembly = x.assembly
  counters : { y.counters with holdsSent := 0 } = { x.counters with holdsSent := 0 }

theorem sameCore_of_core {x y : Liu} (h : liuCore y = liuCore x) : SameCore x y := by
  simp only [liuCore, Liu.mk.injEq] at h
  obtain ⟨carriage, run, runLast, gap, window, lastCount, openTile, lossTile, -, -, counters, assembly⟩ := h
  exact ⟨⟨carriage, run, gap, window, lastCount, openTile, lossTile⟩, runLast, assembly, counters⟩

theorem SameCore.trans {x y z : Liu} (a : SameCore x y) (b : SameCore y z) : SameCore x z :=
  ⟨⟨b.carriage.trans a.carriage, b.run.trans a.run, b.gapTimer.trans a.gapTimer, b.window.trans a.window,
    b.lastCount.trans a.lastCount, b.openTile.trans a.openTile, b.lossTile.trans a.lossTile⟩, b.runLast.trans a.runLast,
    b.assembly.trans a.assembly, b.counters.trans a.counters⟩

/-- What lies on the archive's side leaves every lane's intake but for hold-off. -/
theorem core_of_kept {s t : State} (h : Kept s t) (l : LaneNo) : SameCore s.liu[l] t.liu[l] := sameCore_of_core (h.liu l)

theorem SameCore.discontinuities {x y : Liu} (h : SameCore x y) :
    y.counters.discontinuities = x.counters.discontinuities :=
  (IntakeCounters.mk.inj h.counters).2.2.2.2.2.2.2.2.2.2.2.1

/-- What lies on the archive's side leaves the rest. -/
theorem leavesOthers_of_kept {s t : State} (h : Kept s t) : State.leavesOthers s t :=
  ⟨h.pending, h.clock, h.station, h.le, h.cc, h.st, h.verdicts, h.settings, h.mode, h.configTimer, h.inForce, h.slots,
    h.exportLink, h.warm, h.link, h.saveInFlight⟩

/-- An update that leaves what an event of the archive's side leaves, and more of that side. -/
theorem leavesOthers_trans {s t u : State} (a : State.leavesOthers s t) (b : State.leavesOthers t u) :
    State.leavesOthers s u where
  pending := b.pending.trans a.pending
  clock := b.clock.trans a.clock
  station := b.station.trans a.station
  le := b.le.trans a.le
  cc := b.cc.trans a.cc
  st := b.st.trans a.st
  verdicts := b.verdicts.trans a.verdicts
  settings := b.settings.trans a.settings
  mode := b.mode.trans a.mode
  configTimer := b.configTimer.trans a.configTimer
  inForce := b.inForce.trans a.inForce
  slots := b.slots.trans a.slots
  exportLink := b.exportLink.trans a.exportLink
  warm := b.warm.trans a.warm
  link := b.link.trans a.link
  saveInFlight := b.saveInFlight.trans a.saveInFlight

/-- A change of carriage but to ACQUIRING is the archive's side and the lane's intake. -/
theorem setCarriage_leavesOthers (l : LaneNo) (new : Carriage) (s : State) (a : new ≠ .acquiring) :
    State.leavesOthers s (s.setCarriage l new) := by
  by_cases h : s.liu[l].carriage = new
  · rw [setCarriage_same l new s h]
    exact leavesOthers_of_kept (.refl s)
  · refine leavesOthers_trans ?_ (leavesOthers_of_kept (setCarriage_kept l new s h))
    unfold carriageSet
    rw [if_neg a]
    constructor <;> rfl

/-- A change of carriage sets it, and leaves the rest of the lane's intake but for hold-off. -/
theorem setCarriage_core (l : LaneNo) (new : Carriage) (s : State) :
    SameCore { s.liu[l] with carriage := new } (s.setCarriage l new).liu[l] := by
  by_cases h : s.liu[l].carriage = new
  · rw [setCarriage_same l new s h, ← h]
    exact sameCore_of_core rfl
  · have kept := core_of_kept (setCarriage_kept l new s h) l
    rwa [show (carriageSet l new s).liu[l] = { s.liu[l] with carriage := new } from lane_set_self _ _ _] at kept

/-- A change of carriage leaves the other lanes' intakes but for hold-off. -/
theorem setCarriage_core_ne (l k : LaneNo) (new : Carriage) (s : State) (e : k ≠ l) :
    SameCore s.liu[k] (s.setCarriage l new).liu[k] := by
  by_cases h : s.liu[l].carriage = new
  · rw [setCarriage_same l new s h]
    exact sameCore_of_core rfl
  · have kept := core_of_kept (setCarriage_kept l new s h) k
    rwa [show (carriageSet l new s).liu[k] = s.liu[k] from lane_set_ne _ _ e] at kept

/-! ### The window's completion (R9, R10) -/

/-- The carriage that a completed count leads to, if it leads to another. -/
def judgedCarriage (within : Bool) : Carriage → Option Carriage
  | .present => if within then none else some .drift
  | .drift => if within then some .present else none
  | .absent => none
  | .acquiring => none
  | .lost => none

theorem judgedCarriage_other {within : Bool} {old new : Carriage} (h : judgedCarriage within old = some new) :
    old ≠ new ∧ new ≠ .acquiring := by
  cases old <;> cases within <;> cases h <;> decide

theorem windowCompleted_eq (l : LaneNo) (count : Nat) (s : State) :
    s.windowCompleted l count = match judgedCarriage (withinBounds (s.laneSettings l) count) s.liu[l].carriage with
      | some new => (s.startWindow l).setCarriage l new
      | none => s.startWindow l := by
  have started : (s.startWindow l).liu[l].carriage = s.liu[l].carriage := by
    rw [show (s.startWindow l).liu[l] = { s.liu[l] with window := some ⟨s.clock, 0⟩ } from lane_set_self _ _ _]
  unfold State.windowCompleted
  dsimp only
  rw [started]
  cases s.liu[l].carriage <;> cases withinBounds (s.laneSettings l) count <;> simp [judgedCarriage]

theorem exec_rateWindowCompletion (l : LaneNo) (w : RateWindow) (s : State) (h : s.liu[l].window = some w)
    (due : w.start + 10000 ≤ s.clock) :
    exec (.rateWindowCompletion l) s = .next (s.begin.windowCompleted l w.count).allocate := by
  simp only [exec, execRateWindowCompletion, h, RateWindow.complete, due, decide_true, if_true]

/-- A window's completion starts the next, and moves the carriage by the judgement of its count. -/
theorem windowCompleted_spec (l : LaneNo) (count : Nat) (s : State) :
    let t := (s.windowCompleted l count).allocate
    t.liu[l].window = some ⟨s.clock, 0⟩ ∧ t.liu[l].gapTimer = s.liu[l].gapTimer ∧
    t.liu[l].openTile = s.liu[l].openTile ∧ State.leavesOthers s t ∧
    ∀ new, judgedCarriage (withinBounds (s.laneSettings l) count) s.liu[l].carriage = some new →
      t.liu[l].carriage = new ∧ t.notices.carriage[l] = true ∧ (new = .drift → t.cm[l].drift.finding.isSome = true) ∧
      (new = .present → t.cm[l].lost.finding = none ∧ t.cm[l].drift.finding = none) := by
  have started : (s.startWindow l).liu[l] = { s.liu[l] with window := some ⟨s.clock, 0⟩ } := lane_set_self _ _ _
  have alone : State.leavesOthers s (s.startWindow l) := by constructor <;> rfl
  rw [windowCompleted_eq]
  cases judged : judgedCarriage (withinBounds (s.laneSettings l) count) s.liu[l].carriage with
  | none =>
    dsimp only
    have done := kept_allocate (s.startWindow l)
    have core := core_of_kept done l
    rw [started] at core
    exact ⟨core.window, core.gapTimer, core.openTile, leavesOthers_trans alone (leavesOthers_of_kept done), nofun⟩
  | some new =>
    dsimp only
    obtain ⟨other, entry⟩ := judgedCarriage_other judged
    have changes : (s.startWindow l).liu[l].carriage ≠ new := by rw [started]; exact other
    obtain ⟨-, notice, -, drift, present, -⟩ := setCarriage_findings l new _ changes
    have done := aside_allocate ((s.startWindow l).setCarriage l new)
    have core := setCarriage_core l new (s.startWindow l)
    have after := core_of_kept done.kept l
    rw [started] at core
    refine ⟨after.window.trans core.window, after.gapTimer.trans core.gapTimer, after.openTile.trans core.openTile,
      leavesOthers_trans (leavesOthers_trans alone (setCarriage_leavesOthers l new (s.startWindow l) entry))
        (leavesOthers_of_kept done.kept), fun m e => ?_⟩
    obtain rfl : new = m := Option.some.inj e
    refine ⟨after.carriage.trans core.carriage, done.beside.notices.carriage l notice, fun e => ?_, fun e => ?_⟩
    · rw [done.beside.drift]
      exact drift e
    · rw [done.beside.lost, done.beside.drift]
      exact present (Or.inl e)

/-- Settles O36: PRESENT and DRIFT by the judgement of the count; without a change of carriage the settled archive has
nothing to attend to. -/
theorem rateWindowIsJudged : Obligations.RateWindowIsJudged := by
  unfold Obligations.RateWindowIsJudged
  intro s l w h due
  rw [exec_rateWindowCompletion l w s h due]
  have bounds : withinBounds (s.laneSettings l) w.count
      = decide ((s.laneSettings l).rateLow ≤ w.count ∧ w.count ≤ (s.laneSettings l).rateHigh) := rfl
  refine ⟨⟨_, rfl, ?_⟩, fun settled present drift => ?_⟩
  · obtain ⟨window, gap, tile, others, judged⟩ := windowCompleted_spec l w.count s.begin
    refine ⟨window, gap, tile, fun p out => ?_, fun d within => ?_, ?_⟩
    · obtain ⟨carriage, notice, finding, -⟩ := judged .drift (by
        simp only [begin_fields, p]
        simp [judgedCarriage, withinBounds, State.laneSettings, -Fin.getElem_fin] at out ⊢
        exact out)
      exact ⟨carriage, notice, finding rfl⟩
    · obtain ⟨carriage, notice, -, none_⟩ := judged .present (by
        simp only [begin_fields, d]
        simp [judgedCarriage, withinBounds, State.laneSettings, -Fin.getElem_fin] at within ⊢
        exact within)
      exact ⟨carriage, notice, none_ rfl⟩
    · exact leavesOthers_trans (by constructor <;> rfl) others
  · have stays : judgedCarriage (withinBounds (s.begin.laneSettings l) w.count) s.begin.liu[l].carriage = none := by
      change judgedCarriage (withinBounds (s.laneSettings l) w.count) s.liu[l].carriage = none
      rw [bounds]
      cases c : s.liu[l].carriage with
      | present => simp only [judgedCarriage, decide_eq_true (present c), if_true]
      | drift => simp only [judgedCarriage, decide_eq_false (drift c), Bool.false_eq_true, if_false]
      | absent => rfl
      | acquiring => rfl
      | lost => rfl
    rw [windowCompleted_eq, stays]
    exact congrArg _ (allocate_of_settled _ settled)

end Sys2Proof.Lanes
end

section
/-! PROOFS. The close of a tile, and the gap timer's expiry: what tile tracking of one lane leaves alone, and what the lane's
engine and segment are behind a close. -/

namespace Sys2Proof.Lanes

open Sys2Proof.Machine Sys2Proof.Laws

/-! ### What tile tracking of a lane leaves alone -/

/-- A step of the tile tracking of a lane: the other lanes' engines, segments and intakes but for hold-off stay, of its own
intake but for hold-off only the open tile changes, and its filters stay. -/
structure Tracks (l : LaneNo) (s t : State) : Prop where
  clock : t.clock = s.clock
  station : t.station = s.station
  cc : t.cc = s.cc
  settings : t.settings = s.settings
  slots : t.slots = s.slots
  link : t.link = s.link
  warm : t.warm = s.warm
  mode : t.alarm.mode = s.alarm.mode
  le : ∀ k : LaneNo, k ≠ l → t.le[k] = s.le[k]
  st : ∀ k : LaneNo, k ≠ l → t.st[k] = s.st[k]
  core : ∀ k : LaneNo, k ≠ l → liuCore t.liu[k] = liuCore s.liu[k]
  own : liuCore { t.liu[l] with openTile := none } = liuCore { s.liu[l] with openTile := none }
  filters : t.le[l].filters = s.le[l].filters
  lastLayout : t.le[l].lastLayout = s.le[l].lastLayout
  quiet : Quiet s t

theorem Tracks.refl (l : LaneNo) (s : State) : Tracks l s s :=
  ⟨rfl, rfl, rfl, rfl, rfl, rfl, rfl, rfl, fun _ _ => rfl, fun _ _ => rfl, fun _ _ => rfl, rfl, rfl, rfl, .refl s⟩

theorem Tracks.trans {l : LaneNo} {s t u : State} (a : Tracks l s t) (b : Tracks l t u) : Tracks l s u where
  clock := b.clock.trans a.clock
  station := b.station.trans a.station
  cc := b.cc.trans a.cc
  settings := b.settings.trans a.settings
  slots := b.slots.trans a.slots
  link := b.link.trans a.link
  warm := b.warm.trans a.warm
  mode := b.mode.trans a.mode
  le := fun k e => (b.le k e).trans (a.le k e)
  st := fun k e => (b.st k e).trans (a.st k e)
  core := fun k e => (b.core k e).trans (a.core k e)
  own := b.own.trans a.own
  filters := b.filters.trans a.filters
  lastLayout := b.lastLayout.trans a.lastLayout
  quiet := a.quiet.trans b.quiet

/-- Cores that agree still do without their open tiles. -/
theorem core_untiled {x y : Liu} (h : liuCore y = liuCore x) :
    liuCore { y with openTile := none } = liuCore { x with openTile := none } :=
  congrArg (fun z : Liu => { z with openTile := none }) h

/-- What lies near is a step of every lane's tile tracking. -/
theorem Near.tracks {s t : State} (h : Near s t) (l : LaneNo) : Tracks l s t where
  clock := h.kept.clock
  station := h.kept.station
  cc := h.kept.cc
  settings := h.kept.settings
  slots := h.kept.slots
  link := h.kept.link
  warm := h.kept.warm
  mode := h.kept.mode
  le := fun k _ => by rw [h.kept.le]
  st := fun k _ => by rw [h.kept.st]
  core := fun k _ => h.kept.liu k
  own := core_untiled (h.kept.liu l)
  filters := by rw [h.kept.le]
  lastLayout := by rw [h.kept.le]
  quiet := h.quiet

/-- A change of a lane's open tile. -/
theorem tracks_openTile (l : LaneNo) (tile : Option Nat) (s : State) :
    Tracks l s (s.modLiu l (fun x => { x with openTile := tile })) := by
  have other (k : LaneNo) (e : k ≠ l) : (s.modLiu l (fun x => { x with openTile := tile })).liu[k] = s.liu[k] :=
    lane_set_ne _ _ e
  have own : (s.modLiu l (fun x => { x with openTile := tile })).liu[l] = { s.liu[l] with openTile := tile } :=
    lane_set_self _ _ _
  exact ⟨rfl, rfl, rfl, rfl, rfl, rfl, rfl, rfl, fun _ _ => rfl, fun _ _ => rfl,
    fun k e => congrArg liuCore (other k e), by rw [own], rfl, rfl, quiet_of_same rfl rfl⟩

/-- A change of a lane's engine beside its filters. -/
theorem tracks_setLe (l : LaneNo) (e : LeLane) (s : State) (f : e.filters = s.le[l].filters)
    (y : e.lastLayout = s.le[l].lastLayout) : Tracks l s (s.setLe l e) := by
  have own : (s.setLe l e).le[l] = e := lane_set_self _ _ _
  exact ⟨rfl, rfl, rfl, rfl, rfl, rfl, rfl, rfl, fun _ h => lane_set_ne _ _ h, fun _ _ => rfl, fun _ _ => rfl, rfl,
    by rw [own, f], by rw [own, y], quiet_of_same rfl rfl⟩

/-- A change of a lane's Segment Tracker. -/
theorem tracks_modSt (l : LaneNo) (f : StLane → StLane) (s : State) : Tracks l s (s.modSt l f) :=
  ⟨rfl, rfl, rfl, rfl, rfl, rfl, rfl, rfl, fun _ _ => rfl, fun _ h => lane_set_ne _ _ h, fun _ _ => rfl, rfl, rfl, rfl,
    quiet_of_same rfl rfl⟩

/-- The lane's intake but for hold-off and the open tile. -/
theorem Tracks.same {l : LaneNo} {s t : State} (h : Tracks l s t) :
    SameCore { s.liu[l] with openTile := none } { t.liu[l] with openTile := none } := sameCore_of_core h.own

/-! ### The close of a tile (R28, R36 to R39) -/

/-- The record that a lane's tile closes with and the engine behind it. -/
def closing (l : LaneNo) (a : TileAcc) (s : State) : TileRecord × LeLane :=
  s.le[l].closeTile (s.laneSettings l).silence s.station s.cc[l].live (s.st[l].seg.map (fun g => g.ident.segId)) a

theorem closing_builds (l : LaneNo) (a : TileAcc) (s : State) : s.buildsRecord l a (closing l a s).1 := by
  obtain ⟨measured, time, alive, seg, -⟩ := closeTile_spec (s.laneSettings l).silence s.station s.cc[l].live
    (s.st[l].seg.map (fun g => g.ident.segId)) a s.le[l]
  exact ⟨measured, time, alive, seg⟩

/-- The engine behind a close (R32 to R35). -/
theorem closing_engine (l : LaneNo) (a : TileAcc) (s : State) : (closing l a s).2 = { s.le[l] with
    acc := none
    history := newest30 (s.le[l].history ++ [⟨a.tile, closingPower a⟩])
    momentary := (closing l a s).1.momentary
    shortTerm := (closing l a s).1.shortTerm
    newest := some (closing l a s).1 } := by
  obtain ⟨-, -, -, -, engine⟩ := closeTile_spec (s.laneSettings l).silence s.station s.cc[l].live
    (s.st[l].seg.map (fun g => g.ident.segId)) a s.le[l]
  exact engine

/-- A record that names the open segment joins it (R44). -/
theorem stTile_seg (l : LaneNo) (r : TileRecord) (s : State) (h : r.segId = s.st[l].seg.map (fun g => g.ident.segId)) :
    (s.stTile l r).st[l] = { s.st[l] with seg := s.st[l].seg.map (SegCtx.takeTile r) } ∧ Tracks l s (s.stTile l r) ∧
    (s.stTile l r).le = s.le ∧ (s.stTile l r).liu = s.liu ∧ (s.stTile l r).verdicts = s.verdicts := by
  unfold State.stTile
  split
  · next g hg =>
    rw [hg] at h
    simp only [if_pos (show r.segId = some g.ident.segId from h), hg]
    exact ⟨lane_set_self _ _ _, tracks_modSt l _ s, rfl, rfl, rfl⟩
  · next hg =>
    refine ⟨?_, .refl l s, rfl, rfl, rfl⟩
    cases x : s.st[l]
    rw [x] at hg
    subst hg
    rfl

/-- A tile that closes hands on its record: the engine keeps its entry, the open segment takes it, and the runs of the
watched segment count it. -/
theorem closeTile_open (l : LaneNo) (a : TileAcc) (s : State) (h : s.le[l].acc = some a) :
    let t := s.closeTile l
    let r := (closing l a s).1
    t.le[l] = (closing l a s).2 ∧ t.liu[l].openTile = none ∧ Tracks l s t ∧
    t.st[l] = { s.st[l] with seg := s.st[l].seg.map (SegCtx.takeTile r) } ∧ t.verdicts = s.verdicts ∧
    ∀ (w : Watched) (k : Fin 16), s.cm[l].watched = some w → w.ruleSet = some k → r.segId = some w.ident.segId →
      ∃ v, t.cm[l].watched = some v ∧ Ran r s.settings.rules[k] w v := by
  let u := (s.modLiu l (fun x => { x with openTile := none })).setLe l (closing l a s).2
  have run : s.closeTile l = u.handTile l (closing l a s).1 := by
    unfold State.closeTile
    simp only [modLiu_fields, h]
    rfl
  have engine := closing_engine l a s
  have before : Tracks l s u := (tracks_openTile l none s).trans (tracks_setLe l _ _ (by rw [engine]; rfl) (by rw [engine]; rfl))
  have closed : u.liu[l].openTile = none := congrArg Liu.openTile (lane_set_self s.liu l { s.liu[l] with openTile := none })
  obtain ⟨joins, frame, le, liu, verdicts⟩ := stTile_seg l (closing l a s).1 u (closing_builds l a s).segId
  obtain ⟨near, runs⟩ := handTile_spec l (closing l a s).1 u
  rw [run]
  refine ⟨?_, ?_, (before.trans frame).trans (near.tracks l), ?_, ?_, runs⟩
  · rw [near.kept.le, le]
    exact lane_set_self _ _ _
  · rw [(core_of_kept near.kept l).openTile, liu, closed]
  · rw [near.kept.st, joins]
    rfl
  · rw [near.kept.verdicts, verdicts]
    rfl

theorem closeTile_idle (l : LaneNo) (s : State) (h : s.le[l].acc = none) :
    s.closeTile l = s.modLiu l (fun x => { x with openTile := none }) := by
  unfold State.closeTile
  simp only [modLiu_fields, h]

/-- Whether or not there is an accumulator, a close is a step of the lane's tile tracking and leaves no tile open. -/
theorem closeTile_tracks (l : LaneNo) (s : State) : Tracks l s (s.closeTile l) ∧ (s.closeTile l).liu[l].openTile = none := by
  cases h : s.le[l].acc with
  | none =>
    rw [closeTile_idle l s h]
    exact ⟨tracks_openTile l none s, congrArg Liu.openTile (lane_set_self s.liu l _)⟩
  | some a =>
    obtain ⟨-, closed, tracks, -⟩ := closeTile_open l a s h
    exact ⟨tracks, closed⟩

/-- The open tile closes, if there is one. -/
theorem closeOpenTile_tracks (l : LaneNo) (s : State) :
    Tracks l s (s.closeOpenTile l) ∧ (s.closeOpenTile l).liu[l].openTile = none := by
  unfold State.closeOpenTile
  split
  · exact closeTile_tracks l s
  · next h => exact ⟨.refl l s, h⟩

theorem closeOpenTile_none (l : LaneNo) (s : State) (h : s.liu[l].openTile = none) : s.closeOpenTile l = s := by
  simp only [State.closeOpenTile, h]

theorem closeOpenTile_some (l : LaneNo) (s : State) (h : s.liu[l].openTile.isSome = true) :
    s.closeOpenTile l = s.closeTile l := by
  obtain ⟨o, h⟩ := Option.isSome_iff_exists.mp h
  simp only [State.closeOpenTile, h]

/-! ### The gap timer's expiry (R8, R14) -/

/-- The intake of a lane that stops its run, timers and window. -/
def stopped (x : Liu) : Liu := { x with run := 0, gapTimer := none, window := none, lastCount := none }

/-- The state in which a lane that lost its carriage closes its tile. -/
def lostAt (l : LaneNo) (s : State) : State := (s.modLiu l stopped).setCarriage l .lost

theorem lostAt_spec (l : LaneNo) (s : State) :
    State.leavesOthers s (lostAt l s) ∧ SameCore { stopped s.liu[l] with carriage := .lost } (lostAt l s).liu[l] ∧
    (∀ k : LaneNo, k ≠ l → SameCore s.liu[k] (lostAt l s).liu[k]) ∧
    (s.liu[l].carriage ≠ .lost → (lostAt l s).notices.carriage[l] = true ∧
      (lostAt l s).cm[l].lost.finding.isSome = true) := by
  have own : (s.modLiu l stopped).liu[l] = stopped s.liu[l] := lane_set_self _ _ _
  refine ⟨leavesOthers_trans (by constructor <;> rfl) (setCarriage_leavesOthers l .lost _ (by decide)), ?_, fun k e => ?_,
    fun c => ?_⟩
  · have core := setCarriage_core l .lost (s.modLiu l stopped)
    rwa [own] at core
  · have core := setCarriage_core_ne l k .lost (s.modLiu l stopped) e
    rwa [show (s.modLiu l stopped).liu[k] = s.liu[k] from lane_set_ne _ _ e] at core
  · obtain ⟨-, notice, finding, -⟩ := setCarriage_findings l .lost (s.modLiu l stopped) (by rw [own]; exact c)
    exact ⟨notice, finding rfl⟩

/-- A record that a lane's tile would close with where nothing it reads changed. -/
theorem buildsRecord_of_same {s t : State} (h : State.leavesOthers s t) (l : LaneNo) (a : TileAcc) (r : TileRecord)
    (b : t.buildsRecord l a r) : s.buildsRecord l a r := by
  obtain ⟨measured, time, alive, seg⟩ := b
  simp only [State.laneSettings, h.settings, h.le] at measured
  exact ⟨measured, time.trans h.station, by rw [alive, h.cc], by rw [seg, h.st]⟩

theorem gapExpired_eq (l : LaneNo) (s : State) : s.gapExpired l = match s.liu[l].openTile with
    | some o => ((lostAt l s).closeTile l).modLiu l (fun x => { x with lossTile := some o })
    | none => lostAt l s := by
  obtain ⟨-, core, -⟩ := lostAt_spec l s
  have tile : (lostAt l s).liu[l].openTile = s.liu[l].openTile := core.openTile
  unfold State.gapExpired
  dsimp only
  cases h : s.liu[l].openTile with
  | none =>
    rw [h] at tile
    exact closeOpenTile_none l _ tile
  | some o =>
    rw [h] at tile
    exact congrArg (State.modLiu l _) (closeOpenTile_some l (lostAt l s) (by rw [tile]; rfl))

/-- What the expiry leaves of the lane's intake, of the other lanes and of the rest, whether or not a tile was open. -/
theorem gapExpired_frame (l : LaneNo) (s : State) :
    let t := s.gapExpired l
    t.liu[l].carriage = .lost ∧ t.liu[l].run = 0 ∧ t.liu[l].gapTimer = none ∧ t.liu[l].window = none ∧
    t.liu[l].lastCount = none ∧ t.liu[l].openTile = none ∧
    t.liu[l].lossTile = (match s.liu[l].openTile with
      | some o => some o
      | none => s.liu[l].lossTile) ∧
    Quiet (lostAt l s) t ∧
    (∀ k : LaneNo, k ≠ l → t.le[k] = s.le[k] ∧ t.st[k] = s.st[k] ∧ SameCore s.liu[k] t.liu[k]) ∧
    t.settings = s.settings ∧ t.station = s.station ∧ t.cc = s.cc ∧ t.slots = s.slots := by
  obtain ⟨others, core, lanes, -⟩ := lostAt_spec l s
  dsimp only
  rw [gapExpired_eq]
  cases h : s.liu[l].openTile with
  | none =>
    exact ⟨core.carriage, core.run, core.gapTimer, core.window, core.lastCount, core.openTile.trans h, core.lossTile,
      .refl _, fun k e => ⟨by rw [others.le], by rw [others.st], lanes k e⟩, others.settings, others.station, others.cc,
      others.slots⟩
  | some o =>
    dsimp only
    obtain ⟨tracks, closed⟩ := closeTile_tracks l (lostAt l s)
    have same := tracks.same
    have own : (((lostAt l s).closeTile l).modLiu l (fun x => { x with lossTile := some o })).liu[l]
        = { ((lostAt l s).closeTile l).liu[l] with lossTile := some o } := lane_set_self _ _ _
    rw [own]
    refine ⟨same.carriage.trans core.carriage, same.run.trans core.run, same.gapTimer.trans core.gapTimer,
      same.window.trans core.window, same.lastCount.trans core.lastCount, closed, rfl,
      tracks.quiet.trans (quiet_of_same rfl rfl), fun k e => ?_, tracks.settings.trans others.settings,
      tracks.station.trans others.station, tracks.cc.trans others.cc, tracks.slots.trans others.slots⟩
    refine ⟨(tracks.le k e).trans (by rw [others.le]), (tracks.st k e).trans (by rw [others.st]), ?_⟩
    rw [show (((lostAt l s).closeTile l).modLiu l (fun x => { x with lossTile := some o })).liu[k]
        = ((lostAt l s).closeTile l).liu[k] from lane_set_ne _ _ e]
    exact (lanes k e).trans (sameCore_of_core (tracks.core k e))

/-- The engine behind the expiry is that of a close, or as it was (R14, R28). -/
theorem gapExpired_engine (l : LaneNo) (s : State) :
    (∀ a : TileAcc, s.liu[l].openTile.isSome = true → s.le[l].acc = some a → ∃ r : TileRecord, s.buildsRecord l a r ∧
      (s.gapExpired l).le[l] = { s.le[l] with
        acc := none
        history := newest30 (s.le[l].history ++ [⟨a.tile, closingPower a⟩])
        momentary := r.momentary
        shortTerm := r.shortTerm
        newest := some r }) ∧
    (s.liu[l].openTile = none → (s.gapExpired l).le[l] = s.le[l]) := by
  obtain ⟨others, -⟩ := lostAt_spec l s
  rw [gapExpired_eq]
  refine ⟨fun a open_ acc => ?_, fun none_ => by rw [none_]; exact congrArg (·[l]) others.le⟩
  obtain ⟨o, open_⟩ := Option.isSome_iff_exists.mp open_
  have acc : (lostAt l s).le[l].acc = some a := by rw [others.le, acc]
  refine ⟨(closing l a (lostAt l s)).1, buildsRecord_of_same others l a _ (closing_builds l a _), ?_⟩
  have engine := (closeTile_open l a (lostAt l s) acc).1
  rw [closing_engine, others.le] at engine
  rw [open_]
  exact engine

/-- Settles O35: the expiry and what lies on the archive's side behind it. -/
theorem gapTimerExpiryLosesTheLane : Obligations.GapTimerExpiryLosesTheLane := by
  unfold Obligations.GapTimerExpiryLosesTheLane
  refine fun s l => ⟨fun due => ⟨(s.begin.gapExpired l).allocate, ?_, ?_⟩, fun due => ?_⟩
  · simp only [exec, execGapTimerExpiry, due, if_true]
  · obtain ⟨carriage, run, gap, window, lastCount, tile, loss, quiet, lanes, settings, station, cc, slots⟩ :=
      gapExpired_frame l s.begin
    obtain ⟨closes, stays⟩ := gapExpired_engine l s.begin
    obtain ⟨-, -, -, told⟩ := lostAt_spec l s.begin
    have done := aside_allocate (s.begin.gapExpired l)
    have core (k : LaneNo) := core_of_kept done.kept k
    refine ⟨(core l).carriage.trans carriage, (core l).run.trans run, (core l).gapTimer.trans gap,
      (core l).window.trans window, (core l).lastCount.trans lastCount, (core l).openTile.trans tile,
      (core l).lossTile.trans loss, fun c => ?_, fun a open_ acc => ?_, fun none_ => ?_, fun k e => ?_,
      done.kept.settings.trans settings, done.kept.station.trans station, done.kept.cc.trans cc,
      done.kept.slots.trans slots⟩
    · obtain ⟨notice, finding⟩ := told c
      refine ⟨done.beside.notices.carriage l (quiet.notices.carriage l notice), ?_⟩
      rw [done.beside.lost, quiet.lost]
      exact finding
    · obtain ⟨r, builds, engine⟩ := closes a open_ acc
      exact ⟨r, ⟨builds.1, builds.2, builds.3, builds.4⟩, by rw [done.kept.le]; exact engine⟩
    · rw [done.kept.le]
      exact stays none_
    · obtain ⟨le, st, same⟩ := lanes k e
      exact ⟨by rw [done.kept.le]; exact le, by rw [done.kept.st]; exact st, (same.trans (core k)).shared⟩
  · simp [-Fin.getElem_fin, exec, execGapTimerExpiry, due, State.begin]

end Sys2Proof.Lanes
end

section
/-! PROOFS. LANE: what an exchange whose request is dispatched does with its handler's reply, and how the settings that it
replaces act on the lane's intake. -/

namespace Sys2Proof.Lanes

open Sys2Proof.Machine Sys2Proof.Laws

/-! ### An exchange that is dispatched (R183 to R186) -/

/-- The state in which a request's handler runs: the exchange was shifted out, and the link is WORKING on the frame. -/
def working (q : Byte) (r : Request) (s : State) : State :=
  { s.begin.showStatus (requestFrame q r).length with
    link := { s.link with state := .working, request := requestFrame q r } }

/-- A request that the link takes is answered by its handler. -/
theorem serve_ready (q : Byte) (r : Request) (h : Handler) (s : State) (ready : s.readyToTake = true) :
    s.begin.serve q r h
      = (h (working q r s)).2.putReply ((h (working q r s)).1.frame q (requestTag r).bytes) := by
  have ready : s.begin.readyToTake = true := ready
  unfold State.serve
  rw [if_pos ready]
  rfl

/-- A handler that changes nothing leaves the exchange alone. -/
theorem answered_eq (q : Byte) (r : Request) (x : Reply) (s : State) :
    (working q r s).putReply (x.frame q (requestTag r).bytes) = s.answered q r x := rfl

/-- The reply is put in the buffer whatever the handler made of the link. -/
theorem putReply_waits (q : Byte) (r : Request) (x : Reply) (s : State) :
    (s.putReply (x.frame q (requestTag r).bytes)).replyWaits q r x := ⟨rfl, rfl, rfl⟩

theorem warm_of_ready {s : State} (h : s.readyToTake = true) : s.warm = none := by
  simp only [State.readyToTake, Bool.and_eq_true, Option.isNone_iff_eq_none] at h
  exact h.2

theorem laneOf_val (l : LaneNo) : laneOf l.val = some l := by
  simp [laneOf]

/-! ### Disabling a lane (R18) -/

/-- The intake of a lane that is disabled, beside its carriage and its tile. -/
def idled (x : Liu) : Liu := { x with run := 0, gapTimer := none, window := none, lastCount := none, lossTile := none }

/-- The state of a disabled lane before its hold-off ends. -/
def idleAt (l : LaneNo) (s : State) : State := ((s.closeOpenTile l).setCarriage l .absent).modLiu l idled

theorem disableLane_eq (l : LaneNo) (s : State) : s.disableLane l
    = if (idleAt l s).liu[l].holdOff then holdSent l false none 0 (idleAt l s) else idleAt l s := by
  rw [← holdOffOff_eq]
  rfl

theorem idleAt_spec (l : LaneNo) (s : State) :
    (idleAt l s).settings = s.settings ∧
    SameCore { idled s.liu[l] with carriage := .absent, openTile := none } (idleAt l s).liu[l] ∧
    (s.liu[l].carriage ≠ .absent → (idleAt l s).notices.carriage[l] = true) := by
  obtain ⟨tracks, closed⟩ := closeOpenTile_tracks l s
  have core := setCarriage_core l .absent (s.closeOpenTile l)
  have others := setCarriage_leavesOthers l .absent (s.closeOpenTile l) (by decide)
  have own : (idleAt l s).liu[l] = idled ((s.closeOpenTile l).setCarriage l .absent).liu[l] := lane_set_self _ _ _
  have same := tracks.same
  refine ⟨others.settings.trans tracks.settings, ?_, fun c => ?_⟩
  · rw [own]
    exact ⟨⟨core.carriage, rfl, rfl, rfl, rfl, core.openTile.trans closed, rfl⟩, core.runLast.trans same.runLast,
      core.assembly.trans same.assembly, core.counters.trans same.counters⟩
  · have other : (s.closeOpenTile l).liu[l].carriage ≠ .absent := fun e => c (same.carriage.symm.trans e)
    exact (setCarriage_findings l .absent _ other).2.1

/-- A disabled lane's intake is at rest, with hold-off OFF (R18). -/
theorem disableLane_spec (l : LaneNo) (s : State) :
    let t := s.disableLane l
    t.settings = s.settings ∧ t.liu[l].holdOff = false ∧
    Liu.sameCarriage { idled s.liu[l] with carriage := .absent, openTile := none } t.liu[l] ∧
    (s.liu[l].carriage ≠ .absent → t.notices.carriage[l] = true) := by
  obtain ⟨settings, core, notice⟩ := idleAt_spec l s
  dsimp only
  rw [disableLane_eq]
  split
  · have own : (holdSent l false none 0 (idleAt l s)).liu[l] = { (idleAt l s).liu[l] with
        holdOff := false
        resend := none
        counters := { (idleAt l s).liu[l].counters with holdsSent := (idleAt l s).liu[l].counters.holdsSent + 1 } } :=
      lane_set_self _ _ _
    rw [own]
    exact ⟨settings, rfl, ⟨core.carriage, core.run, core.gapTimer, core.window, core.lastCount, core.openTile,
      core.lossTile⟩, notice⟩
  · next off => exact ⟨settings, by simpa using off, core.shared, notice⟩

/-- What the boundary behind a disabling leaves: a lane that takes no cells keeps its hold-off. -/
theorem disableLane_allocate_spec (l : LaneNo) (s : State) (off : (s.laneSettings l).enabled = false) :
    let t := (s.disableLane l).allocate
    t.settings = s.settings ∧ t.liu[l].holdOff = false ∧
    Liu.sameCarriage { idled s.liu[l] with carriage := .absent, openTile := none } t.liu[l] ∧
    (s.liu[l].carriage ≠ .absent → t.notices.carriage[l] = true) := by
  obtain ⟨settings, hold, same, notice⟩ := disableLane_spec l s
  have done := aside_allocate (s.disableLane l)
  have idle : (s.disableLane l).laneEnabled l = false := by
    unfold State.laneEnabled State.laneSettings at *
    rw [settings, off, Bool.and_false]
  have intake := done.kept.quiet l idle
  refine ⟨done.kept.settings.trans settings, by rw [intake, hold], by rw [intake]; exact same, fun c => ?_⟩
  exact done.beside.notices.carriage l (notice c)

/-! ### LANE (R18, R189) -/

/-- LANE in CONFIG: the settings are replaced, then enabling or disabling takes effect. -/
theorem exec_lane (q : Byte) (f : LaneFields) (l : LaneNo) (s : State) (ready : s.readyToTake = true)
    (config : s.alarm.mode = .config) (names : f.lane = l.val) :
    exec (.lane q f) s = .next (((working q (.lane f) s).applyLane l (appliedLane f)).putReply
      (Reply.frame q (requestTag (.lane f)).bytes
        ⟨clampedIf ((appliedLane f).fields l != f), laneBytes ((appliedLane f).fields l)⟩)) := by
  have mode : (working q (.lane f) s).alarm.mode ≠ .run := by
    rw [show (working q (.lane f) s).alarm = s.alarm from rfl, config]
    decide
  have handled : handleLane f (working q (.lane f) s)
      = (⟨clampedIf ((appliedLane f).fields l != f), laneBytes ((appliedLane f).fields l)⟩,
        (working q (.lane f) s).applyLane l (appliedLane f)) := by
    unfold handleLane inConfig withLane
    rw [if_neg mode, names, laneOf_val]
  have run : exec (.lane q f) s = .next (s.begin.serve q (.lane f) (handleLane f)) := rfl
  rw [run, serve_ready q (.lane f) _ s ready, handled]

/-- The settings with one lane's replaced. -/
def withLaneSettings (l : LaneNo) (x : LaneSettings) (s : State) : State :=
  { s with settings := { s.settings with lanes := s.settings.lanes.set l x } }

theorem applyLane_same (l : LaneNo) (x : LaneSettings) (s : State) (h : x.enabled = (s.laneSettings l).enabled) :
    s.applyLane l x = withLaneSettings l x s := by
  unfold State.applyLane
  rw [h]
  simp [withLaneSettings]

theorem applyLane_on (l : LaneNo) (x : LaneSettings) (s : State) (on : x.enabled = true)
    (off : (s.laneSettings l).enabled = false) : s.applyLane l x = (withLaneSettings l x s).reportBuffers l := by
  unfold State.applyLane
  rw [on, off]
  simp [withLaneSettings]

theorem applyLane_off (l : LaneNo) (x : LaneSettings) (s : State) (off : x.enabled = false)
    (on : (s.laneSettings l).enabled = true) :
    s.applyLane l x = ((withLaneSettings l x s).disableLane l).allocate := by
  unfold State.applyLane
  rw [on, off]
  simp [withLaneSettings]

/-- The lane takes cells under its new settings when they enable it and the settings are known. -/
theorem laneEnabled_withLaneSettings (l : LaneNo) (x : LaneSettings) (s : State) :
    (withLaneSettings l x s).laneEnabled l = (s.settingsKnown && x.enabled) := by
  have own : (withLaneSettings l x s).laneSettings l = x := lane_set_self _ _ _
  unfold State.laneEnabled
  rw [own]
  rfl

/-- Settles O20: the lane's enablement as it was, enabled by the buffers that can take records, and disabled. -/
theorem laneRequestReplacesTheLanesSettings : Obligations.LaneRequestReplacesTheLanesSettings := by
  unfold Obligations.LaneRequestReplacesTheLanesSettings
  intro q f l s ready config names
  rw [exec_lane q f l s ready config names]
  refine ⟨fun same => ?_, fun on off free hold => ?_, fun on off known full hold => ?_, fun off on => ?_⟩
  · rw [applyLane_same l _ (working q (.lane f) s) same]
    rfl
  · rw [applyLane_on l _ (working q (.lane f) s) on off, reportBuffers_same l _ (Or.inr (Or.inr ?_))]
    · rfl
    · have free : ¬ s.ac[l].canTake ≤ 1 := by omega
      exact iff_of_false free (fun e => Bool.noConfusion (hold.symm.trans e))
  · have cold : (withLaneSettings l (appliedLane f) (working q (.lane f) s)).warm = none := warm_of_ready (s := s) ready
    have enabled : (withLaneSettings l (appliedLane f) (working q (.lane f) s)).laneEnabled l = true := by
      rw [laneEnabled_withLaneSettings, on]
      exact (Bool.and_true _).trans known
    rw [applyLane_on l _ (working q (.lane f) s) on off, reportBuffers_on l (withLaneSettings l (appliedLane f) (working q (.lane f) s)) cold enabled full hold]
    rfl
  · have disabled : ((withLaneSettings l (appliedLane f) (working q (.lane f) s)).laneSettings l).enabled = false := by
      rw [show (withLaneSettings l (appliedLane f) (working q (.lane f) s)).laneSettings l = appliedLane f from
        lane_set_self _ _ _, off]
    have after := disableLane_allocate_spec l _ disabled
    rw [applyLane_off l _ (working q (.lane f) s) off on]
    generalize State.allocate _ = t at after ⊢
    obtain ⟨settings, hold, same, notice⟩ := after
    exact ⟨_, rfl, settings, putReply_waits _ _ _ _, same.carriage, same.run, same.gapTimer, same.window, same.lastCount,
      same.lossTile, same.openTile, hold, notice⟩

end Sys2Proof.Lanes
end

section
/-! PROOFS. Segments: what the close of a segment enters and leaves, what its opening and the marks due do, and what the
opening of a tile makes of a lane's Segment Tracker. -/

namespace Sys2Proof.Lanes

open Sys2Proof.Machine Sys2Proof.Laws

/-! ### Steps of a lane's Segment Tracker -/

/-- A step of the Segment Tracker of a lane within its tile tracking: engines stay, and so does the lane's intake but for
hold-off. -/
structure Segments (l : LaneNo) (s t : State) : Prop extends Tracks l s t where
  engines : t.le = s.le
  intake : liuCore t.liu[l] = liuCore s.liu[l]

theorem Segments.refl (l : LaneNo) (s : State) : Segments l s s := ⟨.refl l s, rfl, rfl⟩

theorem Segments.trans {l : LaneNo} {s t u : State} (a : Segments l s t) (b : Segments l t u) : Segments l s u :=
  ⟨a.toTracks.trans b.toTracks, b.engines.trans a.engines, b.intake.trans a.intake⟩

theorem Near.segments {s t : State} (h : Near s t) (l : LaneNo) : Segments l s t :=
  ⟨h.tracks l, h.kept.le, h.kept.liu l⟩

theorem segments_modSt (l : LaneNo) (f : StLane → StLane) (s : State) : Segments l s (s.modSt l f) :=
  ⟨tracks_modSt l f s, rfl, rfl⟩

theorem modSt_st (l : LaneNo) (f : StLane → StLane) (s : State) : (s.modSt l f).st[l] = f s.st[l] := lane_set_self _ _ _

/-! ### Verdict findings (R97, R116) -/

theorem Aside.foldl {α : Type} (f : State → α → State) (h : ∀ s x, Aside s (f s x)) (xs : List α) (s : State) :
    Aside s (xs.foldl f s) :=
  ⟨Kept.foldl f (fun s x => (h s x).kept) xs s, Beside.foldl f (fun s x => (h s x).beside) xs s⟩

theorem aside_verdictFinding (l : LaneNo) (g : SegCtx) (rule : RuleSet) (closeTime : Time) (c : Check) (s : State) :
    Aside s (s.verdictFinding l g rule closeTime c) := aside_createFinding _ _ s

theorem aside_verdictFindings (l : LaneNo) (g : SegCtx) (rule : RuleSet) (closeTime : Time) (fails : List Check)
    (s : State) : Aside s (s.verdictFindings l g rule closeTime fails) :=
  Aside.foldl _ (fun s c => aside_verdictFinding l g rule closeTime c s) fails s

/-- A failed check among those reported sets the FINDING notice of the lane. -/
theorem verdictFindings_raise (l : LaneNo) (g : SegCtx) (rule : RuleSet) (closeTime : Time) (fails : List Check)
    (s : State) (h : fails ≠ []) : (s.verdictFindings l g rule closeTime fails).notices.finding[l] = true := by
  cases fails with
  | nil => exact absurd rfl h
  | cons c rest =>
    have first : (s.verdictFinding l g rule closeTime c).notices.finding[l] = true := by
      unfold State.verdictFinding
      exact createFinding_raises _ _ s l rfl
    have rest_ := aside_verdictFindings l g rule closeTime rest (s.verdictFinding l g rule closeTime c)
    have both : s.verdictFindings l g rule closeTime (c :: rest)
        = (s.verdictFinding l g rule closeTime c).verdictFindings l g rule closeTime rest := by
      simp only [State.verdictFindings, List.foldl_cons]
    rw [both]
    exact rest_.beside.notices.finding l first

/-- The VERDICT record and the findings of the failed checks lie aside, and a failed check sets the notice. -/
theorem handVerdict_spec (l : LaneNo) (g : SegCtx) (v : Verdict) (judged : Option (RuleSet × List Check)) (s : State) :
    Aside s (s.handVerdict l g v judged) ∧ ∀ rule cs, judged = some (rule, cs) → (∃ c ∈ cs, c.result = .fail) →
      (s.handVerdict l g v judged).notices.finding[l] = true := by
  cases judged with
  | none =>
    have record := aside_record l recVerdict v.closeTime v.bytes s
    exact ⟨record, fun _ _ e => absurd e (by simp)⟩
  | some x =>
    obtain ⟨rule, cs⟩ := x
    unfold State.handVerdict
    dsimp only
    split
    · next none_ =>
      refine ⟨aside_record _ _ _ _ s, fun r xs e ⟨c, hc, fails⟩ => ?_⟩
      obtain ⟨-, rfl⟩ := Prod.mk.inj (Option.some.inj e)
      have : c ∈ cs.filter (fun c => c.result == .fail) := List.mem_filter.mpr ⟨hc, by rw [fails]; rfl⟩
      rw [List.isEmpty_iff.mp none_] at this
      exact absurd this List.not_mem_nil
    · next some_ =>
      generalize cs.filter (fun c => c.result == .fail) = fails at some_ ⊢
      generalize Config.freePick s.freeCount % (fails.length + 1) = before
      have first := (aside_advanceFree s).trans (aside_verdictFindings l g rule v.closeTime (fails.take before) s.advanceFree)
      have record := aside_archive l recVerdict v.closeTime v.bytes
        (s.advanceFree.verdictFindings l g rule v.closeTime (fails.take before))
      have last := aside_verdictFindings l g rule v.closeTime (fails.drop before)
        ((s.advanceFree.verdictFindings l g rule v.closeTime (fails.take before)).archive l recVerdict v.closeTime v.bytes)
      have done := last.trans (aside_allocate _)
      refine ⟨(first.trans record).trans done, fun _ _ _ _ => ?_⟩
      by_cases h : fails.drop before = []
      · refine (record.trans done).beside.notices.finding l (verdictFindings_raise _ _ _ _ _ _ fun e => some_ ?_)
        rw [List.isEmpty_iff, ← List.take_append_drop before fails, e, h, List.append_nil]
      · exact (aside_allocate _).beside.notices.finding l (verdictFindings_raise _ _ _ _ _ _ h)

/-! ### The close of a segment (R89 to R99) -/

/-- Integrated loudness of a segment (R50 to R53). -/
def integrated (g : SegCtx) : Option Int := (integrate g.gating.bins).map Integrated.loudness

/-- The rule set and the checks that a closing segment is judged by. -/
def judgement (l : LaneNo) (cause : CloseCause) (g : SegCtx) (s : State) : Option (RuleSet × List Check) :=
  (s.judgingRule cause g).map (fun rule => (rule, g.checks rule s.st[l].reference (integrated g)))

/-- The verdict of a closing segment. -/
def closingVerdict (l : LaneNo) (cause : CloseCause) (g : SegCtx) (s : State) : Verdict :=
  verdictOf s.verdicts.next l cause s.station s.st[l].reference (integrated g) ((judgement l cause g s).map Prod.snd) g

theorem unwatch_spec (l : LaneNo) (closeTime : Time) (s : State) :
    Near s (s.unwatch l closeTime) ∧ (s.unwatch l closeTime).cm[l].watched = none := by
  unfold State.unwatch
  split
  · next h => exact ⟨.refl s, h⟩
  · next w h =>
    have own : (s.modCm l (fun c => { c with watched := none })).cm[l].watched = none :=
      congrArg CmLane.watched (lane_set_self _ _ _)
    have settle (post : Nat) := ((aside_settleOpen closeTime post w.deadAir.finding
      (s.modCm l (fun c => { c with watched := none }))).trans (aside_settleOpen closeTime post w.captionGap.finding _)).trans
      (aside_settleOpen closeTime post w.stCeiling.finding _)
    exact ⟨(near_modWatched l none s).trans (settle _).near, ((settle _).beside.watched l).trans own⟩

theorem closeSegment_none (l : LaneNo) (cause : CloseCause) (s : State) (h : s.st[l].seg = none) :
    s.closeSegment l cause = s := by
  simp only [State.closeSegment, h]

/-- The state in which a segment's verdict is entered and its record and findings are handed on. -/
def judged (l : LaneNo) (cause : CloseCause) (g : SegCtx) (s : State) : State :=
  (s.enterVerdict (closingVerdict l cause g s)).handVerdict l g (closingVerdict l cause g s) (judgement l cause g s)

/-- An entry of the verdict log, with its notice. -/
def withVerdicts (x : Verdicts) (s : State) : State :=
  { s with verdicts := x, notices := { s.notices with verdict := true } }

theorem segments_withVerdicts (l : LaneNo) (x : Verdicts) (s : State) : Segments l s (withVerdicts x s) :=
  ⟨⟨rfl, rfl, rfl, rfl, rfl, rfl, rfl, rfl, fun _ _ => rfl, fun _ _ => rfl, fun _ _ => rfl, rfl, rfl, rfl,
    ⟨⟨fun _ => id, fun _ => id, id, fun _ => rfl⟩, fun _ => rfl, fun _ => rfl⟩⟩, rfl, rfl⟩

theorem enterVerdict_eq (v : Verdict) (s : State) :
    s.enterVerdict v = withVerdicts ⟨appendVerdict s.verdicts.log v, nextVerdictSeq s.verdicts.next⟩ s := rfl

theorem judged_spec (l : LaneNo) (cause : CloseCause) (g : SegCtx) (s : State) :
    Segments l s (judged l cause g s) ∧ (judged l cause g s).st = s.st ∧
    (judged l cause g s).verdicts
      = ⟨appendVerdict s.verdicts.log (closingVerdict l cause g s), nextVerdictSeq s.verdicts.next⟩ ∧
    (judged l cause g s).notices.verdict = true ∧
    ∀ rule cs, judgement l cause g s = some (rule, cs) → (∃ c ∈ cs, c.result = .fail) →
      (judged l cause g s).notices.finding[l] = true := by
  unfold judged
  rw [enterVerdict_eq]
  generalize (⟨appendVerdict s.verdicts.log (closingVerdict l cause g s), nextVerdictSeq s.verdicts.next⟩ : Verdicts) = x
  generalize closingVerdict l cause g s = v
  have enter := segments_withVerdicts l x s
  obtain ⟨hand, raises⟩ := handVerdict_spec l g v (judgement l cause g s) (withVerdicts x s)
  exact ⟨enter.trans (hand.near.segments l), hand.kept.st, hand.kept.verdicts, hand.beside.notices.verdict rfl, raises⟩

/-- The Segment Tracker of a lane whose segment closed. -/
def segmentClosed (cause : CloseCause) (g : SegCtx) (x : StLane) : StLane :=
  { x with reference := referenceAfter cause g.ident.kind (integrated g) x.reference, seg := none }

theorem closeSegment_eq (l : LaneNo) (cause : CloseCause) (g : SegCtx) (s : State) (h : s.st[l].seg = some g) :
    s.closeSegment l cause
      = (((judged l cause g s).modSt l (segmentClosed cause g)).unwatch l s.station).allocate := by
  simp only [State.closeSegment, h]
  rfl

/-- The close of a segment enters its verdict, sets the notices of it, and leaves the lane without a segment. -/
theorem closeSegment_some (l : LaneNo) (cause : CloseCause) (g : SegCtx) (s : State) (h : s.st[l].seg = some g) :
    let t := s.closeSegment l cause
    Segments l s t ∧ t.st[l] = segmentClosed cause g s.st[l] ∧
    t.verdicts = ⟨appendVerdict s.verdicts.log (closingVerdict l cause g s), nextVerdictSeq s.verdicts.next⟩ ∧
    t.notices.verdict = true ∧ t.cm[l].watched = none ∧
    ∀ rule cs, judgement l cause g s = some (rule, cs) → (∃ c ∈ cs, c.result = .fail) → t.notices.finding[l] = true := by
  obtain ⟨enter, st, verdicts, verdict, raises⟩ := judged_spec l cause g s
  obtain ⟨ends, unwatched⟩ := unwatch_spec l s.station ((judged l cause g s).modSt l (segmentClosed cause g))
  have done := aside_allocate (((judged l cause g s).modSt l (segmentClosed cause g)).unwatch l s.station)
  have last := ends.trans done.near
  dsimp only
  rw [closeSegment_eq l cause g s h]
  refine ⟨enter.trans ((segments_modSt l _ _).trans (last.segments l)), ?_, last.kept.verdicts.trans verdicts,
    last.quiet.notices.verdict verdict, (done.beside.watched l).trans unwatched,
    fun rule cs j fails => last.quiet.notices.finding l (raises rule cs j fails)⟩
  rw [last.kept.st, modSt_st, st]

/-! ### Opening and the marks due (R83, R85, R87, R90) -/

theorem openSegment_spec (l : LaneNo) (ident : Identity) (continuation : Bool) (s : State) :
    let t := s.openSegment l ident continuation
    let k := s.settings.ruleMap[l].entry ident.kind
    Segments l s t ∧ t.st[l] = { s.st[l] with seg := some (.opened ident k continuation s.station) } ∧
    t.cm[l].watched = some ⟨ident, k, .fresh, .fresh, .fresh⟩ ∧ t.verdicts = s.verdicts ∧ t.notices = s.notices := by
  refine ⟨?_, lane_set_self s.st l _, congrArg CmLane.watched (lane_set_self s.cm l _), rfl, rfl⟩
  exact (segments_modSt l _ s).trans ((near_modWatched l _ _).segments l)

/-- Closing a segment, if there is one, keeps the rest of the Segment Tracker. -/
theorem closeSegment_segments (l : LaneNo) (cause : CloseCause) (s : State) :
    Segments l s (s.closeSegment l cause) ∧ (s.closeSegment l cause).st[l].queue = s.st[l].queue ∧
    (s.closeSegment l cause).st[l].lastOpened = s.st[l].lastOpened ∧
    (s.closeSegment l cause).st[l].superseded = s.st[l].superseded ∧ (s.closeSegment l cause).st[l].seg = none := by
  cases h : s.st[l].seg with
  | none =>
    rw [closeSegment_none l cause s h]
    exact ⟨.refl l s, rfl, rfl, rfl, h⟩
  | some g =>
    obtain ⟨segments, st, -⟩ := closeSegment_some l cause g s h
    rw [st]
    exact ⟨segments, rfl, rfl, rfl, rfl⟩

end Sys2Proof.Lanes
end

section
/-! PROOFS. Opening tiles: what the marks due make of a lane's Segment Tracker, the engine of a tile that opens, and the void
tiles for those that a cell skips. -/

namespace Sys2Proof.Lanes

open Sys2Proof.Machine Sys2Proof.Laws

/-! ### The marks due at an opening (R83) -/

/-- The marks that are due when tile `i` opens. -/
def dueMarks (i : Nat) (x : StLane) : List Mark := x.queue.filter (fun m => decide (m.effTile ≤ i))

/-- The Segment Tracker of a lane whose tile `i` opens, before the marks due act. -/
def tileOpened (i : Nat) (x : StLane) : StLane :=
  { x with
    lastOpened := some i
    queue := x.queue.filter (fun m => !decide (m.effTile ≤ i))
    superseded := x.superseded + BitVec.ofNat 32 ((dueMarks i x).length - 1) }

theorem stOpening_idle (l : LaneNo) (i : Nat) (s : State) (h : (dueMarks i s.st[l]).getLast? = none) :
    s.stOpening l i = match s.alarm.mode with
      | .run => (s.modSt l (tileOpened i)).continueLong l
      | .config => s.modSt l (tileOpened i) := by
  unfold dueMarks at h
  unfold State.stOpening
  dsimp only
  rw [h]
  rfl

theorem stOpening_due (l : LaneNo) (i : Nat) (m : Mark) (s : State) (h : (dueMarks i s.st[l]).getLast? = some m) :
    s.stOpening l i = match s.alarm.mode with
      | .run => (s.modSt l (tileOpened i)).applyMark l m
      | .config => (s.modSt l (tileOpened i)).rememberMark l m := by
  unfold dueMarks at h
  unfold State.stOpening
  dsimp only
  rw [h]
  rfl

/-- Two Segment Trackers whose queue of marks and count of the superseded agree, and whose last opened tile does. -/
structure SameMarks (x y : StLane) : Prop where
  queue : y.queue = x.queue
  lastOpened : y.lastOpened = x.lastOpened
  superseded : y.superseded = x.superseded

theorem SameMarks.trans {x y z : StLane} (a : SameMarks x y) (b : SameMarks y z) : SameMarks x z :=
  ⟨b.queue.trans a.queue, b.lastOpened.trans a.lastOpened, b.superseded.trans a.superseded⟩

theorem closeSegment_marks (l : LaneNo) (cause : CloseCause) (s : State) :
    Segments l s (s.closeSegment l cause) ∧ SameMarks s.st[l] (s.closeSegment l cause).st[l] := by
  obtain ⟨segments, queue, last, superseded, -⟩ := closeSegment_segments l cause s
  exact ⟨segments, queue, last, superseded⟩

theorem openSegment_marks (l : LaneNo) (ident : Identity) (continuation : Bool) (s : State) :
    Segments l s (s.openSegment l ident continuation) ∧ SameMarks s.st[l] (s.openSegment l ident continuation).st[l] := by
  obtain ⟨segments, st, -⟩ := openSegment_spec l ident continuation s
  rw [st]
  exact ⟨segments, rfl, rfl, rfl⟩

theorem applyMark_marks (l : LaneNo) (m : Mark) (s : State) :
    Segments l s (s.applyMark l m) ∧ SameMarks s.st[l] (s.applyMark l m).st[l] := by
  unfold State.applyMark
  split
  · obtain ⟨a, x⟩ := closeSegment_marks l .nextMark s
    obtain ⟨b, y⟩ := openSegment_marks l ⟨m.segId, _, m.duty⟩ false (s.closeSegment l .nextMark)
    exact ⟨a.trans b, x.trans y⟩
  · exact closeSegment_marks l .endMark s

theorem continueLong_marks (l : LaneNo) (s : State) :
    Segments l s (s.continueLong l) ∧ SameMarks s.st[l] (s.continueLong l).st[l] := by
  unfold State.continueLong
  split
  · next g _ =>
    split
    · obtain ⟨a, x⟩ := closeSegment_marks l .maxLength s
      obtain ⟨b, y⟩ := openSegment_marks l g.ident true (s.closeSegment l .maxLength)
      exact ⟨a.trans b, x.trans y⟩
    · exact ⟨.refl l s, rfl, rfl, rfl⟩
  · exact ⟨.refl l s, rfl, rfl, rfl⟩

/-- Whatever marks are due, the tile becomes the last opened, and the marks due leave the queue (R83). -/
theorem stOpening_marks (l : LaneNo) (i : Nat) (s : State) :
    Segments l s (s.stOpening l i) ∧ SameMarks (tileOpened i s.st[l]) (s.stOpening l i).st[l] := by
  have opened := segments_modSt l (tileOpened i) s
  have st := modSt_st l (tileOpened i) s
  have stays : Segments l s (s.modSt l (tileOpened i)) ∧
      SameMarks (tileOpened i s.st[l]) (s.modSt l (tileOpened i)).st[l] := by
    rw [st]
    exact ⟨opened, rfl, rfl, rfl⟩
  cases h : (dueMarks i s.st[l]).getLast? with
  | none =>
    rw [stOpening_idle l i s h]
    split
    · obtain ⟨a, x⟩ := continueLong_marks l (s.modSt l (tileOpened i))
      exact ⟨opened.trans a, st ▸ x⟩
    · exact stays
  | some m =>
    rw [stOpening_due l i m s h]
    split
    · obtain ⟨a, x⟩ := applyMark_marks l m (s.modSt l (tileOpened i))
      exact ⟨opened.trans a, st ▸ x⟩
    · unfold State.rememberMark
      refine ⟨opened.trans (segments_modSt l _ _), ?_⟩
      rw [modSt_st, st]
      exact ⟨rfl, rfl, rfl⟩

/-! ### A tile opens (R12, R27, R32) -/

/-- The tile that opens is the one after the newest of the history, or there is no newest. -/
def follows (e : LeLane) (i : Nat) : Prop := ∀ x : TileEntry, e.history.getLast? = some x → x.tile + 1 = i

theorem openTile_follows (i : Nat) (e : LeLane) (h : follows e i) : e.openTile i = { e with acc := some ⟨i, 0, 0, 0⟩ } := by
  unfold follows at h
  unfold LeLane.openTile
  cases last : e.history.getLast? with
  | none => simp
  | some x => simp [h x last]

/-- A tile that opens behind a break empties the history (R32). -/
theorem openTile_breaks (i : Nat) (e : LeLane) (x : TileEntry) (last : e.history.getLast? = some x) (h : x.tile + 1 ≠ i) :
    e.openTile i = { e.clearWindows with acc := some ⟨i, 0, 0, 0⟩ } := by
  unfold LeLane.openTile
  simp [last, h]

theorem openTile_kept (i : Nat) (e : LeLane) : (e.openTile i).acc = some ⟨i, 0, 0, 0⟩ ∧
    (e.openTile i).filters = e.filters ∧ (e.openTile i).lastLayout = e.lastLayout ∧ (e.openTile i).newest = e.newest ∧
    ((e.openTile i).history = e.history ∨ (e.openTile i).history = []) := by
  unfold LeLane.openTile
  dsimp only
  split
  · split
    · exact ⟨rfl, rfl, rfl, rfl, Or.inr rfl⟩
    · exact ⟨rfl, rfl, rfl, rfl, Or.inl rfl⟩
  · exact ⟨rfl, rfl, rfl, rfl, Or.inl rfl⟩

/-- The opening of a tile: the marks due act, the engine opens its accumulator, and the tile is the open one. -/
theorem openTileAt_spec (l : LaneNo) (i : Nat) (s : State) :
    let t := s.openTileAt l i
    Tracks l s t ∧ t.liu[l].openTile = some i ∧ t.le[l] = s.le[l].openTile i ∧ t.st = (s.stOpening l i).st ∧
    t.st[l].lastOpened = some i ∧ t.verdicts = (s.stOpening l i).verdicts ∧ t.cm = (s.stOpening l i).cm ∧
    t.notices = (s.stOpening l i).notices := by
  obtain ⟨segments, marks⟩ := stOpening_marks l i s
  obtain ⟨-, filters, layout, -⟩ := openTile_kept i s.le[l]
  have engine : (s.openTileAt l i).le[l] = (s.stOpening l i).le[l].openTile i := lane_set_self _ _ _
  rw [segments.engines] at engine
  refine ⟨segments.toTracks.trans ((tracks_setLe l _ _ ?_ ?_).trans (tracks_openTile l (some i) _)),
    congrArg Liu.openTile (lane_set_self _ _ _), engine, rfl, marks.lastOpened, rfl, rfl, rfl⟩
  · rw [segments.engines, filters]
  · rw [segments.engines, layout]

/-! ### Void tiles (R12, R14) -/

/-- The entry of a void tile. -/
def voidEntry (i : Nat) : TileEntry := ⟨i, none⟩

/-- A void tile stands newest in the history, with its record (R28, R30, R32, R35). -/
theorem voidTile_spec (l : LaneNo) (i : Nat) (s : State) :
    let t := State.voidTile l s i
    Tracks l s t ∧ t.liu[l].openTile = none ∧ t.le[l].history = newest30 ((s.le[l].openTile i).history ++ [voidEntry i]) ∧
    t.voidNewest l i ∧
    momentaryIs ((s.le[l].openTile i).history ++ [voidEntry i]) (s.le[l].openTile i).momentary t.le[l].momentary ∧
    shortTermIs ((s.le[l].openTile i).history ++ [voidEntry i]) (s.le[l].openTile i).shortTerm t.le[l].shortTerm := by
  obtain ⟨opens, -, engine, -⟩ := openTileAt_spec l i s
  obtain ⟨acc, -⟩ := openTile_kept i s.le[l]
  obtain ⟨after, closed, tracks, -⟩ := closeTile_open l ⟨i, 0, 0, 0⟩ (s.openTileAt l i) (by rw [engine, acc])
  have builds := closing_builds l ⟨i, 0, 0, 0⟩ (s.openTileAt l i)
  have void : closingPower ⟨i, 0, 0, 0⟩ = none := rfl
  rw [closing_engine] at after
  generalize (closing l ⟨i, 0, 0, 0⟩ (s.openTileAt l i)).1 = r at builds after
  obtain ⟨measured, time, alive, -⟩ := builds
  have momentary := measured.momentary
  have shortTerm := measured.shortTerm
  have loudness : r.loudness = none := measured.loudness
  have silent : r.silent = false := by
    rw [Bool.eq_false_iff]
    intro e
    obtain ⟨v, hv, -⟩ := measured.silent.mp e
    rw [loudness] at hv
    cases hv
  have peak : r.peak = -999 := measured.peak.trans (show reportedPeak 0 = -999 by decide +kernel)
  rw [engine, void] at momentary shortTerm
  refine ⟨opens.trans tracks, closed, ?_, ⟨r, ?_, measured.tile, ?_, measured.good, measured.power, loudness, silent, peak,
    ?_, ?_, ?_⟩, ?_, ?_⟩
  · unfold State.voidTile
    rw [after, engine, void]
    rfl
  · unfold State.voidTile
    rw [after]
  · unfold State.voidTile
    rw [time, tracks.station]
  · unfold State.voidTile
    rw [alive, tracks.cc]
  · unfold State.voidTile
    rw [after]
  · unfold State.voidTile
    rw [after]
  · unfold State.voidTile
    rw [after]
    exact momentary
  · unfold State.voidTile
    rw [after]
    exact shortTerm

/-- Void tiles, opened and closed one behind the other: `n` of them behind tile `start`. -/
def voidRun (l : LaneNo) (start n : Nat) (s : State) : State :=
  (List.range' (start + 1) n).foldl (State.voidTile l) s

theorem voidTiles_eq (l : LaneNo) (start n : Nat) (s : State) :
    s.voidTiles l start (start + 1 + n) = voidRun l start n s := by
  unfold State.voidTiles voidRun
  rw [Nat.add_sub_cancel_left]

theorem voidRun_zero (l : LaneNo) (start : Nat) (s : State) : voidRun l start 0 s = s := rfl

/-- The last of the void tiles behind the others. -/
theorem voidRun_succ (l : LaneNo) (start n : Nat) (s : State) :
    voidRun l start (n + 1) s = State.voidTile l (voidRun l start n s) (start + 1 + n) := by
  unfold voidRun
  rw [List.range'_1_concat, List.foldl_append, List.foldl_cons, List.foldl_nil]

/-- The first of the void tiles before the others. -/
theorem voidRun_cons (l : LaneNo) (start n : Nat) (s : State) :
    voidRun l start (n + 1) s = voidRun l (start + 1) n (State.voidTile l s (start + 1)) := by
  unfold voidRun
  rw [List.range'_succ, List.foldl_cons]

/-- The entries of the tiles skipped between an open or loss tile and the next. -/
def skippedEntries (start n : Nat) : List TileEntry := (List.range' (start + 1) n).map voidEntry

theorem skippedEntries_succ (start n : Nat) :
    skippedEntries start (n + 1) = skippedEntries start n ++ [voidEntry (start + 1 + n)] := by
  unfold skippedEntries
  rw [List.range'_1_concat, List.map_append]
  rfl

/-- A history of the newest entries keeps those that it fits. -/
theorem suffix_newest30 {xs h : List TileEntry} (len : xs.length ≤ 30) (suffix : xs <:+ h) : xs <:+ newest30 h := by
  obtain ⟨p, rfl⟩ := suffix
  unfold newest30
  rw [List.drop_append_of_le_length (by rw [List.length_append]; omega)]
  exact ⟨_, rfl⟩

theorem newest30_length (h : List TileEntry) : (newest30 h).length ≤ 30 := by
  unfold newest30
  rw [List.length_drop]
  omega

/-- Behind the void tiles, which stand newest in the history, the last of them has left its record. -/
theorem voidTiles_spec (l : LaneNo) (start : Nat) (s : State) : ∀ n : Nat, n ≤ 29 →
    let t := voidRun l start n s
    Tracks l s t ∧ skippedEntries start n <:+ t.le[l].history ∧
    (n = 0 → t = s) ∧ (0 < n → t.liu[l].openTile = none ∧ t.voidNewest l (start + n))
  | 0, _ => ⟨.refl l s, List.nil_suffix, fun _ => rfl, fun h => absurd h (Nat.lt_irrefl 0)⟩
  | n + 1, small => by
    obtain ⟨tracks, suffix, -, -⟩ := voidTiles_spec l start s n (by omega)
    dsimp only
    rw [voidRun_succ]
    generalize voidRun l start n s = t at tracks suffix ⊢
    obtain ⟨one, closed, history, record, -⟩ := voidTile_spec l (start + 1 + n) t
    refine ⟨tracks.trans one, ?_, nofun, fun _ => ⟨closed, by rwa [show start + (n + 1) = start + 1 + n by omega]⟩⟩
    rw [history, skippedEntries_succ]
    refine suffix_newest30 (by simp [skippedEntries]; omega) ?_
    have before : skippedEntries start n <:+ (t.le[l].openTile (start + 1 + n)).history := by
      cases n with
      | zero => exact List.nil_suffix
      | succ m =>
        rw [skippedEntries_succ] at suffix ⊢
        have last : follows t.le[l] (start + 1 + (m + 1)) := by
          intro x hx
          obtain ⟨p, hp⟩ := suffix
          rw [← hp, ← List.append_assoc, List.getLast?_concat] at hx
          obtain rfl := Option.some.inj hx
          simp only [voidEntry]
          omega
        rw [openTile_follows _ _ last]
        exact suffix
    obtain ⟨p, hp⟩ := before
    exact ⟨p, by rw [← hp, List.append_assoc]⟩

/-- Void tiles behind the newest of the history stand in the history and in the windows (R32 to R34). -/
theorem voidTiles_closedAlong (l : LaneNo) : ∀ (n start : Nat) (s : State),
    s.le[l].history.getLast?.map TileEntry.tile = some start → s.le[l].history.length ≤ 30 →
    s.le[l].closedAlong (skippedEntries start n) (voidRun l start n s).le[l]
  | 0, start, s, _, len => by
    refine ⟨?_, rfl⟩
    rw [voidRun_zero]
    simp only [skippedEntries, List.range'_zero, List.map_nil, List.append_nil]
    unfold newest30
    rw [show s.le[l].history.length - 30 = 0 by omega, List.drop_zero]
  | n + 1, start, s, last, len => by
    have next : follows s.le[l] (start + 1) := by
      intro x hx
      rw [hx] at last
      have tile : x.tile = start := Option.some.inj last
      rw [tile]
    obtain ⟨-, -, history, -, momentary, shortTerm⟩ := voidTile_spec l (start + 1) s
    rw [openTile_follows _ _ next] at history momentary shortTerm
    rw [voidRun_cons, show skippedEntries start (n + 1) = voidEntry (start + 1) :: skippedEntries (start + 1) n by
      simp only [skippedEntries, List.range'_succ, List.map_cons]]
    refine closedAlong_cons _ _ _ (State.voidTile l s (start + 1)).le[l] _ _ history momentary shortTerm rfl
      (voidTiles_closedAlong l n (start + 1) _ ?_ ?_)
    · obtain ⟨p, hp⟩ : [voidEntry (start + 1)] <:+ (State.voidTile l s (start + 1)).le[l].history := by
        rw [history]
        exact suffix_newest30 (by simp) (List.suffix_append _ _)
      rw [← hp, List.getLast?_concat]
      rfl
    · rw [history]
      exact newest30_length _

end Sys2Proof.Lanes
end

section
/-! PROOFS. A good audio cell: where the exchange of carriage, tiles and metering leaves the lane, case by case of the place of
the cell's tile. -/

namespace Sys2Proof.Lanes

open Sys2Proof.Machine Sys2Proof.Laws

/-! ### What a good audio cell leaves alone -/

/-- A step of a lane's carriage or tile tracking: the other lanes' engines, segments and intakes but for hold-off stay, and so
do settings, captions and time; notices stay set. -/
structure Around (l : LaneNo) (s t : State) : Prop where
  clock : t.clock = s.clock
  station : t.station = s.station
  cc : t.cc = s.cc
  settings : t.settings = s.settings
  warm : t.warm = s.warm
  mode : t.alarm.mode = s.alarm.mode
  le : ∀ k : LaneNo, k ≠ l → t.le[k] = s.le[k]
  st : ∀ k : LaneNo, k ≠ l → t.st[k] = s.st[k]
  core : ∀ k : LaneNo, k ≠ l → SameCore s.liu[k] t.liu[k]
  louder : Louder s.notices t.notices

theorem Around.refl (l : LaneNo) (s : State) : Around l s s :=
  ⟨rfl, rfl, rfl, rfl, rfl, rfl, fun _ _ => rfl, fun _ _ => rfl, fun _ _ => sameCore_of_core rfl, .refl _⟩

theorem Around.trans {l : LaneNo} {s t u : State} (a : Around l s t) (b : Around l t u) : Around l s u where
  clock := b.clock.trans a.clock
  station := b.station.trans a.station
  cc := b.cc.trans a.cc
  settings := b.settings.trans a.settings
  warm := b.warm.trans a.warm
  mode := b.mode.trans a.mode
  le := fun k e => (b.le k e).trans (a.le k e)
  st := fun k e => (b.st k e).trans (a.st k e)
  core := fun k e => (a.core k e).trans (b.core k e)
  louder := a.louder.trans b.louder

theorem Tracks.around {l : LaneNo} {s t : State} (h : Tracks l s t) : Around l s t :=
  ⟨h.clock, h.station, h.cc, h.settings, h.warm, h.mode, h.le, h.st, fun k e => sameCore_of_core (h.core k e),
    h.quiet.notices⟩

theorem around_modLiu (l : LaneNo) (f : Liu → Liu) (s : State) : Around l s (s.modLiu l f) :=
  ⟨rfl, rfl, rfl, rfl, rfl, rfl, fun _ _ => rfl, fun _ _ => rfl, fun k e => by
    rw [show (s.modLiu l f).liu[k] = s.liu[k] from lane_set_ne _ _ e]
    exact sameCore_of_core rfl, .refl _⟩

theorem around_modLe (l : LaneNo) (f : LeLane → LeLane) (s : State) : Around l s (s.modLe l f) :=
  ⟨rfl, rfl, rfl, rfl, rfl, rfl, fun _ e => lane_set_ne _ _ e, fun _ _ => rfl, fun _ _ => sameCore_of_core rfl, .refl _⟩

theorem Aside.around {s t : State} (h : Aside s t) (l : LaneNo) : Around l s t := (h.near.tracks l).around

theorem modLiu_liu (l : LaneNo) (f : Liu → Liu) (s : State) : (s.modLiu l f).liu[l] = f s.liu[l] := lane_set_self _ _ _

theorem modLe_le (l : LaneNo) (f : LeLane → LeLane) (s : State) : (s.modLe l f).le[l] = f s.le[l] := lane_set_self _ _ _

/-- The lane's intake behind a step of its tile tracking. -/
theorem Tracks.intake {l : LaneNo} {s t : State} (h : Tracks l s t) (tile : Option Nat) (e : t.liu[l].openTile = tile) :
    SameCore { s.liu[l] with openTile := tile } t.liu[l] :=
  ⟨⟨h.same.carriage, h.same.run, h.same.gapTimer, h.same.window, h.same.lastCount, e, h.same.lossTile⟩, h.same.runLast,
    h.same.assembly, h.same.counters⟩

/-! ### Carriage (R7 to R9) -/

/-- What carriage tracking makes of a lane: its intake, its filters, and nothing else of its engine and its segment. -/
structure Carried (l : LaneNo) (f : Filters) (x : Liu) (s t : State) : Prop where
  around : Around l s t
  core : SameCore x t.liu[l]
  engine : t.le[l] = { s.le[l] with filters := f }
  segment : t.st[l] = s.st[l]

theorem carried_modLiu (l : LaneNo) (f : Liu → Liu) (s : State) :
    Carried l s.le[l].filters (f s.liu[l]) s (s.modLiu l f) :=
  ⟨around_modLiu l f s, by rw [modLiu_liu]; exact sameCore_of_core rfl, rfl, rfl⟩

/-- The filters behind a change of carriage (R24). -/
def filtersAt (new old : Carriage) (f : Filters) : Filters := if new = .acquiring ∧ old ≠ new then .zero else f

theorem setCarriage_carried (l : LaneNo) (new : Carriage) (s : State) :
    Carried l (filtersAt new s.liu[l].carriage s.le[l].filters) { s.liu[l] with carriage := new } s
      (s.setCarriage l new) := by
  have core := setCarriage_core l new s
  by_cases h : s.liu[l].carriage = new
  · rw [setCarriage_same l new s h] at core ⊢
    refine ⟨.refl l s, core, ?_, rfl⟩
    rw [filtersAt, if_neg (fun c => c.2 h)]
  · have kept := setCarriage_kept l new s h
    obtain ⟨louder, -⟩ := setCarriage_findings l new s h
    have le (k : LaneNo) : (carriageSet l new s).le[k]
        = if new = .acquiring ∧ k = l then { s.le[k] with filters := .zero } else s.le[k] := by
      unfold carriageSet
      dsimp only
      by_cases a : new = .acquiring
      · rw [if_pos a]
        by_cases e : k = l
        · subst e
          rw [if_pos ⟨a, rfl⟩, lane_set_self]
        · rw [if_neg (fun c => e c.2), lane_set_ne _ _ e]
      · rw [if_neg a, if_neg (fun c => a c.1)]
    refine ⟨⟨kept.clock, kept.station, kept.cc, kept.settings, kept.warm, kept.mode, fun k e => ?_, fun k e => ?_,
      fun k e => setCarriage_core_ne l k new s e, louder⟩, core, ?_, ?_⟩
    · rw [kept.le, le, if_neg (fun c => e c.2)]
    · rw [kept.st]
      rfl
    · rw [kept.le, le, filtersAt]
      by_cases a : new = .acquiring
      · rw [if_pos ⟨a, rfl⟩, if_pos ⟨a, h⟩]
      · rw [if_neg (fun c => a c.1), if_neg (fun c => a c.1)]
    · rw [kept.st]
      rfl

theorem Carried.trans {l : LaneNo} {f g : Filters} {x y : Liu} {s t u : State} (a : Carried l f x s t)
    (b : Carried l g y t u) : Carried l g y s u :=
  ⟨a.around.trans b.around, b.core, by rw [b.engine, a.engine], b.segment.trans a.segment⟩

theorem Carried.of_core {l : LaneNo} {f : Filters} {x y : Liu} {s t : State} (a : Carried l f x s t) (h : SameCore y x) :
    Carried l f y s t := ⟨a.around, h.trans a.core, a.engine, a.segment⟩

/-- When the gap timer expires that a cell starts (R8). -/
def gapExpiry (l : LaneNo) (s : State) : Nat := s.clock + (s.laneSettings l).gapTimeout

/-- In PRESENT and DRIFT a cell counts in the rate window, and starts the gap timer. -/
theorem trackCarriage_counts (l : LaneNo) (count : Nat) (s : State)
    (h : s.liu[l].carriage = .present ∨ s.liu[l].carriage = .drift) :
    s.trackCarriage l count = s.modLiu l (fun x => { x with
      window := x.window.map (fun w => { w with count := w.count + 1 })
      gapTimer := some (gapExpiry l s) }) := by
  have both : s.trackCarriage l count = (s.countInWindow l).startGap l := by
    unfold State.trackCarriage
    rcases h with h | h <;> rw [h]
  rw [both, State.startGap, State.countInWindow, modLiu_modLiu]
  rfl

/-- The run of good audio cells that a cell makes in ACQUIRING (R7). -/
def runWith (count : Nat) (x : Liu) : Nat := if x.run ≠ 0 ∧ count = x.runLast + 1 then x.run + 1 else 1

/-- In ACQUIRING a cell that does not complete a run of 10 advances it (R7). -/
theorem trackCarriage_advances (l : LaneNo) (count : Nat) (s : State) (h : s.liu[l].carriage = .acquiring)
    (short : runWith count s.liu[l] < 10) :
    s.trackCarriage l count = s.modLiu l (fun x => { x with
      run := runWith count s.liu[l], runLast := count, gapTimer := some (gapExpiry l s) }) := by
  unfold runWith at short ⊢
  unfold State.trackCarriage State.advanceRun
  rw [h]
  dsimp only
  rw [if_neg (by omega), State.startGap, modLiu_modLiu]
  rfl

/-- The state in which the tenth cell of a run has brought the lane to PRESENT (R7, R9). -/
def entering (l : LaneNo) (count : Nat) (s : State) : State :=
  s.modLiu l (fun x => { x with run := 0, runLast := count, window := some ⟨s.clock, 0⟩ })

theorem trackCarriage_enters (l : LaneNo) (count : Nat) (s : State) (h : s.liu[l].carriage = .acquiring)
    (full : 10 ≤ runWith count s.liu[l]) :
    s.trackCarriage l count = ((entering l count s).setCarriage l .present).startGap l := by
  unfold runWith at full
  unfold State.trackCarriage State.advanceRun
  rw [h]
  dsimp only
  rw [if_pos full, State.enterPresent, State.startWindow, modLiu_modLiu, modLiu_modLiu]
  rfl

/-- A gap timer that starts, behind a change of carriage that kept time and settings. -/
theorem Carried.startGap {l : LaneNo} {f : Filters} {x : Liu} {s t : State} (h : Carried l f x s t) :
    Carried l f { x with gapTimer := some (gapExpiry l s) } s (t.startGap l) := by
  have gap : gapExpiry l t = gapExpiry l s := by
    unfold gapExpiry State.laneSettings
    rw [h.around.clock, h.around.settings]
  have started := carried_modLiu l (fun x => { x with gapTimer := some (gapExpiry l t) }) t
  rw [h.engine] at started
  refine (h.trans started).of_core ⟨⟨h.core.carriage, h.core.run, congrArg some gap, h.core.window, h.core.lastCount,
    h.core.openTile, h.core.lossTile⟩, h.core.runLast, h.core.assembly, h.core.counters⟩

/-- The tenth cell of a run: PRESENT, with the notice set and no carriage finding open. -/
theorem trackCarriage_enters_spec (l : LaneNo) (count : Nat) (s : State) (h : s.liu[l].carriage = .acquiring)
    (full : 10 ≤ runWith count s.liu[l]) :
    Carried l s.le[l].filters { s.liu[l] with
      carriage := .present, run := 0, runLast := count, window := some ⟨s.clock, 0⟩, gapTimer := some (gapExpiry l s) }
      s (s.trackCarriage l count) ∧
    (s.trackCarriage l count).le = s.le ∧ (s.trackCarriage l count).notices.carriage[l] = true ∧
    (s.trackCarriage l count).cm[l].lost.finding = none ∧ (s.trackCarriage l count).cm[l].drift.finding = none := by
  rw [trackCarriage_enters l count s h full]
  have own : (entering l count s).liu[l]
      = { s.liu[l] with run := 0, runLast := count, window := some ⟨s.clock, 0⟩ } := modLiu_liu _ _ _
  have first := carried_modLiu l (fun x => { x with run := 0, runLast := count, window := some ⟨s.clock, 0⟩ }) s
  have second := setCarriage_carried l .present (entering l count s)
  have change : (entering l count s).liu[l].carriage ≠ .present := by
    rw [own, h]
    decide
  obtain ⟨-, notice, -, -, none_, -⟩ := setCarriage_findings l .present (entering l count s) change
  rw [own] at second
  have le : ((entering l count s).setCarriage l .present).le = s.le :=
    (setCarriage_leavesOthers l .present (entering l count s) (by decide)).le
  exact ⟨(first.trans second).startGap, le, notice, none_ (Or.inl rfl)⟩

/-- A run of 1 begins: ACQUIRING, with the filters at rest where that is a change (R7, R24). -/
theorem startRun_spec (l : LaneNo) (count : Nat) (s : State) :
    Carried l (filtersAt .acquiring s.liu[l].carriage s.le[l].filters)
      { s.liu[l] with run := 1, runLast := count, carriage := .acquiring } s (s.startRun l count) ∧
    (s.liu[l].carriage ≠ .acquiring → (s.startRun l count).notices.carriage[l] = true) := by
  have first := carried_modLiu l (fun x => { x with run := 1, runLast := count }) s
  have second := setCarriage_carried l .acquiring (s.modLiu l (fun x => { x with run := 1, runLast := count }))
  rw [modLiu_liu] at second
  refine ⟨first.trans second, fun c => ?_⟩
  exact (setCarriage_findings l .acquiring _ (by rw [modLiu_liu]; exact c)).2.1

theorem trackCarriage_starts (l : LaneNo) (count : Nat) (s : State)
    (h : s.liu[l].carriage = .absent ∨ s.liu[l].carriage = .lost) :
    Carried l .zero { s.liu[l] with
      run := 1, runLast := count, carriage := .acquiring, gapTimer := some (gapExpiry l s) } s (s.trackCarriage l count) ∧
    (s.trackCarriage l count).notices.carriage[l] = true := by
  have both : s.trackCarriage l count = (s.startRun l count).startGap l := by
    unfold State.trackCarriage
    rcases h with h | h <;> rw [h]
  have change : s.liu[l].carriage ≠ .acquiring := by rcases h with h | h <;> rw [h] <;> decide
  obtain ⟨carried, notice⟩ := startRun_spec l count s
  rw [filtersAt, if_pos ⟨rfl, change⟩] at carried
  rw [both]
  exact ⟨carried.startGap, notice change⟩

end Sys2Proof.Lanes
end

section
/-! PROOFS. The places of a good audio cell's tile: behind the open tile, behind the loss tile, first, or a discontinuity; and the
cell's samples taken into the tile. -/

namespace Sys2Proof.Lanes

open Sys2Proof.Machine Sys2Proof.Laws

/-! ### Where tile tracking leaves the lane -/

/-- Tile `i` is open on the lane: its accumulator is empty, and it is the last opened. -/
structure Placed (l : LaneNo) (i : Nat) (f : Filters) (x : Liu) (s t : State) : Prop where
  around : Around l s t
  core : SameCore x t.liu[l]
  opened : x.openTile = some i
  acc : t.le[l].acc = some ⟨i, 0, 0, 0⟩
  filters : t.le[l].filters = f
  lastLayout : t.le[l].lastLayout = s.le[l].lastLayout
  lastOpened : t.st[l].lastOpened = some i

/-- Tile `i` opens behind a step that left the lane's intake at `x`. -/
theorem placed_openTileAt (l : LaneNo) (i : Nat) (x : Liu) (s t : State) (around : Around l s t)
    (core : SameCore x t.liu[l]) (layout : t.le[l].lastLayout = s.le[l].lastLayout) :
    Placed l i t.le[l].filters { x with openTile := some i } s (t.openTileAt l i) := by
  obtain ⟨tracks, opened, engine, -, last, -⟩ := openTileAt_spec l i t
  obtain ⟨acc, -, -, -⟩ := openTile_kept i t.le[l]
  have intake := tracks.intake (some i) opened
  exact ⟨around.trans tracks.around, ⟨⟨intake.carriage.trans core.carriage, intake.run.trans core.run,
      intake.gapTimer.trans core.gapTimer, intake.window.trans core.window, intake.lastCount.trans core.lastCount, opened,
      intake.lossTile.trans core.lossTile⟩, intake.runLast.trans core.runLast, intake.assembly.trans core.assembly,
      intake.counters.trans core.counters⟩, rfl, by rw [engine, acc], tracks.filters,
    tracks.lastLayout.trans layout, last⟩

/-- Behind a step of carriage, the tile's place counts from the lane as it was. -/
theorem Placed.behind {l : LaneNo} {i : Nat} {f g : Filters} {x y : Liu} {s t u : State} (a : Carried l f y s t)
    (b : Placed l i g x t u) : Placed l i g x s u :=
  ⟨a.around.trans b.around, b.core, b.opened, b.acc, b.filters, by rw [b.lastLayout, a.engine], b.lastOpened⟩

/-! ### The next tile behind the open one (R12) -/

theorem voidNewest_of_engine {l : LaneNo} {tile : Nat} {s t : State} (h : s.voidNewest l tile)
    (newest : t.le[l].newest = s.le[l].newest) (momentary : t.le[l].momentary = s.le[l].momentary)
    (shortTerm : t.le[l].shortTerm = s.le[l].shortTerm) (station : t.station = s.station) (cc : t.cc = s.cc) :
    t.voidNewest l tile := by
  obtain ⟨r, hr, tile_, time, good, power, loudness, silent, peak, alive, m, st⟩ := h
  exact ⟨r, newest.trans hr, tile_, time.trans station.symm, good, power, loudness, silent, peak, by rw [alive, cc],
    m.trans momentary.symm, st.trans shortTerm.symm⟩

theorem closedAlong_of_same {xs : List TileEntry} {e f g : LeLane} (h : e.closedAlong xs f)
    (history : g.history = f.history) (momentary : g.momentary = f.momentary) (shortTerm : g.shortTerm = f.shortTerm) :
    e.closedAlong xs g := by
  unfold LeLane.closedAlong at h ⊢
  rwa [history, momentary, shortTerm]

/-- The newest entry of a history that ends in void tiles. -/
theorem last_of_skipped {start n : Nat} {h : List TileEntry} (suffix : skippedEntries start (n + 1) <:+ h) :
    h.getLast? = some (voidEntry (start + 1 + n)) := by
  obtain ⟨p, rfl⟩ := suffix
  rw [skippedEntries_succ, ← List.append_assoc, List.getLast?_concat]

/-- Void tiles and a tile that opens behind them: the void tiles stand in its engine's history, and the last of them has
left its record. -/
theorem openBehind_spec (l : LaneNo) (start n : Nat) (small : n ≤ 29) (s t : State)
    (h : t.le = (voidRun l start n s).le)
    (frame : t.station = (voidRun l start n s).station ∧
      t.cc = (voidRun l start n s).cc) :
    let u := t.openTileAt l (start + 1 + n)
    (∀ x ∈ skippedEntries start n, x ∈ u.le[l].history) ∧
    (0 < n → u.voidNewest l (start + n)) ∧ (n = 0 → u.le[l].newest = s.le[l].newest) ∧
    (s.le[l].history.getLast?.map TileEntry.tile = some start → s.le[l].history.length ≤ 30 →
      s.le[l].closedAlong (skippedEntries start n) u.le[l]) := by
  obtain ⟨-, suffix, none_, some_⟩ := voidTiles_spec l start s n small
  obtain ⟨tracks, -, engine, -⟩ := openTileAt_spec l (start + 1 + n) t
  rw [h] at engine
  have along := voidTiles_closedAlong l n start s
  generalize voidRun l start n s = v at suffix none_ some_ engine along h frame
  have next (m : Nat) (e : n = m + 1) : follows v.le[l] (start + 1 + n) := by
    subst e
    intro x hx
    rw [last_of_skipped suffix] at hx
    obtain rfl := Option.some.inj hx
    simp only [voidEntry]
    omega
  dsimp only
  rw [engine]
  refine ⟨fun x hx => ?_, fun pos => ?_, fun zero => ?_, fun last len => ?_⟩
  · cases n with
    | zero => exact absurd hx (by simp [skippedEntries])
    | succ m =>
      rw [openTile_follows _ _ (next m rfl)]
      exact suffix.subset hx
  · obtain ⟨m, rfl⟩ : ∃ m, n = m + 1 := ⟨n - 1, by omega⟩
    rw [openTile_follows _ _ (next m rfl)] at engine
    refine voidNewest_of_engine (some_ pos).2 ?_ ?_ ?_ (tracks.station.trans frame.1) (tracks.cc.trans frame.2) <;> rw [engine]
  · rw [(openTile_kept _ _).2.2.2.1, none_ zero]
  · have followed : follows v.le[l] (start + 1 + n) := by
      cases n with
      | zero =>
        rw [none_ rfl]
        intro x hx
        rw [hx] at last
        rw [Option.some.inj last]
      | succ m => exact next m rfl
    rw [openTile_follows _ _ followed]
    exact along last len

/-- The tile behind the open one opens: the open tile closes, the skipped ones are void, and the lane's intake names the
new tile. -/
theorem trackTile_after (l : LaneNo) (o n : Nat) (small : n ≤ 29) (a : TileAcc) (s : State)
    (acc : s.le[l].acc = some a) :
    let t := s.trackTile l (o + 1 + n) (.after o)
    Placed l (o + 1 + n) s.le[l].filters { s.liu[l] with openTile := some (o + 1 + n) } s t ∧
    (∀ x ∈ skippedEntries o n, x ∈ t.le[l].history) ∧
    (a.tile = o → s.le[l].closedAlong (⟨o, closingPower a⟩ :: skippedEntries o n) t.le[l]) ∧
    (n = 0 → ∃ r, t.le[l].newest = some r ∧ s.buildsRecord l a r) ∧ (0 < n → t.voidNewest l (o + n)) ∧
    Quiet s t := by
  obtain ⟨engine, closed, first, -⟩ := closeTile_open l a s acc
  obtain ⟨skip, -, none_, some_⟩ := voidTiles_spec l o (s.closeTile l) n small
  have run : s.trackTile l (o + 1 + n) (.after o)
      = (voidRun l o n (s.closeTile l)).openTileAt l (o + 1 + n) := by
    rw [← voidTiles_eq]
    rfl
  obtain ⟨voids, record, newest, along⟩ := openBehind_spec l o n small (s.closeTile l) _ rfl ⟨rfl, rfl⟩
  rw [closing_engine] at engine
  dsimp only at record newest along voids ⊢
  rw [run]
  have behind := first.trans skip
  have tile : (voidRun l o n (s.closeTile l)).liu[l].openTile = none := by
    cases n with
    | zero => exact closed
    | succ m => exact (some_ (Nat.succ_pos m)).1
  have placed := placed_openTileAt l (o + 1 + n) { s.liu[l] with openTile := none } s _ behind.around
    (behind.intake none tile) behind.lastLayout
  rw [behind.filters] at placed
  refine ⟨placed, voids, fun at_ => ?_, fun zero => ⟨_, ?_, closing_builds l a s⟩, record,
    behind.quiet.trans (openTileAt_spec l _ _).1.quiet⟩
  · have built := closing_builds l a s
    have last : (s.closeTile l).le[l].history.getLast?.map TileEntry.tile = some o := by
      obtain ⟨p, hp⟩ : [(⟨a.tile, closingPower a⟩ : TileEntry)] <:+ (s.closeTile l).le[l].history := by
        rw [engine]
        exact suffix_newest30 (by simp) (List.suffix_append _ _)
      rw [← hp, List.getLast?_concat, ← at_]
      rfl
    have rest := along last (by rw [engine]; exact newest30_length _)
    subst at_
    refine closedAlong_cons _ _ _ (s.closeTile l).le[l] _ ((closing l a s).1.momentary, (closing l a s).1.shortTerm) ?_
      built.measured.momentary built.measured.shortTerm ?_ rest <;> rw [engine]
  · rw [newest zero, engine]

/-! ### The first tile behind a loss (R14) -/

/-- The loss tile is gone. -/
def unlost (l : LaneNo) (s : State) : State := s.modLiu l (fun x => { x with lossTile := none })

theorem unlost_liu (l : LaneNo) (s : State) : (unlost l s).liu[l] = { s.liu[l] with lossTile := none } := modLiu_liu _ _ _

theorem unlost_around (l : LaneNo) (s : State) : Around l s (unlost l s) := around_modLiu _ _ _

theorem unlost_le (l : LaneNo) (s : State) : (unlost l s).le = s.le := rfl

theorem unlost_quiet (l : LaneNo) (s : State) : Quiet s (unlost l s) := quiet_of_same rfl rfl

/-- The state before the first tile behind a loss opens: the skipped tiles are void, and there is no loss tile. -/
theorem unlost_voidRun_spec (l : LaneNo) (o n : Nat) (small : n ≤ 29) (s : State) (none_ : s.liu[l].openTile = none) :
    let t := unlost l (voidRun l o n s)
    Around l s t ∧ SameCore { s.liu[l] with openTile := none, lossTile := none } t.liu[l] ∧
    t.le[l].filters = s.le[l].filters ∧ t.le[l].lastLayout = s.le[l].lastLayout ∧ Quiet s t := by
  obtain ⟨skip, -, -, some_⟩ := voidTiles_spec l o s n small
  have tile : (voidRun l o n s).liu[l].openTile = none := by
    cases n with
    | zero => exact none_
    | succ m => exact (some_ (Nat.succ_pos m)).1
  have intake := skip.intake none tile
  dsimp only
  rw [unlost_liu, unlost_le]
  exact ⟨skip.around.trans (unlost_around l _), ⟨⟨intake.carriage, intake.run, intake.gapTimer, intake.window,
    intake.lastCount, intake.openTile, rfl⟩, intake.runLast, intake.assembly, intake.counters⟩, skip.filters,
    skip.lastLayout, skip.quiet.trans (unlost_quiet l _)⟩

theorem trackTile_afterLoss (l : LaneNo) (o n : Nat) (small : n ≤ 29) (s : State) (none_ : s.liu[l].openTile = none) :
    let t := s.trackTile l (o + 1 + n) (.afterLoss o)
    Placed l (o + 1 + n) s.le[l].filters { s.liu[l] with openTile := some (o + 1 + n), lossTile := none } s t ∧
    (∀ x ∈ skippedEntries o n, x ∈ t.le[l].history) ∧
    (s.le[l].history.getLast?.map TileEntry.tile = some o → s.le[l].history.length ≤ 30 →
      s.le[l].closedAlong (skippedEntries o n) t.le[l]) ∧
    (n = 0 → t.le[l].newest = s.le[l].newest) ∧ (0 < n → t.voidNewest l (o + n)) ∧ Quiet s t := by
  have run : s.trackTile l (o + 1 + n) (.afterLoss o) = (unlost l (voidRun l o n s)).openTileAt l (o + 1 + n) := by
    rw [← voidTiles_eq]
    rfl
  obtain ⟨around, core, filters, layout, quiet⟩ := unlost_voidRun_spec l o n small s none_
  obtain ⟨voids, record, newest, along⟩ := openBehind_spec l o n small s (unlost l (voidRun l o n s)) rfl ⟨rfl, rfl⟩
  have placed := placed_openTileAt l (o + 1 + n) { s.liu[l] with openTile := none, lossTile := none } s _ around core layout
  rw [filters] at placed
  dsimp only
  rw [run]
  exact ⟨placed, voids, along, newest, record, quiet.trans (openTileAt_spec l _ _).1.quiet⟩

/-! ### A discontinuity (R15) -/

/-- The engine of a lane at a discontinuity: the history and the windows are empty and the filters at rest. -/
def atBreak (e : LeLane) : LeLane := { e.clearWindows with filters := .zero }

/-- The state of a discontinuity before its run begins. -/
def breaking (l : LaneNo) (s : State) : State :=
  ((s.closeOpenTile l).modLiu l (fun x => { x with lossTile := none, window := none })).modLe l atBreak

theorem breaking_spec (l : LaneNo) (s : State) :
    Around l s (breaking l s) ∧
    SameCore { s.liu[l] with openTile := none, lossTile := none, window := none } (breaking l s).liu[l] ∧
    (breaking l s).le[l] = atBreak (s.closeOpenTile l).le[l] ∧ (breaking l s).le[l].lastLayout = s.le[l].lastLayout := by
  obtain ⟨tracks, closed⟩ := closeOpenTile_tracks l s
  have own : (breaking l s).liu[l] = { (s.closeOpenTile l).liu[l] with lossTile := none, window := none } :=
    modLiu_liu l (fun x => { x with lossTile := none, window := none }) (s.closeOpenTile l)
  have engine : (breaking l s).le[l] = atBreak (s.closeOpenTile l).le[l] := modLe_le _ _ _
  have intake := tracks.intake none closed
  refine ⟨tracks.around.trans ((around_modLiu l _ _).trans (around_modLe l _ _)), ?_, engine, ?_⟩
  · rw [own]
    exact ⟨⟨intake.carriage, intake.run, intake.gapTimer, rfl, intake.lastCount, closed, rfl⟩, intake.runLast,
      intake.assembly, intake.counters⟩
  · rw [engine]
    exact tracks.lastLayout

/-- The state of a discontinuity before its tile opens. -/
def restarted (l : LaneNo) (count : Nat) (s : State) : State := ((breaking l s).startRun l count).startGap l

theorem restarted_spec (l : LaneNo) (count : Nat) (s : State) :
    let t := restarted l count s
    Around l s t ∧
    SameCore { s.liu[l] with
      openTile := none
      lossTile := none
      window := none
      run := 1
      runLast := count
      carriage := .acquiring
      gapTimer := some (gapExpiry l s) } t.liu[l] ∧
    t.le[l] = atBreak (s.closeOpenTile l).le[l] ∧ t.le[l].lastLayout = s.le[l].lastLayout ∧
    (s.liu[l].carriage ≠ .acquiring → t.notices.carriage[l] = true) := by
  obtain ⟨around, core, engine, layout⟩ := breaking_spec l s
  obtain ⟨carried, notice⟩ := startRun_spec l count (breaking l s)
  have still : filtersAt .acquiring (breaking l s).liu[l].carriage (breaking l s).le[l].filters = .zero := by
    rw [engine]
    unfold filtersAt
    split <;> rfl
  rw [still] at carried
  have started := carried.startGap
  have gap : gapExpiry l (breaking l s) = gapExpiry l s := by
    unfold gapExpiry State.laneSettings
    rw [around.clock, around.settings]
  have own := started.core
  have after := started.engine
  refine ⟨around.trans started.around, ⟨⟨own.carriage, own.run, own.gapTimer.trans (congrArg some gap),
    own.window.trans core.window, own.lastCount.trans core.lastCount, own.openTile.trans core.openTile,
    own.lossTile.trans core.lossTile⟩, own.runLast, own.assembly.trans core.assembly, own.counters.trans core.counters⟩,
    ?_, ?_, fun c => notice (by rw [core.carriage]; exact c)⟩
  · refine after.trans ?_
    rw [engine]
    rfl
  · exact (congrArg LeLane.lastLayout after).trans layout

/-- The state of a discontinuity with its tile open, before it is counted. -/
def reopened (l : LaneNo) (i count : Nat) (s : State) : State := (restarted l count s).openTileAt l i

theorem discontinuity_eq (l : LaneNo) (i count : Nat) (s : State) : s.discontinuity l i count =
    (reopened l i count s).modLiu l (fun x => { x with
      counters := { x.counters with discontinuities := x.counters.discontinuities + 1 } }) := rfl

/-- A discontinuity closes the tile that is open, empties the history, and begins a run with the cell's tile open. -/
theorem reopened_spec (l : LaneNo) (i count : Nat) (s : State) :
    let t := reopened l i count s
    Placed l i .zero { s.liu[l] with
      openTile := some i
      lossTile := none
      window := none
      run := 1
      runLast := count
      carriage := .acquiring
      gapTimer := some (gapExpiry l s) } s t ∧
    t.le[l] = { atBreak (s.closeOpenTile l).le[l] with acc := some ⟨i, 0, 0, 0⟩ } ∧
    (s.liu[l].carriage ≠ .acquiring → t.notices.carriage[l] = true) := by
  obtain ⟨around, core, engine, layout, notice⟩ := restarted_spec l count s
  have placed := placed_openTileAt l i _ s _ around core layout
  obtain ⟨tracks, -, opens, -⟩ := openTileAt_spec l i (restarted l count s)
  rw [engine, openTile_follows _ _ (by intro x hx; cases hx)] at opens
  rw [engine] at placed
  exact ⟨placed, opens, fun c => tracks.quiet.notices.carriage l (notice c)⟩

theorem SameCore.counted {x y : Liu} (h : SameCore x y) :
    SameCore { x with counters := { x.counters with discontinuities := x.counters.discontinuities + 1 } }
      { y with counters := { y.counters with discontinuities := y.counters.discontinuities + 1 } } := by
  refine ⟨⟨h.carriage, h.run, h.gapTimer, h.window, h.lastCount, h.openTile, h.lossTile⟩, h.runLast, h.assembly, ?_⟩
  have counters := h.counters
  simp only [IntakeCounters.mk.injEq] at counters ⊢
  simp only [counters, and_self]

/-- The engine that a discontinuity leaves: nothing in the history, and the record of the tile that closed. -/
theorem discontinuity_spec (l : LaneNo) (i count : Nat) (s : State) :
    let t := s.discontinuity l i count
    Placed l i .zero { s.liu[l] with
      openTile := some i
      lossTile := none
      window := none
      run := 1
      runLast := count
      carriage := .acquiring
      gapTimer := some (gapExpiry l s)
      counters := { s.liu[l].counters with discontinuities := s.liu[l].counters.discontinuities + 1 } } s t ∧
    t.le[l].history = [] ∧ t.le[l].momentary = ⟨-999, true⟩ ∧ t.le[l].shortTerm = ⟨-999, true⟩ ∧
    (s.liu[l].carriage ≠ .acquiring → t.notices.carriage[l] = true) ∧
    ∀ a : TileAcc, s.liu[l].openTile.isSome = true → s.le[l].acc = some a →
      ∃ r, t.le[l].newest = some r ∧ s.buildsRecord l a r := by
  obtain ⟨placed, engine, notice⟩ := reopened_spec l i count s
  dsimp only
  rw [discontinuity_eq]
  generalize reopened l i count s = t at placed engine notice ⊢
  have last := around_modLiu l (fun x => { x with
    counters := { x.counters with discontinuities := x.counters.discontinuities + 1 } }) t
  have own := modLiu_liu l (fun x => { x with
    counters := { x.counters with discontinuities := x.counters.discontinuities + 1 } }) t
  refine ⟨⟨placed.around.trans last, by rw [own]; exact placed.core.counted, rfl, placed.acc, placed.filters,
    placed.lastLayout, placed.lastOpened⟩, congrArg LeLane.history engine, congrArg LeLane.momentary engine,
    congrArg LeLane.shortTerm engine, notice, fun a open_ acc => ?_⟩
  rw [closeOpenTile_some l s open_, (closeTile_open l a s acc).1, closing_engine] at engine
  exact ⟨_, congrArg LeLane.newest engine, closing_builds l a s⟩

end Sys2Proof.Lanes
end

section
/-! PROOFS. A good audio cell from its arrival to the boundary behind it (R4 to R14, R27, R83): first part of the statement. -/

namespace Sys2Proof.Lanes

open Sys2Proof.Machine Sys2Proof.Laws

/-! ### The exchange of a good cell -/

/-- A cell that passes the intake checks is routed, and the boundary of the event follows. -/
theorem exec_goodCell (l : LaneNo) (bytes : List Byte) (s : State) (w : s.warm = none)
    (good : intakeCheck (s.laneEnabled l) l s.liu[l] (gather bytes) = none) :
    exec (.inboundCell l bytes) s = .next (State.allocate (((s.begin.modLiu l (fun x =>
      { x with assembly := gather bytes })).routeCell l (gather bytes).bytes).modLiu l (fun x =>
        { x with assembly := ⟨[], false⟩ }))) := by
  have run : exec (.inboundCell l bytes) s = .next (s.begin.inboundCell l bytes) := by
    simp [exec, execInboundCell, w]
  have own : (s.begin.modLiu l (fun x => { x with assembly := gather bytes })).liu[l]
      = { s.liu[l] with assembly := gather bytes } := modLiu_liu l (fun x => { x with assembly := gather bytes }) s.begin
  have check : intakeCheck ((s.begin.modLiu l (fun x => { x with assembly := gather bytes })).laneEnabled l) l
      (s.begin.modLiu l (fun x => { x with assembly := gather bytes })).liu[l] (gather bytes) = none := by
    rw [own]
    exact good
  rw [run]
  simp only [State.inboundCell, check]

/-- The state in which a good audio cell is tracked: it is counted, and its count is the last accepted. -/
def arriving (l : LaneNo) (bytes : List Byte) (s : State) : State :=
  s.begin.modLiu l (fun x => { x with
    assembly := gather bytes
    counters := { x.counters with audio := x.counters.audio + 1 }
    lastCount := some (cellCount (gather bytes).bytes) })

theorem arriving_liu (l : LaneNo) (bytes : List Byte) (s : State) : (arriving l bytes s).liu[l] = { s.liu[l] with
    assembly := gather bytes
    counters := { s.liu[l].counters with audio := s.liu[l].counters.audio + 1 }
    lastCount := some (cellCount (gather bytes).bytes) } := modLiu_liu _ _ _

/-- Carriage and tile tracking of a cell by its place. -/
def tracked (l : LaneNo) (count : Nat) (p : Place) (s : State) : State :=
  if p = .discontinuity then s.discontinuity l (count / 10) count
  else (s.trackCarriage l count).trackTile l (count / 10) p

/-- The cell's samples are taken into the open tile, and the archive's side is attended to. -/
def takenIn (l : LaneNo) (y : Layout) (payload : List Byte) (s : State) : State :=
  ((s.modLe l (LeLane.takeCell y payload)).modLiu l (fun x => { x with assembly := ⟨[], false⟩ })).allocate

theorem exec_audioCell (l : LaneNo) (bytes : List Byte) (s : State) (y : Layout) (w : s.warm = none)
    (good : intakeCheck (s.laneEnabled l) l s.liu[l] (gather bytes) = none)
    (audio : (gather bytes).bytes.getD 1 0#8 = kindAudio) (layout : cellLayout (gather bytes).bytes = some y) :
    exec (.inboundCell l bytes) s = .next (takenIn l y (cellPayload (gather bytes).bytes)
      (tracked l (cellCount (gather bytes).bytes)
        (placeOf (cellCount (gather bytes).bytes / 10) s.liu[l].openTile s.liu[l].lossTile) (arriving l bytes s))) := by
  rw [exec_goodCell l bytes s w good]
  have counted (c : IntakeCounters) : c.good kindAudio = { c with audio := c.audio + 1 } := by
    unfold IntakeCounters.good
    rw [if_pos rfl]
  unfold State.routeCell State.takeAudio
  simp only [audio, if_true, layout, counted, modLiu_modLiu, modLiu_liu]
  rfl

/-! ### What a cell's samples and the boundary leave -/

/-- The cell's samples change the lane's engine, and the boundary leaves what it leaves. -/
theorem takenIn_spec (l : LaneNo) (y : Layout) (payload : List Byte) (s : State) :
    let t := takenIn l y payload s
    Around l s t ∧ t.le[l] = s.le[l].takeCell y payload ∧ t.le = s.le.set l (s.le[l].takeCell y payload) ∧ t.st = s.st ∧
    t.verdicts = s.verdicts ∧ SameCore { s.liu[l] with assembly := ⟨[], false⟩ } t.liu[l] ∧
    (∀ k : LaneNo, t.cm[k].lost = s.cm[k].lost ∧ t.cm[k].drift = s.cm[k].drift ∧ t.cm[k].watched = s.cm[k].watched) := by
  let u := (s.modLe l (LeLane.takeCell y payload)).modLiu l (fun x => { x with assembly := ⟨[], false⟩ })
  have done := aside_allocate u
  have before : Around l s u := (around_modLe l _ s).trans (around_modLiu l _ _)
  have core := core_of_kept done.kept l
  rw [show u.liu[l] = { s.liu[l] with assembly := ⟨[], false⟩ } from
    modLiu_liu l (fun x => { x with assembly := ⟨[], false⟩ }) (s.modLe l (LeLane.takeCell y payload))] at core
  refine ⟨before.trans (done.around l), ?_, done.kept.le, done.kept.st, done.kept.verdicts, core,
    fun k => ⟨done.beside.lost k, done.beside.drift k, done.beside.watched k⟩⟩
  unfold takenIn
  rw [done.kept.le]
  exact modLe_le l _ s

/-- Where nothing is owed to the archive the samples and the assembly buffer are all that changes. -/
theorem takenIn_settled (l : LaneNo) (y : Layout) (payload : List Byte) (s : State) (settled : s.settled) :
    takenIn l y payload s = { s with
      le := s.le.set l (s.le[l].takeCell y payload)
      liu := s.liu.set l { s.liu[l] with assembly := ⟨[], false⟩ } } :=
  allocate_of_settled _ (settled_of_ac settled rfl rfl)

/-! ### A tile that the cell opens -/

/-- What a cell leaves that opens its tile: the tile is open with the cell's samples, and the rest is left alone. -/
structure Opened (l : LaneNo) (y : Layout) (payload : List Byte) (count expiry : Nat) (f : Filters) (s t : State) : Prop where
  tile : t.liu[l].openTile = some (count / 10)
  lastCount : t.liu[l].lastCount = some count
  gap : t.liu[l].gapTimer = some expiry
  lastOpened : t.st[l].lastOpened = some (count / 10)
  engine : ∃ e : LeLane, t.le[l] = e.takeCell y payload ∧ e.acc = some ⟨count / 10, 0, 0, 0⟩ ∧ e.filters = f ∧
    e.lastLayout = s.le[l].lastLayout
  lanes : ∀ k : LaneNo, k ≠ l → t.le[k] = s.le[k] ∧ t.st[k] = s.st[k] ∧ s.liu[k].sameCarriage t.liu[k]
  settings : t.settings = s.settings
  station : t.station = s.station
  cc : t.cc = s.cc
  warm : t.warm = s.warm

theorem arriving_around (l : LaneNo) (bytes : List Byte) (s : State) : Around l s (arriving l bytes s) :=
  (show Around l s s.begin from ⟨rfl, rfl, rfl, rfl, rfl, rfl, fun _ _ => rfl, fun _ _ => rfl,
    fun _ _ => sameCore_of_core rfl, .refl _⟩).trans (around_modLiu l _ s.begin)

theorem arriving_settled (l : LaneNo) (bytes : List Byte) (s : State) (h : s.settled) : (arriving l bytes s).settled :=
  settled_of_ac h rfl rfl

/-- A tile that is open behind the tracking of the cell that arrives is open behind the cell. -/
theorem opened_of_placed {l : LaneNo} {bytes : List Byte} {y : Layout} {payload : List Byte} {count expiry : Nat}
    {f : Filters} {x : Liu} {s v : State} (placed : Placed l (count / 10) f x (arriving l bytes s) v)
    (lastCount : x.lastCount = some count) (gap : x.gapTimer = some expiry) :
    Opened l y payload count expiry f s (takenIn l y payload v) := by
  obtain ⟨around, engine, -, st, -, core, -⟩ := takenIn_spec l y payload v
  have all := (arriving_around l bytes s).trans (placed.around.trans around)
  have own := placed.core
  exact ⟨core.openTile.trans (own.openTile.trans placed.opened), core.lastCount.trans (own.lastCount.trans lastCount),
    core.gapTimer.trans (own.gapTimer.trans gap), by rw [st]; exact placed.lastOpened,
    ⟨v.le[l], engine, placed.acc, placed.filters, placed.lastLayout⟩,
    fun k e => ⟨all.le k e, all.st k e, (all.core k e).shared⟩, all.settings, all.station, all.cc, all.warm⟩

/-- The history and windows behind a cell are those before its samples. -/
theorem takenIn_windows (l : LaneNo) (y : Layout) (payload : List Byte) (s : State) :
    (takenIn l y payload s).le[l].history = s.le[l].history ∧
    (takenIn l y payload s).le[l].momentary = s.le[l].momentary ∧
    (takenIn l y payload s).le[l].shortTerm = s.le[l].shortTerm ∧
    (takenIn l y payload s).le[l].newest = s.le[l].newest := by
  obtain ⟨-, engine, -⟩ := takenIn_spec l y payload s
  rw [engine]
  simp only [LeLane.takeCell, and_self]

theorem takenIn_voidNewest (l : LaneNo) (y : Layout) (payload : List Byte) (tile : Nat) (s : State)
    (h : s.voidNewest l tile) : (takenIn l y payload s).voidNewest l tile := by
  obtain ⟨around, -⟩ := takenIn_spec l y payload s
  obtain ⟨-, momentary, shortTerm, newest⟩ := takenIn_windows l y payload s
  exact voidNewest_of_engine h newest momentary shortTerm around.station around.cc

theorem takenIn_closedAlong (l : LaneNo) (y : Layout) (payload : List Byte) (xs : List TileEntry) (e : LeLane) (s : State)
    (h : e.closedAlong xs s.le[l]) : e.closedAlong xs (takenIn l y payload s).le[l] := by
  obtain ⟨history, momentary, shortTerm, -⟩ := takenIn_windows l y payload s
  exact closedAlong_of_same h history momentary shortTerm

end Sys2Proof.Lanes
end

section
/-! PROOFS. A good audio cell by the place of its tile and the carriage of its lane: the first part of the statement of the good
audio cell, place by place. -/

namespace Sys2Proof.Lanes

open Sys2Proof.Machine Sys2Proof.Laws

/-! ### The place of a tile (R12, R14, R15) -/

theorem placeOf_join (i : Nat) (loss : Option Nat) : placeOf i (some i) loss = .join := by
  simp [placeOf]

theorem placeOf_after (i o : Nat) (loss : Option Nat) (h : o < i) (k : i ≤ o + 30) :
    placeOf i (some o) loss = .after o := by
  simp only [placeOf]
  rw [if_neg (by omega), if_pos ⟨h, k⟩]

theorem placeOf_afterLoss (i o : Nat) (h : o < i ∧ i ≤ o + 30) : placeOf i none (some o) = .afterLoss o := by
  simp only [placeOf, if_pos h]

theorem placeOf_first (i : Nat) : placeOf i none none = .first := rfl

theorem placeOf_break (i o : Nat) (loss : Option Nat) (h : ¬ (o ≤ i ∧ i ≤ o + 30)) :
    placeOf i (some o) loss = .discontinuity := by
  simp only [placeOf]
  rw [if_neg (by omega), if_neg (by omega)]

theorem placeOf_breakLoss (i o : Nat) (h : ¬ (o < i ∧ i ≤ o + 30)) : placeOf i none (some o) = .discontinuity := by
  simp only [placeOf, if_neg h]

theorem tracked_tile (l : LaneNo) (count : Nat) (p : Place) (s : State) (h : p ≠ .discontinuity) :
    tracked l count p s = (s.trackCarriage l count).trackTile l (count / 10) p := if_neg h

theorem tracked_break (l : LaneNo) (count : Nat) (s : State) :
    tracked l count .discontinuity s = s.discontinuity l (count / 10) count := if_pos rfl

/-! ### The cell joins the open tile -/

/-- A cell that changes its lane's intake alone, beside its samples. -/
theorem takenIn_modLiu (l : LaneNo) (bytes : List Byte) (y : Layout) (payload : List Byte) (f : Liu → Liu) (s : State)
    (settled : s.settled) :
    takenIn l y payload ((arriving l bytes s).modLiu l f) = { s with
      emitted := []
      liu := s.liu.set l { f (arriving l bytes s).liu[l] with assembly := ⟨[], false⟩ }
      le := s.le.set l (s.le[l].takeCell y payload) } := by
  rw [takenIn_settled l y payload ((arriving l bytes s).modLiu l f)
    (settled_of_ac (arriving_settled l bytes s settled) rfl rfl), modLiu_liu]
  simp [arriving, State.modLiu, State.setLiu, State.begin]

theorem join_counting (l : LaneNo) (bytes : List Byte) (y : Layout) (payload : List Byte) (w : RateWindow) (s : State)
    (settled : s.settled) (carriage : s.liu[l].carriage = .present ∨ s.liu[l].carriage = .drift)
    (window : s.liu[l].window = some w) :
    takenIn l y payload (tracked l (cellCount (gather bytes).bytes) .join (arriving l bytes s)) = { s with
      emitted := []
      liu := s.liu.set l { s.liu[l] with
        assembly := ⟨[], false⟩
        counters := { s.liu[l].counters with audio := s.liu[l].counters.audio + 1 }
        lastCount := some (cellCount (gather bytes).bytes)
        window := some { w with count := w.count + 1 }
        gapTimer := some (gapExpiry l s) }
      le := s.le.set l (s.le[l].takeCell y payload) } := by
  have own := arriving_liu l bytes s
  rw [tracked_tile _ _ _ _ (by decide), trackCarriage_counts _ _ _ (by rw [own]; exact carriage)]
  rw [show ∀ t : State, t.trackTile l (cellCount (gather bytes).bytes / 10) .join = t from fun _ => rfl,
    takenIn_modLiu l bytes y payload _ s settled, own]
  simp only [window, Option.map_some]
  rfl

theorem join_advancing (l : LaneNo) (bytes : List Byte) (y : Layout) (payload : List Byte) (s : State)
    (settled : s.settled) (carriage : s.liu[l].carriage = .acquiring)
    (short : runWith (cellCount (gather bytes).bytes) s.liu[l] < 10) :
    takenIn l y payload (tracked l (cellCount (gather bytes).bytes) .join (arriving l bytes s)) = { s with
      emitted := []
      liu := s.liu.set l { s.liu[l] with
        assembly := ⟨[], false⟩
        counters := { s.liu[l].counters with audio := s.liu[l].counters.audio + 1 }
        lastCount := some (cellCount (gather bytes).bytes)
        run := runWith (cellCount (gather bytes).bytes) s.liu[l]
        runLast := cellCount (gather bytes).bytes
        gapTimer := some (gapExpiry l s) }
      le := s.le.set l (s.le[l].takeCell y payload) } := by
  have own := arriving_liu l bytes s
  have run : runWith (cellCount (gather bytes).bytes) (arriving l bytes s).liu[l]
      = runWith (cellCount (gather bytes).bytes) s.liu[l] := by
    rw [own]
    rfl
  rw [tracked_tile _ _ _ _ (by decide), trackCarriage_advances _ _ _ (by rw [own]; exact carriage) (by rw [run]; exact short)]
  rw [show ∀ t : State, t.trackTile l (cellCount (gather bytes).bytes / 10) .join = t from fun _ => rfl,
    takenIn_modLiu l bytes y payload _ s settled, run, own]
  rfl

/-! ### The tenth cell of a run (R7) -/

/-- The lane has come to PRESENT: a window of 0, no run, the notice set and no carriage finding open. -/
structure Arrived (l : LaneNo) (s t : State) : Prop where
  carriage : t.liu[l].carriage = .present
  run : t.liu[l].run = 0
  window : t.liu[l].window = some ⟨s.clock, 0⟩
  notice : t.notices.carriage[l] = true
  lost : t.cm[l].lost.finding = none
  drift : t.cm[l].drift.finding = none

theorem join_entering (l : LaneNo) (bytes : List Byte) (y : Layout) (payload : List Byte) (s : State)
    (carriage : s.liu[l].carriage = .acquiring) (full : 10 ≤ runWith (cellCount (gather bytes).bytes) s.liu[l]) :
    let t := takenIn l y payload (tracked l (cellCount (gather bytes).bytes) .join (arriving l bytes s))
    Arrived l s t ∧ t.liu[l].gapTimer = some (gapExpiry l s) ∧ t.liu[l].openTile = s.liu[l].openTile ∧
    t.liu[l].lastCount = some (cellCount (gather bytes).bytes) ∧ t.le = s.le.set l (s.le[l].takeCell y payload) ∧
    Around l s t := by
  have own := arriving_liu l bytes s
  obtain ⟨carried, le, notice, lost, drift⟩ := trackCarriage_enters_spec l (cellCount (gather bytes).bytes)
    (arriving l bytes s) (by rw [own]; exact carriage) (by rw [own]; exact full)
  rw [tracked_tile _ _ _ _ (by decide)]
  rw [show ∀ t : State, t.trackTile l (cellCount (gather bytes).bytes / 10) .join = t from fun _ => rfl]
  generalize (arriving l bytes s).trackCarriage l (cellCount (gather bytes).bytes) = w at carried le notice lost drift ⊢
  obtain ⟨around, -, engines, -, -, core, cm⟩ := takenIn_spec l y payload w
  have intake := carried.core
  rw [own] at intake
  dsimp only
  refine ⟨⟨core.carriage.trans intake.carriage, core.run.trans intake.run, core.window.trans intake.window,
    around.louder.carriage l notice, by rw [(cm l).1]; exact lost, by rw [(cm l).2.1]; exact drift⟩,
    core.gapTimer.trans intake.gapTimer, core.openTile.trans intake.openTile, core.lastCount.trans intake.lastCount, ?_,
    (arriving_around l bytes s).trans (carried.around.trans around)⟩
  rw [engines, le]
  rfl

/-! ### The cell opens a tile behind the open one (R12) -/

/-- What a cell leaves whose tile is behind the open tile `o` with the accumulator `a`. -/
structure Behind (l : LaneNo) (y : Layout) (payload : List Byte) (count expiry o : Nat) (a : TileAcc) (s t : State) :
    Prop where
  opened : Opened l y payload count expiry s.le[l].filters s t
  voids : ∀ x ∈ skippedEntries o (count / 10 - (o + 1)), x ∈ t.le[l].history
  along : s.bounded → s.le[l].closedAlong (⟨o, closingPower a⟩ :: skippedEntries o (count / 10 - (o + 1))) t.le[l]
  next : count / 10 = o + 1 → ∃ r, t.le[l].newest = some r ∧ s.buildsRecord l a r
  voided : o + 1 < count / 10 → t.voidNewest l (count / 10 - 1)

/-- A lane of a bounded state accumulates its open tile. -/
theorem tile_of_bounded {l : LaneNo} {s : State} {o : Nat} {a : TileAcc} (w : s.warm = none)
    (open_ : s.liu[l].openTile = some o) (acc : s.le[l].acc = some a) (h : s.bounded) : a.tile = o := by
  have tiles := (h.tiles w l).1
  rw [acc, open_] at tiles
  exact Option.some.inj tiles

theorem buildsRecord_of_carried {l : LaneNo} {a : TileAcc} {r : TileRecord} {x : Liu} {s u : State}
    (h : Carried l s.le[l].filters x s u) (b : u.buildsRecord l a r) : s.buildsRecord l a r := by
  obtain ⟨measured, time, alive, seg⟩ := b
  unfold State.laneSettings at measured
  rw [h.around.settings, h.engine] at measured
  exact ⟨measured, time.trans h.around.station, by rw [alive, h.around.cc], by rw [seg, h.segment]⟩

/-- Tile tracking behind the open tile, after a step of carriage that left the filters. -/
theorem behind_of_carried {l : LaneNo} {bytes : List Byte} {y : Layout} {payload : List Byte} {count expiry o : Nat}
    {a : TileAcc} {x : Liu} {s w : State} (warm : s.warm = none) (carried : Carried l s.le[l].filters x (arriving l bytes s) w)
    (lastCount : x.lastCount = some count) (gap : x.gapTimer = some expiry) (open_ : s.liu[l].openTile = some o)
    (acc : s.le[l].acc = some a) (lower : o < count / 10) (upper : count / 10 ≤ o + 30) :
    let t := takenIn l y payload (w.trackTile l (count / 10) (.after o))
    Behind l y payload count expiry o a s t ∧ t.liu[l].carriage = x.carriage ∧ t.liu[l].run = x.run ∧
    t.liu[l].runLast = x.runLast ∧ t.liu[l].window = x.window ∧ Louder w.notices t.notices ∧
    t.cm[l].lost = w.cm[l].lost ∧ t.cm[l].drift = w.cm[l].drift ∧ t.liu[l].lossTile = x.lossTile := by
  obtain ⟨n, index⟩ : ∃ n, count / 10 = o + 1 + n := ⟨count / 10 - (o + 1), by omega⟩
  have engine : w.le[l] = s.le[l] := carried.engine
  obtain ⟨placed, voids, along, next, voided, quiet⟩ := trackTile_after l o n (by omega) a w (by rw [engine]; exact acc)
  rw [← index] at placed voids along next voided quiet
  have skip : count / 10 - (o + 1) = n := by omega
  dsimp only
  generalize w.trackTile l (count / 10) (.after o) = v at placed voids along next voided quiet ⊢
  obtain ⟨around, -, -, -, -, core, cm⟩ := takenIn_spec l y payload v
  obtain ⟨history, -, -, newest⟩ := takenIn_windows l y payload v
  have own := placed.core
  have was := carried.core
  have there : Placed l (count / 10) s.le[l].filters { w.liu[l] with openTile := some (count / 10) } (arriving l bytes s) v := by
    have moved := placed.behind carried
    rwa [engine] at moved
  refine ⟨⟨opened_of_placed there (was.lastCount.trans lastCount) (was.gapTimer.trans gap), ?_, fun b => ?_, fun e => ?_,
    fun e => ?_⟩, core.carriage.trans (own.carriage.trans was.carriage), core.run.trans (own.run.trans was.run),
    core.runLast.trans (own.runLast.trans was.runLast), core.window.trans (own.window.trans was.window),
    quiet.notices.trans around.louder, (cm l).1.trans (quiet.lost l), (cm l).2.1.trans (quiet.drift l),
    core.lossTile.trans (own.lossTile.trans was.lossTile)⟩
  · rw [skip, history]
    exact voids
  · rw [skip, ← engine]
    exact takenIn_closedAlong l y payload _ _ v (along (tile_of_bounded warm open_ acc b))
  · obtain ⟨r, hr, builds⟩ := next (by omega)
    exact ⟨r, newest.trans hr, buildsRecord_of_carried (s := s) (u := w) ⟨(arriving_around l bytes s).trans carried.around,
      carried.core, carried.engine, carried.segment⟩ builds⟩
  · rw [show count / 10 - 1 = o + n by omega]
    exact takenIn_voidNewest l y payload _ v (voided (by omega))

theorem after_counting (l : LaneNo) (bytes : List Byte) (y : Layout) (payload : List Byte) (o : Nat) (w : RateWindow)
    (a : TileAcc) (s : State) (warm : s.warm = none) (open_ : s.liu[l].openTile = some o)
    (carriage : s.liu[l].carriage = .present ∨ s.liu[l].carriage = .drift) (window : s.liu[l].window = some w)
    (acc : s.le[l].acc = some a) (lower : o < cellCount (gather bytes).bytes / 10)
    (upper : cellCount (gather bytes).bytes / 10 ≤ o + 30) :
    let t := takenIn l y payload (tracked l (cellCount (gather bytes).bytes) (.after o) (arriving l bytes s))
    Behind l y payload (cellCount (gather bytes).bytes) (gapExpiry l s) o a s t ∧
    t.liu[l].carriage = s.liu[l].carriage ∧ t.liu[l].window = some { w with count := w.count + 1 } ∧
    t.liu[l].lossTile = s.liu[l].lossTile := by
  have own := arriving_liu l bytes s
  rw [tracked_tile _ _ _ _ (by simp), trackCarriage_counts _ _ _ (by rw [own]; exact carriage)]
  have carried := carried_modLiu l (fun x : Liu => { x with
    window := x.window.map (fun w => { w with count := w.count + 1 })
    gapTimer := some (gapExpiry l (arriving l bytes s)) }) (arriving l bytes s)
  rw [own] at carried
  obtain ⟨behind, same, -, -, counted, -, -, -, loss⟩ := behind_of_carried (y := y) (payload := payload)
    (expiry := gapExpiry l s) warm carried rfl rfl open_ acc lower upper
  refine ⟨behind, same, counted.trans ?_, loss⟩
  simp only [window, Option.map_some]

theorem after_acquiring (l : LaneNo) (bytes : List Byte) (y : Layout) (payload : List Byte) (o : Nat) (a : TileAcc)
    (s : State) (warm : s.warm = none) (open_ : s.liu[l].openTile = some o) (carriage : s.liu[l].carriage = .acquiring)
    (acc : s.le[l].acc = some a) (lower : o < cellCount (gather bytes).bytes / 10)
    (upper : cellCount (gather bytes).bytes / 10 ≤ o + 30) :
    let t := takenIn l y payload (tracked l (cellCount (gather bytes).bytes) (.after o) (arriving l bytes s))
    let run := runWith (cellCount (gather bytes).bytes) s.liu[l]
    Behind l y payload (cellCount (gather bytes).bytes) (gapExpiry l s) o a s t ∧ (10 ≤ run → Arrived l s t) ∧
    (run < 10 → t.liu[l].carriage = .acquiring ∧ t.liu[l].run = run ∧
      t.liu[l].runLast = cellCount (gather bytes).bytes ∧ t.liu[l].window = s.liu[l].window) := by
  have own := arriving_liu l bytes s
  have entry : (arriving l bytes s).liu[l].carriage = .acquiring := by rw [own]; exact carriage
  have same : runWith (cellCount (gather bytes).bytes) (arriving l bytes s).liu[l]
      = runWith (cellCount (gather bytes).bytes) s.liu[l] := by
    rw [own]
    rfl
  rw [tracked_tile _ _ _ _ (by simp)]
  dsimp only
  by_cases short : runWith (cellCount (gather bytes).bytes) s.liu[l] < 10
  · rw [trackCarriage_advances _ _ _ entry (by rw [same]; exact short), same]
    have carried := carried_modLiu l (fun x : Liu => { x with
      run := runWith (cellCount (gather bytes).bytes) s.liu[l]
      runLast := cellCount (gather bytes).bytes
      gapTimer := some (gapExpiry l (arriving l bytes s)) }) (arriving l bytes s)
    rw [own] at carried
    obtain ⟨behind, still, run, last, window, -⟩ := behind_of_carried (y := y) (payload := payload)
      (expiry := gapExpiry l s) warm carried rfl rfl open_ acc lower upper
    exact ⟨behind, fun full => absurd full (by omega), fun _ => ⟨still.trans carriage, run, last, window⟩⟩
  · obtain ⟨carried, -, notice, lost, drift⟩ := trackCarriage_enters_spec l (cellCount (gather bytes).bytes)
      (arriving l bytes s) entry (by rw [same]; omega)
    rw [own] at carried
    obtain ⟨behind, present, run, -, window, louder, lost_, drift_, -⟩ := behind_of_carried (y := y) (payload := payload)
      (expiry := gapExpiry l s) warm carried rfl rfl open_ acc lower upper
    exact ⟨behind, fun _ => ⟨present, run, window, louder.carriage l notice, by rw [lost_]; exact lost,
      by rw [drift_]; exact drift⟩, fun short_ => absurd short_ short⟩

end Sys2Proof.Lanes
end

section
/-! PROOFS. A good audio cell on a lane without carriage, and one whose tile is a discontinuity. -/

namespace Sys2Proof.Lanes

open Sys2Proof.Machine Sys2Proof.Laws

/-! ### A lane that begins a run (R7, R14) -/

/-- What a cell leaves on a lane that was ABSENT or LOST: ACQUIRING with a run of 1. -/
structure Started (l : LaneNo) (s t : State) : Prop where
  carriage : t.liu[l].carriage = .acquiring
  run : t.liu[l].run = 1
  loss : t.liu[l].lossTile = none
  notice : t.notices.carriage[l] = true
  window : t.liu[l].window = s.liu[l].window

/-- What the tiles skipped behind the loss tile `o` leave. -/
structure BehindLoss (l : LaneNo) (count o : Nat) (s t : State) : Prop where
  voids : ∀ x ∈ skippedEntries o (count / 10 - (o + 1)), x ∈ t.le[l].history
  along : s.bounded → s.le[l].closedAlong (skippedEntries o (count / 10 - (o + 1))) t.le[l]
  voided : o + 1 < count / 10 → t.voidNewest l (count / 10 - 1)
  next : count / 10 = o + 1 → t.le[l].newest = s.le[l].newest

/-- The lane behind a run's beginning and the opening of the cell's tile. -/
theorem started_of_placed {l : LaneNo} {bytes : List Byte} {y : Layout} {payload : List Byte} {count : Nat} {x : Liu}
    {s w v : State}
    (notice : w.notices.carriage[l] = true) (quiet : Quiet w v)
    (placed : Placed l (count / 10) .zero x (arriving l bytes s) v)
    (carriage : x.carriage = .acquiring) (run : x.run = 1) (loss : x.lossTile = none) (window : x.window = s.liu[l].window)
    (last : x.lastCount = some count) (gap : x.gapTimer = some (gapExpiry l s)) :
    Opened l y payload count (gapExpiry l s) .zero s (takenIn l y payload v) ∧
    Started l s (takenIn l y payload v) := by
  obtain ⟨around, -, -, -, -, core, -⟩ := takenIn_spec l y payload v
  have own := placed.core
  exact ⟨opened_of_placed placed last gap, core.carriage.trans (own.carriage.trans carriage),
    core.run.trans (own.run.trans run), core.lossTile.trans (own.lossTile.trans loss),
    around.louder.carriage l (quiet.notices.carriage l notice), core.window.trans (own.window.trans window)⟩

theorem afterLoss_starting (l : LaneNo) (bytes : List Byte) (y : Layout) (payload : List Byte) (o : Nat) (s : State)
    (warm : s.warm = none) (none_ : s.liu[l].openTile = none) (loss : s.liu[l].lossTile = some o)
    (carriage : s.liu[l].carriage = .absent ∨ s.liu[l].carriage = .lost)
    (lower : o < cellCount (gather bytes).bytes / 10) (upper : cellCount (gather bytes).bytes / 10 ≤ o + 30) :
    let t := takenIn l y payload (tracked l (cellCount (gather bytes).bytes) (.afterLoss o) (arriving l bytes s))
    Opened l y payload (cellCount (gather bytes).bytes) (gapExpiry l s) .zero s t ∧ Started l s t ∧
    BehindLoss l (cellCount (gather bytes).bytes) o s t := by
  have own := arriving_liu l bytes s
  obtain ⟨carried, notice⟩ := trackCarriage_starts l (cellCount (gather bytes).bytes) (arriving l bytes s)
    (by rw [own]; exact carriage)
  rw [own] at carried
  rw [tracked_tile _ _ _ _ (by simp)]
  generalize (arriving l bytes s).trackCarriage l (cellCount (gather bytes).bytes) = w at carried notice ⊢
  generalize cellCount (gather bytes).bytes = count at *
  obtain ⟨n, index⟩ : ∃ n, count / 10 = o + 1 + n := ⟨count / 10 - (o + 1), by omega⟩
  have skip : count / 10 - (o + 1) = n := by omega
  obtain ⟨placed, voids, along, newest_, voided, quiet⟩ := trackTile_afterLoss l o n (by omega) w
    (carried.core.openTile.trans none_)
  rw [← index] at placed voids along newest_ voided quiet
  dsimp only
  generalize w.trackTile l (count / 10) (.afterLoss o) = v at placed voids along newest_ voided quiet ⊢
  obtain ⟨history, -, -, newest⟩ := takenIn_windows l y payload v
  have engine : w.le[l] = { s.le[l] with filters := .zero } := carried.engine
  have was := carried.core
  have there := placed.behind carried
  rw [engine] at there newest_ along
  obtain ⟨opened, started⟩ := started_of_placed (y := y) (payload := payload) notice quiet there was.carriage was.run rfl
    was.window was.lastCount was.gapTimer
  refine ⟨opened, started, ?_, fun b => ?_, fun e => ?_, fun e => ?_⟩
  · rw [skip, history]
    exact voids
  · rw [skip]
    exact takenIn_closedAlong l y payload _ _ v (along ((b.tiles warm l).2 o loss) (b.history l))
  · rw [show count / 10 - 1 = o + n by omega]
    exact takenIn_voidNewest l y payload _ v (voided (by omega))
  · exact newest.trans (newest_ (by omega))

/-- The first tile of a lane without a loss tile: what opens behind a break has an empty history (R32). -/
structure First (l : LaneNo) (count : Nat) (s t : State) : Prop where
  newest : t.le[l].newest = s.le[l].newest
  broken : ∀ x : TileEntry, s.le[l].history.getLast? = some x → x.tile + 1 ≠ count / 10 →
    t.le[l].history = [] ∧ t.le[l].momentary = ⟨-999, true⟩ ∧ t.le[l].shortTerm = ⟨-999, true⟩
  follows : (∀ x : TileEntry, s.le[l].history.getLast? = some x → x.tile + 1 = count / 10) →
    t.le[l].history = s.le[l].history ∧ t.le[l].momentary = s.le[l].momentary ∧ t.le[l].shortTerm = s.le[l].shortTerm

theorem first_starting (l : LaneNo) (bytes : List Byte) (y : Layout) (payload : List Byte) (s : State)
    (loss : s.liu[l].lossTile = none) (carriage : s.liu[l].carriage = .absent ∨ s.liu[l].carriage = .lost) :
    let t := takenIn l y payload (tracked l (cellCount (gather bytes).bytes) .first (arriving l bytes s))
    Opened l y payload (cellCount (gather bytes).bytes) (gapExpiry l s) .zero s t ∧ Started l s t ∧
    First l (cellCount (gather bytes).bytes) s t := by
  have own := arriving_liu l bytes s
  obtain ⟨carried, notice⟩ := trackCarriage_starts l (cellCount (gather bytes).bytes) (arriving l bytes s)
    (by rw [own]; exact carriage)
  rw [own] at carried
  rw [tracked_tile _ _ _ _ (by simp)]
  generalize (arriving l bytes s).trackCarriage l (cellCount (gather bytes).bytes) = w at carried notice ⊢
  generalize cellCount (gather bytes).bytes = count at *
  rw [show w.trackTile l (count / 10) .first = w.openTileAt l (count / 10) from rfl]
  have engine : w.le[l] = { s.le[l] with filters := .zero } := carried.engine
  have was := carried.core
  have placed := placed_openTileAt l (count / 10) _ (arriving l bytes s) w carried.around was (by rw [engine]; rfl)
  obtain ⟨tracks, -, opens, -⟩ := openTileAt_spec l (count / 10) w
  rw [engine] at placed opens
  dsimp only
  generalize w.openTileAt l (count / 10) = v at placed tracks opens ⊢
  obtain ⟨history, momentary, shortTerm, newest⟩ := takenIn_windows l y payload v
  obtain ⟨opened, started⟩ := started_of_placed (y := y) (payload := payload) notice tracks.quiet placed rfl rfl loss
    rfl rfl rfl
  refine ⟨opened, started, ?_, fun x last other => ?_, fun next => ?_⟩
  · rw [newest, opens, (openTile_kept _ _).2.2.2.1]
  · rw [history, momentary, shortTerm, opens, openTile_breaks _ { s.le[l] with filters := .zero } x last other]
    exact ⟨rfl, rfl, rfl⟩
  · rw [history, momentary, shortTerm, opens, openTile_follows _ { s.le[l] with filters := .zero } next]
    exact ⟨rfl, rfl, rfl⟩

/-! ### A discontinuity (R15) -/

/-- What a discontinuity leaves: ACQUIRING with a run of 1, the count of it, and an empty history. -/
structure Broken (l : LaneNo) (s t : State) : Prop where
  carriage : t.liu[l].carriage = .acquiring
  run : t.liu[l].run = 1
  loss : t.liu[l].lossTile = none
  window : t.liu[l].window = none
  counted : t.liu[l].counters.discontinuities = s.liu[l].counters.discontinuities + 1
  history : t.le[l].history = []
  momentary : t.le[l].momentary = ⟨-999, true⟩
  shortTerm : t.le[l].shortTerm = ⟨-999, true⟩
  notice : s.liu[l].carriage ≠ .acquiring → t.notices.carriage[l] = true
  closes : ∀ a : TileAcc, s.liu[l].openTile.isSome = true → s.le[l].acc = some a →
    ∃ r, t.le[l].newest = some r ∧ s.buildsRecord l a r

theorem break_spec (l : LaneNo) (bytes : List Byte) (y : Layout) (payload : List Byte) (s : State) :
    let t := takenIn l y payload (tracked l (cellCount (gather bytes).bytes) .discontinuity (arriving l bytes s))
    Opened l y payload (cellCount (gather bytes).bytes) (gapExpiry l s) .zero s t ∧ Broken l s t := by
  have own := arriving_liu l bytes s
  rw [tracked_break]
  obtain ⟨placed, history, momentary, shortTerm, notice, closes⟩ := discontinuity_spec l
    (cellCount (gather bytes).bytes / 10) (cellCount (gather bytes).bytes) (arriving l bytes s)
  rw [own] at placed notice closes
  generalize cellCount (gather bytes).bytes = count at *
  dsimp only
  generalize (arriving l bytes s).discontinuity l (count / 10) count = v at *
  obtain ⟨around, -, -, -, -, core, -⟩ := takenIn_spec l y payload v
  obtain ⟨history_, momentary_, shortTerm_, newest⟩ := takenIn_windows l y payload v
  have was := placed.core
  refine ⟨opened_of_placed placed rfl rfl, core.carriage.trans was.carriage, core.run.trans was.run,
    core.lossTile.trans was.lossTile, core.window.trans was.window, core.discontinuities.trans was.discontinuities,
    history_.trans history, momentary_.trans momentary, shortTerm_.trans shortTerm,
    fun c => around.louder.carriage l (notice c), fun a open_ acc => ?_⟩
  obtain ⟨r, hr, builds⟩ := closes a open_ acc
  exact ⟨r, newest.trans hr, ⟨builds.1, builds.2, builds.3, builds.4⟩⟩

end Sys2Proof.Lanes
end

section
/-! PROOFS. Segments at a tile that opens: the verdict of a segment that closes, and what each mark that governs, or none, makes
of the lane's segment. -/

namespace Sys2Proof.Lanes

open Sys2Proof.Machine Sys2Proof.Laws

/-! ### A segment takes a tile record (R44, R72, R86) -/

/-- The context of a segment that a tile record joins. -/
def joinedBy (r : TileRecord) (g : SegCtx) : SegCtx :=
  { g with
    firstTile := some (g.firstTile.getD r.tile)
    lastTile := some r.tile
    tiles := g.tiles + 1
    voids := if r.void then g.voids + 1 else g.voids
    maxShort := if r.shortTerm.stale then g.maxShort
      else some (max (g.maxShort.getD r.shortTerm.value) r.shortTerm.value)
    maxPeak := some (max (g.maxPeak.getD r.peak) r.peak)
    gating := g.gating.takeTile r.tile r.power
    captions := if g.ident.duty = .required ∧ r.void = false then { g.captions with
        dutyTiles := g.captions.dutyTiles + 1
        aliveTiles := if r.alive then g.captions.aliveTiles + 1 else g.captions.aliveTiles }
      else g.captions }

theorem raiseMax_eq (m : Option Int) (v : Int) : raiseMax m v = some (max (m.getD v) v) := by
  cases m with
  | none => simp [raiseMax]
  | some x => rfl

theorem takeTile_eq (r : TileRecord) (g : SegCtx) : g.takeTile r = joinedBy r g := by
  unfold SegCtx.takeTile joinedBy
  simp only [raiseMax_eq]
  rfl

/-! ### The verdict of a close (R89 to R99) -/

/-- What is entered and reported when segment `h`, opened as `g` and joined by its last tile, closes on a lane that had the
programme reference `reference`. -/
structure Closed (l : LaneNo) (cause : CloseCause) (g h : SegCtx) (reference : Option Int) (s t : State) : Prop where
  next : t.verdicts.next = nextVerdictSeq s.verdicts.next
  notice : t.notices.verdict = true
  referred : t.st[l].reference
    = if g.ident.kind = .programme ∧ (integrated h).isSome = true then integrated h else reference
  entered : ∃ v, t.verdicts.log.getLast? = some v ∧ v.seq = s.verdicts.next ∧ v.lane = l ∧ v.ident = g.ident ∧
    v.ruleSet = g.ruleSet ∧ v.continuation = g.continuation ∧ v.cause = cause ∧ v.openTime = g.openTime ∧
    v.closeTime = s.station ∧ v.firstTile = h.firstTile ∧ v.lastTile = h.lastTile ∧ v.tiles = h.tiles ∧
    v.voids = h.voids ∧ v.gated = h.gating.gated ∧ v.below = h.gating.below ∧ v.integrated = integrated h ∧
    v.maxShort = h.maxShort ∧ v.maxPeak = h.maxPeak ∧ v.coverage = h.captions.coverage ∧
    (g.ruleSet = none → v.checks = none ∧ v.outcome = .unjudged) ∧
    (∀ k : Fin 16, g.ruleSet = some k →
      let checks := h.checks s.settings.rules[k] reference (integrated h)
      v.checks = resultsOf checks ∧
      ((∃ c ∈ checks, c.result = .fail ∧ c.severity = .breach) → v.outcome = .breach) ∧
      ((∀ c ∈ checks, c.result = .fail → c.severity = .advisory) → v.outcome = .pass) ∧
      ((∃ c ∈ checks, c.result = .fail) → t.notices.finding[l] = true))

/-- What a verdict record says of its segment, beside its checks (R98). -/
theorem verdictOf_fields (seq : Nat) (l : LaneNo) (cause : CloseCause) (closeTime : Time) (reference measured : Option Int)
    (checks : Option (List Check)) (h : SegCtx) :
    let v := verdictOf seq l cause closeTime reference measured checks h
    v.seq = seq ∧ v.lane = l ∧ v.ident = h.ident ∧ v.ruleSet = h.ruleSet ∧ v.continuation = h.continuation ∧
    v.cause = cause ∧ v.openTime = h.openTime ∧ v.closeTime = closeTime ∧ v.firstTile = h.firstTile ∧
    v.lastTile = h.lastTile ∧ v.tiles = h.tiles ∧ v.voids = h.voids ∧ v.gated = h.gating.gated ∧
    v.below = h.gating.below ∧ v.integrated = measured ∧ v.maxShort = h.maxShort ∧ v.maxPeak = h.maxPeak ∧
    v.coverage = h.captions.coverage :=
  ⟨rfl, rfl, rfl, rfl, rfl, rfl, rfl, rfl, rfl, rfl, rfl, rfl, rfl, rfl, rfl, rfl, rfl, rfl⟩

theorem appendVerdict_last (log : List Verdict) (v : Verdict) : (appendVerdict log v).getLast? = some v := by
  unfold appendVerdict
  rw [List.getLast?_drop, List.getLast?_concat, if_neg]
  simp only [List.length_append, List.length_singleton]
  omega

/-- A failed check at BREACH makes the outcome BREACH, and where every failed check is at ADVISORY it is PASS (R97). -/
theorem outcomeOf_spec (cs : List Check) :
    ((∃ c ∈ cs, c.result = .fail ∧ c.severity = .breach) → outcomeOf cs = .breach) ∧
    ((∀ c ∈ cs, c.result = .fail → c.severity = .advisory) → outcomeOf cs = .pass) := by
  unfold outcomeOf
  refine ⟨fun ⟨c, hc, fails, severity⟩ => if_pos ?_, fun h => if_neg fun any => ?_⟩
  · exact List.any_eq_true.mpr ⟨c, hc, by simp [Check.breaches, fails, severity]⟩
  · obtain ⟨c, hc, breaches⟩ := List.any_eq_true.mp any
    simp only [Check.breaches, Bool.and_eq_true, beq_iff_eq] at breaches
    exact absurd ((h c hc breaches.1).symm.trans breaches.2) (by decide)

theorem referenceAfter_judges (cause : CloseCause) (judges : cause.judges = true) (kind : SegKind)
    (new old : Option Int) :
    referenceAfter cause kind new old = if kind = .programme ∧ new.isSome = true then new else old := by
  unfold referenceAfter
  cases new <;> simp [judges]

/-- A close for a cause that judges, on a lane whose segment `g` the tile record joined. -/
theorem closed_of_close (l : LaneNo) (cause : CloseCause) (judges : cause.judges = true) (r : TileRecord) (g : SegCtx)
    (s t : State) (seg : s.st[l].seg = some (joinedBy r g)) (verdicts : t.verdicts = (s.closeSegment l cause).verdicts)
    (louder : Louder (s.closeSegment l cause).notices t.notices)
    (reference : t.st[l].reference = (s.closeSegment l cause).st[l].reference) :
    Closed l cause g (joinedBy r g) s.st[l].reference s t := by
  obtain ⟨-, st, log, notice, -, raises⟩ := closeSegment_some l cause (joinedBy r g) s seg
  rw [log] at verdicts
  rw [st] at reference
  have judged (k : Fin 16) (h : g.ruleSet = some k) : judgement l cause (joinedBy r g) s = some (s.settings.rules[k],
      (joinedBy r g).checks s.settings.rules[k] s.st[l].reference (integrated (joinedBy r g))) := by
    unfold judgement State.judgingRule
    rw [if_pos judges, show (joinedBy r g).ruleSet = g.ruleSet from rfl, h]
    rfl
  have unjudged (h : g.ruleSet = none) : judgement l cause (joinedBy r g) s = none := by
    unfold judgement State.judgingRule
    rw [if_pos judges, show (joinedBy r g).ruleSet = g.ruleSet from rfl, h]
    rfl
  obtain ⟨seq, lane, ident, ruleSet, continuation, cause_, openTime, closeTime, firstTile, lastTile, tiles, voids, gated,
    below, loudness, short, peak, coverage⟩ := verdictOf_fields s.verdicts.next l cause s.station s.st[l].reference
      (integrated (joinedBy r g)) ((judgement l cause (joinedBy r g) s).map Prod.snd) (joinedBy r g)
  have last : t.verdicts.log.getLast? = some (closingVerdict l cause (joinedBy r g) s) := by
    simp only [verdicts, appendVerdict_last]
  refine ⟨congrArg Verdicts.next verdicts, louder.verdict notice, reference.trans (referenceAfter_judges cause judges _ _ _),
    _, last, seq, lane, ident, ruleSet, continuation, cause_, openTime, closeTime, firstTile, lastTile, tiles, voids, gated,
    below, loudness, short, peak, coverage, fun h => ?_, fun k h => ⟨?_, ?_, ?_, fun fails => ?_⟩⟩
  · unfold closingVerdict
    rw [unjudged h]
    exact ⟨rfl, rfl⟩
  · unfold closingVerdict
    rw [judged k h]
    rfl
  · unfold closingVerdict
    rw [judged k h]
    exact (outcomeOf_spec _).1
  · unfold closingVerdict
    rw [judged k h]
    exact (outcomeOf_spec _).2
  · exact louder.finding l (raises _ _ (judged k h) fails)

/-- A close counts from a state of the same verdict log, time and settings, to one of the same log and reference. -/
theorem Closed.of_same {l : LaneNo} {cause : CloseCause} {g h : SegCtx} {reference : Option Int} {s t u v : State}
    (c : Closed l cause g h reference s t) (before : s.verdicts = u.verdicts) (station : s.station = u.station)
    (settings : s.settings = u.settings) (after : v.verdicts = t.verdicts) (louder : Louder t.notices v.notices)
    (st : v.st[l].reference = t.st[l].reference) : Closed l cause g h reference u v := by
  obtain ⟨next, notice, referred, entered⟩ := c
  rw [before, station, settings] at entered
  rw [before] at next
  rw [← after] at next entered
  obtain ⟨w, last, seq, lane, ident, ruleSet, continuation, cause, openTime, closeTime, firstTile, lastTile, tiles, voids,
    gated, below, loudness, short, peak, coverage, unjudged, judged⟩ := entered
  refine ⟨next, louder.verdict notice, st.trans referred, w, last, seq, lane, ident, ruleSet, continuation, cause, openTime,
    closeTime, firstTile, lastTile, tiles, voids, gated, below, loudness, short, peak, coverage, unjudged, fun k hk => ?_⟩
  obtain ⟨checks, breach, pass, raises⟩ := judged k hk
  exact ⟨checks, breach, pass, fun fails => louder.finding l (raises fails)⟩

/-! ### The segment that the marks due leave (R83, R85, R87, R90) -/

/-- A segment has begun, fresh, with its condition checks (R85, R108). -/
structure Begins (l : LaneNo) (ident : Identity) (continuation : Bool) (s t : State) : Prop where
  seg : t.st[l].seg = some (.opened ident (s.settings.ruleMap[l].entry ident.kind) continuation s.station)
  watched : t.cm[l].watched = some ⟨ident, s.settings.ruleMap[l].entry ident.kind, .fresh, .fresh, .fresh⟩

/-- The close of a segment, if any, and the opening of another. -/
theorem reopen_spec (l : LaneNo) (cause : CloseCause) (judges : cause.judges = true) (ident : Identity)
    (continuation : Bool) (r : TileRecord) (s : State) :
    let t := (s.closeSegment l cause).openSegment l ident continuation
    Begins l ident continuation s t ∧ (s.st[l].seg = none → t.verdicts = s.verdicts) ∧
    ∀ g : SegCtx, s.st[l].seg = some (joinedBy r g) → Closed l cause g (joinedBy r g) s.st[l].reference s t := by
  obtain ⟨closes, -⟩ := closeSegment_marks l cause s
  obtain ⟨-, st, watched, verdicts, notices⟩ := openSegment_spec l ident continuation (s.closeSegment l cause)
  rw [closes.settings] at watched
  dsimp only
  refine ⟨⟨?_, watched⟩, fun none_ => ?_, fun g seg => ?_⟩
  · rw [st, closes.settings, closes.station]
  · rw [verdicts, closeSegment_none l cause s none_]
  · exact closed_of_close l cause judges r g s _ seg verdicts (by rw [notices]; exact .refl _) (by rw [st])

/-- The governing mark in RUN. -/
theorem applyMark_segment (l : LaneNo) (m : Mark) (k : SegKind) (s : State) (h : m.kind = .segment k) :
    s.applyMark l m = (s.closeSegment l .nextMark).openSegment l ⟨m.segId, k, m.duty⟩ false := by
  unfold State.applyMark
  rw [h]

theorem applyMark_finish (l : LaneNo) (m : Mark) (s : State) (h : m.kind = .finish) :
    s.applyMark l m = s.closeSegment l .endMark := by
  unfold State.applyMark
  rw [h]

theorem continueLong_none (l : LaneNo) (s : State) (h : s.st[l].seg = none) : s.continueLong l = s := by
  unfold State.continueLong
  rw [h]

theorem continueLong_short (l : LaneNo) (g : SegCtx) (s : State) (h : s.st[l].seg = some g) (short : g.tiles < 864000) :
    s.continueLong l = s := by
  unfold State.continueLong maxSegmentTiles
  rw [h]
  exact if_neg (by omega)

theorem continueLong_long (l : LaneNo) (g : SegCtx) (s : State) (h : s.st[l].seg = some g) (long : 864000 ≤ g.tiles) :
    s.continueLong l = (s.closeSegment l .maxLength).openSegment l g.ident true := by
  unfold State.continueLong maxSegmentTiles
  rw [h]
  exact if_pos long

end Sys2Proof.Lanes
end

section
/-! PROOFS. The good audio cell: the segment at the tile behind the open one, and the whole statement. -/

namespace Sys2Proof.Lanes

open Sys2Proof.Machine Sys2Proof.Laws

/-! ### The tile behind the open one -/

/-- The state `c` behind the close of a tile with the record `r`, and the state `t` behind the cell that opens tile `i`, of a
lane that was as in `s`. -/
structure NextTile (l : LaneNo) (i : Nat) (r : TileRecord) (s c t : State) : Prop where
  closed : c.st[l] = { s.st[l] with seg := s.st[l].seg.map (joinedBy r) }
  log : c.verdicts = s.verdicts
  settings : c.settings = s.settings
  station : c.station = s.station
  mode : c.alarm.mode = s.alarm.mode
  runs : ∀ (w : Watched) (k : Fin 16), s.cm[l].watched = some w → w.ruleSet = some k → r.segId = some w.ident.segId →
    ∃ v, c.cm[l].watched = some v ∧ Ran r s.settings.rules[k] w v
  segment : t.st[l] = (c.stOpening l i).st[l]
  verdicts : t.verdicts = (c.stOpening l i).verdicts
  louder : Louder (c.stOpening l i).notices t.notices
  watched : t.cm[l].watched = (c.stOpening l i).cm[l].watched

theorem trackTile_next (l : LaneNo) (o : Nat) (s : State) :
    s.trackTile l (o + 1) (.after o) = (s.closeTile l).openTileAt l (o + 1) :=
  congrArg (fun t : State => t.openTileAt l (o + 1)) (voidTiles_eq l o 0 (s.closeTile l))

/-- The cell that opens the next tile on a lane in PRESENT or DRIFT. -/
theorem nextTile_spec (l : LaneNo) (bytes : List Byte) (y : Layout) (payload : List Byte) (o : Nat) (a : TileAcc) (s : State)
    (carriage : s.liu[l].carriage = .present ∨ s.liu[l].carriage = .drift) (acc : s.le[l].acc = some a)
    (index : cellCount (gather bytes).bytes / 10 = o + 1) :
    let t := takenIn l y payload (tracked l (cellCount (gather bytes).bytes) (.after o) (arriving l bytes s))
    ∃ r c, s.buildsRecord l a r ∧ t.le[l].newest = some r ∧ NextTile l (o + 1) r s c t := by
  rw [tracked_tile _ _ _ _ (by simp), trackCarriage_counts _ _ _ (by rw [arriving_liu]; exact carriage), index,
    trackTile_next]
  have carried := carried_modLiu l (fun x : Liu => { x with
    window := x.window.map (fun w => { w with count := w.count + 1 })
    gapTimer := some (gapExpiry l (arriving l bytes s)) }) (arriving l bytes s)
  have same : ((arriving l bytes s).modLiu l (fun x : Liu => { x with
    window := x.window.map (fun w => { w with count := w.count + 1 })
    gapTimer := some (gapExpiry l (arriving l bytes s)) })).cm = s.cm ∧ ((arriving l bytes s).modLiu l (fun x : Liu => { x with
    window := x.window.map (fun w => { w with count := w.count + 1 })
    gapTimer := some (gapExpiry l (arriving l bytes s)) })).verdicts = s.verdicts := ⟨rfl, rfl⟩
  generalize (arriving l bytes s).modLiu l _ = w at carried same ⊢
  have from_ : Carried l s.le[l].filters _ s w :=
    ⟨(arriving_around l bytes s).trans carried.around, carried.core, carried.engine, carried.segment⟩
  have engine : w.le[l] = s.le[l] := from_.engine
  obtain ⟨left, -, tracks, st, verdicts, runs⟩ := closeTile_open l a w (by rw [engine]; exact acc)
  have builds := closing_builds l a w
  rw [closing_engine] at left
  generalize (closing l a w).1 = r at left st runs builds
  dsimp only
  generalize w.closeTile l = c at left tracks st verdicts runs ⊢
  obtain ⟨-, -, opens, segment, -, log, cm, notices⟩ := openTileAt_spec l (o + 1) c
  generalize c.openTileAt l (o + 1) = v at opens segment log cm notices ⊢
  obtain ⟨around, -, -, segment_, log_, -, cm_⟩ := takenIn_spec l y payload v
  obtain ⟨-, -, -, newest⟩ := takenIn_windows l y payload v
  refine ⟨r, c, buildsRecord_of_carried from_ builds, ?_, ?_⟩
  · rw [newest, opens, (openTile_kept _ _).2.2.2.1, left]
  · rw [from_.segment] at st
    refine ⟨?_, verdicts.trans same.2, tracks.settings.trans from_.around.settings,
      tracks.station.trans from_.around.station, tracks.mode.trans from_.around.mode, fun x k hx hk hr => ?_, ?_, ?_, ?_, ?_⟩
    · rw [st, show SegCtx.takeTile r = joinedBy r from funext (takeTile_eq r)]
    · obtain ⟨z, hz, ran⟩ := runs x k (by rw [same.1]; exact hx) hk hr
      exact ⟨z, hz, by rw [← from_.around.settings]; exact ran⟩
    · rw [segment_, segment]
    · rw [log_, log]
    · rw [← notices]
      exact around.louder
    · rw [(cm_ l).2.2, cm]

/-! ### What the marks due make of the segment -/

/-- The state in which the marks due at tile `i` act. -/
def opening (l : LaneNo) (i : Nat) (s : State) : State := s.modSt l (tileOpened i)

theorem NextTile.opening_st {l : LaneNo} {i : Nat} {r : TileRecord} {s c t : State} (h : NextTile l i r s c t) :
    (opening l i c).st[l] = tileOpened i { s.st[l] with seg := s.st[l].seg.map (joinedBy r) } := by
  unfold opening
  rw [modSt_st, h.closed]

theorem NextTile.opening_seg {l : LaneNo} {i : Nat} {r : TileRecord} {s c t : State} (h : NextTile l i r s c t) :
    (opening l i c).st[l].seg = s.st[l].seg.map (joinedBy r) := by
  rw [h.opening_st]
  rfl

theorem NextTile.due {l : LaneNo} {i : Nat} {r : TileRecord} {s c t : State} (h : NextTile l i r s c t) :
    dueMarks i c.st[l] = dueMarks i s.st[l] := by
  rw [h.closed]
  rfl

/-- The queue and the count of superseded marks (R83). -/
theorem NextTile.marks {l : LaneNo} {i : Nat} {r : TileRecord} {s c t : State} (h : NextTile l i r s c t) :
    t.st[l].queue = s.st[l].queue.filter (fun m => decide (i < m.effTile)) ∧
    t.st[l].superseded = s.st[l].superseded + BitVec.ofNat 32 ((dueMarks i s.st[l]).length - 1) := by
  obtain ⟨-, marks⟩ := stOpening_marks l i c
  rw [h.closed] at marks
  refine ⟨?_, by rw [h.segment, marks.superseded]; rfl⟩
  rw [h.segment, marks.queue]
  refine List.filter_congr fun m _ => ?_
  by_cases e : m.effTile ≤ i
  · simp [e]
  · simp [e, Nat.lt_of_not_le e]

/-- Behind the opening of a segment in place of the old one. -/
theorem NextTile.reopened {l : LaneNo} {i : Nat} {r : TileRecord} {s c t : State} (h : NextTile l i r s c t)
    (cause : CloseCause) (judges : cause.judges = true) (ident : Identity) (continuation : Bool)
    (run : c.stOpening l i = ((opening l i c).closeSegment l cause).openSegment l ident continuation) :
    Begins l ident continuation s t ∧ (s.st[l].seg = none → t.verdicts = s.verdicts) ∧
    ∀ g : SegCtx, s.st[l].seg = some g → Closed l cause g (joinedBy r g) s.st[l].reference s t := by
  obtain ⟨begins, unjudged, closed⟩ := reopen_spec l cause judges ident continuation r (opening l i c)
  have seg := h.opening_seg
  have reference : (opening l i c).st[l].reference = s.st[l].reference := by rw [h.opening_st]; rfl
  have settings : (opening l i c).settings = s.settings := h.settings
  have station : (opening l i c).station = s.station := h.station
  have log : (opening l i c).verdicts = s.verdicts := h.log
  rw [← run] at begins unjudged closed
  refine ⟨⟨?_, ?_⟩, fun none_ => ?_, fun g hg => ?_⟩
  · rw [h.segment, begins.seg, settings, station]
  · rw [h.watched, begins.watched, settings]
  · rw [h.verdicts, unjudged (by rw [seg, none_]; rfl), log]
  · have done := closed g (by rw [seg, hg]; rfl)
    rw [reference] at done
    exact done.of_same log station settings h.verdicts h.louder (by rw [h.segment])

/-- No mark is due in RUN (R87). -/
theorem NextTile.undue {l : LaneNo} {i : Nat} {r : TileRecord} {s c t : State} (h : NextTile l i r s c t)
    (mode : s.alarm.mode = .run) (none_ : dueMarks i s.st[l] = []) (segId : r.segId = s.st[l].seg.map (fun g => g.ident.segId)) :
    (s.st[l].seg = none → t.st[l].seg = none ∧ t.verdicts = s.verdicts) ∧
    ∀ g : SegCtx, s.st[l].seg = some g →
      (g.tiles + 1 < 864000 → t.st[l].seg = some (joinedBy r g) ∧ t.verdicts = s.verdicts ∧
        ∀ (w : Watched) (k : Fin 16), s.cm[l].watched = some w → w.ruleSet = some k → w.ident.segId = g.ident.segId →
          ∃ v, t.cm[l].watched = some v ∧ Ran r s.settings.rules[k] w v) ∧
      (864000 ≤ g.tiles + 1 → Closed l .maxLength g (joinedBy r g) s.st[l].reference s t ∧
        Begins l g.ident true s t) := by
  have run : c.stOpening l i = (opening l i c).continueLong l := by
    rw [stOpening_idle l i c (by rw [h.due, none_]; rfl), h.mode, mode]
    rfl
  have seg := h.opening_seg
  refine ⟨fun e => ?_, fun g e => ⟨fun short => ?_, fun long => ?_⟩⟩
  · have seg : (opening l i c).st[l].seg = none := by rw [seg, e]; rfl
    rw [continueLong_none l _ seg] at run
    exact ⟨by rw [h.segment, run, seg], by rw [h.verdicts, run]; exact h.log⟩
  · have seg : (opening l i c).st[l].seg = some (joinedBy r g) := by rw [seg, e]; rfl
    rw [continueLong_short l _ _ seg short] at run
    refine ⟨by rw [h.segment, run, seg], by rw [h.verdicts, run]; exact h.log, fun w k hw hk id => ?_⟩
    rw [h.watched, run]
    exact h.runs w k hw hk (by rw [segId, e, id]; rfl)
  · have seg : (opening l i c).st[l].seg = some (joinedBy r g) := by rw [seg, e]; rfl
    rw [continueLong_long l _ _ seg long] at run
    obtain ⟨begins, -, closed⟩ := h.reopened .maxLength rfl g.ident true run
    exact ⟨closed g e, begins⟩

/-- The mark that governs in RUN (R83). -/
theorem NextTile.governed {l : LaneNo} {i : Nat} {r : TileRecord} {s c t : State} (h : NextTile l i r s c t)
    (mode : s.alarm.mode = .run) (m : Mark) (last : (dueMarks i s.st[l]).getLast? = some m) :
    (s.st[l].seg = none → t.verdicts = s.verdicts) ∧
    (∀ k : SegKind, m.kind = .segment k → Begins l ⟨m.segId, k, m.duty⟩ false s t ∧
      ∀ g : SegCtx, s.st[l].seg = some g → Closed l .nextMark g (joinedBy r g) s.st[l].reference s t) ∧
    (m.kind = .finish → t.st[l].seg = none ∧ ∀ g : SegCtx, s.st[l].seg = some g →
      Closed l .endMark g (joinedBy r g) s.st[l].reference s t ∧ t.cm[l].watched = none) := by
  have run : c.stOpening l i = (opening l i c).applyMark l m := by
    rw [stOpening_due l i m c (by rw [h.due, last]), h.mode, mode]
    rfl
  have seg := h.opening_seg
  have finish (e : m.kind = .finish) : c.stOpening l i = (opening l i c).closeSegment l .endMark := by
    rw [run, applyMark_finish l m _ e]
  refine ⟨fun none_ => ?_, fun k e => ?_, fun e => ⟨?_, fun g hg => ⟨?_, ?_⟩⟩⟩
  · cases e : m.kind with
    | finish =>
      rw [h.verdicts, finish e, closeSegment_none l _ _ (by rw [seg, none_]; rfl)]
      exact h.log
    | segment k =>
      rw [applyMark_segment l m k _ e] at run
      exact (h.reopened .nextMark rfl _ false run).2.1 none_
  · rw [applyMark_segment l m k _ e] at run
    obtain ⟨begins, -, closed⟩ := h.reopened .nextMark rfl _ false run
    exact ⟨begins, closed⟩
  · rw [h.segment, finish e]
    exact (closeSegment_segments l .endMark (opening l i c)).2.2.2.2
  · have there : (opening l i c).st[l].seg = some (joinedBy r g) := by rw [seg, hg]; rfl
    have done := closed_of_close l .endMark rfl r g (opening l i c) (c.stOpening l i) there (by rw [finish e])
      (by rw [finish e]; exact .refl _) (by rw [finish e])
    rw [show (opening l i c).st[l].reference = s.st[l].reference by rw [h.opening_st]; rfl] at done
    exact done.of_same h.log h.station h.settings h.verdicts h.louder (by rw [h.segment])
  · have there : (opening l i c).st[l].seg = some (joinedBy r g) := by rw [seg, hg]; rfl
    rw [h.watched, finish e]
    exact (closeSegment_some l .endMark _ _ there).2.2.2.2.1

/-- In CONFIG the mark that governs acts on the remembered identity (R90). -/
theorem NextTile.remembered {l : LaneNo} {i : Nat} {r : TileRecord} {s c t : State} (h : NextTile l i r s c t)
    (mode : s.alarm.mode = .config) :
    t.verdicts = s.verdicts ∧ (dueMarks i s.st[l] = [] → t.st[l].remembered = s.st[l].remembered) ∧
    ∀ m : Mark, (dueMarks i s.st[l]).getLast? = some m → t.st[l].remembered = match m.kind with
      | .segment k => some ⟨m.segId, k, m.duty⟩
      | .finish => none := by
  have idle (e : (dueMarks i s.st[l]).getLast? = none) : c.stOpening l i = opening l i c := by
    rw [stOpening_idle l i c (by rw [h.due, e]), h.mode, mode]
    rfl
  have acts (m : Mark) (e : (dueMarks i s.st[l]).getLast? = some m) :
      c.stOpening l i = (opening l i c).rememberMark l m := by
    rw [stOpening_due l i m c (by rw [h.due, e]), h.mode, mode]
    rfl
  refine ⟨?_, fun none_ => ?_, fun m last => ?_⟩
  · rw [h.verdicts]
    cases e : (dueMarks i s.st[l]).getLast? with
    | none => rw [idle e]; exact h.log
    | some m => rw [acts m e]; exact h.log
  · rw [h.segment, idle (by rw [none_]; rfl), h.opening_st]
    rfl
  · rw [h.segment, acts m last]
    exact congrArg StLane.remembered (modSt_st l _ (opening l i c))

/-- The due mark of the highest effective tile is the last of an ordered queue's (R81, R83). -/
theorem last_of_governs {q : List Mark} (ordered : q.Pairwise (fun x z => x.effTile < z.effTile)) {m : Mark} (hm : m ∈ q)
    (top : ∀ x ∈ q, x.effTile ≤ m.effTile) : q.getLast? = some m := by
  obtain ⟨p, z, rfl⟩ : ∃ p z, q = p ++ [z] := ⟨_, _, (List.dropLast_append_getLast (List.ne_nil_of_mem hm)).symm⟩
  rw [List.getLast?_concat]
  rcases List.mem_append.mp hm with hp | hz
  · have below := (List.pairwise_append.mp ordered).2.2 m hp z (List.mem_singleton_self z)
    have above := top z (List.mem_append_right p (List.mem_singleton_self z))
    omega
  · rw [List.mem_singleton.mp hz]

/-! ### The statement -/

/-- What a tile that opens leaves, as the statement has it. -/
theorem Opened.all {l : LaneNo} {y : Layout} {payload : List Byte} {count expiry : Nat} {f : Filters} {s t : State}
    (h : Opened l y payload count expiry f s t) :
    t.liu[l].openTile = some (count / 10) ∧ t.liu[l].lastCount = some count ∧ t.liu[l].gapTimer = some expiry ∧
    t.st[l].lastOpened = some (count / 10) ∧
    (∃ e : LeLane, t.le[l] = e.takeCell y payload ∧ e.acc = some ⟨count / 10, 0, 0, 0⟩ ∧ e.filters = f ∧
      e.lastLayout = s.le[l].lastLayout) ∧
    (∀ k : LaneNo, k ≠ l → t.le[k] = s.le[k] ∧ t.st[k] = s.st[k] ∧ s.liu[k].sameCarriage t.liu[k]) ∧
    t.settings = s.settings ∧ t.station = s.station ∧ t.cc = s.cc :=
  ⟨h.tile, h.lastCount, h.gap, h.lastOpened, h.engine, h.lanes, h.settings, h.station, h.cc⟩

/-- Settles O51: each place of the cell's tile, and the segment at the tile behind the open one. -/
theorem goodAudioCellIsPlacedInItsTile : Obligations.GoodAudioCellIsPlacedInItsTile := by
  unfold Obligations.GoodAudioCellIsPlacedInItsTile
  constructor
  · intro l bytes s y warm settled good audio layout
    have run := exec_audioCell l bytes s y warm good audio layout
    refine ⟨fun o w open_ carriage window => ⟨fun same => ?_, fun a lower upper acc => ?_⟩,
      fun o open_ carriage => ⟨fun same short => ?_, fun same full => ?_, fun a lower upper acc => ?_⟩,
      fun none_ carriage near => ?_, fun out => ?_⟩
    · rw [open_, same, placeOf_join] at run
      exact run.trans (congrArg _ (join_counting l bytes y _ w s settled carriage window))
    · rw [open_, placeOf_after _ _ _ lower upper] at run
      obtain ⟨behind, still, counted, -⟩ := after_counting l bytes y (cellPayload (gather bytes).bytes) o w a s warm open_
        carriage window acc lower upper
      generalize takenIn l y (cellPayload (gather bytes).bytes) _ = t at run behind still counted
      exact ⟨t, run, ⟨behind.opened.all, behind.voids, behind.along, behind.next, behind.voided⟩, still, counted⟩
    · rw [open_, same, placeOf_join] at run
      exact run.trans (congrArg _ (join_advancing l bytes y _ s settled carriage short))
    · rw [open_, same, placeOf_join] at run
      obtain ⟨arrived, gap, tile, last, engines, around⟩ := join_entering l bytes y (cellPayload (gather bytes).bytes) s
        carriage full
      generalize takenIn l y (cellPayload (gather bytes).bytes) _ = t at run arrived gap tile last engines around
      exact ⟨t, run, ⟨arrived.carriage, arrived.run, arrived.window, arrived.notice, arrived.lost, arrived.drift⟩, gap,
        tile.trans open_, last, engines, fun k e => ⟨around.le k e, around.st k e, (around.core k e).shared⟩,
        around.settings, around.station, around.cc⟩
    · rw [open_, placeOf_after _ _ _ lower upper] at run
      obtain ⟨behind, full, short⟩ := after_acquiring l bytes y (cellPayload (gather bytes).bytes) o a s warm open_
        carriage acc lower upper
      generalize takenIn l y (cellPayload (gather bytes).bytes) _ = t at run behind full short
      exact ⟨t, run, ⟨behind.opened.all, behind.voids, behind.along, behind.next, behind.voided⟩, fun enough =>
        have arrived := full enough
        ⟨arrived.carriage, arrived.run, arrived.window, arrived.notice, arrived.lost, arrived.drift⟩, short⟩
    · cases loss : s.liu[l].lossTile with
      | none =>
        rw [none_, loss, placeOf_first] at run
        obtain ⟨opened, started, first⟩ := first_starting l bytes y (cellPayload (gather bytes).bytes) s loss carriage
        generalize takenIn l y (cellPayload (gather bytes).bytes) _ = t at run opened started first
        exact ⟨t, run, opened.all, started.carriage, started.run, started.loss, started.notice, started.window, nofun,
          fun _ => ⟨first.newest, first.broken, first.follows⟩⟩
      | some o =>
        have within := near o loss
        rw [none_, loss, placeOf_afterLoss _ _ within] at run
        obtain ⟨opened, started, behind⟩ := afterLoss_starting l bytes y (cellPayload (gather bytes).bytes) o s warm none_
          loss carriage within.1 within.2
        generalize takenIn l y (cellPayload (gather bytes).bytes) _ = t at run opened started behind
        refine ⟨t, run, opened.all, started.carriage, started.run, started.loss, started.notice, started.window,
          fun p e => ?_, nofun⟩
        obtain rfl := Option.some.inj e
        exact ⟨behind.voids, behind.along, behind.voided, behind.next⟩
    · have place : placeOf (cellCount (gather bytes).bytes / 10) s.liu[l].openTile s.liu[l].lossTile = .discontinuity := by
        rcases out with ⟨o, open_, far⟩ | ⟨none_, o, loss, far⟩
        · rw [open_, placeOf_break _ _ _ far]
        · rw [none_, loss, placeOf_breakLoss _ _ far]
      rw [place] at run
      obtain ⟨opened, broken⟩ := break_spec l bytes y (cellPayload (gather bytes).bytes) s
      generalize takenIn l y (cellPayload (gather bytes).bytes) _ = t at run opened broken
      exact ⟨t, run, opened.all, broken.carriage, broken.run, broken.loss, broken.window, broken.counted, broken.history,
        broken.momentary, broken.shortTerm, broken.notice, broken.closes⟩
  · intro l bytes s y o a warm settled good audio layout open_ carriage index acc ordered
    have run := exec_audioCell l bytes s y warm good audio layout
    rw [open_, placeOf_after _ _ _ (by omega) (by omega)] at run
    obtain ⟨r, c, builds, newest, next⟩ := nextTile_spec l bytes y (cellPayload (gather bytes).bytes) o a s carriage acc
      index
    obtain ⟨queue, superseded⟩ := next.marks
    have lasts (m : Mark) (hm : m ∈ dueMarks (o + 1) s.st[l])
        (top : ∀ x ∈ dueMarks (o + 1) s.st[l], x.effTile ≤ m.effTile) : (dueMarks (o + 1) s.st[l]).getLast? = some m :=
      last_of_governs (ordered.filter _) hm top
    refine ⟨_, r, run, newest, builds, queue, superseded, fun none_ => ?_, fun mode due => ?_, fun m mode governs => ?_,
      fun mode => ?_⟩
    · cases mode : s.alarm.mode with
      | config => exact (next.remembered mode).1
      | run =>
        cases last : (dueMarks (o + 1) s.st[l]).getLast? with
        | none => exact ((next.undue mode (List.getLast?_eq_none_iff.mp last) builds.segId).1 none_).2
        | some m => exact (next.governed mode m last).1 none_
    · obtain ⟨idle, segment⟩ := next.undue mode due builds.segId
      refine ⟨fun none_ => (idle none_).1, fun g seg => ⟨(segment g seg).1, fun long => ?_⟩⟩
      obtain ⟨closed, begins⟩ := (segment g seg).2 long
      exact ⟨⟨closed.next, closed.notice, closed.referred, closed.entered⟩, begins.seg, begins.watched⟩
    · obtain ⟨-, opens, ends⟩ := next.governed mode m (lasts m governs.1 governs.2)
      refine ⟨fun k kind => ?_, fun kind => ?_⟩
      · obtain ⟨begins, closed⟩ := opens k kind
        refine ⟨⟨begins.seg, begins.watched⟩, fun g seg => ?_⟩
        exact ⟨(closed g seg).next, (closed g seg).notice, (closed g seg).referred, (closed g seg).entered⟩
      · obtain ⟨none_, closed⟩ := ends kind
        refine ⟨none_, fun g seg => ⟨?_, (closed g seg).2⟩⟩
        exact ⟨(closed g seg).1.next, (closed g seg).1.notice, (closed g seg).1.referred, (closed g seg).1.entered⟩
    · obtain ⟨log, idle, acts⟩ := next.remembered mode
      exact ⟨log, idle, fun m governs => acts m (lasts m governs.1 governs.2)⟩

end Sys2Proof.Lanes
end

section
/-! PROOFS. The bounds of the part: an open tile beside a loss tile, which they do not exclude, leaves them when a cell of the
next tile arrives. -/

namespace Sys2Proof.Lanes

open Sys2Proof.Machine Sys2Proof.Laws

/-! ### A cell with its check value -/

/-- A cell: lane, kind, the rest of the header with the payload, and the check value. -/
def sealedCell (lane kind : Byte) (rest : List Byte) : List Byte := lane :: kind :: rest ++ crcBytes (kind :: rest)

theorem sealedCell_length (lane kind : Byte) (rest : List Byte) : (sealedCell lane kind rest).length = rest.length + 4 := by
  simp [sealedCell, crcBytes_length]

theorem sealedCell_take (lane kind : Byte) (rest : List Byte) :
    (sealedCell lane kind rest).take ((sealedCell lane kind rest).length - 2) = lane :: kind :: rest := by
  rw [sealedCell_length]
  exact List.take_left' (by simp)

theorem sealedCell_drop (lane kind : Byte) (rest : List Byte) :
    (sealedCell lane kind rest).drop ((sealedCell lane kind rest).length - 2) = crcBytes (kind :: rest) := by
  rw [sealedCell_length]
  exact List.drop_left' (by simp)

/-- The check value of a cell that is whole is correct (R2). -/
theorem cellCheckOk_sealedCell (lane kind : Byte) (rest : List Byte) (h : headerSize kind ≤ rest.length + 2) :
    cellCheckOk (sealedCell lane kind rest) = true := by
  unfold cellCheckOk
  dsimp only
  rw [sealedCell_take, sealedCell_drop, sealedCell_length, show (sealedCell lane kind rest).getD 1 0#8 = kind from rfl]
  have room : headerSize kind + 2 ≤ rest.length + 4 := by omega
  simp [room]

theorem cellPayload_sealedCell (lane kind : Byte) (rest : List Byte) :
    cellPayload (sealedCell lane kind rest) = (lane :: kind :: rest).drop (headerSize kind) := by
  unfold cellPayload
  rw [sealedCell_take, show (sealedCell lane kind rest).getD 1 0#8 = kind from rfl]

/-- A cell that fits is gathered whole (R1). -/
theorem gather_sealedCell (lane kind : Byte) (rest : List Byte) (h : rest.length + 2 ≤ headerSize kind + maxPayload kind) :
    gather (sealedCell lane kind rest) = ⟨sealedCell lane kind rest, false⟩ := by
  have len := sealedCell_length lane kind rest
  unfold gather
  rw [show (sealedCell lane kind rest)[1]? = some kind from rfl]
  dsimp only
  rw [List.take_of_length_le (by omega), decide_eq_false (by omega)]

/-! ### The state and the cell -/

/-- The header of an AUDIO cell in MONO with count 20, of tile 2, behind its kind. -/
def silentHeader : List Byte := [5#8, 160#8, 1#8, 0#8, 0#8, 0#8, 20#8]

/-- An AUDIO cell of lane 0: 480 frames of silence in MONO with count 20. -/
def silentCell : List Byte := sealedCell 0#8 kindAudio (silentHeader ++ List.replicate 1440 0#8)

/-- Lane 0 is PRESENT with tile 1 open, and still has the loss tile 0, which is the newest of its history. No reachable state
has an open tile beside a loss tile (R14), and the bounds do not exclude it. -/
def lossBesideOpen : State := { State.reset with
  scan := .done
  settings := { Settings.default with
    lanes := Settings.default.lanes.set 0 { LaneSettings.default with enabled := true } }
  store := { StorePort.reset with count := some 16, inFlight := none }
  liu := State.reset.liu.set 0 { Liu.reset with
    carriage := .present, window := some ⟨0, 5⟩, lastCount := some 18, openTile := some 1, lossTile := some 0 }
  le := State.reset.le.set 0 { LeLane.reset with acc := some ⟨1, 5, 0, 0⟩, history := [⟨0, none⟩] } }

theorem silentCell_gather : gather silentCell = ⟨silentCell, false⟩ :=
  gather_sealedCell _ _ _ (by rw [List.length_append, List.length_replicate]; decide)

theorem silentCell_payload : (cellPayload silentCell).length = 1440 := by
  unfold silentCell
  rw [cellPayload_sealedCell, List.length_drop, List.length_cons, List.length_cons, List.length_append,
    List.length_replicate]
  rfl

theorem silentCell_fields : silentCell.getD 1 0#8 = kindAudio ∧ cellLayout silentCell = some .mono ∧
    cellCount silentCell = 20 ∧ cellLane silentCell = 0 ∧ cellLength silentCell = 1440 := by
  refine ⟨rfl, ?_, ?_, ?_, ?_⟩ <;> decide +kernel

/-- The cell passes the intake checks of a lane that takes cells and last accepted count 18. -/
theorem silentCell_good : intakeCheck (lossBesideOpen.laneEnabled 0) 0 lossBesideOpen.liu[(0 : LaneNo)] (gather silentCell)
    = none := by
  obtain ⟨kind, layout, count, lane, length⟩ := silentCell_fields
  have check : cellCheckOk silentCell = true :=
    cellCheckOk_sealedCell _ _ _ (by rw [List.length_append, List.length_replicate]; decide)
  have whole : cellLengthOk silentCell = true := by
    unfold cellLengthOk
    dsimp only
    rw [kind, layout, length, silentCell_payload]
    rfl
  have fresh : isStale lossBesideOpen.liu[(0 : LaneNo)] silentCell = false := by
    unfold isStale
    rw [show lossBesideOpen.liu[(0 : LaneNo)].lastCount = some 18 from rfl, count]
    rfl
  have takes : lossBesideOpen.laneEnabled 0 = true := by decide +kernel
  rw [silentCell_gather]
  simp only [intakeCheck, kind, check, whole, fresh, takes, lane]
  rfl

theorem lossBesideOpen_bounded : lossBesideOpen.bounded where
  verdicts := by decide +kernel
  findings := by decide +kernel
  increasing := .nil
  issued := by intro f h; cases h
  holds := by decide +kernel
  marks := by decide +kernel
  history := by decide +kernel
  filling := by decide +kernel
  ordered := by decide +kernel
  awaited := by decide +kernel
  untimed := by decide +kernel
  tiles := by
    intro _ l
    have lanes : ∀ k : LaneNo, lossBesideOpen.le[k].acc.map TileAcc.tile = lossBesideOpen.liu[k].openTile ∧
        ∀ o ∈ lossBesideOpen.liu[k].lossTile, lossBesideOpen.le[k].history.getLast?.map TileEntry.tile = some o := by
      decide +kernel
    exact lanes l
  turn := nofun

/-- The cell waits in the queue of commands. -/
def cellWaits : State := { lossBesideOpen with pending := [.inboundCell 0 silentCell] }

theorem cellWaits_bounded : cellWaits.bounded := by
  obtain ⟨verdicts, findings, increasing, issued, holds, marks, history, filling, ordered, awaited, untimed, tiles, turn⟩ :=
    lossBesideOpen_bounded
  exact ⟨verdicts, findings, increasing, issued, holds, marks, history, filling, ordered, awaited, untimed, tiles, turn⟩

theorem step_cellWaits : step cellWaits = exec (.inboundCell 0 silentCell) lossBesideOpen := rfl

/-- Behind the cell the loss tile is still 0, and the newest of the history is the tile 1 that closed. -/
theorem lossBesideOpen_next : ∃ t, exec (.inboundCell 0 silentCell) lossBesideOpen = .next t ∧ t.warm = none ∧
    t.liu[(0 : LaneNo)].lossTile = some 0 ∧ t.le[(0 : LaneNo)].history.getLast?.map TileEntry.tile = some 1 := by
  obtain ⟨kind, layout, count, -, -⟩ := silentCell_fields
  have bytes : (gather silentCell).bytes = silentCell := congrArg Assembly.bytes silentCell_gather
  have run := exec_audioCell 0 silentCell lossBesideOpen .mono rfl silentCell_good (by rw [bytes]; exact kind)
    (by rw [bytes]; exact layout)
  have index : cellCount (gather silentCell).bytes / 10 = 2 := by rw [bytes, count]
  have open_ : lossBesideOpen.liu[(0 : LaneNo)].openTile = some 1 := rfl
  rw [open_, placeOf_after _ _ _ (by omega) (by omega)] at run
  obtain ⟨behind, -, -, loss⟩ := after_counting 0 silentCell .mono (cellPayload (gather silentCell).bytes) 1 ⟨0, 5⟩
    ⟨1, 5, 0, 0⟩ lossBesideOpen rfl rfl (Or.inl rfl) rfl rfl (by omega) (by omega)
  have along := (behind.along lossBesideOpen_bounded).1
  refine ⟨_, run, behind.opened.warm, loss, ?_⟩
  rw [along, index]
  rfl

/-- Refutes O5: the bounds do not exclude a lane with an open tile beside a loss tile, and a cell that opens the tile behind
leaves the loss tile, which is no longer the newest of the history. -/
theorem not_stepKeepsBounds : ¬ Obligations.StepKeepsBounds := by
  unfold Obligations.StepKeepsBounds
  intro h
  obtain ⟨t, run, warm, loss, newest⟩ := lossBesideOpen_next
  have last := ((h cellWaits t cellWaits_bounded (step_cellWaits.trans run)).tiles warm 0).2 0 loss
  rw [newest] at last
  exact absurd last (by decide)

end Sys2Proof.Lanes
end

section
/-! PROOFS. A record that is handed to a lane's archive: where it finds its place in the page buffers, and what hold-off
follows; and the boundary of an event while the allocation gate is closed. -/

namespace Sys2Proof.Lanes

open Sys2Proof.Machine Sys2Proof.Laws

/-! ### Page buffers (R138) -/

/-- A buffer that takes records at its end, and is FILLING. -/
def added (i : Fin 4) (rs : List Record) (b : Vector PageBuffer 4) : Vector PageBuffer 4 :=
  b.set i { b[i] with state := .filling, records := b[i].records ++ rs }

/-- A buffer that is closed at a stamp. -/
def closedAt (stamp : Nat) (i : Fin 4) (b : Vector PageBuffer 4) : Vector PageBuffer 4 :=
  b.set i { b[i] with state := .waiting, ready := stamp }

theorem append_buffers (i : Fin 4) (r : Record) (a : AcLane) :
    a.append i r = { a with buffers := added i [r] a.buffers } := rfl

theorem closeFilling_some {a : AcLane} {i : Fin 4} (h : a.filling = some i) (stamp : Nat) :
    a.closeFilling stamp = { a with buffers := closedAt stamp i a.buffers } := by
  unfold AcLane.closeFilling
  rw [h]
  rfl

theorem closeFilling_none {a : AcLane} (h : a.filling = none) (stamp : Nat) : a.closeFilling stamp = a := by
  unfold AcLane.closeFilling
  rw [h]

theorem added_added (i : Fin 4) (rs qs : List Record) (b : Vector PageBuffer 4) :
    added i qs (added i rs b) = added i (rs ++ qs) b := by
  simp [added]

theorem added_at (i j : Fin 4) (rs : List Record) (b : Vector PageBuffer 4) (h : j ≠ i) : (added i rs b)[j] = b[j] :=
  lane_set_ne b _ h

theorem added_self (i : Fin 4) (rs : List Record) (b : Vector PageBuffer 4) :
    (added i rs b)[i] = { b[i] with state := .filling, records := b[i].records ++ rs } := lane_set_self b i _

theorem closedAt_at (stamp : Nat) (i j : Fin 4) (b : Vector PageBuffer 4) (h : j ≠ i) : (closedAt stamp i b)[j] = b[j] :=
  lane_set_ne b _ h

/-- The search for a buffer sees the states alone. -/
theorem filling_congr {a b : AcLane} (h : ∀ i : Fin 4, a.buffers[i].state = b.buffers[i].state) : a.filling = b.filling := by
  unfold AcLane.filling
  simp only [h]

theorem lowestFree_congr {a b : AcLane} (h : ∀ i : Fin 4, (a.buffers[i].state = .free ↔ b.buffers[i].state = .free)) :
    a.lowestFree = b.lowestFree := by
  unfold AcLane.lowestFree
  congr 1
  funext i
  rw [Bool.eq_iff_iff, beq_iff_eq, beq_iff_eq]
  exact h i

theorem lowestFree_state {a : AcLane} {i : Fin 4} (h : a.lowestFree = some i) : a.buffers[i].state = .free := by
  have := List.find?_some h
  simpa using this

/-- The one FILLING buffer is the one that is found. -/
theorem filling_of_only {a : AcLane} {i : Fin 4} (h : ∀ j : Fin 4, a.buffers[j].state = .filling ↔ j = i) :
    a.filling = some i := by
  cases e : a.filling with
  | none => exact absurd ((h i).mpr rfl) (filling_none e i)
  | some j => rw [(h j).mp (filling_some e)]

/-- Records in the FILLING buffer leave the search as it was. -/
theorem filling_added {a : AcLane} {i : Fin 4} (h : a.filling = some i) (rs : List Record) :
    ({ a with buffers := added i rs a.buffers } : AcLane).filling = some i := by
  rw [← h]
  refine filling_congr fun j => ?_
  by_cases e : j = i
  · subst e
    exact (congrArg PageBuffer.state (added_self j rs a.buffers)).trans (filling_some h).symm
  · exact congrArg PageBuffer.state (added_at i j rs a.buffers e)

theorem lowestFree_added {a : AcLane} {i : Fin 4} (h : a.filling = some i) (rs : List Record) :
    ({ a with buffers := added i rs a.buffers } : AcLane).lowestFree = a.lowestFree := by
  refine lowestFree_congr fun j => ?_
  by_cases e : j = i
  · subst e
    simp only [added_self, filling_some h]
  · simp only [added_at i j rs a.buffers e]

theorem lowestFree_closed {a : AcLane} {i : Fin 4} (h : a.filling = some i) (stamp : Nat) :
    ({ a with buffers := closedAt stamp i a.buffers } : AcLane).lowestFree = a.lowestFree := by
  refine lowestFree_congr fun j => ?_
  by_cases e : j = i
  · subst e
    simp only [closedAt, lane_set_self, filling_some h]
    decide
  · simp only [closedAt_at stamp i j a.buffers e]

/-! ### Placing a record (R138) -/

theorem fillingWithRoom_yes {a : AcLane} {i : Fin 4} {n : Nat} (h : a.filling = some i) (room : a.buffers[i].used + n ≤ 16381) :
    a.fillingWithRoom n = some i := by
  unfold AcLane.fillingWithRoom
  rw [h]
  exact if_pos (decide_eq_true room)

theorem fillingWithRoom_no {a : AcLane} {i : Fin 4} {n : Nat} (h : a.filling = some i) (full : 16381 < a.buffers[i].used + n) :
    a.fillingWithRoom n = none := by
  unfold AcLane.fillingWithRoom
  rw [h]
  refine if_neg ?_
  rw [PageBuffer.hasRoom, pageRoom, decide_eq_true_iff]
  omega

theorem fillingWithRoom_none {a : AcLane} (h : a.filling = none) (n : Nat) : a.fillingWithRoom n = none := by
  unfold AcLane.fillingWithRoom
  rw [h]

theorem place_room {a : AcLane} {i : Fin 4} {r : Record} (h : a.filling = some i)
    (room : a.buffers[i].used + r.size ≤ 16381) (stamp : Nat) :
    a.place stamp r = (true, { a with buffers := added i [r] a.buffers }) := by
  unfold AcLane.place
  rw [fillingWithRoom_yes h room]
  rfl

theorem place_next {a : AcLane} {i j : Fin 4} {r : Record} (h : a.filling = some i)
    (full : 16381 < a.buffers[i].used + r.size) (free : a.lowestFree = some j) (stamp : Nat) :
    a.place stamp r = (true, { a with buffers := added j [r] (closedAt stamp i a.buffers) }) := by
  unfold AcLane.place
  rw [fillingWithRoom_no h full, closeFilling_some h]
  dsimp only
  rw [lowestFree_closed h, free]
  rfl

theorem place_first {a : AcLane} {j : Fin 4} {r : Record} (h : a.filling = none) (free : a.lowestFree = some j)
    (stamp : Nat) : a.place stamp r = (true, { a with buffers := added j [r] a.buffers }) := by
  unfold AcLane.place
  rw [fillingWithRoom_none h, closeFilling_none h]
  dsimp only
  rw [free]
  rfl

theorem place_full {a : AcLane} {i : Fin 4} {r : Record} (h : a.filling = some i)
    (full : 16381 < a.buffers[i].used + r.size) (free : a.lowestFree = none) (stamp : Nat) :
    a.place stamp r = (false, { a with buffers := closedAt stamp i a.buffers }) := by
  unfold AcLane.place
  rw [fillingWithRoom_no h full, closeFilling_some h]
  dsimp only
  rw [lowestFree_closed h, free]

theorem place_nowhere {a : AcLane} {r : Record} (h : a.filling = none) (free : a.lowestFree = none) (stamp : Nat) :
    a.place stamp r = (false, a) := by
  unfold AcLane.place
  rw [fillingWithRoom_none h, closeFilling_none h]
  dsimp only
  rw [free]

/-! ### Taking a record without pending gaps (R138, R139) -/

/-- A record of a time that found no place is counted. -/
def missed (r : Record) (a : AcLane) : AcLane := { a with gaps := a.gaps.count r.kind (some r.time) }

theorem take_placed {a b : AcLane} {r : Record} {stamp : Nat} (gaps : a.gaps.any = false)
    (h : a.place stamp r = (true, b)) : a.take stamp r = b := by
  unfold AcLane.take
  rw [gaps, h]
  rfl

theorem take_missed {a b : AcLane} {r : Record} {stamp : Nat} (gaps : a.gaps.any = false)
    (h : a.place stamp r = (false, b)) : a.take stamp r = missed r b := by
  unfold AcLane.take
  rw [gaps, h]
  rfl

/-! ### Taking a record behind the GAP record that is due (R139) -/

theorem take_behindGap {a : AcLane} {r : Record} {stamp : Nat} (gaps : a.gaps.any = true)
    (room : a.roomForGapAnd r r.time = true) :
    a.take stamp r = { ((a.place stamp (a.gaps.record r.time)).2.place stamp r).2 with gaps := .zero } := by
  unfold AcLane.take
  rw [gaps, if_pos rfl, if_pos room]

theorem take_withGap {a : AcLane} {r : Record} {stamp : Nat} (gaps : a.gaps.any = true)
    (room : a.roomForGapAnd r r.time = false) :
    a.take stamp r = missed r (if (a.fillingWithRoom r.size).isSome then a else a.closeFilling stamp) := by
  unfold AcLane.take
  rw [gaps, if_pos rfl, if_neg (by rw [room]; decide)]
  rfl

/-- A GAP record takes 47 bytes (R139, R201). -/
theorem gap_size (time : Nat) (g : GapCounts) : (g.record time).size = 47 := by
  simp [GapCounts.record, Record.size, gapContent]

theorem roomForGapAnd_free {a : AcLane} {j : Fin 4} (free : a.lowestFree = some j) (r : Record) (time : Nat) :
    a.roomForGapAnd r time = true := by
  unfold AcLane.roomForGapAnd
  rw [free, Option.isSome_some, Bool.or_true]

theorem used_added (i : Fin 4) (r : Record) (b : Vector PageBuffer 4) :
    (added i [r] b)[i].used = b[i].used + r.size := by
  rw [added_self]
  simp [PageBuffer.used]

theorem take_gap_room {a : AcLane} {i : Fin 4} {r : Record} {stamp : Nat} (gaps : a.gaps.any = true)
    (h : a.filling = some i) (room : a.buffers[i].used + 47 + r.size ≤ 16381) :
    a.take stamp r = { a with buffers := added i [a.gaps.record r.time, r] a.buffers, gaps := .zero } := by
  have both : a.roomForGapAnd r r.time = true := by
    unfold AcLane.roomForGapAnd
    rw [gap_size, fillingWithRoom_yes h (by omega), Option.isSome_some, Bool.true_or]
  have first := place_room (r := a.gaps.record r.time) h (by rw [gap_size]; omega) stamp
  have second := place_room (r := r) (filling_added h [a.gaps.record r.time])
    (show (added i [a.gaps.record r.time] a.buffers)[i].used + r.size ≤ 16381 by rw [used_added, gap_size]; exact room) stamp
  rw [take_behindGap gaps both, first, second]
  dsimp only
  rw [added_added]
  rfl

theorem take_gap_split {a : AcLane} {i j : Fin 4} {r : Record} {stamp : Nat} (gaps : a.gaps.any = true)
    (h : a.filling = some i) (room : a.buffers[i].used + 47 ≤ 16381) (full : 16381 < a.buffers[i].used + 47 + r.size)
    (free : a.lowestFree = some j) :
    a.take stamp r = { a with
      buffers := added j [r] (closedAt stamp i (added i [a.gaps.record r.time] a.buffers)), gaps := .zero } := by
  have first := place_room (r := a.gaps.record r.time) h (by rw [gap_size]; exact room) stamp
  have second := place_next (r := r) (filling_added h [a.gaps.record r.time])
    (show 16381 < (added i [a.gaps.record r.time] a.buffers)[i].used + r.size by rw [used_added, gap_size]; exact full)
    ((lowestFree_added h [a.gaps.record r.time]).trans free) stamp
  rw [take_behindGap gaps (roomForGapAnd_free free r r.time), first, second]

/-- A record behind the GAP record that opens an empty buffer, which is then the FILLING one. -/
theorem place_behindGap {a : AcLane} {j : Fin 4} {r g : Record} {stamp : Nat} (others : ∀ k : Fin 4, k ≠ j →
    a.buffers[k].state ≠ .filling) (empty : a.buffers[j].records = []) (fits : g.size + r.size ≤ 16381) :
    ({ a with buffers := added j [g] a.buffers } : AcLane).place stamp r
      = (true, { a with buffers := added j [g, r] a.buffers }) := by
  have only : ({ a with buffers := added j [g] a.buffers } : AcLane).filling = some j := by
    refine filling_of_only fun k => ?_
    by_cases e : k = j
    · subst e
      simp only [added_self]
    · simp only [added_at j k [g] a.buffers e, e, iff_false]
      exact others k e
  have second := place_room (r := r) only (show (added j [g] a.buffers)[j].used + r.size ≤ 16381 by
    rw [used_added, PageBuffer.used, empty]
    simpa using fits) stamp
  rw [second]
  dsimp only
  rw [added_added]
  rfl

theorem take_gap_next {a : AcLane} {i j : Fin 4} {r : Record} {stamp : Nat} (gaps : a.gaps.any = true)
    (h : a.filling = some i) (one : OneFilling a) (full : 16381 < a.buffers[i].used + 47) (free : a.lowestFree = some j)
    (empty : a.buffers[j].records = []) (fits : 47 + r.size ≤ 16381) :
    a.take stamp r = { a with
      buffers := added j [a.gaps.record r.time, r] (closedAt stamp i a.buffers), gaps := .zero } := by
  have first := place_next (r := a.gaps.record r.time) h (by rw [gap_size]; exact full) free stamp
  have apart : j ≠ i := by
    rintro rfl
    exact absurd ((filling_some h).symm.trans (lowestFree_state free)) (by decide)
  have second := place_behindGap (a := { a with buffers := closedAt stamp i a.buffers }) (r := r)
    (g := a.gaps.record r.time) (j := j) (stamp := stamp) (fun k e => ?_) ?_ (by rw [gap_size]; exact fits)
  · rw [take_behindGap gaps (roomForGapAnd_free free r r.time), first, second]
  · by_cases e : k = i
    · subst e
      simp only [closedAt, lane_set_self]
      decide
    · simp only [closedAt_at stamp i k a.buffers e]
      exact fun f => e (one k i f (filling_some h))
  · simp only [closedAt_at stamp i j a.buffers apart]
    exact empty

theorem take_gap_first {a : AcLane} {j : Fin 4} {r : Record} {stamp : Nat} (gaps : a.gaps.any = true)
    (h : a.filling = none) (free : a.lowestFree = some j) (empty : a.buffers[j].records = [])
    (fits : 47 + r.size ≤ 16381) :
    a.take stamp r = { a with buffers := added j [a.gaps.record r.time, r] a.buffers, gaps := .zero } := by
  have first := place_first (r := a.gaps.record r.time) h free stamp
  have second := place_behindGap (a := a) (r := r) (g := a.gaps.record r.time) (j := j) (stamp := stamp)
    (fun k _ => filling_none h k) empty (by rw [gap_size]; exact fits)
  rw [take_behindGap gaps (roomForGapAnd_free free r r.time), first, second]

theorem take_gap_full {a : AcLane} {i : Fin 4} {r : Record} {stamp : Nat} (gaps : a.gaps.any = true)
    (h : a.filling = some i) (full : 16381 < a.buffers[i].used + 47 + r.size) (free : a.lowestFree = none) :
    a.take stamp r = missed r { a with
      buffers := if a.buffers[i].used + r.size ≤ 16381 then a.buffers else closedAt stamp i a.buffers } := by
  have none_ : a.roomForGapAnd r r.time = false := by
    unfold AcLane.roomForGapAnd
    rw [gap_size, fillingWithRoom_no h (by omega), free]
    rfl
  rw [take_withGap gaps none_]
  by_cases room : a.buffers[i].used + r.size ≤ 16381
  · rw [fillingWithRoom_yes h room, if_pos room]
    rfl
  · rw [fillingWithRoom_no h (by omega), if_neg room, closeFilling_some h]
    rfl

theorem take_gap_nowhere {a : AcLane} {r : Record} {stamp : Nat} (gaps : a.gaps.any = true) (h : a.filling = none)
    (free : a.lowestFree = none) : a.take stamp r = missed r a := by
  have none_ : a.roomForGapAnd r r.time = false := by
    unfold AcLane.roomForGapAnd
    rw [fillingWithRoom_none h, free]
    rfl
  rw [take_withGap gaps none_, fillingWithRoom_none h, closeFilling_none h]
  rfl

end Sys2Proof.Lanes
end

section
/-! PROOFS. The boundary of an event that makes no attempt, the record that a cell hands to the archive, and the queue of marks. -/

namespace Sys2Proof.Lanes

open Sys2Proof.Machine Sys2Proof.Laws

/-! ### The boundary while the gate is closed (R157, R158) -/

/-- An archive lane but for its allocation state. -/
def acCore (a : AcLane) : AcLane := { a with alloc := .idle }

/-- At most allocation states, the retry timer and the model's own counters change. -/
def Asks (s t : State) : Prop :=
  (∀ k : LaneNo, acCore t.ac[k] = acCore s.ac[k]) ∧
  t = { s with ac := t.ac, retry := t.retry, attemptDue := t.attemptDue, freeCount := t.freeCount }

theorem Asks.refl (s : State) : Asks s s := ⟨fun _ => rfl, rfl⟩

theorem Asks.trans {s t u : State} (a : Asks s t) (b : Asks t u) : Asks s u :=
  ⟨fun k => (b.1 k).trans (a.1 k), by rw [b.2, a.2]⟩

theorem asks_setAlloc (l : LaneNo) (x : AllocState) (s : State) : Asks s (s.setAlloc l x) := by
  have lanes (k : LaneNo) : acCore (s.modAc l (fun a => { a with alloc := x })).ac[k] = acCore s.ac[k] := by
    by_cases e : k = l
    · subst e
      rw [show (s.modAc k (fun a => { a with alloc := x })).ac[k] = { s.ac[k] with alloc := x } from lane_set_self _ _ _]
      rfl
    · exact congrArg acCore (lane_set_ne s.ac _ e)
  unfold State.setAlloc State.syncRetry
  split
  · split <;> exact ⟨lanes, rfl⟩
  · exact ⟨lanes, rfl⟩

theorem Asks.foldl {α : Type} (f : State → α → State) (h : ∀ s x, Asks s (f s x)) :
    ∀ (xs : List α) (s : State), Asks s (xs.foldl f s)
  | [], s => .refl s
  | x :: xs, s => (h s x).trans (Asks.foldl f h xs (f s x))

theorem asks_entered (s : State) : Asks s (entered s) :=
  (Asks.foldl (fun (t : State) l => t.setAlloc l .wanted) (fun t l => asks_setAlloc l _ t) _ s).trans ⟨fun _ => rfl, rfl⟩

theorem asks_draw {α : Type} (xs : List α) (s : State) : Asks s (s.draw xs).2 := by
  unfold State.draw
  split <;> exact ⟨fun _ => rfl, rfl⟩

/-- The gate is as it was where nothing it reads changed. -/
theorem Asks.gate {s t : State} (h : Asks s t) : t.gateOpen = s.gateOpen := by
  rw [h.2]
  rfl

/-- A closed gate makes no attempt (R158). -/
theorem attempt_closed (l : LaneNo) (s : State) (h : s.gateOpen = false) : s.attempt l = s := by
  unfold State.attempt
  rw [h, Bool.and_false]
  rfl

theorem attempts_closed (s : State) (h : s.gateOpen = false) : ∀ xs : List LaneNo,
    xs.foldl (fun (t : State) l => t.attempt l) s = s
  | [] => rfl
  | l :: xs => by rw [List.foldl_cons, attempt_closed l s h, attempts_closed s h xs]

theorem asks_allocateN : ∀ (n : Nat) (s : State), s.gateOpen = false → Asks s (s.allocateN n)
  | 0, s, _ => .refl s
  | n + 1, s, closed => by
    have enter := asks_entered s
    rw [allocateN_succ]
    split
    · exact enter
    · have drawn := asks_draw (dueLanes s) (entered s)
      have still : ((entered s).draw (dueLanes s)).2.gateOpen = false := (drawn.gate.trans enter.gate).trans closed
      rw [attempts_closed _ still]
      exact (enter.trans drawn).trans (asks_allocateN n _ still)

/-- While the gate is closed the boundary of an event only has lanes enter WANTED (R157, R158). -/
theorem asks_allocate (s : State) (closed : s.gateOpen = false) : Asks s s.allocate := asks_allocateN 20 s closed

/-- A boundary with nothing to attend to, or with the gate closed. -/
theorem asks_of_idle (s : State) (h : s.settled ∨ s.gateOpen = false) : Asks s s.allocate := by
  rcases h with h | h
  · rw [allocate_of_settled s h]
    exact .refl s
  · exact asks_allocate s h

/-! ### A record handed to the archive (R137 to R139) -/

theorem archive_untimed (l : LaneNo) (kind : Byte) (content : List Byte) (s : State) (w : s.warm = none) :
    s.archive l kind none content = s.modAc l (fun a => { a with gaps := a.gaps.count kind none }) := by
  simp [State.archive, w]

theorem archive_timed (l : LaneNo) (kind : Byte) (now : Nat) (content : List Byte) (s : State) (w : s.warm = none) :
    s.archive l kind (some now) content
      = (({ s with stamp := s.stamp + 1 } : State).modAc l (AcLane.take s.stamp ⟨kind, now, content⟩)).reportBuffers l := by
  simp [State.archive, w, State.takeStamp]

theorem reportBuffers_ac (l : LaneNo) (s : State) : (s.reportBuffers l).ac = s.ac := by
  unfold State.reportBuffers
  repeat' split
  all_goals rfl

/-- The archive's lanes behind a record: the named lane takes it, or counts it when its time is unset. -/
theorem archive_ac (l : LaneNo) (kind : Byte) (time : Time) (content : List Byte) (s : State) (w : s.warm = none) :
    (s.archive l kind time content).ac = s.ac.set l (match time with
      | some now => s.ac[l].take s.stamp ⟨kind, now, content⟩
      | none => { s.ac[l] with gaps := s.ac[l].gaps.count kind none }) := by
  cases time with
  | none =>
    rw [archive_untimed l kind content s w]
    rfl
  | some now =>
    rw [archive_timed l kind now content s w, reportBuffers_ac]
    rfl

/-- How hold-off stands behind a report of the lane's buffers: changed with its HOLD cell, or as it was (R16). -/
def HoldFollows (l : LaneNo) (s t : State) : Prop :=
  let cell (on : Bool) (resend : Option Nat) (time : Nat) : Prop :=
    t.liu[l].holdOff = on ∧ t.liu[l].resend = resend ∧ t.emitted = [.laneCell l (holdCell l time)] ∧
    t.liu[l].counters.holdsSent = s.liu[l].counters.holdsSent + 1
  (t.ac[l].canTake ≤ 1 → s.liu[l].holdOff = false → cell true (some (s.clock + 100)) 20) ∧
  (2 ≤ t.ac[l].canTake → s.liu[l].holdOff = true → cell false none 0) ∧
  ((t.ac[l].canTake ≤ 1 ↔ s.liu[l].holdOff = true) →
    t.liu[l].holdOff = s.liu[l].holdOff ∧ t.liu[l].resend = s.liu[l].resend ∧ t.emitted = [])

theorem reportBuffers_follows (l : LaneNo) (s : State) (w : s.warm = none) (enabled : s.laneEnabled l = true)
    (quiet : s.emitted = []) : HoldFollows l s (s.reportBuffers l) := by
  have sent (on : Bool) (resend : Option Nat) (time : Nat) : (holdSent l on resend time s).liu[l] = { s.liu[l] with
      holdOff := on
      resend := resend
      counters := { s.liu[l].counters with holdsSent := s.liu[l].counters.holdsSent + 1 } } := lane_set_self _ _ _
  have out (on : Bool) (resend : Option Nat) (time : Nat) :
      (holdSent l on resend time s).emitted = [.laneCell l (holdCell l time)] := by
    simp [holdSent, quiet]
  unfold HoldFollows
  rw [reportBuffers_ac]
  refine ⟨fun few off => ?_, fun many on => ?_, fun same => ?_⟩
  · rw [reportBuffers_on l s w enabled few off, sent, out]
    exact ⟨rfl, rfl, rfl, rfl⟩
  · rw [reportBuffers_off l s w enabled many on, sent, out]
    exact ⟨rfl, rfl, rfl, rfl⟩
  · rw [reportBuffers_same l s (Or.inr (Or.inr same))]
    exact ⟨rfl, rfl, quiet⟩

/-! ### The queue of marks (R80, R81) -/

theorem insertMark_perm (m : Mark) : ∀ q : List Mark, (insertMark m q).Perm (m :: q)
  | [] => .refl _
  | x :: rest => by
    unfold insertMark
    split
    · exact .refl _
    · exact ((insertMark_perm m rest).cons x).trans (.swap m x rest)

/-- A mark whose effective tile none of an ordered queue has enters in order. -/
theorem insertMark_ordered (m : Mark) : ∀ q : List Mark, q.Pairwise (fun x y => x.effTile < y.effTile) →
    (∀ x ∈ q, x.effTile ≠ m.effTile) → (insertMark m q).Pairwise (fun x y => x.effTile < y.effTile)
  | [], _, _ => List.pairwise_singleton _ _
  | x :: rest, ordered, other => by
    obtain ⟨first, tail⟩ := List.pairwise_cons.mp ordered
    unfold insertMark
    split
    · next below =>
      refine List.pairwise_cons.mpr ⟨fun y hy => ?_, ordered⟩
      rcases List.mem_cons.mp hy with rfl | hy
      · exact below
      · exact below.trans (first y hy)
    · next above =>
      refine List.pairwise_cons.mpr ⟨fun y hy => ?_,
        insertMark_ordered m rest tail (fun y hy => other y (List.mem_cons_of_mem x hy))⟩
      rcases List.mem_cons.mp ((insertMark_perm m rest).subset hy) with rfl | hy
      · have := other x List.mem_cons_self
        omega
      · exact first y hy

/-- The mark takes the place of one with its effective tile. -/
theorem queueMark_replaces (l : LaneNo) (m : Mark) (s : State)
    (h : s.st[l].queue.any (fun x => x.effTile == m.effTile) = true) :
    s.queueMark l m = s.modSt l (fun x => { x with
      queue := s.st[l].queue.map (fun y => if y.effTile = m.effTile then m else y)
      queued := x.queued + 1, replaced := x.replaced + 1 }) := by
  unfold State.queueMark
  dsimp only
  rw [if_pos h]

theorem queueMark_enters (l : LaneNo) (m : Mark) (s : State)
    (h : s.st[l].queue.any (fun x => x.effTile == m.effTile) = false) (room : s.st[l].queue.length < 4) :
    s.queueMark l m = s.modSt l (fun x => { x with queue := insertMark m s.st[l].queue, queued := x.queued + 1 }) := by
  unfold State.queueMark
  dsimp only
  rw [if_neg (by rw [h]; decide), if_pos room]

theorem queueMark_overflows (l : LaneNo) (m : Mark) (s : State)
    (h : s.st[l].queue.any (fun x => x.effTile == m.effTile) = false) (full : 4 ≤ s.st[l].queue.length) :
    s.queueMark l m = s.markOverflowFinding l m.segId := by
  unfold State.queueMark
  dsimp only
  rw [if_neg (by rw [h]; decide), if_neg (by omega)]

theorem aside_markOverflow (l : LaneNo) (segId : Nat) (s : State) : Aside s (s.markOverflowFinding l segId) :=
  aside_createFinding _ _ s

theorem markOverflow_raises (l : LaneNo) (segId : Nat) (s : State) :
    (s.markOverflowFinding l segId).notices.finding[l] = true := by
  unfold State.markOverflowFinding
  exact createFinding_raises _ _ s l rfl

theorem aside_lateMark (l : LaneNo) (segId effTile last : Nat) (s : State) :
    Aside s (s.lateMarkFinding l segId effTile last) := aside_createFinding _ _ s

theorem lateMark_raises (l : LaneNo) (segId effTile last : Nat) (s : State) :
    (s.lateMarkFinding l segId effTile last).notices.finding[l] = true := by
  unfold State.lateMarkFinding
  exact createFinding_raises _ _ s l rfl

/-- The first part of the statement: a mark by the effective tiles in the queue and its room. -/
theorem queueMark_spec (l : LaneNo) (m : Mark) (s : State) :
    let q := s.st[l].queue
    (q.any (fun x => x.effTile == m.effTile) = true →
      (s.queueMark l m).st[l].queue = q.map (fun x => if x.effTile = m.effTile then m else x) ∧
      (s.queueMark l m).st[l].queued = s.st[l].queued + 1 ∧
      (s.queueMark l m).st[l].replaced = s.st[l].replaced + 1) ∧
    (q.any (fun x => x.effTile == m.effTile) = false → q.length < 4 →
      (s.queueMark l m).st[l].queue.Perm (m :: q) ∧ (s.queueMark l m).st[l].queued = s.st[l].queued + 1 ∧
      (q.Pairwise (fun x y => x.effTile < y.effTile) →
        (s.queueMark l m).st[l].queue.Pairwise (fun x y => x.effTile < y.effTile))) ∧
    (q.any (fun x => x.effTile == m.effTile) = false → 4 ≤ q.length →
      (s.queueMark l m).st = s.st ∧ (s.queueMark l m).dev.nextId = nextFindingId s.dev.nextId ∧
      (s.queueMark l m).notices.finding[l] = true) := by
  refine ⟨fun h => ?_, fun h room => ?_, fun h full => ?_⟩
  · rw [queueMark_replaces l m s h, modSt_st]
    exact ⟨rfl, rfl, rfl⟩
  · rw [queueMark_enters l m s h room, modSt_st]
    refine ⟨insertMark_perm m _, rfl, fun ordered => insertMark_ordered m _ ordered fun x hx e => ?_⟩
    have := List.any_eq_false.mp h x hx
    exact this (by rw [e]; exact beq_self_eq_true _)
  · rw [queueMark_overflows l m s h full]
    exact ⟨(aside_markOverflow l m.segId s).kept.st, createFinding_nextId _ _ s, markOverflow_raises l m.segId s⟩

end Sys2Proof.Lanes
end

section
/-! PROOFS. MARK and PROXY cells: what they leave alone, their record in the lane's archive stream, and the statement. -/

namespace Sys2Proof.Lanes

open Sys2Proof.Machine Sys2Proof.Laws

/-! ### What a MARK or PROXY cell leaves alone -/

/-- Beside segments, the archive's side and hold-off, nothing changes, and notices stay set. -/
structure Filed (s t : State) : Prop where
  liu : ∀ k : LaneNo, SameCore s.liu[k] t.liu[k]
  le : t.le = s.le
  cc : t.cc = s.cc
  settings : t.settings = s.settings
  station : t.station = s.station
  verdicts : t.verdicts = s.verdicts
  mode : t.alarm.mode = s.alarm.mode
  slots : t.slots = s.slots
  louder : Louder s.notices t.notices

theorem Filed.refl (s : State) : Filed s s :=
  ⟨fun _ => sameCore_of_core rfl, rfl, rfl, rfl, rfl, rfl, rfl, rfl, .refl _⟩

theorem Filed.trans {s t u : State} (a : Filed s t) (b : Filed t u) : Filed s u where
  liu := fun k => (a.liu k).trans (b.liu k)
  le := b.le.trans a.le
  cc := b.cc.trans a.cc
  settings := b.settings.trans a.settings
  station := b.station.trans a.station
  verdicts := b.verdicts.trans a.verdicts
  mode := b.mode.trans a.mode
  slots := b.slots.trans a.slots
  louder := a.louder.trans b.louder

theorem Aside.filed {s t : State} (h : Aside s t) : Filed s t :=
  ⟨core_of_kept h.kept, h.kept.le, h.kept.cc, h.kept.settings, h.kept.station, h.kept.verdicts, h.kept.mode,
    h.kept.slots, h.beside.notices⟩

theorem filed_modSt (l : LaneNo) (f : StLane → StLane) (s : State) : Filed s (s.modSt l f) :=
  ⟨fun _ => sameCore_of_core rfl, rfl, rfl, rfl, rfl, rfl, rfl, rfl, .refl _⟩

theorem filed_queueMark (l : LaneNo) (m : Mark) (s : State) : Filed s (s.queueMark l m) := by
  unfold State.queueMark
  dsimp only
  split
  · exact filed_modSt l _ s
  · split
    · exact filed_modSt l _ s
    · exact (aside_markOverflow l m.segId s).filed

/-- The queue of marks reads and changes the Segment Trackers alone, but for the finding of its overflow. -/
theorem queueMark_st (l : LaneNo) (m : Mark) {s t : State} (h : t.st = s.st) :
    (t.queueMark l m).st = (s.queueMark l m).st := by
  have lane : t.st[l] = s.st[l] := by rw [h]
  by_cases same : s.st[l].queue.any (fun x => x.effTile == m.effTile) = true
  · rw [queueMark_replaces l m s same, queueMark_replaces l m t (by rw [lane]; exact same)]
    simp only [modSt_fields, h]
  · have other := Bool.not_eq_true _ ▸ same
    by_cases room : s.st[l].queue.length < 4
    · rw [queueMark_enters l m s other room, queueMark_enters l m t (by rw [lane]; exact other) (by rw [lane]; exact room)]
      simp only [modSt_fields, h]
    · rw [queueMark_overflows l m s other (by omega),
        queueMark_overflows l m t (by rw [lane]; exact other) (by rw [lane]; omega),
        (aside_markOverflow l m.segId s).kept.st, (aside_markOverflow l m.segId t).kept.st, h]

/-! ### The exchange -/

/-- A good cell is counted by its kind. -/
def counted (l : LaneNo) (bytes : List Byte) (s : State) : State :=
  s.begin.modLiu l (fun x => { x with
    assembly := gather bytes
    counters := x.counters.good ((gather bytes).bytes.getD 1 0#8) })

theorem counted_liu (l : LaneNo) (bytes : List Byte) (s : State) : (counted l bytes s).liu[l] = { s.liu[l] with
    assembly := gather bytes
    counters := s.liu[l].counters.good ((gather bytes).bytes.getD 1 0#8) } := modLiu_liu _ _ _

/-- The assembly buffer is free again, and the boundary of the event follows. -/
def released (l : LaneNo) (s : State) : State := (s.modLiu l (fun x => { x with assembly := ⟨[], false⟩ })).allocate

theorem exec_proxyCell (l : LaneNo) (bytes : List Byte) (s : State) (w : s.warm = none)
    (good : intakeCheck (s.laneEnabled l) l s.liu[l] (gather bytes) = none)
    (kind : (gather bytes).bytes.getD 1 0#8 = kindProxy) :
    exec (.inboundCell l bytes) s
      = .next (released l ((counted l bytes s).archive l recProxy s.station (cellPayload (gather bytes).bytes))) := by
  rw [exec_goodCell l bytes s w good]
  unfold State.routeCell
  dsimp only
  rw [modLiu_modLiu, kind, if_neg (by decide), if_neg (by decide), if_pos rfl, ← kind]
  rfl

theorem exec_markCell (l : LaneNo) (bytes : List Byte) (s : State) (w : s.warm = none)
    (good : intakeCheck (s.laneEnabled l) l s.liu[l] (gather bytes) = none)
    (kind : (gather bytes).bytes.getD 1 0#8 = kindMark) :
    exec (.inboundCell l bytes) s
      = .next (released l ((counted l bytes s).takeMark l (cellPayload (gather bytes).bytes))) := by
  rw [exec_goodCell l bytes s w good]
  unfold State.routeCell
  dsimp only
  rw [modLiu_modLiu, kind, if_neg (by decide), if_neg (by decide), if_neg (by decide), ← kind]
  rfl

/-- The cell is taken: the exchange leads to `t`, which leaves what the statement names. -/
def Taken (l : LaneNo) (bytes : List Byte) (s t : State) : Prop :=
  exec (.inboundCell l bytes) s = .next t ∧ (∀ k : LaneNo, s.liu[k].sameCarriage t.liu[k]) ∧ t.le = s.le ∧ t.cc = s.cc ∧
  t.settings = s.settings ∧ t.station = s.station ∧ t.verdicts = s.verdicts ∧ t.alarm.mode = s.alarm.mode ∧
  t.slots = s.slots

theorem released_spec (l : LaneNo) (s : State) : Aside (s.modLiu l (fun x => { x with assembly := ⟨[], false⟩ }))
    (released l s) := aside_allocate _

/-- Behind the routing of the cell, the release of the assembly buffer leaves what the routing left. -/
theorem taken_of_filed {l : LaneNo} {bytes : List Byte} {s v : State} (h : Filed (counted l bytes s) v)
    (run : exec (.inboundCell l bytes) s = .next (released l v)) : Taken l bytes s (released l v) := by
  have done := (released_spec l v).filed
  refine ⟨run, fun k => ?_, done.le.trans h.le, done.cc.trans h.cc, done.settings.trans h.settings,
    done.station.trans h.station, done.verdicts.trans h.verdicts, done.mode.trans h.mode, done.slots.trans h.slots⟩
  have first := (h.liu k).shared
  have last := (done.liu k).shared
  by_cases e : k = l
  · subst e
    rw [counted_liu] at first
    rw [modLiu_liu] at last
    exact ⟨last.carriage.trans first.carriage, last.run.trans first.run, last.gapTimer.trans first.gapTimer,
      last.window.trans first.window, last.lastCount.trans first.lastCount, last.openTile.trans first.openTile,
      last.lossTile.trans first.lossTile⟩
  · rw [show (counted l bytes s).liu[k] = s.liu[k] from lane_set_ne _ _ e] at first
    rw [show (v.modLiu l (fun x => { x with assembly := ⟨[], false⟩ })).liu[k] = v.liu[k] from lane_set_ne _ _ e] at last
    exact ⟨last.carriage.trans first.carriage, last.run.trans first.run, last.gapTimer.trans first.gapTimer,
      last.window.trans first.window, last.lastCount.trans first.lastCount, last.openTile.trans first.openTile,
      last.lossTile.trans first.lossTile⟩

/-- The counts of cells by kind are those at the routing. -/
theorem released_counters {l : LaneNo} {bytes : List Byte} {s v : State} (h : Filed (counted l bytes s) v) :
    { (released l v).liu[l].counters with holdsSent := 0 }
      = { s.liu[l].counters.good ((gather bytes).bytes.getD 1 0#8) with holdsSent := 0 } := by
  have last := ((released_spec l v).filed.liu l).counters
  have first := (h.liu l).counters
  rw [modLiu_liu] at last
  rw [counted_liu] at first
  exact last.trans first

theorem released_st (l : LaneNo) (s : State) : (released l s).st = s.st := (released_spec l s).kept.st

/-! ### The routing of a MARK cell (R79 to R81) -/

/-- The record of a MARK cell goes to the archive first. -/
def markRecorded (l : LaneNo) (bytes : List Byte) (s : State) : State :=
  ((counted l bytes s).archive l recMark s.station (cellPayload (gather bytes).bytes)).allocate

theorem markRecorded_aside (l : LaneNo) (bytes : List Byte) (s : State) :
    Aside (counted l bytes s) (markRecorded l bytes s) := aside_record _ _ _ _ _

theorem markRecorded_st (l : LaneNo) (bytes : List Byte) (s : State) : (markRecorded l bytes s).st = s.st :=
  (markRecorded_aside l bytes s).kept.st

theorem takeMark_undefined (l : LaneNo) (bytes : List Byte) (s : State)
    (h : readMark (cellPayload (gather bytes).bytes) = none) :
    (counted l bytes s).takeMark l (cellPayload (gather bytes).bytes)
      = (markRecorded l bytes s).modSt l (fun x => { x with invalid := x.invalid + 1 }) := by
  unfold State.takeMark
  rw [h]
  rfl

theorem takeMark_defined (l : LaneNo) (bytes : List Byte) (m : Mark) (s : State)
    (h : readMark (cellPayload (gather bytes).bytes) = some m) :
    (counted l bytes s).takeMark l (cellPayload (gather bytes).bytes) = (markRecorded l bytes s).takeValidMark l m := by
  unfold State.takeMark
  rw [h]
  rfl

theorem takeValidMark_timely (l : LaneNo) (m : Mark) (s : State)
    (h : ∀ o : Nat, s.st[l].lastOpened = some o → o < m.effTile) : s.takeValidMark l m = s.queueMark l m := by
  unfold State.takeValidMark
  split
  · next o last => rw [if_neg (by have := h o last; omega)]
  · rfl

theorem takeValidMark_late (l : LaneNo) (m : Mark) (o : Nat) (s : State) (last : s.st[l].lastOpened = some o)
    (h : m.effTile ≤ o) : s.takeValidMark l m
      = (s.lateMarkFinding l m.segId m.effTile o).queueMark l { m with effTile := o + 1 } := by
  unfold State.takeValidMark
  rw [last]
  exact if_pos h

end Sys2Proof.Lanes
end

section
/-! PROOFS. The record of a MARK or PROXY cell in the archive stream of its lane, and the statement of marks. -/

namespace Sys2Proof.Lanes

open Sys2Proof.Machine Sys2Proof.Laws

/-! ### The record of the cell -/

/-- The archive record kind of a PROXY cell, and of a MARK cell. -/
def recordKind (kind : Byte) : Byte := if kind = kindProxy then 1#8 else 3#8

/-- The cell's record has been handed to the archive. -/
def recorded (l : LaneNo) (bytes : List Byte) (s : State) : State :=
  (counted l bytes s).archive l (recordKind ((gather bytes).bytes.getD 1 0#8)) s.station
    (cellPayload (gather bytes).bytes)

/-- The cell is a PROXY cell, or a MARK cell of undefined codes: its record is all that the archive sees of it. -/
def Plain (bytes : List Byte) : Prop :=
  (gather bytes).bytes.getD 1 0#8 = kindProxy ∨
    ((gather bytes).bytes.getD 1 0#8 = kindMark ∧ readMark (cellPayload (gather bytes).bytes) = none)

theorem recorded_aside (l : LaneNo) (bytes : List Byte) (s : State) : Aside (counted l bytes s) (recorded l bytes s) :=
  aside_archive _ _ _ _ _

theorem gate_of_kept {s t : State} (h : Kept s t) : t.gateOpen = s.gateOpen := by
  have up : t.store.up = s.store.up := (congrArg StorePort.up h.store : _)
  unfold State.gateOpen State.scanning State.formatting
  rw [h.station, h.scan, h.format, up]

/-- The boundary has nothing to attend to, or makes no attempt. -/
def Idle (s : State) : Prop := s.settled ∨ s.gateOpen = false

theorem Idle.of_ac {s t : State} (h : Idle s) (due : t.attemptDue = s.attemptDue) (ac : t.ac = s.ac)
    (gate : t.gateOpen = s.gateOpen) : Idle t := by
  rcases h with h | h
  · exact Or.inl (settled_of_ac h due ac)
  · exact Or.inr (gate.trans h)

theorem acCore_buffers {a b : AcLane} (h : acCore a = acCore b) : a.buffers = b.buffers := by
  simp only [acCore, AcLane.mk.injEq] at h
  exact h.1

theorem acCore_gaps {a b : AcLane} (h : acCore a = acCore b) : a.gaps = b.gaps := by
  simp only [acCore, AcLane.mk.injEq] at h
  exact h.2.1

theorem acCore_short {a b : AcLane} (h : acCore a = acCore b) : a.short = b.short := by
  simp only [acCore, AcLane.mk.injEq] at h
  exact h.2.2.2.2.2

/-- What a lane's archive stream and hold-off are, and what was emitted. -/
structure Delivered (l : LaneNo) (w t : State) : Prop where
  lanes : ∀ k : LaneNo, acCore t.ac[k] = acCore w.ac[k]
  holdOff : t.liu[l].holdOff = w.liu[l].holdOff
  resend : t.liu[l].resend = w.liu[l].resend
  holdsSent : t.liu[l].counters.holdsSent = w.liu[l].counters.holdsSent
  emitted : t.emitted = w.emitted

theorem Asks.delivered {l : LaneNo} {s t : State} (h : Asks s t) : Delivered l s t := by
  have liu : t.liu = s.liu := by rw [h.2]
  have emitted : t.emitted = s.emitted := by rw [h.2]
  exact ⟨h.1, by rw [liu], by rw [liu], by rw [liu], emitted⟩

theorem Delivered.trans {l : LaneNo} {s t u : State} (a : Delivered l s t) (b : Delivered l t u) : Delivered l s u :=
  ⟨fun k => (b.lanes k).trans (a.lanes k), b.holdOff.trans a.holdOff, b.resend.trans a.resend,
    b.holdsSent.trans a.holdsSent, b.emitted.trans a.emitted⟩

/-- The release of the assembly buffer of a lane whose archive is idle. -/
theorem released_delivered (l : LaneNo) (s : State) (h : Idle s) :
    Delivered l s (released l s) ∧ (s.settled → (released l s).ac = s.ac) := by
  have own := modLiu_liu l (fun x => { x with assembly := ⟨[], false⟩ }) s
  have first : Delivered l s (s.modLiu l (fun x => { x with assembly := ⟨[], false⟩ })) :=
    ⟨fun _ => rfl, by rw [own], by rw [own], by rw [own], rfl⟩
  have after : Idle (s.modLiu l (fun x => { x with assembly := ⟨[], false⟩ })) := h.of_ac rfl rfl rfl
  refine ⟨first.trans (asks_of_idle _ after).delivered, fun settled => ?_⟩
  have still : (s.modLiu l (fun x => { x with assembly := ⟨[], false⟩ })).settled := settled_of_ac settled rfl rfl
  unfold released
  rw [allocate_of_settled _ still]
  rfl

/-- A PROXY cell, or a MARK cell of undefined codes, is taken; an idle archive leaves its record as it was handed on. -/
theorem plain_delivered (l : LaneNo) (bytes : List Byte) (s : State) (w : s.warm = none)
    (good : intakeCheck (s.laneEnabled l) l s.liu[l] (gather bytes) = none) (plain : Plain bytes) :
    ∃ t, Taken l bytes s t ∧ (Idle (recorded l bytes s) → Delivered l (recorded l bytes s) t) ∧
      ((recorded l bytes s).settled → t.ac = (recorded l bytes s).ac) := by
  rcases plain with kind | ⟨kind, undefined⟩
  · have run := exec_proxyCell l bytes s w good kind
    have same : recorded l bytes s = (counted l bytes s).archive l recProxy s.station (cellPayload (gather bytes).bytes) := by
      unfold recorded
      rw [kind]
      rfl
    rw [← same] at run
    refine ⟨_, taken_of_filed (recorded_aside l bytes s).filed run, fun idle => (released_delivered l _ idle).1,
      fun settled => (released_delivered l _ (Or.inl settled)).2 settled⟩
  · have run := exec_markCell l bytes s w good kind
    rw [takeMark_undefined l bytes s undefined] at run
    have same : markRecorded l bytes s = (recorded l bytes s).allocate := by
      unfold recorded markRecorded
      rw [kind]
      rfl
    rw [same] at run
    have filed : Filed (counted l bytes s)
        ((recorded l bytes s).allocate.modSt l (fun x => { x with invalid := x.invalid + 1 })) :=
      ((recorded_aside l bytes s).filed.trans (aside_allocate _).filed).trans (filed_modSt l _ _)
    have still (settled : (recorded l bytes s).settled) : (recorded l bytes s).allocate = recorded l bytes s :=
      allocate_of_settled _ settled
    refine ⟨_, taken_of_filed filed run, fun idle => ?_, fun settled => ?_⟩
    · have asks := asks_of_idle _ idle
      have after : Idle ((recorded l bytes s).allocate.modSt l (fun x => { x with invalid := x.invalid + 1 })) := by
        rcases idle with settled | closed
        · rw [still settled]
          exact Or.inl (settled_of_ac settled rfl rfl)
        · exact Or.inr ((show _ = (recorded l bytes s).allocate.gateOpen from rfl).trans (asks.gate.trans closed))
      have middle : Delivered l (recorded l bytes s).allocate
          ((recorded l bytes s).allocate.modSt l (fun x => { x with invalid := x.invalid + 1 })) :=
        ⟨fun _ => rfl, rfl, rfl, rfl, rfl⟩
      exact (asks.delivered.trans middle).trans (released_delivered l _ after).1
    · rw [still settled]
      have after : ((recorded l bytes s).modSt l (fun x => { x with invalid := x.invalid + 1 })).settled :=
        settled_of_ac settled rfl rfl
      exact (released_delivered l _ (Or.inl after)).2 after

/-! ### The stream behind the record -/

/-- Taking a record changes buffers and gap counts alone. -/
theorem take_core (stamp : Nat) (r : Record) (a : AcLane) :
    ∃ b g, a.take stamp r = { a with buffers := b, gaps := g } := by
  have close (a : AcLane) : ∃ b, a.closeFilling stamp = { a with buffers := b } := by
    unfold AcLane.closeFilling
    split <;> exact ⟨_, rfl⟩
  have place (r : Record) (a : AcLane) : ∃ b, (a.place stamp r).2 = { a with buffers := b } := by
    obtain ⟨b, closed⟩ := close a
    unfold AcLane.place
    split
    · exact ⟨_, rfl⟩
    · rw [closed]
      dsimp only
      split <;> exact ⟨_, rfl⟩
  unfold AcLane.take
  split
  · split
    · obtain ⟨b, first⟩ := place (a.gaps.record r.time) a
      obtain ⟨c, second⟩ := place r { a with buffers := b }
      rw [first]
      dsimp only
      rw [second]
      exact ⟨_, _, rfl⟩
    · obtain ⟨b, closed⟩ := close a
      rw [closed]
      dsimp only
      split <;> exact ⟨_, _, rfl⟩
  · obtain ⟨b, placed⟩ := place r a
    dsimp only
    rw [placed]
    split <;> exact ⟨_, _, rfl⟩

/-- The record of a cell whose time is set. -/
def cellRecord (bytes : List Byte) (now : Nat) : Record :=
  ⟨recordKind ((gather bytes).bytes.getD 1 0#8), now, cellPayload (gather bytes).bytes⟩

theorem recorded_timed (l : LaneNo) (bytes : List Byte) (now : Nat) (s : State) (w : s.warm = none)
    (time : s.station = some now) :
    (recorded l bytes s).ac = s.ac.set l (s.ac[l].take s.stamp (cellRecord bytes now)) := by
  unfold recorded
  rw [archive_ac l _ _ _ (counted l bytes s) w, time]
  rfl

theorem recorded_untimed (l : LaneNo) (bytes : List Byte) (s : State) (w : s.warm = none) (time : s.station = none) :
    (recorded l bytes s).ac = s.ac.set l { s.ac[l] with
      gaps := s.ac[l].gaps.count (recordKind ((gather bytes).bytes.getD 1 0#8)) none } := by
  unfold recorded
  rw [archive_ac l _ _ _ (counted l bytes s) w, time]
  rfl

theorem recorded_due (l : LaneNo) (bytes : List Byte) (s : State) : (recorded l bytes s).attemptDue = s.attemptDue := by
  have report (t : State) : (t.reportBuffers l).attemptDue = t.attemptDue := by
    unfold State.reportBuffers
    repeat' split
    all_goals rfl
  unfold recorded State.archive
  split
  · rfl
  · split
    · rfl
    · dsimp only
      rw [report]
      rfl

theorem recorded_gate (l : LaneNo) (bytes : List Byte) (s : State) : (recorded l bytes s).gateOpen = s.gateOpen :=
  (gate_of_kept (recorded_aside l bytes s).kept).trans rfl

/-- The part is settled behind the record, when the lane has no need of an extent. -/
theorem recorded_settled {l : LaneNo} {bytes : List Byte} {s : State} {x : AcLane} (settled : s.settled)
    (ac : (recorded l bytes s).ac = s.ac.set l x) (content : x.alloc = .idle → x.holdsRecords = false) :
    (recorded l bytes s).settled := by
  refine ⟨(recorded_due l bytes s).trans settled.1, fun k => ?_⟩
  have before := settled.2 k
  rw [← Bool.not_eq_true, needsExtent_iff] at before ⊢
  rw [ac]
  by_cases e : k = l
  · subst e
    rw [lane_set_self]
    exact fun h => absurd h.2 (by rw [content h.1]; decide)
  · rwa [lane_set_ne _ _ e]

/-- With an allocation state, or a closed gate, the boundary leaves the record as it was handed on. -/
theorem recorded_idle {l : LaneNo} {bytes : List Byte} {now : Nat} {s : State} (w : s.warm = none) (settled : s.settled)
    (time : s.station = some now) (h : s.ac[l].alloc ≠ .idle ∨ s.gateOpen = false) : Idle (recorded l bytes s) := by
  rcases h with h | h
  · refine Or.inl (recorded_settled settled (recorded_timed l bytes now s w time) fun e => absurd ?_ h)
    obtain ⟨b, g, shape⟩ := take_core s.stamp (cellRecord bytes now) s.ac[l]
    rwa [shape] at e
  · exact Or.inr ((recorded_gate l bytes s).trans h)

/-- Hold-off follows the buffers behind the record (R16). -/
theorem recorded_follows (l : LaneNo) (bytes : List Byte) (now : Nat) (s : State) (w : s.warm = none)
    (time : s.station = some now) (enabled : s.laneEnabled l = true) : HoldFollows l s (recorded l bytes s) := by
  have follows := reportBuffers_follows l ((({ counted l bytes s with stamp := s.stamp + 1 } : State)).modAc l
    (AcLane.take s.stamp (cellRecord bytes now))) w enabled rfl
  have own := counted_liu l bytes s
  have run : recorded l bytes s = (({ counted l bytes s with stamp := s.stamp + 1 } : State).modAc l
      (AcLane.take s.stamp (cellRecord bytes now))).reportBuffers l := by
    unfold recorded
    rw [time, archive_timed l _ now _ (counted l bytes s) w]
    rfl
  rw [run]
  have good (c : IntakeCounters) (kind : Byte) : (c.good kind).holdsSent = c.holdsSent := by
    unfold IntakeCounters.good
    repeat' split
    all_goals rfl
  unfold HoldFollows at follows ⊢
  rw [show (({ counted l bytes s with stamp := s.stamp + 1 } : State).modAc l
    (AcLane.take s.stamp (cellRecord bytes now))).liu[l] = (counted l bytes s).liu[l] from rfl, own] at follows
  simp only [good] at follows
  exact follows

/-- What the lane's hold-off follows stays where the stream and hold-off do. -/
theorem Delivered.follows {l : LaneNo} {s w t : State} (h : Delivered l w t) (f : HoldFollows l s w) : HoldFollows l s t := by
  have buffers : t.ac[l].canTake = w.ac[l].canTake := by
    have same : t.ac[l].buffers = w.ac[l].buffers := acCore_buffers (h.lanes l)
    unfold AcLane.canTake
    rw [same]
  unfold HoldFollows at f ⊢
  rwa [buffers, h.holdOff, h.resend, h.emitted, h.holdsSent]

end Sys2Proof.Lanes
end

section
/-! PROOFS. Marks and the archive's records of MARK and PROXY cells: the statement, from the places that a record can find. -/

namespace Sys2Proof.Lanes

open Sys2Proof.Machine Sys2Proof.Laws

/-! ### Pending gap counts (R139) -/

theorem bumpSat_eq (n : Nat) : bumpSat n = min (n + 1) 4294967295 := by
  unfold bumpSat maxCount32
  split <;> omega

/-- The gap counts that a missed record of a cell leaves. -/
def gapCounted (kind : Byte) (now : Nat) (g : GapCounts) : GapCounts :=
  { g with
    proxy := if kind = kindProxy then min (g.proxy + 1) 4294967295 else g.proxy
    mark := if kind = kindProxy then g.mark else min (g.mark + 1) 4294967295
    earliest := some (min (g.earliest.getD now) now)
    latest := some (max (g.latest.getD now) now) }

theorem earlierOf_eq (a : Option Nat) (t : Nat) : earlierOf a t = min (a.getD t) t := by
  cases a <;> simp [earlierOf]

theorem laterOf_eq (a : Option Nat) (t : Nat) : laterOf a t = max (a.getD t) t := by
  cases a <;> simp [laterOf]

theorem count_timed (kind : Byte) (now : Nat) (g : GapCounts) :
    g.count (recordKind kind) (some now) = gapCounted kind now g := by
  unfold GapCounts.count gapCounted recordKind
  by_cases h : kind = kindProxy
  · simp only [if_pos h, recProxy, if_true, earlierOf_eq, laterOf_eq, bumpSat_eq]
  · simp only [if_neg h, recProxy, recCaption, recMark, earlierOf_eq, laterOf_eq, bumpSat_eq]
    rfl

/-- A missed record, whether or not its time is set, adds one to the count of its kind. -/
theorem count_kinds (kind : Byte) (time : Time) (g : GapCounts) :
    (kind = kindProxy → (g.count (recordKind kind) time).proxy = min (g.proxy + 1) 4294967295) ∧
    (kind = kindMark → (g.count (recordKind kind) time).mark = min (g.mark + 1) 4294967295) := by
  rw [← bumpSat_eq, ← bumpSat_eq]
  unfold GapCounts.count
  constructor <;> rintro rfl <;> cases time <;> rfl

/-! ### The place of the record, as the statement has it -/

/-- The record finds its place: buffers `b`, no pending gap counts, and hold-off that follows. -/
def PlacedIn (l : LaneNo) (bytes : List Byte) (s : State) (b : Vector PageBuffer 4) : Prop :=
  ∃ t, Taken l bytes s t ∧ t.ac[l].buffers = b ∧ t.ac[l].gaps = (if s.ac[l].gaps.any then .zero else s.ac[l].gaps) ∧
    HoldFollows l s t

/-- The record is counted: buffers `b`, and hold-off that follows. -/
def CountedIn (l : LaneNo) (bytes : List Byte) (now : Nat) (s : State) (b : Vector PageBuffer 4) : Prop :=
  ∃ t, Taken l bytes s t ∧ t.ac[l].buffers = b ∧ HoldFollows l s t ∧
    t.ac[l].gaps = gapCounted ((gather bytes).bytes.getD 1 0#8) now s.ac[l].gaps

section
variable {l : LaneNo} {bytes : List Byte} {now : Nat} {s : State} (w : s.warm = none) (settled : s.settled)
  (good : intakeCheck (s.laneEnabled l) l s.liu[l] (gather bytes) = none) (plain : Plain bytes)
  (time : s.station = some now) (idle : s.ac[l].alloc ≠ .idle ∨ s.gateOpen = false)

/-- A good cell is one of an enabled lane, with a payload of its kind's length (R2, R3). -/
theorem good_cell {x : Liu} {enabled : Bool} {a : Assembly} (good : intakeCheck enabled l x a = none) :
    enabled = true ∧ cellLengthOk a.bytes = true := by
  unfold intakeCheck at good
  dsimp only at good
  split_ifs at good with e _ _ _ _ length
  · exact ⟨by simpa using e, by simpa using length⟩

theorem plain_length (plain : Plain bytes) (length : cellLengthOk (gather bytes).bytes = true) :
    (cellPayload (gather bytes).bytes).length ≤ 1024 := by
  unfold cellLengthOk at length
  simp only [Bool.and_eq_true, decide_eq_true_eq] at length
  obtain ⟨-, permits⟩ := length
  rcases plain with kind | ⟨kind, -⟩ <;> rw [kind] at permits
  · rw [if_neg (by decide), if_neg (by decide), if_pos rfl, decide_eq_true_eq] at permits
    exact permits.2
  · rw [if_neg (by decide), if_neg (by decide), if_neg (by decide), decide_eq_true_eq] at permits
    omega

include w settled good plain time idle

/-- The lane's stream behind the cell is what taking its record makes of it. -/
theorem stream_behind : ∃ t, Taken l bytes s t ∧ HoldFollows l s t ∧
    acCore t.ac[l] = acCore (s.ac[l].take s.stamp (cellRecord bytes now)) := by
  obtain ⟨t, taken, delivered, -⟩ := plain_delivered l bytes s w good plain
  have kept := delivered (recorded_idle w settled time idle)
  refine ⟨t, taken, kept.follows (recorded_follows l bytes now s w time (good_cell good).1), ?_⟩
  rw [kept.lanes l, recorded_timed l bytes now s w time, lane_set_self]

theorem placed_of_take {b : Vector PageBuffer 4} (h : s.ac[l].take s.stamp (cellRecord bytes now)
    = { s.ac[l] with buffers := b, gaps := if s.ac[l].gaps.any then .zero else s.ac[l].gaps }) : PlacedIn l bytes s b := by
  obtain ⟨t, taken, follows, core⟩ := stream_behind w settled good plain time idle
  rw [h] at core
  exact ⟨t, taken, acCore_buffers core, acCore_gaps core, follows⟩

theorem counted_of_take {b : Vector PageBuffer 4} (h : s.ac[l].take s.stamp (cellRecord bytes now)
    = missed (cellRecord bytes now) { s.ac[l] with buffers := b }) : CountedIn l bytes now s b := by
  obtain ⟨t, taken, follows, core⟩ := stream_behind w settled good plain time idle
  rw [h] at core
  exact ⟨t, taken, acCore_buffers core, follows, (acCore_gaps core).trans (count_timed _ _ _)⟩

/-- Without pending gaps the record goes by the room of the FILLING buffer and the lowest FREE one. -/
theorem places_without_gaps (gaps : s.ac[l].gaps.any = false) :
    let b := s.ac[l].buffers
    let r := cellRecord bytes now
    (∀ i : Fin 4, s.ac[l].filling = some i → b[i].used + r.size ≤ 16381 → PlacedIn l bytes s (added i [r] b)) ∧
    (∀ i j : Fin 4, s.ac[l].filling = some i → 16381 < b[i].used + r.size → s.ac[l].lowestFree = some j →
      PlacedIn l bytes s (added j [r] (closedAt s.stamp i b))) ∧
    (∀ j : Fin 4, s.ac[l].filling = none → s.ac[l].lowestFree = some j → PlacedIn l bytes s (added j [r] b)) ∧
    (∀ i : Fin 4, s.ac[l].filling = some i → 16381 < b[i].used + r.size → s.ac[l].lowestFree = none →
      CountedIn l bytes now s (closedAt s.stamp i b)) := by
  have kept {x : AcLane} {b : Vector PageBuffer 4} (h : x = { s.ac[l] with buffers := b }) :
      x = { s.ac[l] with buffers := b, gaps := if s.ac[l].gaps.any then .zero else s.ac[l].gaps } := by
    rw [h, gaps]
    rfl
  refine ⟨fun i filling room => ?_, fun i j filling full free => ?_, fun j filling free => ?_,
    fun i filling full free => ?_⟩
  · exact placed_of_take w settled good plain time idle (kept (take_placed gaps (place_room filling room _)))
  · exact placed_of_take w settled good plain time idle (kept (take_placed gaps (place_next filling full free _)))
  · exact placed_of_take w settled good plain time idle (kept (take_placed gaps (place_first filling free _)))
  · exact counted_of_take w settled good plain time idle (take_missed gaps (place_full filling full free _))

/-- With pending gaps their GAP record goes first, and neither goes when not both find a place. -/
theorem places_with_gaps (gaps : s.ac[l].gaps.any = true) :
    let b := s.ac[l].buffers
    let r := cellRecord bytes now
    let g := s.ac[l].gaps.record now
    (∀ i : Fin 4, s.ac[l].filling = some i → b[i].used + 47 + r.size ≤ 16381 → PlacedIn l bytes s (added i [g, r] b)) ∧
    (∀ i j : Fin 4, s.ac[l].filling = some i → b[i].used + 47 ≤ 16381 → 16381 < b[i].used + 47 + r.size →
      s.ac[l].lowestFree = some j → PlacedIn l bytes s (added j [r] (closedAt s.stamp i (added i [g] b)))) ∧
    (∀ i j : Fin 4, s.bounded → s.ac[l].filling = some i → 16381 < b[i].used + 47 →
      s.ac[l].lowestFree = some j → b[j].records = [] → PlacedIn l bytes s (added j [g, r] (closedAt s.stamp i b))) ∧
    (∀ j : Fin 4, s.ac[l].filling = none → s.ac[l].lowestFree = some j → b[j].records = [] →
      PlacedIn l bytes s (added j [g, r] b)) ∧
    (∀ i : Fin 4, s.ac[l].filling = some i → 16381 < b[i].used + 47 + r.size → s.ac[l].lowestFree = none →
      CountedIn l bytes now s (if b[i].used + r.size ≤ 16381 then b else closedAt s.stamp i b)) ∧
    (s.ac[l].filling = none → s.ac[l].lowestFree = none → CountedIn l bytes now s b) := by
  have kept {x : AcLane} {b : Vector PageBuffer 4} (h : x = { s.ac[l] with buffers := b, gaps := .zero }) :
      x = { s.ac[l] with buffers := b, gaps := if s.ac[l].gaps.any then .zero else s.ac[l].gaps } := by
    rw [h, gaps]
    rfl
  have fits : 47 + (cellRecord bytes now).size ≤ 16381 := by
    have := plain_length plain (good_cell good).2
    unfold cellRecord Record.size
    dsimp only
    omega
  refine ⟨fun i filling room => ?_, fun i j filling room full free => ?_, fun i j bounded filling full free empty => ?_,
    fun j filling free empty => ?_, fun i filling full free => ?_, fun filling free => ?_⟩
  · exact placed_of_take w settled good plain time idle (kept (take_gap_room gaps filling room))
  · exact placed_of_take w settled good plain time idle (kept (take_gap_split gaps filling room full free))
  · exact placed_of_take w settled good plain time idle
      (kept (take_gap_next gaps filling (bounded.filling l) full free empty fits))
  · exact placed_of_take w settled good plain time idle (kept (take_gap_first gaps filling free empty fits))
  · exact counted_of_take w settled good plain time idle (take_gap_full gaps filling full free)
  · exact counted_of_take w settled good plain time idle (take_gap_nowhere gaps filling free)

end

end Sys2Proof.Lanes
end

section
/-! PROOFS. Marks, their queue and their findings, and the archive records of MARK and PROXY cells: the statement. -/

namespace Sys2Proof.Lanes

open Sys2Proof.Machine Sys2Proof.Laws

/-! ### The marks of a cell -/

theorem mark_count {a b c : IntakeCounters} {kind : Byte} (h : { a with holdsSent := 0 } = { c with holdsSent := 0 })
    (good : c = b.good kind) :
    (kind = kindMark → a.mark = b.mark + 1) ∧ (kind = kindProxy → a.proxy = b.proxy + 1) := by
  subst good
  simp only [IntakeCounters.mk.injEq] at h
  obtain ⟨-, -, proxy, mark, -⟩ := h
  constructor <;> rintro rfl
  · rw [mark]
    rfl
  · rw [proxy]
    rfl

theorem mark_undefined (l : LaneNo) (bytes : List Byte) (s : State) (w : s.warm = none)
    (good : intakeCheck (s.laneEnabled l) l s.liu[l] (gather bytes) = none)
    (kind : (gather bytes).bytes.getD 1 0#8 = kindMark) (undefined : readMark (cellPayload (gather bytes).bytes) = none) :
    ∃ t, Taken l bytes s t ∧ t.liu[l].counters.mark = s.liu[l].counters.mark + 1 ∧
      t.st = s.st.set l { s.st[l] with invalid := s.st[l].invalid + 1 } := by
  have run := exec_markCell l bytes s w good kind
  rw [takeMark_undefined l bytes s undefined] at run
  have filed := (markRecorded_aside l bytes s).filed.trans
    (filed_modSt l (fun x => { x with invalid := x.invalid + 1 }) (markRecorded l bytes s))
  refine ⟨_, taken_of_filed filed run, (mark_count (released_counters filed) rfl).1 kind, ?_⟩
  rw [released_st]
  simp only [modSt_fields, markRecorded_st]

theorem mark_timely (l : LaneNo) (bytes : List Byte) (m : Mark) (s : State) (w : s.warm = none)
    (good : intakeCheck (s.laneEnabled l) l s.liu[l] (gather bytes) = none)
    (kind : (gather bytes).bytes.getD 1 0#8 = kindMark) (defined : readMark (cellPayload (gather bytes).bytes) = some m)
    (timely : ∀ o : Nat, s.st[l].lastOpened = some o → o < m.effTile) :
    ∃ t, Taken l bytes s t ∧ t.liu[l].counters.mark = s.liu[l].counters.mark + 1 ∧ t.st = (s.queueMark l m).st ∧
      (4 ≤ s.st[l].queue.length → s.st[l].queue.any (fun x => x.effTile == m.effTile) = false →
        t.notices.finding[l] = true) := by
  have st := markRecorded_st l bytes s
  have run := exec_markCell l bytes s w good kind
  rw [takeMark_defined l bytes m s defined, takeValidMark_timely l m _ (by rw [st]; exact timely)] at run
  have filed := (markRecorded_aside l bytes s).filed.trans (filed_queueMark l m (markRecorded l bytes s))
  refine ⟨_, taken_of_filed filed run, (mark_count (released_counters filed) rfl).1 kind, ?_, fun full other => ?_⟩
  · rw [released_st, queueMark_st l m st]
  · rw [queueMark_overflows l m _ (by rw [st]; exact other) (by rw [st]; exact full)]
    exact (released_spec l _).beside.notices.finding l (markOverflow_raises l m.segId _)

theorem mark_late (l : LaneNo) (bytes : List Byte) (m : Mark) (o : Nat) (s : State) (w : s.warm = none)
    (good : intakeCheck (s.laneEnabled l) l s.liu[l] (gather bytes) = none)
    (kind : (gather bytes).bytes.getD 1 0#8 = kindMark) (defined : readMark (cellPayload (gather bytes).bytes) = some m)
    (last : s.st[l].lastOpened = some o) (late : m.effTile ≤ o) :
    ∃ t, Taken l bytes s t ∧ t.st = (s.queueMark l { m with effTile := o + 1 }).st ∧ t.notices.finding[l] = true := by
  have st := markRecorded_st l bytes s
  have run := exec_markCell l bytes s w good kind
  rw [takeMark_defined l bytes m s defined, takeValidMark_late l m o _ (by rw [st]; exact last) late] at run
  have finding := aside_lateMark l m.segId m.effTile o (markRecorded l bytes s)
  have raised := lateMark_raises l m.segId m.effTile o (markRecorded l bytes s)
  have queued := filed_queueMark l { m with effTile := o + 1 } ((markRecorded l bytes s).lateMarkFinding l m.segId m.effTile o)
  have filed := ((markRecorded_aside l bytes s).filed.trans finding.filed).trans queued
  refine ⟨_, taken_of_filed filed run, ?_, ?_⟩
  · rw [released_st, queueMark_st l _ (finding.kept.st.trans st)]
  · exact (released_spec l _).beside.notices.finding l (queued.louder.finding l raised)

theorem proxy_counted (l : LaneNo) (bytes : List Byte) (s : State) (w : s.warm = none)
    (good : intakeCheck (s.laneEnabled l) l s.liu[l] (gather bytes) = none)
    (kind : (gather bytes).bytes.getD 1 0#8 = kindProxy) :
    ∃ t, Taken l bytes s t ∧ t.liu[l].counters.proxy = s.liu[l].counters.proxy + 1 ∧ t.st = s.st := by
  have run := exec_proxyCell l bytes s w good kind
  have record := aside_archive l recProxy s.station (cellPayload (gather bytes).bytes) (counted l bytes s)
  refine ⟨_, taken_of_filed record.filed run, (mark_count (released_counters record.filed) rfl).2 kind, ?_⟩
  rw [released_st, record.kept.st]
  rfl

/-! ### The records -/

/-- A FILLING buffer that takes records keeps its state. -/
theorem added_filling (i : Fin 4) (rs : List Record) (b : Vector PageBuffer 4) (h : b[i].state = .filling) :
    added i rs b = b.set i { b[i] with records := b[i].records ++ rs } := by
  unfold added
  rw [← h]

/-- A record that finds room in the FILLING buffer of a lane with an allocation state is all that the archive's lanes see. -/
theorem record_joins (l : LaneNo) (bytes : List Byte) (now : Nat) (i : Fin 4) (s : State) (w : s.warm = none)
    (settled : s.settled) (good : intakeCheck (s.laneEnabled l) l s.liu[l] (gather bytes) = none) (plain : Plain bytes)
    (time : s.station = some now) (gaps : s.ac[l].gaps.any = false) (filling : s.ac[l].filling = some i)
    (room : s.ac[l].buffers[i].used + (cellRecord bytes now).size ≤ 16381) (alloc : s.ac[l].alloc ≠ .idle) :
    ∃ t, Taken l bytes s t ∧ t.ac = s.ac.set l { s.ac[l] with
      buffers := s.ac[l].buffers.set i { s.ac[l].buffers[i] with
        records := s.ac[l].buffers[i].records ++ [cellRecord bytes now] } } := by
  obtain ⟨t, taken, -, still⟩ := plain_delivered l bytes s w good plain
  have ac := recorded_timed l bytes now s w time
  rw [take_placed gaps (place_room filling room _)] at ac
  refine ⟨t, taken, (still (recorded_settled settled ac fun e => absurd e alloc)).trans (ac.trans ?_)⟩
  rw [added_filling i _ _ (filling_some filling)]

/-- A record of unset time, or without a buffer, is counted and leaves the buffers. -/
theorem record_counted (l : LaneNo) (bytes : List Byte) (s : State) (w : s.warm = none) (settled : s.settled)
    (good : intakeCheck (s.laneEnabled l) l s.liu[l] (gather bytes) = none) (plain : Plain bytes)
    (h : s.station = none ∨ (s.ac[l].filling = none ∧ s.ac[l].lowestFree = none)) :
    ∃ t, Taken l bytes s t ∧ t.ac[l].buffers = s.ac[l].buffers ∧ ∃ time, t.ac[l].gaps
      = s.ac[l].gaps.count (recordKind ((gather bytes).bytes.getD 1 0#8)) time := by
  obtain ⟨t, taken, -, still⟩ := plain_delivered l bytes s w good plain
  obtain ⟨time, ac⟩ : ∃ time, (recorded l bytes s).ac = s.ac.set l { s.ac[l] with
      gaps := s.ac[l].gaps.count (recordKind ((gather bytes).bytes.getD 1 0#8)) time } := by
    cases time : s.station with
    | none => exact ⟨none, recorded_untimed l bytes s w time⟩
    | some now =>
      obtain ⟨filling, free⟩ := h.resolve_left (by rw [time]; simp)
      refine ⟨some now, (recorded_timed l bytes now s w time).trans ?_⟩
      cases gaps : s.ac[l].gaps.any with
      | false => rw [take_missed gaps (place_nowhere filling free _)]; rfl
      | true => rw [take_gap_nowhere gaps filling free]; rfl
  have content : s.ac[l].alloc = .idle → s.ac[l].holdsRecords = false := by
    intro e
    have := settled.2 l
    rw [← Bool.not_eq_true, needsExtent_iff, not_and] at this
    exact Bool.eq_false_iff.mpr (this e)
  have after := still (recorded_settled settled ac content)
  refine ⟨t, taken, ?_, time, ?_⟩ <;> rw [after, ac, lane_set_self]

/-- Settles O53: the queue of marks, the routes of the cells, and the places of their records. -/
theorem markEntersTheQueue : Obligations.MarkEntersTheQueue := by
  unfold Obligations.MarkEntersTheQueue
  refine ⟨queueMark_spec, fun l bytes s w settled good => ⟨fun kind => ⟨mark_undefined l bytes s w good kind,
    fun m defined timely => mark_timely l bytes m s w good kind defined timely,
    fun m o defined last late => mark_late l bytes m o s w good kind defined last late⟩, proxy_counted l bytes s w good,
    fun kind named plain => ?_⟩⟩
  subst named
  refine ⟨fun now i time gaps filling room alloc => ?_, fun now time idle => ⟨fun gaps => ?_, fun gaps => ?_⟩, fun h => ?_⟩
  · exact record_joins l bytes now i s w settled good plain time gaps filling (by
      unfold cellRecord Record.size
      dsimp only
      omega) alloc
  · exact places_without_gaps w settled good plain time idle gaps
  · exact places_with_gaps w settled good plain time idle gaps
  · obtain ⟨t, taken, buffers, time, gaps⟩ := record_counted l bytes s w settled good plain h
    obtain ⟨proxy, mark⟩ := count_kinds ((gather bytes).bytes.getD 1 0#8) time s.ac[l].gaps
    exact ⟨t, taken, buffers, fun e => by rw [gaps]; exact proxy e, fun e => by rw [gaps]; exact mark e⟩

end Sys2Proof.Lanes
end

section
/-! PROOFS. A property that what an attempt does for a lane keeps is kept by the boundary of an event (R157 to R165). Of a
lane that waits for nothing, the boundary changes nothing. -/

namespace Sys2Proof.Lanes

open Sys2Proof.Machine Sys2Proof.Laws

/-! ### What an attempt is made of -/

/-- The state with its extents, waiting erases, retry timer and the model's own counters replaced. -/
def withRest (x : List Extent) (e : List EraseWait) (r : Option Nat) (n : Nat) (d : Bool) (s : State) : State :=
  { s with extents := x, store := { s.store with erases := e }, retry := r, freeCount := n, attemptDue := d }

/-- Nothing that an attempt for the lane does ends the property. -/
structure Steady (l : LaneNo) (I : State → Prop) : Prop where
  ac : ∀ (s : State) (f : AcLane → AcLane), I s → I (s.modAc l f)
  rest : ∀ (s : State) x e r n d, I s → I (withRest x e r n d s)
  openStalled : ∀ s : State, I s → I (s.openStalled l)
  endStalled : ∀ s : State, I s → I (s.endStalled l)
  openShort : ∀ s : State, I s → I (s.openShort l)
  endShort : ∀ s : State, I s → I (s.endShort l)

section
variable {l : LaneNo} {I : State → Prop} (steady : Steady l I)
include steady

theorem Steady.syncRetry (s : State) (h : I s) : I s.syncRetry := by
  have same (r : Option Nat) : I { s with retry := r } :=
    steady.rest s s.extents s.store.erases r s.freeCount s.attemptDue h
  unfold State.syncRetry
  split
  · split
    · exact h
    · exact same _
  · exact same _

theorem Steady.setAlloc (x : AllocState) (s : State) (h : I s) : I (s.setAlloc l x) :=
  steady.syncRetry _ (steady.ac s _ h)

theorem Steady.advanceFree (s : State) (h : I s) : I s.advanceFree :=
  steady.rest s s.extents s.store.erases s.retry (s.freeCount + 1) s.attemptDue h

theorem Steady.inEitherOrder (f g : State → State) (hf : ∀ s, I s → I (f s)) (hg : ∀ s, I s → I (g s)) (s : State)
    (h : I s) : I (inEitherOrder f g s) := by
  have free := steady.advanceFree s h
  unfold Machine.inEitherOrder
  split
  · exact hg _ (hf _ free)
  · exact hf _ (hg _ free)

theorem Steady.reportChoice (short : Bool) (s : State) (h : I s) : I (s.reportChoice l short) := by
  have report (a b : Bool) (t : State) (ht : I t) : I (if a then t.openShort l else if b then t.endShort l else t) := by
    split
    · exact steady.openShort t ht
    · split
      · exact steady.endShort t ht
      · exact ht
  have told := steady.ac s (fun a => { a with stalled := false, short := short }) h
  unfold State.reportChoice
  dsimp only
  split
  · exact steady.inEitherOrder _ _ steady.endStalled (report _ _) _ told
  · split
    · exact steady.endStalled _ told
    · exact report _ _ _ told

theorem Steady.retire (ns : List Nat) : ∀ s : State, I s →
    I (ns.foldl (fun (t : State) n => t.modExtent n (Extent.cleared .retired)) s) := by
  induction ns with
  | nil => exact fun _ h => h
  | cons n ns ih =>
    exact fun s h => ih _ (steady.rest s _ s.store.erases s.retry s.freeCount s.attemptDue h)

theorem Steady.takeChoice (x : Extent) (short : Bool) (s : State) (h : I s) : I (s.takeChoice l x short) :=
  steady.reportChoice short _ (steady.setAlloc _ _ (steady.rest s _ _ s.retry s.freeCount s.attemptDue h))

theorem Steady.noCandidate (s : State) (h : I s) : I (s.noCandidate l) := by
  unfold State.noCandidate
  split
  · exact steady.setAlloc _ _ (steady.ac s _ h)
  · split
    · exact h
    · exact steady.openStalled _ (steady.ac s _ h)

theorem Steady.attempt (s : State) (h : I s) : I (s.attempt l) := by
  unfold State.attempt
  split
  · have retired := steady.retire (choose s.protects ((s.candidates l).length + 1) (s.candidates l) []).2 s h
    dsimp only
    split
    · exact steady.takeChoice _ _ _ retired
    · exact steady.takeChoice _ _ _ retired
    · exact steady.noCandidate _ retired
  · exact h

end

/-! ### The boundary -/

/-- The lane waits for an extent, or holds records and has none. -/
def Waits (s : State) (l : LaneNo) : Prop := s.needsExtent l = true ∨ s.ac[l].alloc.isWanted = true

theorem steady_foldl {I : State → Prop} (f : State → LaneNo → State) (xs : List LaneNo)
    (h : ∀ s : State, ∀ l ∈ xs, I s → I (f s l)) : ∀ s : State, I s → I (xs.foldl f s) := by
  induction xs with
  | nil => exact fun _ h => h
  | cons l xs ih =>
    exact fun s hs => ih (fun s k hk => h s k (List.mem_cons_of_mem l hk)) _ (h s l List.mem_cons_self hs)

/-- Only waiting lanes are attempted for. -/
theorem waits_of_due (s : State) (l : LaneNo) (h : l ∈ dueLanes s) : Waits s l := by
  unfold dueLanes at h
  split at h
  · have wanted := (List.mem_filter.mp h).2
    rw [entering_ac] at wanted
    split at wanted
    · next entering => exact Or.inl (List.mem_filter.mp entering).2
    · exact Or.inr wanted
  · exact Or.inl (List.mem_filter.mp h).2

theorem mem_drawOrder {α : Type} (x : α) : ∀ (k n : Nat) (xs : List α), x ∈ drawOrder k n xs → x ∈ xs
  | 0, _, _, h => h
  | _ + 1, _, [], h => h
  | _ + 1, _, [_], h => h
  | k + 1, n, y :: z :: rest, h => by
    unfold drawOrder at h
    rcases List.mem_append.mp h with picked | later
    · exact List.mem_of_getElem? (Option.mem_toList.mp picked)
    · exact List.mem_of_mem_eraseIdx (mem_drawOrder x k _ _ later)

theorem mem_draw {α : Type} (xs : List α) (s : State) (x : α) (h : x ∈ (s.draw xs).1) : x ∈ xs := by
  unfold State.draw at h
  split at h
  · exact h
  · exact h
  · exact mem_drawOrder x _ _ _ h

/-- A property that is steady for every lane while it waits is kept at the boundary of an event. -/
theorem steady_allocateN {I : State → Prop} (steady : ∀ (s : State) (l : LaneNo), I s → Waits s l → Steady l I)
    (free : ∀ (s : State) (n : Nat) (d : Bool), I s → I { s with freeCount := n, attemptDue := d }) :
    ∀ (n : Nat) (s : State), I s → I (s.allocateN n)
  | 0, _, h => h
  | n + 1, s, h => by
    have enter : I (entered s) := free _ _ false (steady_foldl _ _ (fun t l hl ht =>
      (steady s l h (Or.inl (List.mem_filter.mp hl).2)).setAlloc .wanted t ht) s h)
    rw [allocateN_succ]
    split
    · exact enter
    · refine steady_allocateN steady free n _ (steady_foldl _ _ (fun t l hl ht =>
        (steady s l h (waits_of_due s l (mem_draw _ _ l hl))).attempt t ht) _ ?_)
      unfold State.draw
      split
      · exact enter
      · exact enter
      · exact free _ _ _ enter

/-! ### Another lane -/

/-- The lane's Lane Intake Unit and archive stream are as given. -/
def Stands (k : LaneNo) (x : Liu) (y : AcLane) (s : State) : Prop := s.liu[k] = x ∧ s.ac[k] = y

section
variable {k : LaneNo} {x : Liu} {y : AcLane}

theorem stands_modAc {l : LaneNo} (other : k ≠ l) (f : AcLane → AcLane) (s : State) (h : Stands k x y s) :
    Stands k x y (s.modAc l f) :=
  ⟨h.1, (lane_set_ne s.ac _ other).trans h.2⟩

theorem stands_of_same {s t : State} (liu : t.liu = s.liu) (ac : t.ac = s.ac) (h : Stands k x y s) : Stands k x y t := by
  unfold Stands
  rw [liu, ac]
  exact h

theorem stands_reportBuffers {l : LaneNo} (other : k ≠ l) (s : State) (h : Stands k x y s) :
    Stands k x y (s.reportBuffers l) := by
  refine ⟨?_, (congrArg (fun v => v[k]) (reportBuffers_ac l s)).trans h.2⟩
  have sent (on : Bool) (resend : Option Nat) (time : Nat) : (holdSent l on resend time s).liu[k] = x :=
    (lane_set_ne s.liu _ other).trans h.1
  unfold State.reportBuffers
  split
  · exact h.1
  · split
    · split
      · exact h.1
      · rw [holdOffOn_eq]
        exact sent _ _ _
    · split
      · rw [holdOffOff_eq]
        exact sent _ _ _
      · exact h.1

theorem stands_archive {l : LaneNo} (other : k ≠ l) (kind : Byte) (time : Time) (content : List Byte) (s : State)
    (h : Stands k x y s) : Stands k x y (s.archive l kind time content) := by
  unfold State.archive
  split
  · exact h
  · split
    · exact stands_modAc other _ s h
    · exact stands_reportBuffers other _ (stands_modAc other _ _ h)

/-- Statuses and lines are no lane's intake and no archive stream. -/
theorem reassess_stands (s : State) : s.reassess.liu = s.liu ∧ s.reassess.ac = s.ac := by
  unfold State.reassess State.driveLines
  dsimp only
  repeat' split
  all_goals exact ⟨rfl, rfl⟩

theorem stands_told (lane : Option LaneNo) (s : State) (h : Stands k x y s) :
    Stands k x y (s.raiseFinding lane).reassess :=
  stands_of_same ((reassess_stands _).1.trans (by simp)) ((reassess_stands _).2.trans (by simp)) h

theorem stands_announce {f : Finding} (other : f.lane ≠ some k) (time : Time) (s : State) (h : Stands k x y s) :
    Stands k x y (s.announce f time) := by
  unfold State.announce
  dsimp only
  refine stands_told _ _ ?_
  split
  · next l e => exact stands_archive (fun same => other (e.trans (by rw [same]))) _ _ _ s h
  · exact h

theorem stands_createFinding {d : Draft} (other : d.lane ≠ some k) (ask : Option HoldAsk) (s : State)
    (h : Stands k x y s) : Stands k x y (s.createFinding d ask).2 := by
  have enter (f : Finding) (t : State) (ht : Stands k x y t) : Stands k x y (t.enterFinding f) := by
    unfold State.enterFinding
    split <;> exact ht
  have hold (f : Finding) (t : State) (ht : Stands k x y t) : Stands k x y (t.holdFor ask f).2 := by
    unfold State.holdFor
    split
    · split <;> exact ht
    · exact ht
  unfold State.createFinding
  refine stands_announce ?_ _ _ (enter _ _ (hold _ _ h))
  rw [holdFor_lane]
  exact other

theorem withAck_lane (s : State) (f : Finding) : (s.withAck f).lane = f.lane := by
  unfold State.withAck
  split <;> rfl

theorem stands_changeFinding {f : Finding} (other : f.lane ≠ some k) (time : Time) (s : State) (h : Stands k x y s) :
    Stands k x y (s.changeFinding f time) := by
  unfold State.changeFinding
  refine stands_announce (by rw [withAck_lane]; exact other) _ _ ?_
  split <;> exact h

theorem stands_settleOpen {f : Option Finding} (other : ∀ g, f = some g → g.lane ≠ some k) (time : Time) (postRoll : Nat)
    (s : State) (h : Stands k x y s) : Stands k x y (s.settleOpen time postRoll f) := by
  have ends (g : Finding) (t : State) (ht : Stands k x y t) : Stands k x y (t.endHoldOf g time postRoll) := by
    unfold State.endHoldOf State.setHoldEnd
    repeat' split
    all_goals exact ht
  unfold State.settleOpen
  split
  · next g =>
    have apart := other g rfl
    unfold State.settleFinding
    split
    · exact stands_changeFinding (f := { g with state := .withdrawn, ended := some time }) apart _ _ h
    · exact stands_changeFinding (f := { g with state := .ended, ended := some time }) apart _ _ (ends _ _ h)
    · exact h
    · exact h
  · exact h

theorem mem_kept_stalled {c : CmLane} {f : Finding} (h : c.stalledFinding = some f) : f ∈ c.kept := by
  simp [CmLane.kept, h]

theorem mem_kept_short {c : CmLane} {f : Finding} (h : c.shortFinding = some f) : f ∈ c.kept := by
  simp [CmLane.kept, h]

/-- A lane stands while findings are kept for the lanes that they name. -/
def Aloof (k : LaneNo) (x : Liu) (y : AcLane) (s : State) : Prop := s.findingsOwned ∧ Stands k x y s

/-- Reports that open for another lane. -/
theorem stands_opened {l : LaneNo} (other : k ≠ l) (kind : FindingKind) (severity : Severity) (ask : Option HoldAsk)
    (f : Finding → CmLane → CmLane) (s : State) (h : Stands k x y s) :
    Stands k x y ((s.createFinding (conditionDraft (some l) kind severity true s.station) ask).2.modCm l
      (f (s.createFinding (conditionDraft (some l) kind severity true s.station) ask).1)) :=
  stands_createFinding (fun same => other (Option.some.inj same).symm) ask s h

theorem aloof_steady {l : LaneNo} (other : k ≠ l) : Steady l (Aloof k x y) where
  ac s f h := ⟨(sameKept_modAc l f s).owned h.1, stands_modAc other f s h.2⟩
  rest _ _ _ _ _ _ h := ⟨⟨h.1.lanes, h.1.device⟩, h.2⟩
  openStalled s h := by
    refine ⟨owned_openStalled l s h.1, ?_⟩
    unfold State.openStalled
    split
    · exact h.2
    · exact stands_opened other .archiveStalled _ _ (fun f c => { c with stalledFinding := some f }) s h.2
  endStalled s h := by
    refine ⟨owned_endStalled l s h.1, stands_settleOpen (fun g hg same => other ?_) _ _ _ h.2⟩
    have own := h.1.lanes l g (mem_kept_stalled hg)
    exact Option.some.inj (same.symm.trans own)
  openShort s h := by
    refine ⟨owned_openShort l s h.1, ?_⟩
    unfold State.openShort
    split
    · exact h.2
    · exact stands_opened other .retentionShort _ _ (fun f c => { c with shortFinding := some f }) s h.2
  endShort s h := by
    refine ⟨owned_endShort l s h.1, stands_settleOpen (fun g hg same => other ?_) _ _ _ h.2⟩
    have own := h.1.lanes l g (mem_kept_short hg)
    exact Option.some.inj (same.symm.trans own)

/-- The boundary of an event leaves a lane alone that neither waits nor holds records (R157). -/
theorem aloof_allocate (idle : y.alloc = .idle) (empty : y.holdsRecords = false) (s : State) (h : Aloof k x y s) :
    Aloof k x y s.allocate := by
  refine steady_allocateN (fun t l ht waits => aloof_steady fun same => ?_)
    (fun t n d ht => ⟨⟨ht.1.lanes, ht.1.device⟩, ht.2⟩) 20 s h
  subst same
  unfold Waits State.needsExtent at waits
  rw [ht.2.2, idle, empty] at waits
  rcases waits with w | w <;> cases w

end

end Sys2Proof.Lanes
end

section
/-! PROOFS. The first finding since a reset, once it is in the log, stays its oldest record through whatever attempts report:
it is not acknowledged, so no later finding takes its place (R106, R107, R117). -/

namespace Sys2Proof.Lanes

open Sys2Proof.Machine Sys2Proof.Laws

/-- RETENTION_SHORT for a lane, of a severity, opened at a time (R115). -/
structure AboutShort (l : LaneNo) (severity : Severity) (opened : Time) (f : Finding) : Prop where
  lane : f.lane = some l
  kind : f.kind = .retentionShort
  severity : f.severity = severity
  opened : f.opened = opened

/-- RETENTION_SHORT of a lane is finding 1 and the oldest record of the log, and no record that has been issued since has its
id. -/
structure Headed (l : LaneNo) (severity : Severity) (opened : Time) (s : State) : Prop where
  next : s.dev.nextId ≠ 1
  first : ∃ f rest, s.dev.log = f :: rest ∧ f.id = 1 ∧ AboutShort l severity opened f ∧ f.acked = false ∧ f.state ≠ .withdrawn
  kept : ∀ (k : LaneNo), ∀ f ∈ s.cm[k].kept, f.id = 1 → AboutShort l severity opened f ∧ f.state ≠ .pending

section
variable {l : LaneNo} {severity : Severity} {opened : Time}

theorem headed_of_same {s t : State} (h : Headed l severity opened s) (next : t.dev.nextId = s.dev.nextId)
    (log : t.dev.log = s.dev.log) (same : SameKept s t) : Headed l severity opened t where
  next := next ▸ h.next
  first := log ▸ h.first
  kept k f hf := h.kept k f (same.lanes k ▸ hf)

theorem headed_announce (f : Finding) (time : Time) (s : State) (h : Headed l severity opened s) :
    Headed l severity opened (s.announce f time) :=
  headed_of_same h (by rw [announce_dev]) (by rw [announce_dev]) (sameKept_announce f time s)

/-- A new record leaves the oldest in place, which is not one to make room. -/
theorem logWith_first {f g : Finding} {rest log : List Finding} (fresh : f.acked = false) (stays : f.state ≠ .withdrawn)
    (h : logWith (f :: rest) g = some log) : ∃ more, log = f :: more := by
  have held : f.removable = false := by simp [Finding.removable, fresh, stays]
  unfold logWith at h
  split at h
  · cases h
  · split at h
    · exact ⟨_, (Option.some.inj h).symm⟩
    · split at h
      · rw [List.eraseP_cons_of_neg (by simp [held])] at h
        exact ⟨_, (Option.some.inj h).symm⟩
      · cases h

theorem headed_enterFinding (f : Finding) (s : State) (h : Headed l severity opened s) :
    Headed l severity opened (s.enterFinding f) := by
  unfold State.enterFinding
  split
  · next log entered =>
    obtain ⟨g, rest, is, id, about, fresh, stays⟩ := h.first
    rw [is] at entered
    obtain ⟨more, becomes⟩ := logWith_first fresh stays entered
    exact ⟨h.next, ⟨g, more, becomes, id, about, fresh, stays⟩, h.kept⟩
  · exact headed_of_same h rfl rfl ⟨fun _ => rfl, rfl⟩

theorem holdFor_dev (ask : Option HoldAsk) (f : Finding) (s : State) : (s.holdFor ask f).2.dev = s.dev := by
  unfold State.holdFor
  split
  · split <;> rfl
  · rfl

theorem holdFor_id (ask : Option HoldAsk) (f : Finding) (s : State) : (s.holdFor ask f).1.id = f.id := by
  unfold State.holdFor
  split
  · split <;> rfl
  · rfl

theorem createFinding_id (d : Draft) (ask : Option HoldAsk) (s : State) : (s.createFinding d ask).1.id = s.dev.nextId :=
  holdFor_id ask _ _

theorem nextFindingId_ne_one {n : Nat} : nextFindingId n ≠ 1 := by
  unfold nextFindingId
  split <;> omega

theorem headed_createFinding (d : Draft) (ask : Option HoldAsk) (s : State) (h : Headed l severity opened s) :
    Headed l severity opened (s.createFinding d ask).2 := by
  unfold State.createFinding
  have issued : Headed l severity opened { s with dev := { s.dev with nextId := nextFindingId s.dev.nextId } } :=
    ⟨nextFindingId_ne_one, h.first, h.kept⟩
  exact headed_announce _ _ _ (headed_enterFinding _ _ (headed_of_same issued (by rw [holdFor_dev]) (by rw [holdFor_dev])
    (sameKept_holdFor _ _ _)))

/-- A change of the first finding leaves it a record of the same report, and a change of another leaves it. -/
theorem headed_changeFinding {f : Finding} (own : f.id = 1 → AboutShort l severity opened f ∧ f.state ≠ .withdrawn)
    (time : Time) (s : State) (h : Headed l severity opened s) : Headed l severity opened (s.changeFinding f time) := by
  unfold State.changeFinding
  refine headed_announce _ _ _ ?_
  split
  · obtain ⟨g, rest, is, id, about, fresh, stays⟩ := h.first
    refine ⟨h.next, ⟨if g.id = f.id then { f with acked := g.acked } else g, replaceLogged f rest, ?_, ?_⟩, h.kept⟩
    · show replaceLogged f s.dev.log = _
      rw [is]
      rfl
    · split
      · next same =>
        obtain ⟨⟨lane, kind, grade, time⟩, kept⟩ := own (same.symm.trans id)
        exact ⟨same.symm.trans id, ⟨lane, kind, grade, time⟩, fresh, kept⟩
      · exact ⟨id, about, fresh, stays⟩
  · exact headed_of_same h rfl rfl ⟨fun _ => rfl, rfl⟩

theorem headed_settleOpen {f : Option Finding}
    (own : ∀ g, f = some g → g.id = 1 → AboutShort l severity opened g ∧ g.state ≠ .pending) (time : Time) (postRoll : Nat)
    (s : State) (h : Headed l severity opened s) : Headed l severity opened (s.settleOpen time postRoll f) := by
  have ends (g : Finding) (t : State) (ht : Headed l severity opened t) :
      Headed l severity opened (t.endHoldOf g time postRoll) := by
    refine headed_of_same ht ?_ ?_ (sameKept_endHoldOf g time postRoll t) <;>
      (unfold State.endHoldOf State.setHoldEnd; repeat' split) <;> rfl
  unfold State.settleOpen
  split
  · next g =>
    have reports := own g rfl
    unfold State.settleFinding
    split
    · next pending =>
      exact headed_changeFinding (f := { g with state := .withdrawn, ended := some time })
        (fun one => absurd pending (reports one).2) _ _ h
    · refine headed_changeFinding (fun one => ⟨?_, fun e => by cases e⟩) _ _ (ends _ _ h)
      obtain ⟨lane, kind, grade, time⟩ := (reports one).1
      exact ⟨lane, kind, grade, time⟩
    · exact h
    · exact h
  · exact h

/-- A lane's conditions may come to keep findings that are not the first. -/
theorem headed_modCm {k : LaneNo} (f : CmLane → CmLane) (s : State)
    (new : ∀ x ∈ (f s.cm[k]).kept, x ∈ s.cm[k].kept ∨ x.id ≠ 1) (h : Headed l severity opened s) :
    Headed l severity opened (s.modCm k f) := by
  refine ⟨h.next, h.first, fun j x hx one => ?_⟩
  by_cases e : j = k
  · subst e
    rw [show (s.modCm j f).cm[j] = f s.cm[j] from lane_set_self _ _ _] at hx
    rcases new x hx with old | other
    · exact h.kept j x old one
    · exact absurd one other
  · rw [show (s.modCm k f).cm[j] = s.cm[j] from lane_set_ne _ _ e] at hx
    exact h.kept j x hx one

theorem headed_steady (k : LaneNo) : Steady k (Headed l severity opened) where
  ac s f h := headed_of_same h rfl rfl (sameKept_modAc k f s)
  rest _ _ _ _ _ _ h := headed_of_same h rfl rfl ⟨fun _ => rfl, rfl⟩
  openStalled s h := by
    unfold State.openStalled
    split
    · exact h
    · refine headed_modCm _ _ (fun x hx => ?_) (headed_createFinding _ _ s h)
      refine (kept_withStalled _ _ x hx).imp id fun new => ?_
      rw [← Option.some.inj new]
      exact fun one => h.next ((createFinding_id _ _ s).symm.trans one)
  endStalled s h :=
    headed_settleOpen (fun g hg => h.kept k g (mem_kept_stalled hg)) _ _ _ (headed_modCm _ s (fun x hx =>
      (kept_withStalled _ _ x hx).imp id fun new => by cases new) h)
  openShort s h := by
    unfold State.openShort
    split
    · exact h
    · refine headed_modCm _ _ (fun x hx => ?_) (headed_createFinding _ _ s h)
      refine (kept_withShort _ _ x hx).imp id fun new => ?_
      rw [← Option.some.inj new]
      exact fun one => h.next ((createFinding_id _ _ s).symm.trans one)
  endShort s h :=
    headed_settleOpen (fun g hg => h.kept k g (mem_kept_short hg)) _ _ _ (headed_modCm _ s (fun x hx =>
      (kept_withShort _ _ x hx).imp id fun new => by cases new) h)

theorem headed_allocate (s : State) (h : Headed l severity opened s) : Headed l severity opened s.allocate :=
  steady_allocateN (fun _ k _ _ => headed_steady k) (fun _ _ _ h => headed_of_same h rfl rfl ⟨fun _ => rfl, rfl⟩) 20 s h

end

end Sys2Proof.Lanes
end

section
/-! PROOFS. The open ends of finding holds that a completed warm reset closes (R174): each at the last time of its lane's newest
SEALED extent, and the table of them is written. -/

namespace Sys2Proof.Lanes

open Sys2Proof.Machine Sys2Proof.Laws

/-! ### The newest SEALED extent -/

/-- The later of the newest extent so far and another, by first time. -/
def newer (best : Option (Nat × Option Nat)) (x : Extent) : Option (Nat × Option Nat) :=
  match x.first, best with
  | some f, none => some (f, x.last)
  | some f, some (g, l) => if g ≤ f then some (f, x.last) else some (g, l)
  | none, b => b

def isSealedOf (lane : LaneNo) (x : Extent) : Bool := x.state == .sealed && x.tag == some lane

theorem newestSealedLast_eq (extents : List Extent) (lane : LaneNo) :
    newestSealedLast extents lane = ((extents.filter (isSealedOf lane)).foldl newer none).bind Prod.snd := rfl

theorem isSealedOf_iff (lane : LaneNo) (x : Extent) : isSealedOf lane x = true ↔ x.state = .sealed ∧ x.tag = some lane := by
  simp [isSealedOf]

section
variable {x : Extent} {first last : Nat}

/-- The newest extent stays the newest. -/
theorem newer_stays (hf : x.first = some first) (hl : x.last = some last) :
    ∀ ys : List Extent, (∀ y ∈ ys, y ≠ x → ∀ f, y.first = some f → f < first) →
      ys.foldl newer (some (first, some last)) = some (first, some last)
  | [], _ => rfl
  | y :: ys, older => by
    have step : newer (some (first, some last)) y = some (first, some last) := by
      unfold newer
      by_cases e : y = x
      · subst e
        rw [hf, hl]
        simp
      · cases hy : y.first with
        | none => rfl
        | some f => simp [older y List.mem_cons_self e f hy]
    rw [List.foldl_cons, step]
    exact newer_stays hf hl ys fun z hz => older z (List.mem_cons_of_mem y hz)

/-- An extent with the latest first time is found, whatever older one was found before it. -/
theorem newer_finds (hf : x.first = some first) (hl : x.last = some last) :
    ∀ (ys : List Extent) (best : Option (Nat × Option Nat)), x ∈ ys →
      (∀ y ∈ ys, y ≠ x → ∀ f, y.first = some f → f < first) → (∀ b, best = some b → b.1 < first) →
      ys.foldl newer best = some (first, some last)
  | [], _, mem, _, _ => by cases mem
  | y :: ys, best, mem, older, low => by
    have rest : ∀ z ∈ ys, z ≠ x → ∀ f, z.first = some f → f < first := fun z hz => older z (List.mem_cons_of_mem y hz)
    rw [List.foldl_cons]
    by_cases e : y = x
    · subst e
      have step : newer best y = some (first, some last) := by
        unfold newer
        rw [hf, hl]
        cases best with
        | none => rfl
        | some b => simp [(low b rfl).le]
      rw [step]
      exact newer_stays hf hl ys rest
    · refine newer_finds hf hl ys _ ((List.mem_cons.mp mem).resolve_left (Ne.symm e)) rest fun b hb => ?_
      have early := older y List.mem_cons_self e
      unfold newer at hb
      split at hb
      · next f hy => exact Option.some.inj hb ▸ early f hy
      · next f g l hy =>
        split at hb
        · exact Option.some.inj hb ▸ early f hy
        · exact Option.some.inj hb ▸ low (g, l) rfl
      · exact low b hb

theorem newestSealedLast_none {extents : List Extent} {lane : LaneNo}
    (h : ∀ y ∈ extents, ¬ (y.state = .sealed ∧ y.tag = some lane)) : newestSealedLast extents lane = none := by
  rw [newestSealedLast_eq, List.filter_eq_nil_iff.mpr fun y hy => mt (isSealedOf_iff lane y).mp (h y hy)]
  rfl

theorem newestSealedLast_some {extents : List Extent} {lane : LaneNo} (mem : x ∈ extents) (state : x.state = .sealed)
    (tag : x.tag = some lane) (hf : x.first = some first) (hl : x.last = some last)
    (older : ∀ y ∈ extents, y ≠ x → y.state = .sealed → y.tag = some lane → ∀ f, y.first = some f → f < first) :
    newestSealedLast extents lane = some last := by
  rw [newestSealedLast_eq, newer_finds hf hl _ none (List.mem_filter.mpr ⟨mem, (isSealedOf_iff lane x).mpr ⟨state, tag⟩⟩)
    (fun y hy ne => ?_) (fun b hb => by cases hb)]
  · rfl
  · obtain ⟨there, mine⟩ := List.mem_filter.mp hy
    obtain ⟨shut, tagged⟩ := (isSealedOf_iff lane y).mp mine
    exact older y there ne shut tagged

end

/-! ### One hold -/

theorem closeOpenEnd_open (extents : List Extent) {h : Hold} (o : h.leftOpen) :
    h.closeOpenEnd extents = h.closed ((newestSealedLast extents h.lane).getD h.start) := by
  obtain ⟨stop, id, origin⟩ := o
  unfold Hold.closeOpenEnd
  rw [origin, stop]

theorem closeOpenEnd_kept (extents : List Extent) {h : Hold} (o : ¬ h.leftOpen) : h.closeOpenEnd extents = h := by
  unfold Hold.closeOpenEnd
  split
  · next origin stop => exact absurd ⟨stop, _, origin⟩ o
  · rfl

theorem closeOpenEnd_spec (extents : List Extent) (h : Hold) :
    (h.leftOpen → h.closesTo extents (h.closeOpenEnd extents) ∧ (h.closeOpenEnd extents).restored = h.restored) ∧
    (¬ h.leftOpen → h.closeOpenEnd extents = h) := by
  refine ⟨fun o => ?_, closeOpenEnd_kept extents⟩
  rw [closeOpenEnd_open extents o]
  refine ⟨⟨rfl, rfl, rfl, rfl, fun none_ => ?_, fun x mem first last state tag hf hl older => ?_⟩, rfl⟩
  · rw [newestSealedLast_none none_]
    simp [Hold.closed]
  · rw [newestSealedLast_some mem state tag hf hl older]
    rfl

/-! ### The table -/

/-- The table after the open ends are closed. -/
def closedTable (s : State) : HoldTable := { s.holds with table := s.holds.table.map (Hold.closeOpenEnd s.extents) }

theorem replaceHolds_any (t : HoldTable) (generation : Nat) : ∀ (q : List SysWrite) (n : Nat), q.any SysWrite.isHolds = true →
    ∃ w ∈ (replaceHolds t generation q n).1, w.content = .holds t
  | [], _, h => by cases h
  | w :: rest, n, h => by
    unfold replaceHolds
    split
    · exact ⟨_, List.mem_cons_self, rfl⟩
    · next other =>
      obtain ⟨v, hv, content⟩ := replaceHolds_any t generation rest n (by simpa [other] using h)
      exact ⟨v, List.mem_cons_of_mem _ hv, content⟩

/-- A change of the hold table has a copy of it wait. -/
theorem queueHolds_waits (t : HoldTable) (x : SysExtent) : ∃ w ∈ (x.queueHolds t).queue, w.content = .holds t := by
  unfold SysExtent.queueHolds
  split
  · next waiting => exact replaceHolds_any t x.generation x.queue x.nextCopy waiting
  · exact ⟨_, List.mem_append_right _ List.mem_cons_self, rfl⟩

/-- The holds and the system extent of a state in which the open ends of the holds of another were closed. -/
structure HoldsClosed (s t : State) : Prop where
  table : t.holds = closedTable s
  written : (∃ h ∈ s.holds.table, h.leftOpen) → ∃ w ∈ t.sys.queue, w.content = .holds t.holds

theorem map_ne_self {α : Type} {f : α → α} {x : α} (ne : f x ≠ x) : ∀ {xs : List α}, x ∈ xs → xs.map f ≠ xs := by
  intro xs mem same
  have all := List.map_inj_left.mp (same.trans (List.map_id xs).symm)
  exact ne (all x mem)

theorem closeOpenEnds_shape (s : State) : ∃ (h : HoldTable) (x : SysExtent),
    s.closeOpenEnds (fun _ => true) = { s with holds := h, sys := x } ∧
    HoldsClosed s { s with holds := h, sys := x } := by
  have pick : s.holds.table.map (fun h => if (fun _ : Hold => true) h then h.closeOpenEnd s.extents else h)
      = s.holds.table.map (Hold.closeOpenEnd s.extents) := List.map_congr_left fun _ _ => if_pos rfl
  unfold State.closeOpenEnds
  rw [pick]
  dsimp only
  split
  · next same =>
    refine ⟨s.holds, s.sys, rfl, ?_, fun ⟨h, mem, o⟩ => ?_⟩
    · show s.holds = { s.holds with table := s.holds.table.map (Hold.closeOpenEnd s.extents) }
      rw [same]
    · refine absurd same (map_ne_self (fun e => ?_) mem)
      have stop := congrArg Hold.stop e
      rw [closeOpenEnd_open _ o, o.1] at stop
      cases stop
  · exact ⟨_, _, rfl, rfl, fun _ => queueHolds_waits _ _⟩

end Sys2Proof.Lanes
end

section
/-! PROOFS. The part as the completion of a warm reset leaves it, before the Archive Controller reports afresh (R20, R41, R77,
R100, R122, R151, R152, R166, R196). -/

namespace Sys2Proof.Lanes

open Sys2Proof.Machine Sys2Proof.Laws

/-! ### The HOLD cells -/

/-- The HOLD cells of time 0 that the lanes among `ls` whose hold-off was ON send (R20). -/
def freeingCells (w : Warm) (ls : List LaneNo) : List Emission :=
  (ls.filter (fun l => w.holdOff[l])).map (fun l => Emission.laneCell l (holdCell l 0))

theorem freeing_eq (w : Warm) : ∀ (ls : List LaneNo) (s : State), ∃ liu : Vector Liu 8,
    ls.foldl (fun (t : State) l => if w.holdOff[l] then t.sendHold l 0 else t) s
      = { s with liu := liu, emitted := s.emitted ++ freeingCells w ls }
  | [], s => ⟨s.liu, by simp [freeingCells]⟩
  | l :: ls, s => by
    rw [List.foldl_cons]
    by_cases on : w.holdOff[l] = true
    · obtain ⟨liu, same⟩ := freeing_eq w ls (s.sendHold l 0)
      refine ⟨liu, ?_⟩
      rw [if_pos on, same, sendHold_eq]
      simp [freeingCells, List.filter_cons_of_pos, on, -Fin.getElem_fin]
    · obtain ⟨liu, same⟩ := freeing_eq w ls s
      refine ⟨liu, ?_⟩
      rw [if_neg on, same]
      simp [freeingCells, List.filter_cons_of_neg, on, -Fin.getElem_fin]

theorem warmIntake_eq (w : Warm) (s : State) : s.warmIntake w
    = { s with liu := Vector.replicate 8 .reset, emitted := s.emitted ++ freeingCells w allLanes } := by
  obtain ⟨liu, same⟩ := freeing_eq w allLanes s
  unfold State.warmIntake forLanes
  dsimp only
  rw [same]

/-! ### The lines -/

theorem showRunPattern_shape (s : State) : ∃ a : Alarm, s.showRunPattern = { s with alarm := a } ∧
    a.mode = s.alarm.mode ∧ a.overall = s.alarm.overall := by
  unfold State.showRunPattern Alarm.startPaired
  dsimp only
  repeat' split
  all_goals exact ⟨_, rfl, rfl, rfl⟩

/-! ### The state before the reports -/

/-- The blocks are reset, the warm reset is over, and the lines and open ends are not yet attended to. -/
def cleared (w : Warm) (s : State) : State :=
  { ({ s with liu := Vector.replicate 8 .reset, emitted := s.emitted ++ freeingCells w allLanes } :
      State).warmArchive.warmBlocks.warmLink with warm := none }

/-- The state in which the Archive Controller reports afresh. -/
def afresh (w : Warm) (s : State) : State :=
  { (cleared w s).showRunPattern.closeOpenEnds (fun _ => true) with attemptDue := false }

theorem completeWarm_eq (w : Warm) (s : State) : s.completeWarm w = (afresh w s).reportAfresh.allocate := by
  unfold State.completeWarm
  dsimp only
  rw [warmIntake_eq]
  rfl

/-- What the completed warm reset keeps of the state it ends in. -/
structure Spared (s t : State) : Prop where
  settings : t.settings = s.settings
  station : t.station = s.station
  linkState : t.link.state = s.link.state
  reply : t.link.reply = s.link.reply
  up : t.store.up = s.store.up
  gate : t.gateOpen = s.gateOpen

/-- The blocks that hold nothing after it, and that no report touches. -/
structure Emptied (t : State) : Prop where
  warm : t.warm = none
  mode : t.alarm.mode = .run
  le : t.le = State.reset.le
  cc : t.cc = State.reset.cc
  st : t.st = State.reset.st
  verdicts : t.verdicts = State.reset.verdicts
  slots : t.slots = State.reset.slots
  hold : t.exportLink.hold = none
  saveInFlight : t.saveInFlight = false
  incomplete : t.link.incomplete = 0
  dropped : t.link.dropped = 0
  rejected : t.link.rejected = 0

/-- The Compliance Monitor and the archive, as the Archive Controller reports afresh on them. -/
structure Unreported (s b : State) : Prop where
  liu : b.liu = State.reset.liu
  ac : ∀ l : LaneNo, b.ac[l] = { AcLane.reset with short := s.ac[l].short }
  cm : b.cm = State.reset.cm
  dev : b.dev = .reset
  notices : b.notices = .empty
  overall : b.alarm.overall = .normal
  retry : b.retry = none
  attemptDue : b.attemptDue = false

structure Fresh (w : Warm) (s b : State) : Prop where
  spared : Spared s b
  emptied : Emptied b
  unreported : Unreported s b
  unopened : ∀ x ∈ b.extents, x.state ≠ .opened
  interrupted : b.store.interrupted = (s.store.interrupted.filter (fun j => !j.op.withdrawn)).map StoreJob.afterWarm
  emitted : b.emitted = s.emitted ++ freeingCells w allLanes
  holdNext : b.holds.next = s.holds.next
  holdTable : b.holds.table = s.holds.table.map (Hold.closeOpenEnd b.extents)
  written : (∃ h ∈ s.holds.table, h.leftOpen) → ∃ w ∈ b.sys.queue, w.content = .holds b.holds

theorem shut_not_opened (faulty : Bool) (x : Extent) : (x.shut faulty).state ≠ .opened := by
  unfold Extent.shut
  split <;> exact fun e => by cases e

theorem cleared_unopened (w : Warm) (s : State) : ∀ x ∈ (cleared w s).extents, x.state ≠ .opened := by
  intro x mem
  obtain ⟨y, _, rfl⟩ := List.mem_map.mp mem
  split
  · exact shut_not_opened false y
  · next shut =>
    split
    · exact fun e => by cases e
    · exact shut

theorem cleared_ac (w : Warm) (s : State) (l : LaneNo) :
    (cleared w s).ac[l] = { AcLane.reset with short := s.ac[l].short } := by
  show (s.ac.map (fun a => { AcLane.reset with short := a.short }))[l] = _
  simp

theorem afresh_fresh (w : Warm) (s : State) : Fresh w s (afresh w s) := by
  obtain ⟨a, lines, mode, overall⟩ := showRunPattern_shape (cleared w s)
  obtain ⟨h, x, closed, table, written⟩ := closeOpenEnds_shape (cleared w s).showRunPattern
  have run : a.mode = .run := mode
  have normal : a.overall = .normal := overall
  unfold afresh
  rw [closed]
  rw [lines] at table written ⊢
  generalize ends : h = held at table written ⊢
  subst table
  exact
    { spared := ⟨rfl, rfl, rfl, rfl, rfl, rfl⟩
      emptied := ⟨rfl, run, rfl, rfl, rfl, rfl, rfl, rfl, rfl, rfl, rfl, rfl⟩
      unreported := ⟨rfl, cleared_ac w s, rfl, rfl, rfl, normal, rfl, rfl⟩
      unopened := cleared_unopened w s
      interrupted := rfl
      emitted := rfl
      holdNext := rfl
      holdTable := rfl
      written := written }

end Sys2Proof.Lanes
end

section
/-! PROOFS. One report of the Archive Controller on a part that has just been reset: what the finding enters, and that its record
drives no hold-off (R16, R106, R107, R115, R117). -/

namespace Sys2Proof.Lanes

open Sys2Proof.Machine Sys2Proof.Laws

/-! ### Announcing -/

/-- The conditions of the lanes with the monitor statuses that a log gives (R120). -/
def restated (log : List Finding) (cm : Vector CmLane 8) : Vector CmLane 8 :=
  Vector.ofFn (fun l => { cm[l] with status := statusOf log (some l) })

theorem restated_lane (log : List Finding) (cm : Vector CmLane 8) (l : LaneNo) :
    (restated log cm)[l] = { cm[l] with status := statusOf log (some l) } := by
  simp [restated]

theorem reassess_shape (s : State) : ∃ a : Alarm, s.reassess
    = { s with cm := restated s.dev.log s.cm, dev := { s.dev with status := statusOf s.dev.log none }, alarm := a } := by
  unfold State.reassess State.driveLines
  dsimp only
  repeat' split
  all_goals exact ⟨_, rfl⟩

/-- The notices after a finding of a lane, or of DEVICE, is announced. -/
def findingNotices (lane : Option LaneNo) (n : Notices) : Notices := match lane with
  | some l => { n with finding := n.finding.set l true }
  | none => { n with deviceFinding := true }

theorem raiseFinding_eq (lane : Option LaneNo) (s : State) :
    s.raiseFinding lane = { s with notices := findingNotices lane s.notices } := by
  cases lane <;> rfl

/-- A finding of DEVICE has no record in the archive. -/
theorem announce_device {f : Finding} (lane : f.lane = none) (time : Time) (s : State) : ∃ a : Alarm, s.announce f time
    = { s with
        cm := restated s.dev.log s.cm
        dev := { s.dev with status := statusOf s.dev.log none }
        alarm := a
        notices := findingNotices none s.notices } := by
  obtain ⟨a, told⟩ := reassess_shape (s.raiseFinding none)
  rw [raiseFinding_eq] at told
  refine ⟨a, ?_⟩
  unfold State.announce
  rw [lane]
  dsimp only
  rw [raiseFinding_eq, told]

/-! ### The record of a finding of a lane that was just reset -/

/-- The lane's archive stream holds nothing and its hold-off is OFF. -/
structure Blank (l : LaneNo) (s : State) : Prop where
  warm : s.warm = none
  holdOff : s.liu[l].holdOff = false
  ac : s.ac[l] = { AcLane.reset with short := s.ac[l].short }

/-- One record in the first buffer leaves four that can take records. -/
theorem take_reset (stamp : Nat) (r : Record) (short : Bool) :
    (({ AcLane.reset with short := short } : AcLane).take stamp r).canTake = 4 ∧
    (({ AcLane.reset with short := short } : AcLane).take stamp r).short = short := ⟨rfl, rfl⟩

theorem archive_blank {l : LaneNo} {s : State} (blank : Blank l s) (kind : Byte) (time : Time) (content : List Byte) :
    ∃ (a : AcLane) (stamp : Nat), s.archive l kind time content = { s with ac := s.ac.set l a, stamp := stamp } ∧
      a.short = s.ac[l].short := by
  cases time with
  | none => exact ⟨_, s.stamp, archive_untimed l kind content s blank.warm, rfl⟩
  | some now =>
    obtain ⟨room, short⟩ := take_reset s.stamp ⟨kind, now, content⟩ s.ac[l].short
    rw [← blank.ac] at room short
    refine ⟨_, s.stamp + 1, ?_, short⟩
    rw [archive_timed l kind now content s blank.warm, reportBuffers_same]
    · rfl
    · refine Or.inr (Or.inr ⟨fun few => ?_, fun on => ?_⟩)
      · rw [show (({ s with stamp := s.stamp + 1 } : State).modAc l (AcLane.take s.stamp ⟨kind, now, content⟩)).ac[l]
          = s.ac[l].take s.stamp ⟨kind, now, content⟩ from lane_set_self _ _ _, room] at few
        omega
      · exact absurd (blank.holdOff.symm.trans on) (by decide)

theorem announce_blank {l : LaneNo} {s : State} (blank : Blank l s) {f : Finding} (lane : f.lane = some l) (time : Time) :
    ∃ (a : Alarm) (c : AcLane) (stamp : Nat), s.announce f time
      = { s with
          ac := s.ac.set l c
          stamp := stamp
          cm := restated s.dev.log s.cm
          dev := { s.dev with status := statusOf s.dev.log none }
          alarm := a
          notices := findingNotices (some l) s.notices } ∧
      c.short = s.ac[l].short := by
  obtain ⟨c, stamp, kept, short⟩ := archive_blank blank recFinding time f.bytes
  obtain ⟨a, told⟩ := reassess_shape ((s.archive l recFinding time f.bytes).raiseFinding (some l))
  rw [raiseFinding_eq, kept] at told
  refine ⟨a, c, stamp, ?_, short⟩
  unfold State.announce
  rw [lane]
  dsimp only
  rw [raiseFinding_eq, kept, told]

/-! ### Creating -/

/-- The log has room, and ids are left. -/
structure Roomy (s : State) : Prop where
  ids : s.dev.nextId ≠ 0
  room : s.dev.log.length < 256

theorem enterFinding_enters {f : Finding} {s : State} (id : f.id ≠ 0) (room : s.dev.log.length < 256) :
    s.enterFinding f = { s with dev := { s.dev with log := s.dev.log ++ [f] } } := by
  unfold State.enterFinding logWith
  rw [if_neg id, if_pos room]

theorem holdFor_shape (ask : Option HoldAsk) (f : Finding) (s : State) : ∃ (h : HoldTable) (x : SysExtent),
    (s.holdFor ask f).2 = { s with holds := h, sys := x } := by
  unfold State.holdFor
  split
  · split <;> exact ⟨_, _, rfl⟩
  · exact ⟨_, _, rfl⟩

/-- The finding of a draft, before its hold is asked for. -/
def unheldOf (d : Draft) (id : Nat) : Finding where
  id := id
  lane := d.lane
  kind := d.kind
  severity := d.severity
  state := d.state
  acked := false
  segId := d.segId
  opened := d.opened
  activated := d.activated
  ended := d.ended
  measured := d.measured
  limit := d.limit
  holdId := none
  unheld := false

/-- The next id has been taken. -/
def issued (s : State) : State := { s with dev := { s.dev with nextId := nextFindingId s.dev.nextId } }

theorem createFinding_eq (d : Draft) (ask : Option HoldAsk) (s : State) :
    (s.createFinding d ask).1 = ((issued s).holdFor ask (unheldOf d s.dev.nextId)).1 ∧
    (s.createFinding d ask).2 = (((issued s).holdFor ask (unheldOf d s.dev.nextId)).2.enterFinding
      (s.createFinding d ask).1).announce (s.createFinding d ask).1 d.opened := ⟨rfl, rfl⟩

/-- A finding is as its draft, but for the hold that was asked for it. -/
structure Drafted (d : Draft) (id : Nat) (f : Finding) : Prop where
  id : f.id = id
  lane : f.lane = d.lane
  kind : f.kind = d.kind
  severity : f.severity = d.severity
  state : f.state = d.state
  opened : f.opened = d.opened
  acked : f.acked = false

theorem createFinding_drafted (d : Draft) (ask : Option HoldAsk) (s : State) :
    Drafted d s.dev.nextId (s.createFinding d ask).1 := by
  rw [(createFinding_eq d ask s).1]
  unfold State.holdFor
  split
  · split <;> exact ⟨rfl, rfl, rfl, rfl, rfl, rfl, rfl⟩
  · exact ⟨rfl, rfl, rfl, rfl, rfl, rfl, rfl⟩

/-- The monitor's own record once a finding has entered a log with room. -/
def entryOf (f : Finding) (d : CmDevice) : CmDevice :=
  { d with
    nextId := nextFindingId d.nextId
    log := d.log ++ [f]
    status := statusOf (d.log ++ [f]) none }

theorem createFinding_device {d : Draft} {s : State} (roomy : Roomy s) (lane : d.lane = none) :
    ∃ a : Alarm, (s.createFinding d none).2
      = { s with
          cm := restated (s.dev.log ++ [(s.createFinding d none).1]) s.cm
          dev := entryOf (s.createFinding d none).1 s.dev
          alarm := a
          notices := findingNotices none s.notices } := by
  have drafted := createFinding_drafted d none s
  have made := (createFinding_eq d none s).2
  have unasked : ((issued s).holdFor none (unheldOf d s.dev.nextId)).2 = issued s := rfl
  rw [unasked, enterFinding_enters (s := issued s) (by rw [drafted.id]; exact roomy.ids) roomy.room] at made
  generalize (s.createFinding d none).1 = f at drafted made ⊢
  obtain ⟨a, told⟩ := announce_device (drafted.lane.trans lane) d.opened
    { issued s with dev := { (issued s).dev with log := s.dev.log ++ [f] } }
  exact ⟨a, made.trans told⟩

theorem createFinding_blank {l : LaneNo} {d : Draft} {s : State} (roomy : Roomy s) (blank : Blank l s)
    (lane : d.lane = some l) (ask : Option HoldAsk) :
    ∃ (a : Alarm) (c : AcLane) (stamp : Nat) (h : HoldTable) (x : SysExtent), (s.createFinding d ask).2
      = { s with
          ac := s.ac.set l c
          stamp := stamp
          holds := h
          sys := x
          cm := restated (s.dev.log ++ [(s.createFinding d ask).1]) s.cm
          dev := entryOf (s.createFinding d ask).1 s.dev
          alarm := a
          notices := findingNotices (some l) s.notices } ∧
      c.short = s.ac[l].short := by
  have drafted := createFinding_drafted d ask s
  have made := (createFinding_eq d ask s).2
  obtain ⟨h, x, held⟩ := holdFor_shape ask (unheldOf d s.dev.nextId) (issued s)
  rw [held, enterFinding_enters (s := { issued s with holds := h, sys := x }) (by rw [drafted.id]; exact roomy.ids)
    roomy.room] at made
  generalize (s.createFinding d ask).1 = f at drafted made ⊢
  obtain ⟨a, c, stamp, told, short⟩ := announce_blank (l := l)
    (s := { issued s with
      dev := { (issued s).dev with log := s.dev.log ++ [f] }
      holds := h
      sys := x })
    ⟨blank.warm, blank.holdOff, blank.ac⟩ (drafted.lane.trans lane) d.opened
  exact ⟨a, c, stamp, h, x, made.trans told, short⟩

end Sys2Proof.Lanes
end

section
/-! PROOFS. The reports that a completed warm reset makes afresh (R152, R166): STORE_LOST while the store is DOWN, and
RETENTION_SHORT for each lane whose short flag is set. -/

namespace Sys2Proof.Lanes

open Sys2Proof.Machine Sys2Proof.Laws

/-! ### RETENTION_SHORT of one lane -/

/-- The finding that a report of RETENTION_SHORT makes. -/
def shortFinding (l : LaneNo) (s : State) : Finding :=
  (s.createFinding (conditionDraft (some l) .retentionShort s.settings.severities.short true s.station)
    (s.laneAsk l s.settings.severities.short s.station)).1

/-- What one report changes, but for holds and lines. -/
structure ToldShort (l : LaneNo) (s t : State) : Prop where
  liu : t.liu = s.liu
  emitted : t.emitted = s.emitted
  others : ∀ k : LaneNo, k ≠ l → t.ac[k] = s.ac[k] ∧ t.cm[k].shortFinding = s.cm[k].shortFinding
  short : t.ac[l].short = s.ac[l].short
  entry : t.dev = entryOf (shortFinding l s) s.dev
  held : t.cm[l].shortFinding = some (shortFinding l s)
  kept : ∀ k : LaneNo, ∀ f ∈ t.cm[k].kept, f ∈ s.cm[k].kept ∨ f = shortFinding l s
  notices : t.notices = findingNotices (some l) s.notices

theorem openShort_new {l : LaneNo} {s : State} (new : s.cm[l].shortFinding = none) : s.openShort l
    = (s.createFinding (conditionDraft (some l) .retentionShort s.settings.severities.short true s.station)
        (s.laneAsk l s.settings.severities.short s.station)).2.modCm l
      (fun c => { c with shortFinding := some (shortFinding l s) }) := by
  unfold State.openShort
  rw [new]
  rfl

theorem shortFinding_about (l : LaneNo) (s : State) :
    AboutShort l s.settings.severities.short s.station (shortFinding l s) ∧ (shortFinding l s).id = s.dev.nextId ∧
    (shortFinding l s).state = .active ∧ (shortFinding l s).acked = false := by
  obtain ⟨id, lane, kind, severity, state, opened, acked⟩ := createFinding_drafted
    (conditionDraft (some l) .retentionShort s.settings.severities.short true s.station)
    (s.laneAsk l s.settings.severities.short s.station) s
  exact ⟨⟨lane, kind, severity, opened⟩, id, state, acked⟩

theorem restated_kept (log : List Finding) (cm : Vector CmLane 8) (k : LaneNo) :
    (restated log cm)[k].kept = cm[k].kept ∧ (restated log cm)[k].shortFinding = cm[k].shortFinding := by
  rw [restated_lane]
  exact ⟨rfl, rfl⟩

theorem openShort_told {l : LaneNo} {s : State} (roomy : Roomy s) (blank : Blank l s)
    (new : s.cm[l].shortFinding = none) : ToldShort l s (s.openShort l) := by
  obtain ⟨a, c, stamp, h, x, made, short⟩ := createFinding_blank roomy blank
    (d := conditionDraft (some l) .retentionShort s.settings.severities.short true s.station) rfl
    (s.laneAsk l s.settings.severities.short s.station)
  rw [openShort_new new, made]
  have own (t : State) : (t.modCm l (fun c => { c with shortFinding := some (shortFinding l s) })).cm[l]
      = { t.cm[l] with shortFinding := some (shortFinding l s) } := lane_set_self _ _ _
  have other (t : State) (k : LaneNo) (e : k ≠ l) :
      (t.modCm l (fun c => { c with shortFinding := some (shortFinding l s) })).cm[k] = t.cm[k] := lane_set_ne _ _ e
  refine ⟨rfl, rfl, fun k e => ⟨lane_set_ne s.ac c e, ?_⟩, ?_, rfl, ?_, fun k f hf => ?_, rfl⟩
  · rw [other _ k e]
    exact (restated_kept _ _ k).2
  · exact (congrArg AcLane.short (lane_set_self s.ac l c)).trans short
  · rw [own]
  · by_cases e : k = l
    · subst e
      rw [own] at hf
      refine (kept_withShort _ _ f hf).imp (fun old => ?_) (fun same => (Option.some.inj same).symm)
      exact (restated_kept _ s.cm k).1 ▸ old
    · rw [other _ k e] at hf
      exact Or.inl ((restated_kept _ s.cm k).1 ▸ hf)

/-! ### STORE_LOST -/

/-- The finding that a report of STORE_LOST makes. -/
def lostFinding (s : State) : Finding :=
  (s.createFinding (conditionDraft none .storeLost s.settings.severities.storeLost true s.station) none).1

theorem lostFinding_about (s : State) : (lostFinding s).id = s.dev.nextId ∧ (lostFinding s).lane = none ∧
    (lostFinding s).kind = .storeLost ∧ (lostFinding s).severity = s.settings.severities.storeLost ∧
    (lostFinding s).state = .active ∧ (lostFinding s).opened = s.station := by
  obtain ⟨id, lane, kind, severity, state, opened, _⟩ := createFinding_drafted
    (conditionDraft none .storeLost s.settings.severities.storeLost true s.station) none s
  exact ⟨id, lane, kind, severity, state, opened⟩

theorem openStoreLost_shape {s : State} (roomy : Roomy s) (new : s.dev.storeLost = none) : ∃ a : Alarm, s.openStoreLost
    = { s with
        cm := restated (s.dev.log ++ [lostFinding s]) s.cm
        dev := { entryOf (lostFinding s) s.dev with storeLost := some (lostFinding s) }
        alarm := a
        notices := findingNotices none s.notices } := by
  obtain ⟨a, made⟩ := createFinding_device roomy
    (d := conditionDraft none .storeLost s.settings.severities.storeLost true s.station) rfl
  refine ⟨a, ?_⟩
  unfold State.openStoreLost
  rw [new]
  dsimp only
  rw [made]
  rfl

/-! ### All of them -/

/-- The state after the reports of the lanes in `done`, from the state before the first. -/
structure Reported (u : State) (done : List LaneNo) (t : State) : Prop where
  warm : t.warm = none
  settings : t.settings = u.settings
  station : t.station = u.station
  liu : t.liu = u.liu
  emitted : t.emitted = u.emitted
  short : ∀ k : LaneNo, t.ac[k].short = u.ac[k].short
  still : ∀ k : LaneNo, k ∉ done ∨ u.ac[k].short = false → t.ac[k] = u.ac[k]
  unheld : ∀ k : LaneNo, k ∉ done → t.cm[k].shortFinding = none
  next : t.dev.nextId = t.dev.log.length + 1
  length : t.dev.log.length ≤ done.length + 1
  extends_ : u.dev.log <+: t.dev.log
  device : t.dev.storeLost = u.dev.storeLost
  first : ∀ f ∈ t.dev.log.head?, f.id = 1
  about : ∀ f ∈ t.dev.log, f ∈ u.dev.log ∨ ∃ k : LaneNo, u.ac[k].short = true ∧
    AboutShort k u.settings.severities.short u.station f ∧ f.state = .active ∧ f.acked = false
  kept : ∀ k : LaneNo, ∀ f ∈ t.cm[k].kept, f ∈ t.dev.log
  told : ∀ k ∈ done, u.ac[k].short = true → t.notices.finding[k] = true ∧ ∃ f ∈ t.dev.log,
    t.cm[k].shortFinding = some f ∧ AboutShort k u.settings.severities.short u.station f ∧ f.state = .active

/-- The state in which the first of the reports is made. -/
structure Begun (u : State) : Prop where
  warm : u.warm = none
  liu : u.liu = State.reset.liu
  ac : ∀ k : LaneNo, u.ac[k] = { AcLane.reset with short := u.ac[k].short }
  kept : ∀ k : LaneNo, u.cm[k].kept = []
  next : u.dev.nextId = u.dev.log.length + 1
  length : u.dev.log.length ≤ 1
  first : ∀ f ∈ u.dev.log.head?, f.id = 1

theorem not_mem_kept {c : CmLane} (h : c.kept = []) : c.shortFinding = none := by
  cases e : c.shortFinding with
  | none => rfl
  | some f => exact absurd (h ▸ mem_kept_short e) (by simp)

theorem Begun.reported {u : State} (h : Begun u) : Reported u [] u where
  warm := h.warm
  settings := rfl
  station := rfl
  liu := rfl
  emitted := rfl
  short _ := rfl
  still _ _ := rfl
  unheld k _ := not_mem_kept (h.kept k)
  next := h.next
  length := h.length
  extends_ := List.prefix_rfl
  device := rfl
  first := h.first
  about f hf := Or.inl hf
  kept k f hf := absurd (h.kept k ▸ hf) (by simp)
  told k hk := by cases hk

/-- A lane whose short flag is OFF reports nothing. -/
theorem Reported.skip {u t : State} {done : List LaneNo} (h : Reported u done t) {l : LaneNo} (off : u.ac[l].short = false) :
    Reported u (done ++ [l]) t :=
  { h with
    still := fun k hk => h.still k (hk.imp (fun out mem => out (List.mem_append_left _ mem)) id)
    unheld := fun k hk => h.unheld k fun mem => hk (List.mem_append_left _ mem)
    length := by
      rw [List.length_append]
      exact h.length.trans (by omega)
    told := fun k hk on => by
      rcases List.mem_append.mp hk with mem | mem
      · exact h.told k mem on
      · rw [List.mem_singleton.mp mem, off] at on
        cases on }

/-- A lane whose short flag is ON reports it. -/
theorem Reported.report {u t : State} {done : List LaneNo} (begun : Begun u) (h : Reported u done t) {l : LaneNo}
    (on : u.ac[l].short = true) (new : l ∉ done) (few : done.length ≤ 8) : Reported u (done ++ [l]) (t.openShort l) := by
  have own := h.still l (Or.inl new)
  have holdOff : t.liu[l].holdOff = false := by
    rw [h.liu, begun.liu]
    exact congrArg Liu.holdOff (by simp [State.reset] : State.reset.liu[l] = Liu.reset)
  have blank : Blank l t := ⟨h.warm, holdOff, by rw [own]; exact begun.ac l⟩
  have length := h.length
  have roomy : Roomy t := ⟨by rw [h.next]; omega, by omega⟩
  have told := openShort_told roomy blank (h.unheld l new)
  have kept := kept_openShort l t
  obtain ⟨about, ident, active, fresh⟩ := shortFinding_about l t
  rw [h.settings, h.station] at about
  have log : (t.openShort l).dev.log = t.dev.log ++ [shortFinding l t] := by
    rw [told.entry]
    rfl
  have isNew : shortFinding l t ∈ (t.openShort l).dev.log := by
    rw [log]
    exact List.mem_append_right _ List.mem_cons_self
  have old {f : Finding} (hf : f ∈ t.dev.log) : f ∈ (t.openShort l).dev.log := by
    rw [log]
    exact List.mem_append_left _ hf
  have cases_ {k : LaneNo} (hk : k ∉ done ++ [l]) : k ∉ done ∧ k ≠ l :=
    ⟨fun mem => hk (List.mem_append_left _ mem), fun e => hk (List.mem_append_right _ (List.mem_singleton.mpr e))⟩
  exact
    { warm := kept.warm.trans h.warm
      settings := kept.settings.trans h.settings
      station := kept.station.trans h.station
      liu := told.liu.trans h.liu
      emitted := told.emitted.trans h.emitted
      short := fun k => by
        by_cases e : k = l
        · subst e
          exact told.short.trans (h.short k)
        · rw [(told.others k e).1]
          exact h.short k
      still := fun k hk => by
        have apart : k ≠ l := by
          rcases hk with out | off
          · exact (cases_ out).2
          · rintro rfl
            exact absurd (on.symm.trans off) (by decide)
        rw [(told.others k apart).1]
        exact h.still k (hk.imp (fun out => (cases_ out).1) id)
      unheld := fun k hk => by
        obtain ⟨out, apart⟩ := cases_ hk
        rw [(told.others k apart).2]
        exact h.unheld k out
      next := by
        rw [log, told.entry, List.length_append]
        show nextFindingId t.dev.nextId = _
        rw [h.next]
        unfold nextFindingId maxCount32
        rw [if_neg (by omega)]
        rfl
      length := by
        rw [log, List.length_append, List.length_append]
        exact Nat.succ_le_succ length
      extends_ := h.extends_.trans (by rw [log]; exact List.prefix_append _ _)
      device := by
        rw [told.entry]
        exact h.device
      first := fun f hf => by
        rw [log] at hf
        cases empty : t.dev.log with
        | nil =>
          rw [empty] at hf
          rw [← Option.some.inj hf, ident, h.next, empty]
          rfl
        | cons g rest =>
          rw [empty] at hf
          exact h.first f (by rw [empty]; exact hf)
      about := fun f hf => by
        rw [log] at hf
        rcases List.mem_append.mp hf with old | made
        · exact h.about f old
        · rw [List.mem_singleton.mp made]
          exact Or.inr ⟨l, on, about, active, fresh⟩
      kept := fun k f hf => by
        rcases told.kept k f hf with before | same
        · exact old (h.kept k f before)
        · exact same ▸ isNew
      told := fun k hk short => by
        by_cases e : k = l
        · subst e
          refine ⟨?_, _, isNew, told.held, about, active⟩
          rw [told.notices]
          exact lane_set_self _ _ _
        · obtain ⟨raised, f, mem, held, of, state⟩ := h.told k
            ((List.mem_append.mp hk).resolve_right fun m => e (List.mem_singleton.mp m)) short
          refine ⟨?_, f, old mem, (told.others k e).2.trans held, of, state⟩
          rw [told.notices]
          exact flag_set _ _ _ raised }

/-- The reports of the lanes in turn. -/
def reportLane (t : State) (l : LaneNo) : State := if t.ac[l].short then t.openShort l else t

theorem reported_lanes {u : State} (begun : Begun u) : ∀ (ls done : List LaneNo) (t : State), (done ++ ls).Nodup →
    (done ++ ls).length ≤ 8 → Reported u done t → Reported u (done ++ ls) (ls.foldl reportLane t)
  | [], done, t, _, _, h => by
    rw [List.append_nil]
    exact h
  | l :: ls, done, t, nodup, few, h => by
    rw [List.append_cons] at nodup few ⊢
    refine reported_lanes begun ls (done ++ [l]) _ nodup few ?_
    unfold reportLane
    rw [h.short]
    split
    · next on =>
      have new : l ∉ done := fun mem => by
        rw [List.append_assoc] at nodup
        exact List.disjoint_of_nodup_append nodup mem (List.mem_append_left _ List.mem_cons_self)
      refine h.report begun on new ?_
      rw [List.length_append, List.length_append] at few
      omega
    · next off => exact h.skip (by simpa using off)

theorem reported_all {u : State} (begun : Begun u) :
    Reported u allLanes (allLanes.foldl reportLane u) :=
  reported_lanes begun allLanes [] u (by decide) (by decide) begun.reported

end Sys2Proof.Lanes
end

section
/-! PROOFS. The state that a completed warm reset ends in (R151, R152, R166): the fresh part, the reports on it, and the boundary. -/

namespace Sys2Proof.Lanes

open Sys2Proof.Machine Sys2Proof.Laws

/-! ### Before the lanes report -/

/-- STORE_LOST has been reported if the store is DOWN. -/
def lostFirst (b : State) : State := if b.store.up then b else b.openStoreLost

/-- The state at the boundary: every report is made. -/
def reportsMade (b : State) : State := allLanes.foldl reportLane (lostFirst b)

theorem reportAfresh_eq (b : State) : b.reportAfresh = reportsMade b := rfl

/-- The first report changes no lane's findings, intake or archive stream, and none of what the store holds. -/
structure LostFirst (b u : State) : Prop where
  liu : u.liu = b.liu
  ac : u.ac = b.ac
  cm : u.cm = State.reset.cm
  emitted : u.emitted = b.emitted
  holds : u.holds = b.holds
  sys : u.sys = b.sys
  extents : u.extents = b.extents
  retry : u.retry = b.retry
  attemptDue : u.attemptDue = b.attemptDue
  settings : u.settings = b.settings
  station : u.station = b.station
  warm : u.warm = b.warm
  gate : u.gateOpen = b.gateOpen

theorem reset_cm (l : LaneNo) : State.reset.cm[l] = CmLane.reset := by simp [State.reset]

theorem reset_liu (l : LaneNo) : State.reset.liu[l] = Liu.reset := by simp [State.reset]

theorem reset_ac (l : LaneNo) : State.reset.ac[l] = AcLane.reset := by simp [State.reset]

/-- A finding of DEVICE gives no lane a status. -/
theorem restated_reset {f : Finding} (device : f.lane = none) : restated [f] State.reset.cm = State.reset.cm := by
  refine Vector.ext fun k hk => ?_
  have lane := restated_lane [f] State.reset.cm ⟨k, hk⟩
  have normal : statusOf [f] (some (⟨k, hk⟩ : LaneNo)) = .normal := by simp [statusOf, device]
  rw [normal, reset_cm] at lane
  exact lane.trans (reset_cm ⟨k, hk⟩).symm

section
variable {s b : State}

theorem Unreported.roomy (h : Unreported s b) : Roomy b := ⟨by rw [h.dev]; decide, by rw [h.dev]; decide⟩

theorem lostFirst_up (up : b.store.up = true) : lostFirst b = b := if_pos up

/-- While the store is DOWN the first finding is STORE_LOST (R115). -/
theorem lostFirst_down (h : Unreported s b) (down : b.store.up = false) : ∃ a : Alarm, lostFirst b = { b with
    cm := State.reset.cm
    dev := { entryOf (lostFinding b) b.dev with storeLost := some (lostFinding b) }
    alarm := a
    notices := findingNotices none b.notices } := by
  have new : b.dev.storeLost = none := by rw [h.dev]; rfl
  obtain ⟨a, same⟩ := openStoreLost_shape h.roomy new
  obtain ⟨_, device, _⟩ := lostFinding_about b
  have log : b.dev.log ++ [lostFinding b] = [lostFinding b] := by rw [h.dev]; rfl
  rw [log, h.cm, restated_reset device] at same
  exact ⟨a, (if_neg (by simp [down])).trans same⟩

theorem lostFirst_spec (h : Unreported s b) : LostFirst b (lostFirst b) := by
  by_cases up : b.store.up = true
  · rw [lostFirst_up up]
    exact ⟨rfl, rfl, h.cm, rfl, rfl, rfl, rfl, rfl, rfl, rfl, rfl, rfl, rfl⟩
  · obtain ⟨a, same⟩ := lostFirst_down h (by simpa using up)
    rw [same]
    exact ⟨rfl, rfl, rfl, rfl, rfl, rfl, rfl, rfl, rfl, rfl, rfl, rfl, rfl⟩

/-- The log before the lanes report: empty, or STORE_LOST alone. -/
theorem lostFirst_dev (h : Unreported s b) : (lostFirst b).dev.nextId = (lostFirst b).dev.log.length + 1 ∧
    (lostFirst b).dev.log.length ≤ 1 ∧ ∀ f ∈ (lostFirst b).dev.log.head?, f.id = 1 := by
  by_cases up : b.store.up = true
  · rw [lostFirst_up up, h.dev]
    exact ⟨rfl, Nat.zero_le 1, fun f hf => by cases hf⟩
  · obtain ⟨a, same⟩ := lostFirst_down h (by simpa using up)
    obtain ⟨ident, _⟩ := lostFinding_about b
    rw [h.dev] at ident
    rw [same]
    simp only [entryOf]
    rw [h.dev]
    exact ⟨rfl, Nat.le_refl 1, fun f hf => Option.some.inj hf ▸ ident⟩

theorem Unreported.begun (h : Unreported s b) (warm : b.warm = none) : Begun (lostFirst b) := by
  have spec := lostFirst_spec h
  obtain ⟨next, length, first⟩ := lostFirst_dev h
  refine ⟨spec.warm.trans warm, spec.liu.trans h.liu, fun k => ?_, fun k => ?_, next, length, first⟩
  · rw [spec.ac, h.ac k]
  · rw [spec.cm, reset_cm]
    rfl

theorem Unreported.shorts (h : Unreported s b) (l : LaneNo) : (lostFirst b).ac[l].short = s.ac[l].short := by
  rw [(lostFirst_spec h).ac, h.ac l]

theorem Unreported.reported (h : Unreported s b) (warm : b.warm = none) :
    Reported (lostFirst b) allLanes (reportsMade b) := reported_all (h.begun warm)

/-! ### No short lane -/

theorem foldl_fixed {α β : Type} (f : β → α → β) (b : β) : ∀ xs : List α, (∀ x ∈ xs, f b x = b) → xs.foldl f b = b
  | [], _ => rfl
  | x :: xs, h => by
    rw [List.foldl_cons, h x List.mem_cons_self]
    exact foldl_fixed f b xs fun y hy => h y (List.mem_cons_of_mem x hy)

/-- Without a short lane, the boundary finds nothing to attend to. -/
theorem completed_unshort (h : Unreported s b) (none_ : ∀ l : LaneNo, s.ac[l].short = false) :
    (reportsMade b).allocate = lostFirst b := by
  have made : reportsMade b = lostFirst b := foldl_fixed reportLane (lostFirst b) allLanes fun l _ => by
    unfold reportLane
    rw [h.shorts l, none_ l]
    rfl
  rw [made]
  refine allocate_of_settled _ ⟨(lostFirst_spec h).attemptDue.trans h.attemptDue, fun l => ?_⟩
  unfold State.needsExtent
  rw [(lostFirst_spec h).ac, h.ac l]
  rfl

/-! ### With short lanes -/

theorem aside_reportLane (t : State) (l : LaneNo) : Aside t (reportLane t l) := by
  unfold reportLane
  split
  · exact ⟨kept_openShort l t, beside_openShort l t⟩
  · exact .refl t

theorem aside_reportsMade (b : State) : Aside b (reportsMade b) := by
  have lost : Aside b (lostFirst b) := by
    unfold lostFirst
    split
    · exact .refl b
    · exact ⟨kept_openStoreLost b, beside_openStoreLost b⟩
  exact lost.trans (Aside.foldl reportLane aside_reportLane allLanes (lostFirst b))

theorem aside_completed (b : State) : Aside b (reportsMade b).allocate := (aside_reportsMade b).trans (aside_allocate _)

theorem completed_gate (b : State) : (reportsMade b).gateOpen = b.gateOpen := gate_of_kept (aside_reportsMade b).kept

theorem Unreported.owned (h : Unreported s b) : (reportsMade b).findingsOwned := by
  have fresh : b.findingsOwned := by
    refine ⟨fun l f hf => ?_, fun f hf => ?_⟩
    · rw [h.cm, reset_cm] at hf
      cases hf
    · rw [h.dev] at hf
      cases hf
  have lost : (lostFirst b).findingsOwned := by
    unfold lostFirst
    split
    · exact fresh
    · exact owned_openStoreLost b fresh
  refine steady_foldl (I := State.findingsOwned) reportLane allLanes (fun t l _ owned => ?_) (lostFirst b) lost
  unfold reportLane
  split
  · exact owned_openShort l t owned
  · exact owned

/-- A lane that is not short is as after a cold reset (R20, R166). -/
theorem completed_still (h : Unreported s b) (warm : b.warm = none) (l : LaneNo) (off : s.ac[l].short = false) :
    (reportsMade b).allocate.liu[l] = State.reset.liu[l] := by
  have reports := h.reported warm
  have spec := lostFirst_spec h
  have short : (lostFirst b).ac[l].short = false := (h.shorts l).trans off
  have ac : (reportsMade b).ac[l] = AcLane.reset := by
    rw [reports.still l (Or.inr short), spec.ac, h.ac l, off]
    rfl
  have liu : (reportsMade b).liu[l] = State.reset.liu[l] := by rw [reports.liu, spec.liu, h.liu]
  exact (aloof_allocate rfl rfl (reportsMade b) ⟨h.owned, liu, ac⟩).2.1

/-- A boundary that makes no attempt leaves intake, findings and notices. -/
theorem Asks.same {s t : State} (h : Asks s t) :
    t.liu = s.liu ∧ t.emitted = s.emitted ∧ t.dev = s.dev ∧ t.cm = s.cm ∧ t.notices = s.notices := by
  obtain ⟨_, same⟩ := h
  exact ⟨by rw [same], by rw [same], by rw [same], by rw [same], by rw [same]⟩

/-- While the gate is closed no hold-off is driven (R158). -/
theorem completed_closed (h : Unreported s b) (warm : b.warm = none) (closed : b.gateOpen = false) :
    (reportsMade b).allocate.liu = State.reset.liu ∧ (reportsMade b).allocate.emitted = b.emitted := by
  have asks := asks_allocate (reportsMade b) ((completed_gate b).trans closed)
  have reports := h.reported warm
  have spec := lostFirst_spec h
  obtain ⟨liu, emitted, _⟩ := asks.same
  rw [liu, emitted]
  exact ⟨reports.liu.trans (spec.liu.trans h.liu), reports.emitted.trans spec.emitted⟩

/-- While the store is DOWN, STORE_LOST is in the log and kept for DEVICE. -/
theorem completed_down (h : Unreported s b) (warm : b.warm = none) (down : b.store.up = false) :
    (reportsMade b).allocate.notices.deviceFinding = true ∧ lostFinding b ∈ (reportsMade b).allocate.dev.log ∧
    (reportsMade b).allocate.dev.storeLost = some (lostFinding b) := by
  obtain ⟨a, first⟩ := lostFirst_down h down
  have closed : b.gateOpen = false := by simp [State.gateOpen, down]
  have asks := asks_allocate (reportsMade b) ((completed_gate b).trans closed)
  obtain ⟨_, _, dev, _, notices⟩ := asks.same
  have reports := h.reported warm
  have louder : Louder (lostFirst b).notices (reportsMade b).notices :=
    (Aside.foldl reportLane aside_reportLane allLanes (lostFirst b)).beside.notices
  rw [dev, notices]
  refine ⟨louder.device (by rw [first]; rfl), reports.extends_.subset ?_, reports.device.trans (by rw [first])⟩
  rw [first]
  exact List.mem_append_right _ List.mem_cons_self

/-- The reports of a short lane, as they stand at the boundary. -/
theorem reportsMade_short (h : Unreported s b) (warm : b.warm = none) (l : LaneNo) (on : s.ac[l].short = true) :
    (reportsMade b).notices.finding[l] = true ∧ ∃ f ∈ (reportsMade b).dev.log, (reportsMade b).cm[l].shortFinding = some f ∧
      AboutShort l b.settings.severities.short b.station f ∧ f.state = .active := by
  have spec := lostFirst_spec h
  have told := (h.reported warm).told l (mem_allLanes l) ((h.shorts l).trans on)
  rw [spec.settings, spec.station] at told
  exact told

theorem completed_raised (h : Unreported s b) (warm : b.warm = none) (l : LaneNo) (on : s.ac[l].short = true) :
    (reportsMade b).allocate.notices.finding[l] = true :=
  (aside_allocate _).beside.notices.finding l (reportsMade_short h warm l on).1

/-- While the gate is closed a short lane stays short, and its finding is ACTIVE (R166). -/
theorem completed_short_closed (h : Unreported s b) (warm : b.warm = none) (closed : b.gateOpen = false) (l : LaneNo)
    (on : s.ac[l].short = true) : (reportsMade b).allocate.ac[l].short = true ∧
      ∃ f ∈ (reportsMade b).allocate.dev.log, (reportsMade b).allocate.cm[l].shortFinding = some f ∧
        AboutShort l b.settings.severities.short b.station f ∧ f.state = .active := by
  have asks := asks_allocate (reportsMade b) ((completed_gate b).trans closed)
  obtain ⟨_, _, dev, cm, _⟩ := asks.same
  refine ⟨(acCore_short (asks.1 l)).trans (((h.reported warm).short l).trans ((h.shorts l).trans on)), ?_⟩
  rw [dev, cm]
  exact (reportsMade_short h warm l on).2

/-- The only short lane's finding is the first, while the store is UP. -/
theorem completed_first (h : Unreported s b) (warm : b.warm = none) (up : b.store.up = true) (l : LaneNo)
    (on : s.ac[l].short = true) (only : ∀ k : LaneNo, k ≠ l → s.ac[k].short = false) :
    ∃ f rest, (reportsMade b).allocate.dev.log = f :: rest ∧ f.id = 1 ∧
      AboutShort l b.settings.severities.short b.station f := by
  have reports := h.reported warm
  have spec := lostFirst_spec h
  have empty : (lostFirst b).dev.log = [] := by rw [lostFirst_up up, h.dev]; rfl
  have all : ∀ f ∈ (reportsMade b).dev.log, AboutShort l b.settings.severities.short b.station f ∧ f.state = .active ∧
      f.acked = false := by
    intro f hf
    rcases reports.about f hf with old | ⟨k, short, about, active, fresh⟩
    · rw [empty] at old
      cases old
    · have same : k = l := by
        by_contra ne
        rw [h.shorts k, only k ne] at short
        cases short
      subst same
      rw [spec.settings, spec.station] at about
      exact ⟨about, active, fresh⟩
  obtain ⟨_, g, mem, _⟩ := reportsMade_short h warm l on
  have headed : Headed l b.settings.severities.short b.station (reportsMade b) := by
    obtain ⟨f, rest, log⟩ := List.exists_cons_of_ne_nil (List.ne_nil_of_mem mem)
    obtain ⟨about, active, fresh⟩ := all f (by rw [log]; exact List.mem_cons_self)
    refine ⟨?_, ⟨f, rest, log, reports.first f (by rw [log]; rfl), about, fresh, by rw [active]; decide⟩, ?_⟩
    · rw [reports.next, log]
      simp
    · intro k x hx _
      obtain ⟨about, active, _⟩ := all x (reports.kept k x hx)
      exact ⟨about, by rw [active]; decide⟩
  obtain ⟨f, rest, log, ident, about, _⟩ := (headed_allocate _ headed).first
  exact ⟨f, rest, log, ident, about⟩

end

end Sys2Proof.Lanes
end

section
/-! PROOFS. The statement of the completed warm reset. -/

namespace Sys2Proof.Lanes

open Sys2Proof.Machine Sys2Proof.Laws

theorem exec_warmResetComplete (s : State) (w : Warm) (h : s.warm = some w) (ready : s.warmReady = true) :
    exec .warmResetComplete s = .next (reportsMade (afresh w s.begin)).allocate := by
  rw [← reportAfresh_eq, ← completeWarm_eq]
  show execWarmResetComplete s = _
  unfold execWarmResetComplete
  rw [h]
  simp [ready]

/-- Of a lane's intake only what hold-off drives can differ from the reset. -/
theorem intake_of_core {x : Liu} (h : liuCore x = liuCore Liu.reset) : x = { Liu.reset with
    holdOff := x.holdOff
    resend := x.resend
    counters := { IntakeCounters.zero with holdsSent := x.counters.holdsSent } } := by
  have same : { liuCore x with
      holdOff := x.holdOff
      resend := x.resend
      counters := { (liuCore x).counters with holdsSent := x.counters.holdsSent } } = x := rfl
  rw [h] at same
  exact same.symm

/-- What becomes of the operation that an outage interrupted (R151, R152). -/
theorem interrupted_afterWarm (i : Option StoreJob) (l : LaneNo) (ext page : Nat) (d : Bool) :
    let after := (i.filter (fun j => !j.op.withdrawn)).map StoreJob.afterWarm
    (∀ k : Fin 4, i = some ⟨.laneProgram l (.content k) ext page, d⟩ → after = none) ∧
    (i = some ⟨.laneErase l ext, d⟩ → after = none) ∧
    (∀ k : SlotNo, i = some ⟨.recallRead k ext page, d⟩ → after = none) ∧
    (∀ o f g : Nat, i = some ⟨.laneProgram l (.header o f g) ext page, d⟩ →
      after = some ⟨.laneProgram l (.header o f g) ext page, true⟩) ∧
    (∀ x : PendingSeal, i = some ⟨.laneProgram l (.sealPage x) ext page, d⟩ →
      after = some ⟨.laneProgram l (.sealPage x) ext page, true⟩) := by
  refine ⟨fun _ e => ?_, fun e => ?_, fun _ e => ?_, fun _ _ _ e => ?_, fun _ e => ?_⟩ <;> subst e <;> rfl

section
variable {w : Warm} {s b : State}

/-- What neither the reports nor the boundary touch. -/
theorem Fresh.completed (h : Fresh w s b) :
    Spared s (reportsMade b).allocate ∧ Emptied (reportsMade b).allocate ∧
    (∀ x ∈ (reportsMade b).allocate.extents, x.state ≠ .opened) ∧
    (reportsMade b).allocate.store.interrupted = b.store.interrupted ∧
    b.emitted <+: (reportsMade b).allocate.emitted := by
  obtain ⟨kept, beside⟩ := aside_completed b
  generalize (reportsMade b).allocate = t at kept beside ⊢
  obtain ⟨settings, station, linkState, reply, up, gate⟩ := h.spared
  obtain ⟨warm, mode, le, cc, st, verdicts, slots, hold, save, incomplete, dropped, rejected⟩ := h.emptied
  have link := kept.link
  have store : t.store.interrupted = b.store.interrupted ∧ t.store.up = b.store.up :=
    ⟨(congrArg StorePort.interrupted kept.store : _), (congrArg StorePort.up kept.store : _)⟩
  refine ⟨⟨?_, ?_, ?_, ?_, ?_, ?_⟩, ⟨?_, ?_, ?_, ?_, ?_, ?_, ?_, ?_, ?_, ?_, ?_, ?_⟩, beside.unopened h.unopened, store.1,
    kept.emitted⟩
  · exact kept.settings.trans settings
  · exact kept.station.trans station
  · rw [link, linkState]
  · rw [link, reply]
  · exact store.2.trans up
  · exact (gate_of_kept kept).trans gate
  · exact kept.warm.trans warm
  · exact kept.mode.trans mode
  · exact kept.le.trans le
  · exact kept.cc.trans cc
  · exact kept.st.trans st
  · exact kept.verdicts.trans verdicts
  · exact kept.slots.trans slots
  · rw [kept.exportLink, hold]
  · exact kept.saveInFlight.trans save
  · rw [link, incomplete]
  · rw [link, dropped]
  · rw [link, rejected]

/-- Without a short lane, the holds stand as their open ends were closed. -/
theorem Fresh.holds (h : Fresh w s b) (none_ : ∀ l : LaneNo, s.ac[l].short = false) :
    (reportsMade b).allocate.holds.next = s.holds.next ∧
    List.Forall₂ (fun h g => (h.leftOpen → h.closesTo (reportsMade b).allocate.extents g ∧ g.restored = h.restored) ∧
      (¬ h.leftOpen → g = h)) s.holds.table (reportsMade b).allocate.holds.table ∧
    ((∃ h ∈ s.holds.table, h.leftOpen) →
      ∃ w ∈ (reportsMade b).allocate.sys.queue, w.content = .holds (reportsMade b).allocate.holds) := by
  have spec := lostFirst_spec h.unreported
  rw [completed_unshort h.unreported none_, spec.holds, spec.extents, spec.sys]
  refine ⟨h.holdNext, ?_, h.written⟩
  rw [h.holdTable, List.forall₂_map_right_iff, List.forall₂_same]
  exact fun g _ => closeOpenEnd_spec b.extents g

/-- Without a short lane, the Compliance Monitor's lanes and the archive are as after a cold reset. -/
theorem Fresh.unshort (h : Fresh w s b) (none_ : ∀ l : LaneNo, s.ac[l].short = false) :
    (reportsMade b).allocate.cm = State.reset.cm ∧ (reportsMade b).allocate.ac = State.reset.ac ∧
    (reportsMade b).allocate.retry = none := by
  have spec := lostFirst_spec h.unreported
  rw [completed_unshort h.unreported none_, spec.ac, spec.retry]
  refine ⟨spec.cm, Vector.ext fun k hk => ?_, h.unreported.retry⟩
  have lane := h.unreported.ac ⟨k, hk⟩
  rw [none_] at lane
  exact lane.trans (reset_ac ⟨k, hk⟩).symm

/-- Without a short lane and with the store UP nothing is reported. -/
theorem Fresh.silent (h : Fresh w s b) (up : s.store.up = true) (none_ : ∀ l : LaneNo, s.ac[l].short = false) :
    (reportsMade b).allocate.dev = State.reset.dev ∧ (reportsMade b).allocate.notices = .empty ∧
    (reportsMade b).allocate.alarm.overall = .normal := by
  rw [completed_unshort h.unreported none_, lostFirst_up (h.spared.up.trans up)]
  exact ⟨h.unreported.dev, h.unreported.notices, h.unreported.overall⟩

/-- The lanes' intake: as after a cold reset but for hold-off, which only a short lane's report can drive (R16, R20). -/
theorem Fresh.intake (h : Fresh w s b) :
    (∀ l : LaneNo, (reportsMade b).allocate.liu[l] = { State.reset.liu[l] with
      holdOff := (reportsMade b).allocate.liu[l].holdOff
      resend := (reportsMade b).allocate.liu[l].resend
      counters := { IntakeCounters.zero with holdsSent := (reportsMade b).allocate.liu[l].counters.holdsSent } }) ∧
    (∀ l : LaneNo, s.ac[l].short = false → (reportsMade b).allocate.liu[l] = State.reset.liu[l]) ∧
    ((∀ l : LaneNo, s.ac[l].short = false) ∨ s.gateOpen = false →
      (reportsMade b).allocate.liu = State.reset.liu ∧ (reportsMade b).allocate.emitted = b.emitted) := by
  have core (l : LaneNo) : liuCore (reportsMade b).allocate.liu[l] = liuCore Liu.reset := by
    rw [(aside_completed b).kept.liu l, h.unreported.liu, reset_liu]
  refine ⟨fun l => ?_, completed_still h.unreported h.emptied.warm, fun quiet => ?_⟩
  · rw [reset_liu]
    exact intake_of_core (core l)
  · rcases quiet with none_ | closed
    · have spec := lostFirst_spec h.unreported
      rw [completed_unshort h.unreported none_]
      exact ⟨spec.liu.trans h.unreported.liu, spec.emitted⟩
    · exact completed_closed h.unreported h.emptied.warm (h.spared.gate.trans closed)

/-- STORE_LOST stands while the store is DOWN. -/
theorem Fresh.down (h : Fresh w s b) (down : s.store.up = false) :
    (reportsMade b).allocate.notices.deviceFinding = true ∧
    ∃ f ∈ (reportsMade b).allocate.dev.log, (reportsMade b).allocate.dev.storeLost = some f ∧ f.id = 1 ∧ f.lane = none ∧
      f.kind = .storeLost ∧ f.severity = s.settings.severities.storeLost ∧ f.state = .active ∧ f.opened = s.station := by
  obtain ⟨raised, mem, kept⟩ := completed_down h.unreported h.emptied.warm (h.spared.up.trans down)
  obtain ⟨ident, lane, kind, severity, state, opened⟩ := lostFinding_about b
  rw [h.unreported.dev] at ident
  rw [h.spared.settings] at severity
  rw [h.spared.station] at opened
  exact ⟨raised, lostFinding b, mem, kept, ident, lane, kind, severity, state, opened⟩

/-- A short lane's report stands while the gate is closed; it is finding 1 when it is the only one. -/
theorem Fresh.short (h : Fresh w s b) (l : LaneNo) (on : s.ac[l].short = true) :
    (reportsMade b).allocate.notices.finding[l] = true ∧
    (s.gateOpen = false → (reportsMade b).allocate.ac[l].short = true ∧ ∃ f ∈ (reportsMade b).allocate.dev.log,
      (reportsMade b).allocate.cm[l].shortFinding = some f ∧
      AboutShort l s.settings.severities.short s.station f ∧ f.state = .active) ∧
    (s.store.up = true → (∀ k : LaneNo, k ≠ l → s.ac[k].short = false) →
      ∃ f rest, (reportsMade b).allocate.dev.log = f :: rest ∧ f.id = 1 ∧
        AboutShort l s.settings.severities.short s.station f) := by
  rw [← h.spared.settings, ← h.spared.station]
  exact ⟨completed_raised h.unreported h.emptied.warm l on,
    fun closed => completed_short_closed h.unreported h.emptied.warm (h.spared.gate.trans closed) l on,
    fun up only => completed_first h.unreported h.emptied.warm (h.spared.up.trans up) l on only⟩

end

/-- Settles O49: the state before the reports is the reset one, the reports touch findings and the short lanes' archive
streams, and the boundary behind them attempts only for lanes whose report has a record. -/
theorem warmResetClearsThePart : Obligations.WarmResetClearsThePart := by
  unfold Obligations.WarmResetClearsThePart
  intro s w h ready cells
  have fresh := afresh_fresh w s.begin
  have run := exec_warmResetComplete s w h ready
  generalize afresh w s.begin = b at fresh run
  have sent : b.emitted = cells := fresh.emitted
  obtain ⟨spared, emptied, unopened, interrupted, emitted⟩ := fresh.completed
  obtain ⟨core, still, quiet⟩ := fresh.intake
  have holds := fresh.holds
  have unshort := fresh.unshort
  have silent := fresh.silent
  have down := fresh.down
  have short := fresh.short
  have after := interrupted.trans fresh.interrupted
  rw [sent] at emitted quiet
  generalize (reportsMade b).allocate = t at *
  refine ⟨t, run, emptied.warm, emptied.mode, emptied.le, emptied.cc, emptied.st, emptied.verdicts, emptied.slots,
    emptied.hold, emptied.saveInFlight, spared.settings, spared.station, spared.linkState, spared.reply,
    emptied.incomplete, emptied.dropped, emptied.rejected, unopened, fun l ext page d => ?_, holds,
    ⟨emitted, core, still, quiet⟩, unshort, silent, down, fun l on => ?_⟩
  · rw [after]
    exact interrupted_afterWarm s.store.interrupted l ext page d
  · obtain ⟨raised, closed, first⟩ := short l on
    refine ⟨raised, fun gate => ?_, fun up only => ?_⟩
    · obtain ⟨on, f, mem, held, ⟨lane, kind, severity, opened⟩, active⟩ := closed gate
      exact ⟨on, f, mem, held, ⟨lane, kind, severity, opened⟩, active⟩
    · obtain ⟨f, rest, log, ident, lane, kind, severity, opened⟩ := first up only
      exact ⟨f, rest, log, ident, lane, kind, severity, opened⟩

end Sys2Proof.Lanes
end

section
/-! PROOFS. Queries of the control link, and the ranges of settings. -/

namespace Sys2Proof.LoudnessEngine

open Sys2Proof.Machine Sys2Proof.Laws Sys2Proof.Lanes

/-! ### Requests whose handler changes nothing (R184 to R186) -/

/-- A request whose handler leaves the state as it was changes nothing but the link. -/
theorem serve_answered {q : Byte} {r : Request} {h : Handler} {x : Reply} {s : State} (ready : s.readyToTake = true)
    (still : h (working q r s) = (x, working q r s)) : s.begin.serve q r h = s.answered q r x := by
  rw [serve_ready q r h s ready, still, answered_eq]

/-- A lane that exists is looked up as it is named. -/
theorem withLane_val (l : LaneNo) (h : LaneNo → Handler) : withLane l.val h = h l := by
  unfold withLane
  rw [laneOf_val]

/-- STAT of the DEVICE. -/
theorem handleStat_device : handleStat 255 = answer State.deviceStatus := if_pos rfl

/-- STAT of a lane: no lane has the number of the DEVICE. -/
theorem handleStat_lane (l : LaneNo) : handleStat l.val = answer (fun s => s.laneStatus l) := by
  have lane : l.val ≠ 255 := by omega
  unfold handleStat
  rw [if_neg lane, withLane_val]

/-- Settles O15: each handler answers from the state, which the exchange so far has changed in the link only. -/
theorem queriesChangeOnlyTheLink : Obligations.QueriesChangeOnlyTheLink := by
  unfold Obligations.QueriesChangeOnlyTheLink
  intro q s ready
  have served {r : Request} {h : Handler} {x : Reply} (still : h (working q r s) = (x, working q r s)) :
      Host.Outcome.next (φ := Fault) (ρ := Refusal) (s.begin.serve q r h) = .next (s.answered q r x) :=
    congrArg _ (serve_answered ready still)
  refine ⟨served ?_, fun l => ⟨served ?_, served ?_, served ?_⟩, fun n => ⟨served rfl, served rfl, served rfl⟩⟩
  · rw [handleStat_device]
    rfl
  · rw [handleStat_lane]
    rfl
  · rw [handleMetr, withLane_val]
    rfl
  · rw [handleCapt, withLane_val]
    rfl

/-! ### Ranges of settings (00 §4.5) -/

/-- A number outside its range goes to the nearest end. -/
theorem clampNat_eq {lo hi : Nat} (range : lo ≤ hi) (v : Nat) : clampNat lo hi v = max lo (min hi v) := by
  unfold clampNat
  split_ifs <;> omega

/-- The same for a signed number. -/
theorem clampInt_eq {lo hi : Int} (range : lo ≤ hi) (v : Int) : clampInt lo hi v = max lo (min hi v) := by
  unfold clampInt
  split_ifs <;> omega

/-- A ceiling that is set goes to the nearest end of its range, and one that is not stays so. -/
theorem map_clampInt_eq {lo hi : Int} (range : lo ≤ hi) (v : Option Int) :
    v.map (clampInt lo hi) = v.map (fun x => max lo (min hi x)) :=
  Option.map_congr fun x _ => clampInt_eq range x

/-- The range of the low limit ends where that of the high limit begins (Table 1-5). -/
theorem rateLow_le_rateHigh (f : LaneFields) : (appliedLane f).rateLow ≤ (appliedLane f).rateHigh := by
  have low : (appliedLane f).rateLow = max 900 (min 1000 f.rateLow) := clampNat_eq (by decide) _
  have high : (appliedLane f).rateHigh = max 1000 (min 1100 f.rateHigh) := clampNat_eq (by decide) _
  omega

/-- Settles O19: field by field, each by its range. -/
theorem settingsAreClampedToTheirRanges : Obligations.SettingsAreClampedToTheirRanges := by
  unfold Obligations.SettingsAreClampedToTheirRanges
  have zeroTo (hi v : Nat) := clampNat_eq (Nat.zero_le hi) v
  refine ⟨fun f => ⟨clampInt_eq ?_ _, clampInt_eq ?_ _, map_clampInt_eq ?_ _, map_clampInt_eq ?_ _, map_clampInt_eq ?_ _,
    zeroTo 1000 f.minCoverage, clampNat_eq ?_ _, clampNat_eq ?_ _, zeroTo 4294967295 f.lateLimit, zeroTo 600 f.grace,
    zeroTo 600 f.preRoll, zeroTo 600 f.postRoll⟩,
    fun f => ⟨clampNat_eq ?_ _, clampNat_eq ?_ _, clampNat_eq ?_ _, rateLow_le_rateHigh f, clampInt_eq ?_ _,
    clampNat_eq ?_ _, zeroTo 60000 f.lateLimit, zeroTo 120000 f.earlyLimit, zeroTo 600000 f.lostGrace,
    zeroTo 600000 f.driftGrace, zeroTo 600 f.preRoll, zeroTo 600 f.postRoll⟩⟩
  all_goals decide

end Sys2Proof.LoudnessEngine
end

section
/-! PROOFS. Powers and sample magnitudes in tenths (R29, R30): the whole powers that the model compares decide the manual's
bounds, and the search between the ends finds the largest tenth reached. -/

namespace Sys2Proof.LoudnessEngine

open Sys2Proof.Machine Sys2Proof.Laws

/-! ### The largest tenth reached -/

/-- The reported tenth of a property that a lower tenth has with every higher one: it lies in its range, it is reached
unless it is the lowest, and the next is not reached unless it is the highest. -/
theorem reportedBetween_spec {p : Int → Bool} {lo hi : Int} (falls : ∀ n : Int, p (n + 1) = true → p n = true)
    (range : lo < hi) (size : hi - lo ≤ 2 ^ 11) :
    let v := reportedBetween p lo hi
    v ≤ hi ∧ lo ≤ v ∧ (lo < v → p v = true) ∧ (v < hi → p (v + 1) = false) := by
  intro v
  cases bottom : p lo with
  | false =>
    have least : v = lo := by simp [v, reportedBetween, bottom]
    refine ⟨by omega, by omega, fun above => absurd least (by omega), fun _ => ?_⟩
    rw [least, ← Bool.not_eq_true]
    exact fun next => by simp [falls lo next] at bottom
  | true =>
    cases top : p hi with
    | true =>
      have greatest : v = hi := by simp [v, reportedBetween, bottom, top]
      exact ⟨by omega, by omega, fun _ => greatest ▸ top, fun below => absurd greatest (by omega)⟩
    | false =>
      have found : v = largestBelow p 11 lo hi := by simp [v, reportedBetween, bottom, top]
      obtain ⟨reached, next, low, high⟩ := largestBelow_spec p 11 lo hi bottom top range size
      rw [found]
      exact ⟨high.le, low, fun _ => reached, fun _ => next⟩

/-- The reported tenth by bounds that rise: the largest in its range whose bound a value reaches. -/
theorem reportedBetween_bound {p : Int → Bool} {bound : Int → ℝ} {x : ℝ} {lo hi : Int}
    (reaches : ∀ n : Int, p n = true ↔ bound n ≤ x) (rises : ∀ n : Int, bound n ≤ bound (n + 1)) (range : lo < hi)
    (size : hi - lo ≤ 2 ^ 11) :
    let v := reportedBetween p lo hi
    v ≤ hi ∧ lo ≤ v ∧ (lo < v → bound v ≤ x) ∧ (v < hi → x < bound (v + 1)) := by
  have falls (n : Int) (next : p (n + 1) = true) : p n = true :=
    (reaches n).mpr ((rises n).trans ((reaches (n + 1)).mp next))
  obtain ⟨high, low, reached, next⟩ := reportedBetween_spec falls range size
  refine ⟨high, low, fun above => (reaches _).mp (reached above), fun below => not_le.mp fun le => ?_⟩
  have not_reached := next below
  rw [(reaches _).mpr le] at not_reached
  cases not_reached

/-! ### Whole powers against a bound (R31) -/

/-- A quotient of whole numbers against a whole power of 10. -/
theorem atLeastPow10_iff {num den : Nat} (pos : 0 < den) (e : Int) :
    atLeastPow10 num den e = true ↔ (10 : ℝ) ^ e ≤ (num : ℝ) / den := by
  have d : (0 : ℝ) < den := by exact_mod_cast pos
  cases e with
  | ofNat k =>
    rw [atLeastPow10, decide_eq_true_iff, Int.ofNat_eq_natCast, zpow_natCast, le_div_iff₀ d, mul_comm]
    exact_mod_cast Iff.rfl
  | negSucc k =>
    have t : (0 : ℝ) < 10 ^ (k + 1) := by positivity
    rw [atLeastPow10, decide_eq_true_iff, zpow_negSucc, inv_le_iff_one_le_mul₀ t, div_mul_eq_mul_div, one_le_div d]
    exact_mod_cast Iff.rfl

/-- The same with both sides raised to a power: the quotient against the root. -/
theorem atLeastPow10_pow_iff {num den k : Nat} {e : Int} {root : ℝ} (pos : 0 < den) (power : k ≠ 0) (nonneg : 0 ≤ root)
    (raised : root ^ k = (10 : ℝ) ^ e) : atLeastPow10 (num ^ k) (den ^ k) e = true ↔ root ≤ (num : ℝ) / den := by
  rw [atLeastPow10_iff (Nat.pow_pos pos), ← raised, Nat.cast_pow, Nat.cast_pow, ← div_pow]
  exact pow_le_pow_iff_left₀ nonneg (by positivity) power

/-- A real power of 10 raised to a whole one. -/
theorem ten_rpow_pow {x : ℝ} {k : Nat} {e : Int} (h : x * k = e) : ((10 : ℝ) ^ x) ^ k = (10 : ℝ) ^ e := by
  rw [← Real.rpow_natCast, ← Real.rpow_mul (by norm_num), h, Real.rpow_intCast]

/-! ### Powers (R29) -/

theorem loudnessBound_pow (n : Int) : loudnessBound n ^ 10000 = (10 : ℝ) ^ (100 * n + 641) := by
  refine ten_rpow_pow ?_
  push_cast
  ring

theorem loudnessBound_pos (n : Int) : 0 < loudnessBound n := Real.rpow_pos_of_pos (by norm_num) _

/-- A power reaches a tenth as the manual has it. -/
theorem powerReaches_iff {power : Rat} (nonneg : 0 ≤ power) (n : Int) :
    powerReaches power.num.toNat power.den n = true ↔ loudnessBound n ≤ (power : ℝ) := by
  have num : ((power.num.toNat : Nat) : ℝ) = (power.num : ℝ) := by
    exact_mod_cast Int.toNat_of_nonneg (Rat.num_nonneg.mpr nonneg)
  unfold powerReaches
  rw [atLeastPow10_pow_iff power.den_pos (by decide) (loudnessBound_pos n).le (loudnessBound_pow n), num,
    ← Rat.cast_def power]

/-- A power is reported as the largest tenth whose bound it reaches, and no power as the lowest. -/
theorem reportedTenth_spec {power : Rat} (nonneg : 0 ≤ power) :
    let v := reportedTenth power
    v ≤ 200 ∧ -999 ≤ v ∧ (-999 < v → loudnessBound v ≤ (power : ℝ)) ∧
    (v < 200 → (power : ℝ) < loudnessBound (v + 1)) ∧ (power = 0 → v = -999) := by
  obtain ⟨high, low, reached, next⟩ := reportedBetween_bound (powerReaches_iff nonneg)
    (fun n => loudnessBound_mono (Int.le_add_one (le_refl n))) (show (-999 : Int) < 200 by decide) (by decide)
  refine ⟨high, low, reached, next, fun none_ => ?_⟩
  rcases Int.lt_or_eq_of_le low with above | least
  · have le := reached above
    rw [none_, Rat.cast_zero] at le
    exact absurd le (not_le.mpr (loudnessBound_pos _))
  · exact least.symm

/-! ### Sample magnitudes (R30) -/

/-- The bound of a tenth against full scale. -/
noncomputable def scaleBound (n : Int) : ℝ := (10 : ℝ) ^ (((n : ℝ) / 10 - 0.05) / 20)

theorem peakBound_eq (n : Int) : peakBound n = 2 ^ 23 * scaleBound n := rfl

theorem scaleBound_pow (n : Int) : scaleBound n ^ 400 = (10 : ℝ) ^ (2 * n - 1) := by
  refine ten_rpow_pow ?_
  push_cast
  ring

theorem scaleBound_pos (n : Int) : 0 < scaleBound n := Real.rpow_pos_of_pos (by norm_num) _

theorem peakBound_pos (n : Int) : 0 < peakBound n := mul_pos (by positivity) (scaleBound_pos n)

theorem peakBound_mono {m n : Int} (h : m ≤ n) : peakBound m ≤ peakBound n := by
  have le : (m : ℝ) ≤ n := by exact_mod_cast h
  have scale : scaleBound m ≤ scaleBound n := Real.rpow_le_rpow_of_exponent_le (by norm_num) (by linarith)
  exact mul_le_mul_of_nonneg_left scale (by positivity)

/-- A magnitude reaches a tenth as the manual has it. -/
theorem peakReaches_iff (m : Nat) (n : Int) : peakReaches m n = true ↔ peakBound n ≤ (m : ℝ) := by
  have scale : (2 : Nat) ^ 9200 = (2 ^ 23) ^ 400 := by rw [← pow_mul]
  unfold peakReaches
  rw [scale, atLeastPow10_pow_iff (by positivity) (by decide) (scaleBound_pos n).le (scaleBound_pow n), peakBound_eq,
    Nat.cast_pow, Nat.cast_ofNat, le_div_iff₀' (by positivity)]

/-- The magnitude one below full scale reaches 0.0 dBFS. -/
theorem peakReaches_full : peakReaches 8388607 0 = true := by decide +kernel

/-- A magnitude is reported as the largest tenth whose bound it reaches, none as the lowest, and the largest magnitudes that
a sample of either sign has as the highest. -/
theorem reportedPeak_spec (m : Nat) :
    let v := reportedPeak m
    v ≤ 0 ∧ -999 ≤ v ∧ (-999 < v → peakBound v ≤ (m : ℝ)) ∧ (v < 0 → (m : ℝ) < peakBound (v + 1)) ∧
    (m = 0 → v = -999) ∧ (8388607 ≤ m → v = 0) := by
  obtain ⟨high, low, reached, next⟩ := reportedBetween_bound (peakReaches_iff m)
    (fun n => peakBound_mono (Int.le_add_one (le_refl n))) (show (-999 : Int) < 0 by decide) (by decide)
  refine ⟨high, low, reached, next, fun none_ => ?_, fun full => ?_⟩
  · rcases Int.lt_or_eq_of_le low with above | least
    · have le := reached above
      rw [none_, Nat.cast_zero] at le
      exact absurd le (not_le.mpr (peakBound_pos _))
    · exact least.symm
  · rcases Int.lt_or_eq_of_le high with below | greatest
    · have top : peakBound 0 ≤ (m : ℝ) := ((peakReaches_iff _ 0).mp peakReaches_full).trans (by exact_mod_cast full)
      exact absurd ((next below).trans_le (peakBound_mono (Int.add_one_le_of_lt below))) (not_lt.mpr top)
    · exact greatest

end Sys2Proof.LoudnessEngine
end

section
/-! PROOFS. What a good audio cell adds to its tile (R22 to R27): the samples of a cell by channel and frame, the filters that
begin at rest, and the filters, energy and peak behind it; and the statement of powers and peaks. -/

namespace Sys2Proof.LoudnessEngine

open Sys2Proof.Machine Sys2Proof.Laws

/-! ### The samples of a cell (R22) -/

/-- The samples of a cell of `k` channels, in order of frame and within a frame of channel. -/
theorem samples_of_cell {k : Nat} {payload : List Byte} (length : payload.length = 3 * (k * 480)) :
    samples payload = (List.range' 0 (k * 480)).map (fun j => sampleAt payload 0 j 0) := by
  rw [samples_eq (k * 480) payload length, List.range_eq_range']

/-- A sample's place is its frame's and its channel's in it. -/
theorem sampleAt_place (payload : List Byte) (k i n : Nat) :
    sampleAt payload 0 (0 + k * n + i) 0 = sampleAt payload k i n := by
  simp [sampleAt]

/-- The frames of a cell of `k` channels. -/
theorem frames_of_cell {k : Nat} {payload : List Byte} (length : payload.length = 3 * (k * 480)) :
    framesOf k 480 (samples payload)
      = (List.range 480).map (fun n => (List.range k).map (fun i => sampleAt payload k i n)) := by
  rw [samples_of_cell length, framesOf_map]
  exact List.map_congr_left fun n _ => List.map_congr_left fun i _ => sampleAt_place payload k i n

/-- What a cell's samples are. -/
theorem mem_samples {k : Nat} {payload : List Byte} (length : payload.length = 3 * (k * 480)) (x : Int) :
    x ∈ samples payload ↔ ∃ i < k, ∃ n < 480, x = sampleAt payload k i n := by
  rw [samples_of_cell length]
  simp only [List.mem_map, List.mem_range'_1, Nat.zero_le, Nat.zero_add, true_and]
  constructor
  · rintro ⟨j, inside, rfl⟩
    have channels : 0 < k := by
      rcases Nat.eq_zero_or_pos k with rfl | pos
      · simp at inside
      · exact pos
    refine ⟨j % k, Nat.mod_lt j channels, j / k, Nat.div_lt_of_lt_mul inside, ?_⟩
    rw [← sampleAt_place payload k, Nat.zero_add, Nat.div_add_mod]
  · rintro ⟨i, channel, n, frame, rfl⟩
    refine ⟨k * n + i, ?_, ?_⟩
    · calc k * n + i < k * n + k := by omega
        _ = k * (n + 1) := by ring
        _ ≤ k * 480 := Nat.mul_le_mul_left k frame
    · rw [← sampleAt_place payload k, Nat.zero_add]

/-- The largest of what it was before and the magnitudes of some samples. -/
theorem largestMagnitude_spec (raw : List Int) (m : Nat) :
    m ≤ largestMagnitude m raw ∧ (∀ x ∈ raw, x.natAbs ≤ largestMagnitude m raw) ∧
    (largestMagnitude m raw = m ∨ ∃ x ∈ raw, largestMagnitude m raw = x.natAbs) := by
  induction raw generalizing m with
  | nil => simp [largestMagnitude]
  | cons x rest ih =>
    have step : largestMagnitude m (x :: rest) = largestMagnitude (max m x.natAbs) rest := rfl
    obtain ⟨before, each, from_⟩ := ih (max m x.natAbs)
    rw [step]
    refine ⟨le_of_max_le_left before, fun y hy => ?_, ?_⟩
    · rcases List.mem_cons.mp hy with rfl | later
      · exact le_of_max_le_right before
      · exact each y later
    · rcases from_ with first | ⟨y, later, e⟩
      · rw [first]
        rcases max_choice m x.natAbs with e | e
        · exact Or.inl e
        · exact Or.inr ⟨x, List.mem_cons_self, e⟩
      · exact Or.inr ⟨y, List.mem_cons_of_mem x later, e⟩

/-- What a cell makes of an accumulator's peak (R26, R27). -/
theorem largestMagnitude_of_cell {k : Nat} {payload : List Byte} (length : payload.length = 3 * (k * 480)) (m : Nat) :
    let peak := largestMagnitude m (samples payload)
    m ≤ peak ∧ (∀ i < k, ∀ n < 480, (sampleAt payload k i n).natAbs ≤ peak) ∧
    (peak = m ∨ ∃ i < k, ∃ n < 480, peak = (sampleAt payload k i n).natAbs) := by
  obtain ⟨before, each, from_⟩ := largestMagnitude_spec (samples payload) m
  refine ⟨before, fun i channel n frame => each _ ((mem_samples length _).mpr ⟨i, channel, n, frame, rfl⟩), ?_⟩
  rcases from_ with same | ⟨x, mem, e⟩
  · exact Or.inl same
  · obtain ⟨i, channel, n, frame, rfl⟩ := (mem_samples length x).mp mem
    exact Or.inr ⟨i, channel, n, frame, e⟩

/-! ### Positions that begin at rest (R24) -/

/-- A position's filter at the beginning of a cell: at rest when the last layout lacked the position. -/
def startOf (fresh : Prop) [Decidable fresh] (f : PositionFilter) : PositionFilter :=
  if fresh then ⟨⟨0, 0, 0, 0⟩, ⟨0, 0, 0, 0⟩⟩ else f

theorem clearNew_mono (f : Filters) (last : Option Layout) :
    f.clearNew last .mono = { f with c := startOf (last = some .stereo) f.c } := by
  rcases last with _ | _ | _ | _ <;> rfl

theorem clearNew_stereo (f : Filters) (last : Option Layout) :
    f.clearNew last .stereo
      = { f with l := startOf (last = some .mono) f.l, r := startOf (last = some .mono) f.r } := by
  rcases last with _ | _ | _ | _ <;> rfl

theorem clearNew_surround (f : Filters) (last : Option Layout) :
    f.clearNew last .surround = ⟨startOf (last = some .stereo) f.c, startOf (last = some .mono) f.l,
      startOf (last = some .mono) f.r, startOf (last = some .mono ∨ last = some .stereo) f.lfe,
      startOf (last = some .mono ∨ last = some .stereo) f.ls, startOf (last = some .mono ∨ last = some .stereo) f.rs⟩ := by
  rcases last with _ | _ | _ | _ <;> rfl

/-! ### A cell (R22 to R27) -/

/-- The weighted signal of a position over a cell. -/
def signalOf (f : PositionFilter) (raw : Nat → Int) : Nat → Rat := behindTwo f.lowCut.y1 f.lowCut.y2 (weightedAt f raw)

/-- The filter and the signal that a position makes of its samples. -/
theorem weighs_signalOf (f : PositionFilter) (raw : Nat → Int) : f.weighs (filterAt f raw 480) raw (signalOf f raw) :=
  weighs_filterAt f raw

/-- The filters and the energy of a cell. -/
def workOf (y : Layout) (payload : List Byte) (e : LeLane) : CellWork :=
  CellWork.cell y (samples payload) ⟨e.filters.clearNew e.lastLayout y, 0⟩

/-- What a cell makes of the engine, given its filters and energy. -/
theorem takeCell_eq (y : Layout) (payload : List Byte) (e : LeLane) : e.takeCell y payload = { e with
    filters := (workOf y payload e).filters
    lastLayout := some y
    acc := e.acc.map (fun a =>
      ⟨a.tile, a.good + 1, a.energy + (workOf y payload e).energy, largestMagnitude a.peak (samples payload)⟩) } := rfl

theorem takeCell_rest (y : Layout) (payload : List Byte) (e : LeLane) :
    let t := e.takeCell y payload
    t.lastLayout = some y ∧ t.history = e.history ∧ t.momentary = e.momentary ∧ t.shortTerm = e.shortTerm ∧
    t.newest = e.newest := ⟨rfl, rfl, rfl, rfl, rfl⟩

theorem takeCell_filters (y : Layout) (payload : List Byte) (e : LeLane) :
    (e.takeCell y payload).filters = (workOf y payload e).filters := rfl

/-- An open tile gains a good cell, the energy and the largest magnitude, and no tile opens. -/
theorem takeCell_acc {k : Nat} {y : Layout} {payload : List Byte} (length : payload.length = 3 * (k * 480)) (e : LeLane) :
    (e.acc = none → (e.takeCell y payload).acc = none) ∧
    (∀ a : TileAcc, e.acc = some a → ∃ peak : Nat,
      (e.takeCell y payload).acc = some ⟨a.tile, a.good + 1, a.energy + (workOf y payload e).energy, peak⟩ ∧
      a.peak ≤ peak ∧ (∀ i < k, ∀ n < 480, (sampleAt payload k i n).natAbs ≤ peak) ∧
      (peak = a.peak ∨ ∃ i < k, ∃ n < 480, peak = (sampleAt payload k i n).natAbs)) := by
  rw [takeCell_eq]
  refine ⟨fun idle => ?_, fun a open_ => ⟨_, ?_, largestMagnitude_of_cell length a.peak⟩⟩
  · rw [idle]
    rfl
  · rw [open_]
    rfl

theorem workOf_mono {payload : List Byte} (length : payload.length = 1440) (e : LeLane) :
    let c := startOf (e.lastLayout = some .stereo) e.filters.c
    let raw := sampleAt payload 1 0
    workOf .mono payload e = ⟨{ e.filters with c := filterAt c raw 480 }, energyOf (signalOf c raw)⟩ := by
  have frames := frames_of_cell (k := 1) length
  unfold workOf CellWork.cell
  rw [show Layout.mono.channels = 1 from rfl, frames, clearNew_mono]
  exact cell_mono _ _ 480

theorem workOf_stereo {payload : List Byte} (length : payload.length = 2880) (e : LeLane) :
    let l := startOf (e.lastLayout = some .mono) e.filters.l
    let r := startOf (e.lastLayout = some .mono) e.filters.r
    let raw := sampleAt payload 2
    workOf .stereo payload e
      = ⟨{ e.filters with l := filterAt l (raw 0) 480, r := filterAt r (raw 1) 480 },
        energyOf (signalOf l (raw 0)) + energyOf (signalOf r (raw 1))⟩ := by
  have frames := frames_of_cell (k := 2) length
  unfold workOf CellWork.cell
  rw [show Layout.stereo.channels = 2 from rfl, frames, clearNew_stereo]
  exact cell_stereo _ _ _ 480

theorem workOf_surround {payload : List Byte} (length : payload.length = 8640) (e : LeLane) :
    let mono := e.lastLayout = some .mono
    let stereo := e.lastLayout = some .stereo
    let l := startOf mono e.filters.l
    let r := startOf mono e.filters.r
    let c := startOf stereo e.filters.c
    -- The energy leaves LFE out, so its signal is given here.
  let lfe := startOf (mono ∨ stereo) e.filters.lfe
    let ls := startOf (mono ∨ stereo) e.filters.ls
    let rs := startOf (mono ∨ stereo) e.filters.rs
    let raw := sampleAt payload 6
    workOf .surround payload e
      = ⟨⟨filterAt c (raw 2) 480, filterAt l (raw 0) 480, filterAt r (raw 1) 480, filterAt lfe (raw 3) 480,
          filterAt ls (raw 4) 480, filterAt rs (raw 5) 480⟩,
        energyOf (signalOf l (raw 0)) + energyOf (signalOf r (raw 1)) + energyOf (signalOf c (raw 2))
          + 1.41 * energyOf (signalOf ls (raw 4)) + 1.41 * energyOf (signalOf rs (raw 5))⟩ := by
  have frames := frames_of_cell (k := 6) length
  unfold workOf CellWork.cell
  rw [show Layout.surround.channels = 6 from rfl, frames, clearNew_surround]
  exact cell_surround _ _ _ _ _ _ _ 480

theorem takesCell_mono {payload : List Byte} (length : payload.length = 1440) (e : LeLane) :
    e.takesCell .mono payload (e.takeCell .mono payload) := by
  have work := workOf_mono length e
  have filters := (takeCell_filters .mono payload e).trans (congrArg CellWork.filters work)
  have energy := congrArg CellWork.energy work
  dsimp only at filters energy
  refine ⟨⟨_, ⟨signalOf _ _, ?_, ?_, energy⟩, takeCell_acc (k := 1) length e⟩, takeCell_rest _ payload e⟩
  · rw [filters]
    exact weighs_signalOf _ _
  · rw [filters]

theorem takesCell_stereo {payload : List Byte} (length : payload.length = 2880) (e : LeLane) :
    e.takesCell .stereo payload (e.takeCell .stereo payload) := by
  have work := workOf_stereo length e
  have filters := (takeCell_filters .stereo payload e).trans (congrArg CellWork.filters work)
  have energy := congrArg CellWork.energy work
  dsimp only at filters energy
  refine ⟨⟨_, ⟨signalOf _ _, signalOf _ _, ?_, ?_, ?_, energy⟩, takeCell_acc (k := 2) length e⟩, takeCell_rest _ payload e⟩
  all_goals rw [filters]
  · exact weighs_signalOf _ _
  · exact weighs_signalOf _ _

theorem takesCell_surround {payload : List Byte} (length : payload.length = 8640) (e : LeLane) :
    e.takesCell .surround payload (e.takeCell .surround payload) := by
  have work := workOf_surround length e
  have filters := (takeCell_filters .surround payload e).trans (congrArg CellWork.filters work)
  have energy := congrArg CellWork.energy work
  dsimp only at filters energy
  -- The energy leaves LFE out, so its signal is given here.
  let lfe := startOf (e.lastLayout = some .mono ∨ e.lastLayout = some .stereo) e.filters.lfe
  refine ⟨⟨_, ⟨signalOf _ _, signalOf _ _, signalOf _ _, signalOf lfe (sampleAt payload 6 3), signalOf _ _, signalOf _ _,
    ?_, ?_, ?_, ?_, ?_, ?_, energy⟩, takeCell_acc (k := 6) length e⟩, takeCell_rest _ payload e⟩
  all_goals
    rw [filters]
    exact weighs_signalOf _ _

/-- Settles O56: the two scales of tenths by their bounds, and the cell by its layout. -/
theorem powersAndPeaksAreReportedInTenths : Obligations.PowersAndPeaksAreReportedInTenths := by
  unfold Obligations.PowersAndPeaksAreReportedInTenths
  refine ⟨fun _ => reportedTenth_spec, reportedPeak_spec, fun y payload e length => ?_⟩
  cases y with
  | mono => exact takesCell_mono length e
  | stereo => exact takesCell_stereo length e
  | surround => exact takesCell_surround length e

end Sys2Proof.LoudnessEngine
end

section
/-! PROOFS. Pending gap counts while a warm reset flushes: the archive takes no record (R151), so whatever findings are
reported and attempts made, the counts stay; and a flush makes its lane's zero (R150). -/

namespace Sys2Proof.LoudnessEngine

open Sys2Proof.Machine Sys2Proof.Laws Sys2Proof.Lanes

/-! ### Pending gap counts that stay -/

/-- While a warm reset flushes, the pending gap counts stay. -/
structure GapsStay (s t : State) : Prop where
  warm : t.warm = s.warm
  gaps : s.warm.isSome = true → ∀ k : LaneNo, t.ac[k].gaps = s.ac[k].gaps

theorem GapsStay.refl (s : State) : GapsStay s s := ⟨rfl, fun _ _ => rfl⟩

theorem GapsStay.trans {s t u : State} (a : GapsStay s t) (b : GapsStay t u) : GapsStay s u :=
  ⟨b.warm.trans a.warm, fun w k => (b.gaps (by rw [a.warm, w]) k).trans (a.gaps w k)⟩

theorem GapsStay.foldl {α : Type} (f : State → α → State) (h : ∀ s x, GapsStay s (f s x)) :
    ∀ (xs : List α) (s : State), GapsStay s (xs.foldl f s)
  | [], s => .refl s
  | x :: xs, s => (h s x).trans (GapsStay.foldl f h xs (f s x))

theorem gapsStay_of_ac {s t : State} (warm : t.warm = s.warm) (ac : t.ac = s.ac) : GapsStay s t :=
  ⟨warm, fun _ _ => by rw [ac]⟩

/-- A lane's archive stream changes without its counts. -/
theorem gapsStay_modAc (l : LaneNo) (f : AcLane → AcLane) (s : State) (keeps : (f s.ac[l]).gaps = s.ac[l].gaps) :
    GapsStay s (s.modAc l f) := by
  refine ⟨rfl, fun _ k => ?_⟩
  by_cases e : k = l
  · subst e
    exact (congrArg AcLane.gaps (lane_set_self s.ac k _)).trans keeps
  · exact congrArg AcLane.gaps (lane_set_ne s.ac _ e)

/-! ### Findings and reports -/

/-- From the acceptance of RSTA the archive takes no further record (R151). -/
theorem gapsStay_archive (l : LaneNo) (kind : Byte) (time : Time) (content : List Byte) (s : State) :
    GapsStay s (s.archive l kind time content) := by
  refine ⟨(kept_archive l kind time content s).warm, fun w k => ?_⟩
  unfold State.archive
  rw [if_pos w]

theorem gapsStay_announce (f : Finding) (time : Time) (s : State) : GapsStay s (s.announce f time) := by
  have told (t : State) : GapsStay t (t.raiseFinding f.lane).reassess := by
    have statuses := reassess_calm (t.raiseFinding f.lane)
    have notice := raiseFinding_calm f.lane t
    exact gapsStay_of_ac (statuses.1.trans notice.1) (statuses.2.1.trans notice.2.1)
  unfold State.announce
  dsimp only
  split
  · exact (gapsStay_archive _ _ _ _ s).trans (told _)
  · exact told s

theorem gapsStay_createFinding (d : Draft) (ask : Option HoldAsk) (s : State) : GapsStay s (s.createFinding d ask).2 := by
  have hold (f : Finding) (t : State) : GapsStay t (t.holdFor ask f).2 := by
    obtain ⟨table, sys, shape⟩ := holdFor_shape ask f t
    rw [shape]
    exact gapsStay_of_ac rfl rfl
  have enter (f : Finding) (t : State) : GapsStay t (t.enterFinding f) := by
    unfold State.enterFinding
    split <;> exact gapsStay_of_ac rfl rfl
  have issue : GapsStay s (issued s) := gapsStay_of_ac rfl rfl
  exact ((issue.trans (hold _ _)).trans (enter _ _)).trans (gapsStay_announce _ _ _)

theorem gapsStay_changeFinding (f : Finding) (time : Time) (s : State) : GapsStay s (s.changeFinding f time) := by
  unfold State.changeFinding
  refine GapsStay.trans ?_ (gapsStay_announce _ _ _)
  split <;> exact gapsStay_of_ac rfl rfl

theorem gapsStay_settleOpen (time : Time) (postRoll : Nat) (f : Option Finding) (s : State) :
    GapsStay s (s.settleOpen time postRoll f) := by
  have ends (g : Finding) : GapsStay s (s.endHoldOf g time postRoll) := by
    unfold State.endHoldOf State.setHoldEnd
    repeat' split
    all_goals exact gapsStay_of_ac rfl rfl
  unfold State.settleOpen State.settleFinding
  split
  · split
    · exact gapsStay_changeFinding _ _ s
    · exact (ends _).trans (gapsStay_changeFinding _ _ _)
    · exact .refl s
    · exact .refl s
  · exact .refl s

theorem gapsStay_openStalled (l : LaneNo) (s : State) : GapsStay s (s.openStalled l) := by
  unfold State.openStalled
  split
  · exact .refl s
  · exact (gapsStay_createFinding _ _ s).trans (gapsStay_of_ac rfl rfl)

theorem gapsStay_openShort (l : LaneNo) (s : State) : GapsStay s (s.openShort l) := by
  unfold State.openShort
  split
  · exact .refl s
  · exact (gapsStay_createFinding _ _ s).trans (gapsStay_of_ac rfl rfl)

theorem gapsStay_endStalled (l : LaneNo) (s : State) : GapsStay s (s.endStalled l) := by
  have forget : GapsStay s (s.modCm l (fun c => { c with stalledFinding := none })) := gapsStay_of_ac rfl rfl
  exact forget.trans (gapsStay_settleOpen _ _ _ _)

theorem gapsStay_endShort (l : LaneNo) (s : State) : GapsStay s (s.endShort l) := by
  have forget : GapsStay s (s.modCm l (fun c => { c with shortFinding := none })) := gapsStay_of_ac rfl rfl
  exact forget.trans (gapsStay_settleOpen _ _ _ _)

/-! ### Attempts and the boundary of an event -/

theorem gapsStay_setAlloc (l : LaneNo) (x : AllocState) (s : State) : GapsStay s (s.setAlloc l x) := by
  have retry := syncRetry_calm (s.modAc l (fun a => { a with alloc := x }))
  exact (gapsStay_modAc l _ s rfl).trans (gapsStay_of_ac retry.1 retry.2.1)

theorem gapsStay_inEitherOrder {f g : State → State} (hf : ∀ s, GapsStay s (f s)) (hg : ∀ s, GapsStay s (g s)) (s : State) :
    GapsStay s (inEitherOrder f g s) := by
  have free : GapsStay s s.advanceFree := gapsStay_of_ac rfl rfl
  unfold inEitherOrder
  split
  · exact (free.trans (hf _)).trans (hg _)
  · exact (free.trans (hg _)).trans (hf _)

theorem gapsStay_reportChoice (l : LaneNo) (short : Bool) (s : State) : GapsStay s (s.reportChoice l short) := by
  have report (a b : Bool) (t : State) : GapsStay t (if a then t.openShort l else if b then t.endShort l else t) := by
    split
    · exact gapsStay_openShort l t
    · split
      · exact gapsStay_endShort l t
      · exact .refl t
  unfold State.reportChoice
  dsimp only
  refine (gapsStay_modAc l (fun a => { a with stalled := false, short := short }) s rfl).trans ?_
  split
  · exact gapsStay_inEitherOrder (gapsStay_endStalled l) (report _ _) _
  · split
    · exact gapsStay_endStalled l _
    · exact report _ _ _

theorem gapsStay_takeChoice (l : LaneNo) (x : Extent) (short : Bool) (s : State) : GapsStay s (s.takeChoice l x short) := by
  have erase : GapsStay s { s.modExtent x.no (Extent.wiped .erasing) with store := { s.store with
      erases := s.store.erases ++ [EraseWait.mk x.no (some l)] } } := gapsStay_of_ac rfl rfl
  exact (erase.trans (gapsStay_setAlloc l _ _)).trans (gapsStay_reportChoice l short _)

theorem gapsStay_noCandidate (l : LaneNo) (s : State) : GapsStay s (s.noCandidate l) := by
  unfold State.noCandidate
  split
  · exact (gapsStay_modAc l _ s rfl).trans (gapsStay_setAlloc l _ _)
  · split
    · exact .refl s
    · exact (gapsStay_modAc l _ s rfl).trans (gapsStay_openStalled l _)

theorem gapsStay_attempt (l : LaneNo) (s : State) : GapsStay s (s.attempt l) := by
  unfold State.attempt
  split
  · have retired := foldl_retired (choose s.protects ((s.candidates l).length + 1) (s.candidates l) []).2 s
    refine (gapsStay_of_ac retired.1 retired.2.1).trans ?_
    dsimp only
    split
    · exact gapsStay_takeChoice l _ _ _
    · exact gapsStay_takeChoice l _ _ _
    · exact gapsStay_noCandidate l _
  · exact .refl s

theorem gapsStay_allocateN : ∀ (n : Nat) (s : State), GapsStay s (s.allocateN n)
  | 0, s => .refl s
  | n + 1, s => by
    have enter : GapsStay s (entered s) :=
      (GapsStay.foldl (fun (t : State) l => t.setAlloc l .wanted) (fun t l => gapsStay_setAlloc l _ t) _ s).trans
        (gapsStay_of_ac rfl rfl)
    have drawn := draw_calm (dueLanes s) (entered s)
    rw [allocateN_succ]
    split
    · exact enter
    · exact ((enter.trans (gapsStay_of_ac drawn.1 drawn.2.1)).trans
        (GapsStay.foldl (fun (t : State) l => t.attempt l) (fun t l => gapsStay_attempt l t) _ _)).trans
        (gapsStay_allocateN n _)

/-- The boundary of an event behind the acceptance of RSTA leaves the pending gap counts. -/
theorem gapsStay_allocate (s : State) : GapsStay s s.allocate := gapsStay_allocateN 20 s

/-! ### A flush (R150) -/

theorem gapsStay_sealExtent (l : LaneNo) (ext : Nat) (s : State) : GapsStay s (s.sealExtent l ext) := by
  have leave (t : State) : GapsStay t (t.leaveExtent l) := by
    unfold State.leaveExtent
    split
    · exact .refl t
    · exact gapsStay_setAlloc l _ t
  have offer (x : Extent) (t : State) : GapsStay t (t.offerSeal l x) :=
    (gapsStay_of_ac rfl rfl : GapsStay t t.takeStamp.2).trans (gapsStay_modAc l (fun a => { a with
      seals := a.seals ++ [⟨x.no, x.pages + 1, x.first.getD 0, x.last.getD 0, x.pages, t.stamp⟩] }) _ rfl)
  unfold State.sealExtent
  refine GapsStay.trans ?_ (leave _)
  split
  · split
    · exact gapsStay_of_ac rfl rfl
    · exact (gapsStay_of_ac rfl rfl : GapsStay s (s.modExtent ext _)).trans (offer _ _)
  · exact .refl s

theorem gapsStay_sealAfterFlush (l : LaneNo) (s : State) : GapsStay s (s.sealAfterFlush l) := by
  unfold State.sealAfterFlush
  split
  · exact gapsStay_modAc l _ s rfl
  · split
    · exact gapsStay_sealExtent l _ s
    · exact .refl s

/-- The first two steps of a flush make the pending gap counts zero. -/
theorem flushFilling_gaps (first second : Nat) (time : Time) (a : AcLane) :
    ((a.flushGaps first time).flushFilling second).gaps = .zero := by
  have counts : (a.flushGaps first time).gaps = .zero := by
    unfold AcLane.flushGaps
    split <;> rfl
  have filling (b : AcLane) : (b.flushFilling second).gaps = b.gaps := by
    unfold AcLane.flushFilling AcLane.closeFilling
    repeat' split
    all_goals rfl
  exact (filling _).trans counts

/-- The first two steps of a lane's flush. -/
def stepsOfFlush (l : LaneNo) (s : State) : State :=
  s.takeStamp.2.takeStamp.2.modAc l (fun a => (a.flushGaps s.stamp s.station).flushFilling (s.stamp + 1))

theorem flushLane_eq (l : LaneNo) (s : State) : s.flushLane l = ((stepsOfFlush l s).sealAfterFlush l).reportBuffers l := rfl

/-- A lane's flush during a warm reset makes its counts zero and leaves those of the others. -/
theorem flushLane_gaps (l k : LaneNo) (s : State) (w : s.warm.isSome = true) :
    (s.flushLane l).ac[k].gaps = if k = l then .zero else s.ac[k].gaps := by
  have after := (gapsStay_sealAfterFlush l (stepsOfFlush l s)).gaps w k
  rw [flushLane_eq, reportBuffers_ac, after]
  by_cases e : k = l
  · subst e
    rw [if_pos rfl]
    exact (congrArg AcLane.gaps (lane_set_self s.ac k _)).trans (flushFilling_gaps _ _ _ _)
  · rw [if_neg e]
    exact congrArg AcLane.gaps (lane_set_ne s.ac _ e)

theorem kept_sealAfterFlush (l : LaneNo) (s : State) : Kept s (s.sealAfterFlush l) := by
  unfold State.sealAfterFlush
  split
  · exact kept_modAc l _ s
  · split
    · exact kept_sealExtent l _ s
    · exact .refl s

/-- Everything the flush of a lane can do outside the archive's side: nothing. -/
theorem kept_flushLane (l : LaneNo) (s : State) : Kept s (s.flushLane l) := by
  have steps : Kept s (stepsOfFlush l s) := ((kept_takeStamp s).trans (kept_takeStamp _)).trans (kept_modAc l _ _)
  exact (steps.trans (kept_sealAfterFlush l _)).trans (kept_reportBuffers l _)

/-- Flushes of some lanes make their counts zero. -/
theorem flushLanes_gaps (ls : List LaneNo) : ∀ (s : State), s.warm.isSome = true → ∀ k : LaneNo,
    (ls.foldl (fun t l => t.flushLane l) s).ac[k].gaps = if k ∈ ls then .zero else s.ac[k].gaps := by
  induction ls with
  | nil => simp
  | cons l ls ih =>
    intro s w k
    have still : (s.flushLane l).warm.isSome = true := by rw [(kept_flushLane l s).warm, w]
    rw [List.foldl_cons, ih _ still k, flushLane_gaps l k s w]
    by_cases e : k = l <;> simp [e]

/-- Every lane is flushed, and what the flushes owe is attended to: the counts of all are zero. -/
theorem flushed_gaps (s : State) (w : s.warm.isSome = true) (k : LaneNo) :
    (forLanes State.flushLane s).allocate.ac[k].gaps = .zero := by
  have kept : Kept s (forLanes State.flushLane s) :=
    Kept.foldl (fun (t : State) l => t.flushLane l) (fun t l => kept_flushLane l t) allLanes s
  have zero : (forLanes State.flushLane s).ac[k].gaps = .zero := by
    rw [forLanes, flushLanes_gaps allLanes s w k, if_pos (mem_allLanes k)]
  rw [(gapsStay_allocate _).gaps (by rw [kept.warm, w]) k, zero]

end Sys2Proof.LoudnessEngine
end

section
/-! PROOFS. RSTA: the exit from CONFIG, the recalls that it aborts, and the state in which the flush begins (R41, R128, R150,
R151, R182, R196). -/

namespace Sys2Proof.LoudnessEngine

open Sys2Proof.Machine Sys2Proof.Laws Sys2Proof.Lanes

/-! ### Leaving CONFIG (R126, R128) -/

/-- The lines take their RUN pattern, and of the rest of the part nothing changes. -/
theorem showRunPattern_frame (s : State) : ∃ a : Alarm, s.showRunPattern = { s with alarm := a } ∧
    a.mode = s.alarm.mode ∧ a.configTimer = s.alarm.configTimer ∧ a.inForce = s.alarm.inForce := by
  unfold State.showRunPattern Alarm.startPaired
  dsimp only
  repeat' split
  all_goals exact ⟨_, rfl, rfl, rfl, rfl⟩

/-- The state behind step 1 of RSTA: in RUN, however it was. -/
def inRun (s : State) : State := if s.alarm.mode = .config then s.toRun.showRunPattern else s

theorem inRun_shape (s : State) : ∃ a : Alarm, inRun s = { s with alarm := a } ∧ a.mode = .run ∧
    (s.alarm.mode = .config → a.configTimer = .stopped ∧ a.inForce = s.settings.protocolSet) := by
  unfold inRun
  split
  · obtain ⟨a, shape, mode, timer, force⟩ := showRunPattern_frame s.toRun
    exact ⟨a, shape, mode, fun _ => ⟨timer, force⟩⟩
  · next run =>
    refine ⟨s.alarm, rfl, ?_, fun config => absurd config run⟩
    cases e : s.alarm.mode with
    | run => rfl
    | config => exact absurd e run

/-! ### Aborting a recall (R182) -/

/-- The part with its recall slots replaced, its notices, its Store Port, and whether an attempt is owed. -/
def withRecalls (n : Notices) (p : StorePort) (due : Bool) (slots : Vector Slot 2) (s : State) : State :=
  { s with notices := n, store := p, attemptDue := due, slots := slots }

/-- A recall slot behind an abort: aborted if it was active, else in the state it had. -/
def AbortedAt (x y : Slot) : Prop :=
  (x.active = true → y.state = .aborted ∧ y.page = []) ∧ (x.active = false → y.state = x.state)

/-- An abort changes the recall's slot, its notice, and the reads that are in flight or interrupted for it. -/
theorem abortRecall_shape (k : SlotNo) (cause : EndCause) (s : State) :
    ∃ (n : Notices) (p : StorePort) (due : Bool) (slots : Vector Slot 2),
    s.abortRecall k cause = withRecalls n p due slots s ∧ AbortedAt s.slots[k] slots[k] ∧
    ∀ m : SlotNo, m ≠ k → slots[m] = s.slots[m] := by
  unfold State.abortRecall
  split
  · next active =>
    refine ⟨_, _, true, s.slots.set k { s.slots[k] with
      state := .aborted, position := none, page := [], endCell := some (s.slots[k].endCellFor cause) }, rfl, ?_,
      fun m other => lane_set_ne s.slots _ other⟩
    rw [lane_set_self]
    refine ⟨fun _ => ⟨rfl, rfl⟩, fun idle => ?_⟩
    rw [active] at idle
    cases idle
  · next idle =>
    exact ⟨s.notices, s.store, s.attemptDue, s.slots, rfl, ⟨fun active => absurd active idle, fun _ => rfl⟩,
      fun _ _ => rfl⟩

/-- The two recalls of a part are aborted. -/
theorem abortBoth_shape (cause : EndCause) (s : State) :
    ∃ (n : Notices) (p : StorePort) (due : Bool) (slots : Vector Slot 2),
    (s.abortRecall 0 cause).abortRecall 1 cause = withRecalls n p due slots s ∧
    ∀ k : SlotNo, AbortedAt s.slots[k] slots[k] := by
  obtain ⟨n, p, due, slots, first, aborted, others⟩ := abortRecall_shape 0 cause s
  obtain ⟨n', p', due', slots', second, aborted', others'⟩ := abortRecall_shape 1 cause (withRecalls n p due slots s)
  refine ⟨n', p', due', slots', by rw [first, second]; rfl, fun k => ?_⟩
  match k with
  | 0 =>
    rw [others' 0 Fin.zero_ne_one]
    exact aborted
  | 1 =>
    rw [← others 1 Fin.zero_ne_one.symm]
    exact aborted'

/-! ### The acceptance of RSTA (R41, R151, R182, R196) -/

/-- The state in which RSTA's flushes begin: RUN, no accumulator, the warm reset under way, the recalls aborted. -/
def flushBegins (s : State) : State :=
  let t := inRun s
  let t := { t.discardTiles with warm := some ⟨t.liu.map Liu.holdOff, !t.store.up⟩ }
  (t.abortRecall 0 .warmReset).abortRecall 1 .warmReset

theorem beginWarm_eq (s : State) :
    s.beginWarm = ((forLanes State.flushLane (flushBegins s)).allocate).startExport := rfl

/-- What RSTA does before its flushes. -/
theorem flushBegins_shape (s : State) :
    ∃ (a : Alarm) (w : Warm) (n : Notices) (p : StorePort) (due : Bool) (slots : Vector Slot 2),
    flushBegins s = withRecalls n p due slots { s.discardTiles with alarm := a, warm := some w } ∧ a.mode = .run ∧
    (s.alarm.mode = .config → a.configTimer = .stopped ∧ a.inForce = s.settings.protocolSet) ∧
    ∀ k : SlotNo, AbortedAt s.slots[k] slots[k] := by
  obtain ⟨a, shape, mode, timer⟩ := inRun_shape s
  unfold flushBegins
  rw [shape]
  obtain ⟨n, p, due, slots, both, aborted⟩ := abortBoth_shape .warmReset
    { s.discardTiles with alarm := a, warm := some ⟨s.liu.map Liu.holdOff, !s.store.up⟩ }
  exact ⟨a, _, n, p, due, slots, both, mode, timer, aborted⟩

/-- Only the accumulator of an open tile is discarded (R41). -/
theorem discardTiles_lane (s : State) (l : LaneNo) : s.discardTiles.le[l] = { s.le[l] with acc := none } := by
  simp [State.discardTiles]

/-- What stands behind the acceptance of RSTA. -/
structure BegunWarm (s t : State) : Prop where
  warm : t.warm.isSome = true
  mode : t.alarm.mode = .run
  left : s.alarm.mode = .config → t.alarm.configTimer = .stopped ∧ t.alarm.inForce = s.settings.protocolSet
  slots : ∀ k : SlotNo, AbortedAt s.slots[k] t.slots[k]
  le : ∀ l : LaneNo, t.le[l] = { s.le[l] with acc := none }
  gaps : ∀ l : LaneNo, t.ac[l].gaps = .zero
  settings : t.settings = s.settings
  station : t.station = s.station
  st : t.st = s.st
  verdicts : t.verdicts = s.verdicts

/-- The acceptance of RSTA: what it does before the flushes stands behind them, and the flushes make the counts zero. -/
theorem beginWarm_spec (s : State) : BegunWarm s s.beginWarm := by
  obtain ⟨a, w, n, p, due, slots, shape, mode, left, aborted⟩ := flushBegins_shape s
  have cold : (flushBegins s).warm = some w := congrArg State.warm shape
  have kept : Kept (flushBegins s) (forLanes State.flushLane (flushBegins s)).allocate :=
    (Kept.foldl (fun (t : State) l => t.flushLane l) (fun t l => kept_flushLane l t) allLanes _).trans (kept_allocate _)
  have gaps := flushed_gaps (flushBegins s) (by rw [cold]; rfl)
  rw [beginWarm_eq]
  generalize (forLanes State.flushLane (flushBegins s)).allocate = t at kept gaps
  obtain ⟨m, behind, link, emitted, exported, -, still⟩ := startExport_shape t
  rw [exported]
  rw [shape] at kept
  refine ⟨?_, kept.mode.trans mode, fun config => ?_, fun k => ?_, fun l => ?_, gaps, kept.settings, kept.station, kept.st,
    kept.verdicts⟩
  · exact congrArg Option.isSome kept.warm
  · obtain ⟨timer, force⟩ := left config
    exact ⟨kept.configTimer.trans timer, kept.inForce.trans force⟩
  · obtain ⟨state, page⟩ := still k
    obtain ⟨active, idle⟩ := aborted k
    rw [kept.slots] at state page
    refine ⟨fun on => ?_, fun off => state.trans (idle off)⟩
    obtain ⟨ended, empty⟩ := active on
    exact ⟨state.trans ended, page.trans empty⟩
  · exact (congrArg (fun v => v[l]) kept.le).trans (discardTiles_lane s l)

/-! ### The request (R196) -/

theorem handleRsta_taken {s : State} (scanned : s.scanning = false) (idle : s.format = none) :
    handleRsta s = (⟨.ok, []⟩, s.beginWarm) := by
  simp [handleRsta, afterScan, State.formatting, scanned, idle]

theorem handleRsta_formatting {s : State} (scanned : s.scanning = false) (busy : s.format ≠ none) :
    handleRsta s = (.refuse .formatting, s) := by
  have formatting : s.formatting = true := Option.isSome_iff_ne_none.mpr busy
  simp [handleRsta, afterScan, refuse, scanned, formatting]

theorem exec_rsta (q : Byte) (s : State) : exec (.rsta q) s = .next (s.begin.serve q .rsta handleRsta) := rfl

/-- Settles O26: what the acceptance leaves behind its flushes, and the refusal while a format is in flight. -/
theorem rstaBeginsTheWarmReset : Obligations.RstaBeginsTheWarmReset := by
  unfold Obligations.RstaBeginsTheWarmReset
  intro q s ready scanned
  rw [exec_rsta]
  refine ⟨fun idle => ?_, fun busy => ?_⟩
  · have begun := beginWarm_spec (working q .rsta s)
    rw [serve_ready q .rsta _ s ready, handleRsta_taken (s := working q .rsta s) scanned idle]
    generalize (working q .rsta s).beginWarm = t at begun
    refine ⟨_, rfl, begun.warm, ?_, begun.mode, begun.left, begun.slots, begun.le, begun.gaps, putReply_waits _ _ _ _,
      begun.settings, begun.station, begun.st, begun.verdicts⟩
    obtain ⟨w, warm⟩ := Option.isSome_iff_exists.mp begun.warm
    simp [State.readyToTake, State.putReply, warm]
  · rw [serve_answered ready (handleRsta_formatting (s := working q .rsta s) scanned busy)]

end Sys2Proof.LoudnessEngine
end

section
/-! PROOFS. Gating blocks (R45 to R48): which tiles complete a block, and what a completed block counts. -/

namespace Sys2Proof.SegmentGating

open Sys2Proof.Machine Sys2Proof.Laws Sys2Proof.Lanes

/-! ### The block window (R45) -/

/-- The block window behind a tile. -/
def windowAfter (w : List TileEntry) (t : Nat) (power : Option Rat) : List TileEntry :=
  newestEntries 3 (alignedWindow w t ++ [⟨t, power⟩])

theorem length_newestEntries_le (n : Nat) (h : List TileEntry) : (newestEntries n h).length ≤ n := by
  rw [newestEntries, List.length_drop]
  omega

theorem alignedWindow_of_next {w : List TileEntry} {x : TileEntry} {t : Nat} (newest : w.getLast? = some x)
    (next : x.tile + 1 = t) : alignedWindow w t = w := by
  simp [alignedWindow, newest, next]

theorem alignedWindow_of_break {w : List TileEntry} {x : TileEntry} {t : Nat} (newest : w.getLast? = some x)
    (break_ : x.tile + 1 ≠ t) : alignedWindow w t = [] := by
  simp [alignedWindow, newest, break_]

theorem alignedWindow_eq_or_nil (w : List TileEntry) (t : Nat) : alignedWindow w t = w ∨ alignedWindow w t = [] := by
  cases newest : w.getLast? with
  | none => exact .inr (by simp [alignedWindow, newest])
  | some x =>
    by_cases next : x.tile + 1 = t
    · exact .inl (alignedWindow_of_next newest next)
    · exact .inr (alignedWindow_of_break newest next)

/-! ### Completed blocks (R46) -/

/-- Only a tile that is not void, behind three tiles that are not, completes a block. -/
theorem completedBlock_needs {w : List TileEntry} {power : Option Rat} {block : Rat}
    (completed : completedBlock w power = some block) :
    power ≠ none ∧ w.length = 3 ∧ ∀ x ∈ w, x.power.isSome = true := by
  cases power with
  | none => simp [completedBlock] at completed
  | some p =>
    by_cases three : w.length = 3 ∧ (w.filterMap TileEntry.power).length = 3
    · obtain ⟨entries, powers⟩ := three
      exact ⟨by simp, entries, List.filterMap_length_eq_length.mp (powers.trans entries.symm)⟩
    · simp [completedBlock, three] at completed

/-- Where a condition of R46 fails for the window as it stands, it fails for the window brought into line. -/
theorem no_block_of_window {w : List TileEntry} {power : Option Rat} (t : Nat)
    (lacks : power = none ∨ w.length < 3 ∨ ∃ x ∈ w, x.power = none) :
    completedBlock (alignedWindow w t) power = none := by
  refine Option.eq_none_iff_forall_ne_some.mpr fun block completed => ?_
  obtain ⟨power_, entries, powers⟩ := completedBlock_needs completed
  have whole : alignedWindow w t = w := (alignedWindow_eq_or_nil w t).resolve_right fun nil => by simp [nil] at entries
  rw [whole] at entries powers
  rcases lacks with void | short | ⟨x, mem, void⟩
  · exact power_ void
  · omega
  · simpa [void] using powers x mem

/-- Four tiles in sequence with their powers complete a block of the mean power. -/
theorem completedBlock_of_four (i j k : Nat) (a b c p : Rat) :
    completedBlock [⟨i, some a⟩, ⟨j, some b⟩, ⟨k, some c⟩] (some p) = some ((a + b + c + p) / 4) := by
  simp [completedBlock, meanPower_eq, add_assoc]

/-! ### What a tile makes of the gating state (R45 to R48) -/

theorem takeTile_of_no_block {g : Gating} {t : Nat} {power : Option Rat}
    (none_ : completedBlock (alignedWindow g.window t) power = none) :
    g.takeTile t power = { g with window := windowAfter g.window t power } := by
  simp [Gating.takeTile, none_, windowAfter]

theorem takeTile_of_block {g : Gating} {t : Nat} {power : Option Rat} {block : Rat}
    (completed : completedBlock (alignedWindow g.window t) power = some block) :
    g.takeTile t power = { g.takeBlock block with window := windowAfter g.window t power } := by
  simp [Gating.takeTile, completed, windowAfter]

/-- A reported tenth lies in its range, whatever the property. -/
theorem reportedBetween_range (p : Int → Bool) {lo hi : Int} (range : lo < hi) (size : hi - lo ≤ 2 ^ 11) :
    lo ≤ reportedBetween p lo hi ∧ reportedBetween p lo hi ≤ hi := by
  unfold reportedBetween
  cases bottom : p lo with
  | false => simp [range.le]
  | true =>
    cases top : p hi with
    | true => simp [range.le]
    | false =>
      obtain ⟨-, -, low, high⟩ := largestBelow_spec p 11 lo hi bottom top range size
      simpa using ⟨low, high.le⟩

theorem reportedTenth_le (power : Rat) : reportedTenth power ≤ 200 :=
  (reportedBetween_range _ (by decide) (by decide)).2

/-- A block at -70.0 LUFS or above is counted as gated and in the bin of its level. -/
theorem takeBlock_of_gated {block : Rat} (g : Gating) (gate : -700 ≤ reportedTenth block) :
    g.takeBlock block = { g with
      gated := min (g.gated + 1) 4294967295
      bins := g.bins.modify (reportedTenth block + 700).toNat (fun n => min (n + 1) 4294967295) } := by
  rw [Gating.takeBlock, if_neg (not_lt.mpr gate), funext bumpSat_eq]
  rfl

/-- A block below -70.0 LUFS is counted below the gate. -/
theorem takeBlock_of_below {block : Rat} (g : Gating) (gate : reportedTenth block < -700) :
    g.takeBlock block = { g with below := min (g.below + 1) 4294967295 } := by
  rw [Gating.takeBlock, if_pos gate, bumpSat_eq]

/-- A gated block's bin is one of the 901. -/
theorem bin_le (block : Rat) : (reportedTenth block + 700).toNat ≤ 900 := by
  have := reportedTenth_le block
  omega

/-- A count raised in a list whose sum is below the limit raises the sum by 1. -/
theorem sum_modify_saturating {bins : List Nat} {i : Nat} (inside : i < bins.length) (room : bins.sum < 4294967295) :
    (bins.modify i (fun n => min (n + 1) 4294967295)).sum = bins.sum + 1 := by
  obtain ⟨before, n, behind, split_, -, raised⟩ :=
    List.exists_of_modify (fun n => min (n + 1) 4294967295) inside
  rw [raised]
  rw [split_] at room ⊢
  simp only [List.sum_append, List.sum_cons] at room ⊢
  omega

/-- A block is counted once, and the bins stay the gated blocks (R49). -/
theorem takeBlock_counts_once (block : Rat) {g : Gating} (size : g.bins.length = 901) (sum : g.bins.sum = g.gated)
    (gatedRoom : g.gated < 4294967295) (belowRoom : g.below < 4294967295) :
    (g.takeBlock block).bins.length = 901 ∧ (g.takeBlock block).bins.sum = (g.takeBlock block).gated ∧
    (g.takeBlock block).gated + (g.takeBlock block).below = g.gated + g.below + 1 := by
  rcases le_or_gt (-700) (reportedTenth block) with gated | below
  · have bin := bin_le block
    rw [takeBlock_of_gated g gated]
    dsimp only
    rw [List.length_modify, sum_modify_saturating (by omega) (by omega)]
    omega
  · rw [takeBlock_of_below g below]
    dsimp only
    omega

/-- A tile counts at most one block, and the bins stay the gated blocks (R49). -/
theorem takeTile_counts_at_most_once (t : Nat) (power : Option Rat) {g : Gating} (size : g.bins.length = 901)
    (sum : g.bins.sum = g.gated) (gatedRoom : g.gated < 4294967295) (belowRoom : g.below < 4294967295) :
    let h := g.takeTile t power
    h.bins.length = 901 ∧ h.bins.sum = h.gated ∧
    g.gated + g.below ≤ h.gated + h.below ∧ h.gated + h.below ≤ g.gated + g.below + 1 := by
  cases completed : completedBlock (alignedWindow g.window t) power with
  | none =>
    rw [takeTile_of_no_block completed]
    dsimp only
    omega
  | some block =>
    obtain ⟨length, bins, once⟩ := takeBlock_counts_once block size sum gatedRoom belowRoom
    rw [takeTile_of_block completed]
    dsimp only
    omega

/-- A tile behind the three before it completes the block of the four, and the window moves on by one. -/
theorem takeTile_of_four {g : Gating} {t : Nat} {a b c p : Rat}
    (window : g.window = [⟨t - 3, some a⟩, ⟨t - 2, some b⟩, ⟨t - 1, some c⟩]) (three : 3 ≤ t) :
    g.takeTile t (some p) = { g.takeBlock ((a + b + c + p) / 4) with
      window := [⟨t - 2, some b⟩, ⟨t - 1, some c⟩, ⟨t, some p⟩] } := by
  have line : alignedWindow g.window t = g.window := by
    rw [window]
    exact alignedWindow_of_next (x := ⟨t - 1, some c⟩) rfl (Nat.sub_add_cancel (by omega))
  rw [takeTile_of_block (by rw [line, window, completedBlock_of_four]), windowAfter, line, window]
  rfl

/-- Behind a break the window holds the tile alone. -/
theorem windowAfter_break {w : List TileEntry} {x : TileEntry} {t : Nat} (power : Option Rat)
    (newest : w.getLast? = some x) (break_ : x.tile + 1 ≠ t) : windowAfter w t power = [⟨t, power⟩] := by
  rw [windowAfter, alignedWindow_of_break newest break_]
  rfl

/-- Behind a break no tile completes a block. -/
theorem no_block_of_break {w : List TileEntry} {x : TileEntry} {t : Nat} (power : Option Rat)
    (newest : w.getLast? = some x) (break_ : x.tile + 1 ≠ t) : completedBlock (alignedWindow w t) power = none := by
  rw [alignedWindow_of_break newest break_]
  refine Option.eq_none_iff_forall_ne_some.mpr fun block completed => ?_
  obtain ⟨-, entries, -⟩ := completedBlock_needs completed
  cases entries

end Sys2Proof.SegmentGating
end

section
/-! PROOFS. Integration (R50 to R53): the occupied bins stand for the whole histogram, the second pass is never empty, and both
means are the manual's; and the statement of gating and integration. -/

namespace Sys2Proof.SegmentGating

open Sys2Proof.Machine Sys2Proof.Laws

/-! ### Occupied bins -/

theorem mem_occupied {bins : List Nat} {x : Nat × Nat} : x ∈ occupied bins ↔ x.2 ≠ 0 ∧ bins[x.1]? = some x.2 := by
  obtain ⟨b, n⟩ := x
  constructor
  · intro mem
    obtain ⟨⟨m, i⟩, at_, kept⟩ := List.mem_filterMap.mp mem
    by_cases empty : m = 0
    · simp [empty] at kept
    · obtain ⟨rfl, rfl⟩ : i = b ∧ m = n := by simpa [empty] using kept
      exact ⟨empty, List.mem_zipIdx_iff_getElem?.mp at_⟩
  · rintro ⟨some_, at_⟩
    exact List.mem_filterMap.mpr ⟨(n, b), List.mem_zipIdx_iff_getElem?.mpr at_, by simpa using some_⟩

/-- Every bin is empty where none is occupied, and only there (R51). -/
theorem occupied_eq_nil_iff {bins : List Nat} : occupied bins = [] ↔ ∀ n ∈ bins, n = 0 := by
  refine ⟨fun nil n mem => by_contra fun some_ => ?_, fun empty => List.eq_nil_iff_forall_not_mem.mpr fun x mem => ?_⟩
  · obtain ⟨b, at_⟩ := List.mem_iff_getElem?.mp mem
    have occupied_ : (b, n) ∈ occupied bins := mem_occupied.mpr ⟨some_, at_⟩
    simp [nil] at occupied_
  · obtain ⟨some_, at_⟩ := mem_occupied.mp mem
    exact some_ (empty _ (List.mem_of_getElem? at_))

/-- The bins that one more bin above them leaves occupied. -/
theorem occupied_concat (bins : List Nat) (n : Nat) :
    occupied (bins ++ [n]) = occupied bins ++ if n = 0 then [] else [(bins.length, n)] := by
  by_cases empty : n = 0 <;> simp [occupied, List.zipIdx_append, empty]

/-- A sum over some of the bins, to which an empty bin gives nothing, is the sum over those of them that are occupied. -/
theorem sum_occupied {M : Type} [AddCommMonoid M] (f : Nat × Nat → M) (zero : ∀ b, f (b, 0) = 0) (taken : Nat → Bool)
    (bins : List Nat) :
    (((occupied bins).filter (fun x => taken x.1)).map f).sum =
      ∑ b ∈ (Finset.range bins.length).filter (fun b => taken b = true), f (b, bins.getD b 0) := by
  induction bins using List.reverseRecOn with
  | nil => simp [occupied]
  | append_singleton bins n ih =>
    have same : ∀ b ∈ Finset.range bins.length, (bins ++ [n]).getD b 0 = bins.getD b 0 :=
      fun b mem => List.getD_append _ _ _ b (Finset.mem_range.mp mem)
    have last : (bins ++ [n]).getD bins.length 0 = n := by simp
    rw [Finset.sum_filter] at ih ⊢
    rw [List.length_append, List.length_singleton, Finset.sum_range_succ, last, occupied_concat, List.filter_append,
      List.map_append, List.sum_append, ih]
    congr 1
    · exact Finset.sum_congr rfl fun b mem => by rw [same b mem]
    · by_cases empty : n = 0 <;> cases chosen : taken bins.length <;> simp [empty, zero, chosen]

/-- The bins that a pass takes: their mean power is the manual's (R52, R53). -/
theorem meanOf_taken (taken : Nat → Bool) (bins : List Nat) :
    meanOf ((occupied bins).filter (fun x => taken x.1)) =
      meanBinPower bins ((Finset.range bins.length).filter (fun b => taken b = true)) := by
  have powers := sum_occupied (fun x => (x.2 : ℝ) * binPower x.1) (by simp) taken bins
  have counts := sum_occupied (fun x => (x.2 : ℝ)) (by simp) taken bins
  rw [meanOf, meanBinPower, powers, ← counts, countSum, Nat.cast_list_sum, List.map_map]
  rfl

theorem meanOf_occupied (bins : List Nat) : meanOf (occupied bins) = meanBinPower bins (Finset.range bins.length) := by
  simpa using meanOf_taken (fun _ => true) bins

/-- The occupied bins hold every block (R52). -/
theorem countSum_occupied (bins : List Nat) : countSum (occupied bins) = bins.sum := by
  induction bins using List.reverseRecOn with
  | nil => rfl
  | append_singleton bins n ih =>
    rw [countSum] at ih
    rw [countSum, occupied_concat, List.map_append, List.sum_append, ih, List.sum_append]
    by_cases empty : n = 0 <;> simp [empty]

/-- Some of the bins hold at most the blocks of all. -/
theorem countSum_taken_le (taken : Nat → Bool) (bins : List Nat) :
    countSum ((occupied bins).filter (fun x => taken x.1)) ≤ bins.sum := by
  rw [← countSum_occupied]
  exact (List.filter_sublist.map Prod.snd).sum_le_sum fun _ _ => Nat.zero_le _

/-- One occupied bin is enough to hold blocks. -/
theorem countSum_pos {bins : List Nat} {xs : List (Nat × Nat)} {x : Nat × Nat} (occupied_ : x ∈ occupied bins)
    (mem : x ∈ xs) : 0 < countSum xs :=
  (Nat.pos_of_ne_zero (mem_occupied.mp occupied_).1).trans_le (List.le_sum_of_mem (List.mem_map_of_mem mem))

/-! ### The passes (R52, R53) -/

/-- The bins that a pass takes, some of them occupied, have a reported mean, the manual's. -/
theorem pass_spec {bins : List Nat} (size : bins.length = 901) (limit : bins.sum ≤ 4294967295) (taken : Nat → Bool)
    {x : Nat × Nat} (mem : x ∈ occupied bins) (chosen : taken x.1 = true) :
    let mean := reportedMean ((occupied bins).filter (fun x => taken x.1))
    reportsAs (meanBinPower bins ((Finset.range 901).filter (fun b => taken b = true))) mean ∧ -700 ≤ mean ∧ mean ≤ 200 := by
  have inside : ∀ y ∈ (occupied bins).filter (fun x => taken x.1), y.1 ≤ 900 := by
    intro y mem
    obtain ⟨-, at_⟩ := mem_occupied.mp (List.mem_of_mem_filter mem)
    have := (List.getElem?_eq_some_iff.mp at_).1
    omega
  have kept : x ∈ (occupied bins).filter (fun x => taken x.1) := List.mem_filter.mpr ⟨mem, chosen⟩
  have le := countSum_taken_le taken bins
  rw [← size, ← meanOf_taken]
  exact reportedMean_spec _ inside (countSum_pos mem kept) (by omega)

/-- A mean is at most a bound of the powers it is made of. -/
theorem meanOf_le {xs : List (Nat × Nat)} {bound : ℝ} (pos : 0 < countSum xs) (below : ∀ x ∈ xs, binPower x.1 ≤ bound) :
    meanOf xs ≤ bound := by
  have blocks : (0 : ℝ) < countSum xs := by exact_mod_cast pos
  have total : (xs.map (fun x => (x.2 : ℝ))).sum = countSum xs := by
    rw [countSum, Nat.cast_list_sum, List.map_map]
    rfl
  rw [meanOf, div_le_iff₀ blocks]
  calc (xs.map (fun x => (x.2 : ℝ) * binPower x.1)).sum
      ≤ (xs.map (fun x => (x.2 : ℝ) * bound)).sum :=
        List.sum_le_sum fun x mem => mul_le_mul_of_nonneg_left (below x mem) (Nat.cast_nonneg _)
    _ = bound * countSum xs := by rw [List.sum_map_mul_right, total, mul_comm]

theorem loudnessBound_strictMono {m n : Int} (h : m < n) : loudnessBound m < loudnessBound n := by
  have lt : (m : ℝ) < n := by exact_mod_cast h
  exact Real.rpow_lt_rpow_of_exponent_lt (by norm_num) (by linarith)

/-- A bin's power is reported below the next tenth (R50). -/
theorem binPower_le_next (b : Nat) : binPower b ≤ loudnessBound ((b : Int) - 699) := by
  refine Real.rpow_le_rpow_of_exponent_le (by norm_num) ?_
  push_cast
  linarith

/-- The second pass is never empty: of the bins that a mean is taken of, one lies above the threshold 10.0 below it. -/
theorem exists_above_threshold {xs : List (Nat × Nat)} {mean : Int} (pos : 0 < countSum xs)
    (reports : reportsAs (meanOf xs) mean) : ∃ x ∈ xs, mean - 100 < (x.1 : Int) - 700 := by
  by_contra none_
  push Not at none_
  have below : meanOf xs ≤ loudnessBound (mean - 99) :=
    meanOf_le pos fun x mem => (binPower_le_next x.1).trans (loudnessBound_mono (by have := none_ x mem; omega))
  exact absurd (reports.1.trans below) (not_le.mpr (loudnessBound_strictMono (by omega)))

/-! ### Integration (R51 to R53) -/

theorem integrate_of_empty {bins : List Nat} (empty : ∀ n ∈ bins, n = 0) : integrate bins = none := by
  simp [integrate, occupied_eq_nil_iff.mpr empty]

theorem integrate_of_occupied {bins : List Nat} (some_ : occupied bins ≠ []) :
    let threshold := reportedMean (occupied bins) - 100
    integrate bins = some ⟨threshold,
      reportedMean ((occupied bins).filter (fun x => decide (threshold < (x.1 : Int) - 700)))⟩ := by
  simp [integrate, some_]

/-- Integration of a histogram with blocks: the two reported means, each as the manual has it. -/
theorem integrate_spec {bins : List Nat} (size : bins.length = 901) (limit : bins.sum ≤ 4294967295)
    (some_ : ∃ n ∈ bins, n ≠ 0) : ∃ first loudness : Int, integrate bins = some ⟨first - 100, loudness⟩ ∧
      reportsAs (meanBinPower bins (Finset.range 901)) first ∧
      reportsAs (meanBinPower bins ((Finset.range 901).filter (fun b => first - 100 < (b : Int) - 700))) loudness ∧
      -700 ≤ first ∧ first ≤ 200 ∧ -700 ≤ loudness ∧ loudness ≤ 200 := by
  have occupied_ : occupied bins ≠ [] := fun nil => by
    obtain ⟨n, mem, ne⟩ := some_
    exact ne (occupied_eq_nil_iff.mp nil n mem)
  obtain ⟨x, mem⟩ := List.exists_mem_of_ne_nil _ occupied_
  have first := pass_spec size limit (fun _ => true) mem rfl
  simp only [List.filter_true, Finset.filter_true] at first
  obtain ⟨reports, low, high⟩ := first
  obtain ⟨y, occupiedAbove, above⟩ := exists_above_threshold (countSum_pos mem mem)
    (by rwa [meanOf_occupied, size])
  have second := pass_spec size limit (fun b => decide (reportedMean (occupied bins) - 100 < (b : Int) - 700))
    occupiedAbove (decide_eq_true above)
  simp only [decide_eq_true_eq] at second
  obtain ⟨reports', low', high'⟩ := second
  exact ⟨_, _, integrate_of_occupied occupied_, reports, reports', low, high, low', high'⟩

/-! ### The statement -/

/-- Settles O57: the tiles by whether they complete a block, and the two passes over the occupied bins. -/
theorem gatingCountsEachBlockOnce : Obligations.GatingCountsEachBlockOnce := by
  unfold Obligations.GatingCountsEachBlockOnce
  refine ⟨?_, fun bins size limit => ⟨integrate_of_empty, integrate_spec size limit⟩⟩
  intro g t power size h counts
  have unchanged (none_ : completedBlock (alignedWindow g.window t) power = none) : ¬ counts := by
    simp [counts, h, takeTile_of_no_block none_]
  refine ⟨?_, fun void => unchanged (no_block_of_window t (.inl void)),
    fun short => unchanged (no_block_of_window t (.inr (.inl short))),
    fun _ void => unchanged (no_block_of_window t (.inr (.inr void))),
    fun x newest break_ => ⟨unchanged (no_block_of_break power newest break_), windowAfter_break power newest break_⟩, ?_⟩
  · rintro a b c p window three rfl level
    have taken : h = _ := takeTile_of_four window three
    rw [taken]
    refine ⟨fun gate => ?_, fun gate => ?_, rfl⟩
    · rw [takeBlock_of_gated g gate]
      exact ⟨rfl, rfl, bin_le _, rfl⟩
    · rw [takeBlock_of_below g gate]
      exact ⟨rfl, rfl, rfl⟩
  · intro sum gatedRoom belowRoom
    obtain ⟨length, bins, least, most⟩ := takeTile_counts_at_most_once t power size sum gatedRoom belowRoom
    exact ⟨length, bins, length_newestEntries_le 3 _, least, most⟩

end Sys2Proof.SegmentGating
end

section
/-! PROOFS. The caption filter (R60, R61): the masked comparison of a page with an entry, and the enabled entries of each
sense. -/

namespace Sys2Proof.CaptionChecking

open Sys2Proof.Machine

/-- A page matches an entry on the bits of its mask (R60). -/
theorem hits_iff (e : FilterEntry) (id : BitVec 16) :
    e.hits id = true ↔ ∀ i : Nat, e.mask.getLsbD i = true → id.getLsbD i = e.value.getLsbD i := by
  unfold FilterEntry.hits
  rw [beq_iff_eq]
  refine ⟨fun same i selected => ?_, fun agree => BitVec.eq_of_getLsbD_eq fun i _ => ?_⟩
  · have bit := congrArg (fun x => x.getLsbD i) same
    simpa only [BitVec.getLsbD_and, selected, Bool.and_true] using bit
  · rw [BitVec.getLsbD_and, BitVec.getLsbD_and]
    cases selected : e.mask.getLsbD i with
    | false => rw [Bool.and_false, Bool.and_false]
    | true => rw [agree i selected]

/-- The enabled entries of a sense. -/
def ofSense (t : FilterTable) (x : Sense) : List FilterEntry :=
  (t.entries.toList.filter FilterEntry.enabled).filter (fun e => e.sense == x)

theorem mem_ofSense {t : FilterTable} {x : Sense} {e : FilterEntry} :
    e ∈ ofSense t x ↔ e ∈ t.entries.toList ∧ e.enabled = true ∧ e.sense = x := by
  simp only [ofSense, List.mem_filter, beq_iff_eq, and_assoc]

/-- The filter by the enabled entries of each sense (R61). -/
theorem passes_eq (t : FilterTable) (id : BitVec 16) :
    t.passes id = (t.passAll || (((ofSense t .accept).isEmpty || (ofSense t .accept).any (fun e => e.hits id))
      && !(ofSense t .reject).any (fun e => e.hits id))) := rfl

/-- No entry of a sense is enabled. -/
theorem ofSense_isEmpty_iff (t : FilterTable) (x : Sense) :
    (ofSense t x).isEmpty = true ↔ ¬ ∃ e ∈ t.entries.toList, e.enabled = true ∧ e.sense = x := by
  rw [List.isEmpty_iff, List.eq_nil_iff_forall_not_mem]
  simp only [mem_ofSense, not_exists]

/-- The page matches an enabled entry of a sense. -/
theorem ofSense_any_iff (t : FilterTable) (x : Sense) (id : BitVec 16) :
    (ofSense t x).any (fun e => e.hits id) = true ↔
      ∃ e ∈ t.entries.toList, e.enabled = true ∧ e.sense = x ∧ e.hits id = true := by
  simp only [List.any_eq_true, mem_ofSense, and_assoc]

/-- Settles O54: the masked comparison bit by bit, and the filter by the enabled entries of each sense. -/
theorem filterPassesByItsRule : Obligations.FilterPassesByItsRule := by
  unfold Obligations.FilterPassesByItsRule
  refine ⟨hits_iff, fun t id => ?_⟩
  rw [passes_eq, Bool.or_eq_true, Bool.and_eq_true, Bool.or_eq_true, Bool.not_eq_true', ← Bool.not_eq_true,
    ofSense_isEmpty_iff, ofSense_any_iff, ofSense_any_iff, or_comm (a := ¬ _)]

end Sys2Proof.CaptionChecking
end

section
/-! PROOFS. The requests that replace a setting, taken in CONFIG (R63, R102, R103, R105, R129), and SAVE (R195). -/

namespace Sys2Proof.CaptionChecking

open Sys2Proof.Machine Sys2Proof.Laws Sys2Proof.Lanes Sys2Proof.LoudnessEngine

/-! ### A handler that replaces the settings -/

/-- A request taken in CONFIG only does its work there (R124). -/
theorem inConfig_working (h : Handler) (q : Byte) (r : Request) {s : State} (config : s.alarm.mode = .config) :
    inConfig h (working q r s) = h (working q r s) := by
  have mode : (working q r s).alarm.mode ≠ .run := fun run => Mode.noConfusion (config.symm.trans run)
  exact if_neg mode

/-- A rule set that exists is looked up as it is named. -/
theorem setOf_val (k : Fin 16) : Machine.setOf k.val = some k := dif_pos k.isLt

/-- The state in which a request's handler runs, with other settings. -/
def withSettings (q : Byte) (r : Request) (x : Settings) (s : State) : State := { working q r s with settings := x }

/-- A request whose handler replaces the settings changes nothing else but the link. -/
theorem serve_withSettings {q : Byte} {r : Request} {h : Handler} {x : Reply} {s : State} {y : Settings}
    (ready : s.readyToTake = true) (done : h (working q r s) = (x, withSettings q r y s)) :
    s.begin.serve q r h = { s.answered q r x with settings := y } := by
  rw [serve_ready q r h s ready, done]
  rfl

/-! ### The requests -/

section
variable {q : Byte} {s : State} (ready : s.readyToTake = true) (config : s.alarm.mode = .config)
include ready config

/-- A request that is taken in CONFIG only, and replaces the settings there. -/
theorem serve_inConfig {r : Request} {h : Handler} {x : Reply} {y : Settings}
    (done : h (working q r s) = (x, withSettings q r y s)) :
    s.begin.serve q r (inConfig h) = { s.answered q r x with settings := y } :=
  serve_withSettings ready ((inConfig_working h q r config).trans done)

theorem exec_rule (f : RuleFields) (k : Fin 16) (named : f.set = k.val) :
    exec (.rule q f) s = .next { s.answered q (.rule f)
        ⟨clampedIf ((appliedRule f).fields k != f), ruleBytes ((appliedRule f).fields k)⟩ with
      settings := { s.settings with rules := s.settings.rules.set k (appliedRule f) } } := by
  refine congrArg _ (serve_inConfig ready config ?_)
  rw [named, setOf_val]
  rfl

theorem exec_filtEntry (f : FilterEntryFields) (l : LaneNo) (k : Fin 8) (lane : f.lane = l.val)
    (entry : f.entry = k.val) :
    exec (.filtEntry q f) s = .next { s.answered q (.filtEntry f)
        ⟨clampedIf ((appliedFilter f).fields l k != f), filterBytes ((appliedFilter f).fields l k)⟩ with
      settings := { s.settings with filters := s.settings.filters.set l { s.settings.filters[l] with
        entries := s.settings.filters[l].entries.set k (appliedFilter f) } } } := by
  have inTable : f.entry < 8 := entry ▸ k.isLt
  obtain rfl : k = ⟨f.entry, inTable⟩ := Fin.ext entry.symm
  refine congrArg _ (serve_inConfig ready config ?_)
  rw [lane, withLane_val, dif_pos inTable]
  rfl

theorem exec_filtPassAll (l : LaneNo) (v : Nat) :
    exec (.filtPassAll q l.val v) s = .next { s.answered q (.filtPassAll l.val v)
        ⟨clampedIf (yesCode (yesOf v) != v), passAllBytes l.val (yesCode (yesOf v))⟩ with
      settings := { s.settings with
        filters := s.settings.filters.set l { s.settings.filters[l] with passAll := yesOf v } } } := by
  refine congrArg _ (serve_inConfig ready config ?_)
  rw [withLane_val]
  rfl

theorem exec_rmap (l : LaneNo) (kind set : Nat) (k : SegKind) (x : Option (Fin 16)) (names : segKindOf kind = some k)
    (entry : ruleEntryOf set = some x) :
    exec (.rmap q l.val kind set) s = .next { s.answered q (.rmap l.val kind set)
        ⟨.ok, requestBytes (.rmap l.val kind set)⟩ with
      settings := { s.settings with ruleMap := s.settings.ruleMap.set l (s.settings.ruleMap[l].withEntry k x) } } := by
  refine congrArg _ (serve_inConfig ready config ?_)
  rw [withLane_val, names, entry]
  rfl

theorem exec_dsev (f : SeverityFields) :
    let applied : SeverityFields := ⟨severityCode (severityOf f.stalled), severityCode (severityOf f.short),
      severityCode (severityOf f.storeLost), clampNat 0 3650 f.floorDays⟩
    exec (.dsev q f) s = .next { s.answered q (.dsev f) ⟨clampedIf (applied != f), requestBytes (.dsev applied)⟩ with
      settings := { s.settings with
        severities := ⟨severityOf f.stalled, severityOf f.short, severityOf f.storeLost⟩
        floorDays := clampNat 0 3650 f.floorDays } } := by
  refine congrArg _ (serve_inConfig ready config ?_)
  rfl

theorem exec_alrm (p n : Nat) :
    exec (.alrm q p n) s = .next { s.answered q (.alrm p n)
        ⟨clampedIf (protocolCode (protocolOf p) != p || clampNat 10 600 n != n),
          requestBytes (.alrm (protocolCode (protocolOf p)) (clampNat 10 600 n))⟩ with
      settings := { s.settings with protocolSet := protocolOf p, configTimeout := clampNat 10 600 n } } := by
  refine congrArg _ (serve_inConfig ready config ?_)
  rfl

/-- SAVE queues a copy of the settings as they stand (R195). -/
theorem exec_save (idle : s.saveInFlight = false) :
    exec (.save q) s = .next { s.answered q .save ⟨.ok, []⟩ with
      sys := s.sys.queueWrite (.image s.settings) true
      saveInFlight := true } := by
  have free : ¬ (working q .save s).saveInFlight = true := fun busy => Bool.noConfusion (idle.symm.trans busy)
  refine congrArg _ ((serve_ready q .save handleSave s ready).trans ?_)
  rw [handleSave, inConfig_working _ q .save config, if_neg free]
  rfl

/-- SAVE is refused while the copy of another is on its way (R195). -/
theorem exec_save_busy (busy : s.saveInFlight = true) :
    exec (.save q) s = .next (s.answered q .save (.refuse .busy)) := by
  have taken : (working q .save s).saveInFlight = true := busy
  refine congrArg _ (serve_answered ready ?_)
  rw [handleSave, inConfig_working _ q .save config, if_pos taken]
  rfl

end

/-- Settles O18: each request's handler in CONFIG, and what the exchange makes of its reply. -/
theorem settingRequestsApplyTheirValues : Obligations.SettingRequestsApplyTheirValues := by
  unfold Obligations.SettingRequestsApplyTheirValues
  intro q s ready config
  exact ⟨exec_rule ready config, exec_filtEntry ready config, exec_filtPassAll ready config, exec_rmap ready config,
    exec_dsev ready config, exec_alrm ready config,
    exec_save ready config, exec_save_busy ready config⟩

end Sys2Proof.CaptionChecking
end

section
/-! PROOFS. The CAPTION notice of a lane is the Caption Checker's: no record, finding or allocation attempt changes it. -/

namespace Sys2Proof.CaptionChecking

open Sys2Proof.Machine Sys2Proof.Laws Sys2Proof.Lanes

/-! ### Records and findings -/

@[simp] theorem archive_captionNotice (l : LaneNo) (kind : Byte) (time : Time) (content : List Byte) (s : State) :
    (s.archive l kind time content).notices.caption = s.notices.caption := by
  have report (t : State) : (t.reportBuffers l).notices = t.notices := by
    unfold State.reportBuffers
    repeat' split
    all_goals rfl
  unfold State.archive
  split
  · rfl
  · split
    · rfl
    · exact congrArg Notices.caption (report _)

@[simp] theorem reassess_captionNotice (s : State) : s.reassess.notices.caption = s.notices.caption := by
  unfold State.reassess State.driveLines
  dsimp only
  repeat' split
  all_goals rfl

@[simp] theorem raiseFinding_captionNotice (lane : Option LaneNo) (s : State) :
    (s.raiseFinding lane).notices.caption = s.notices.caption := by
  cases lane <;> rfl

@[simp] theorem announce_captionNotice (f : Finding) (time : Time) (s : State) :
    (s.announce f time).notices.caption = s.notices.caption := by
  unfold State.announce
  split <;> simp

@[simp] theorem createFinding_captionNotice (d : Draft) (ask : Option HoldAsk) (s : State) :
    (s.createFinding d ask).2.notices.caption = s.notices.caption := by
  have hold (f : Finding) (t : State) : (t.holdFor ask f).2.notices = t.notices := by
    obtain ⟨table, sys, shape⟩ := holdFor_shape ask f t
    rw [shape]
  have enter (f : Finding) (t : State) : (t.enterFinding f).notices.caption = t.notices.caption := by
    unfold State.enterFinding
    split <;> rfl
  unfold State.createFinding
  simp only [announce_captionNotice, enter, hold]

@[simp] theorem settleOpen_captionNotice (time : Time) (postRoll : Nat) (f : Option Finding) (s : State) :
    (s.settleOpen time postRoll f).notices.caption = s.notices.caption := by
  have change (f : Finding) (t : State) : (t.changeFinding f time).notices.caption = t.notices.caption := by
    unfold State.changeFinding
    rw [announce_captionNotice]
    split <;> rfl
  have stop (f : Finding) : (s.endHoldOf f time postRoll).notices = s.notices := by
    unfold State.endHoldOf State.setHoldEnd
    repeat' split
    all_goals rfl
  unfold State.settleOpen State.settleFinding
  split
  · split
    · exact change _ s
    · rw [change, stop]
    · rfl
    · rfl
  · rfl

/-! ### The boundary of an event -/

/-- The CAPTION notices stay as given through whatever an attempt does. -/
theorem captionNotice_steady (v : Vector Bool 8) (l : LaneNo) : Steady l (fun s => s.notices.caption = v) where
  ac _ _ h := h
  rest _ _ _ _ _ _ h := h
  openStalled s h := by
    unfold State.openStalled
    split
    · exact h
    · exact (createFinding_captionNotice _ _ s).trans h
  endStalled _ h := (settleOpen_captionNotice _ _ _ _).trans h
  openShort s h := by
    unfold State.openShort
    split
    · exact h
    · exact (createFinding_captionNotice _ _ s).trans h
  endShort _ h := (settleOpen_captionNotice _ _ _ _).trans h

@[simp] theorem allocate_captionNotice (s : State) : s.allocate.notices.caption = s.notices.caption :=
  steady_allocateN (I := fun t => t.notices.caption = s.notices.caption)
    (fun _ l _ _ => captionNotice_steady _ l) (fun _ _ _ h => h) 20 s rfl

end Sys2Proof.CaptionChecking
end

section
/-! PROOFS. What the Caption Checker makes of a page: its rejection, its liveness, and its timeliness (R62 to R69, R74). -/

namespace Sys2Proof.CaptionChecking

open Sys2Proof.Machine Sys2Proof.Laws Sys2Proof.Lanes

/-! ### The caption counters of an open segment (R74) -/

/-- A lane's Segment Tracker with the caption counters of its open segment changed, if there is one. -/
def countedIn (f : CaptionCounters → CaptionCounters) (x : StLane) : StLane :=
  { x with seg := x.seg.map (fun g => { g with captions := f g.captions }) }

theorem modCaptions_eq (l : LaneNo) (f : CaptionCounters → CaptionCounters) (s : State) :
    s.modCaptions l f = { s with st := s.st.set l (countedIn f s.st[l]) } := rfl

theorem countedIn_id (x : StLane) : countedIn (fun k => k) x = x := by
  unfold countedIn
  rw [Option.map_id']

/-- A rejected page is counted for the lane and its open segment (R62). -/
theorem rejectPage_eq (l : LaneNo) (s : State) : s.rejectPage l = { s with
    cc := s.cc.set l { s.cc[l] with rejected := s.cc[l].rejected + 1 }
    st := s.st.set l (countedIn (fun k => { k with rejected := min (k.rejected + 1) 4294967295 }) s.st[l]) } := by
  simp only [← bumpSat_eq]
  rfl

/-! ### Timeliness (R69, R74) -/

theorem isLate_eq (limit presentation : Nat) (now : Time) :
    isLate limit presentation now = now.any (fun t => decide (presentation + limit < t)) := by
  cases now <;> rfl

theorem isEarly_eq (limit presentation : Nat) (now : Time) :
    isEarly limit presentation now = now.any (fun t => decide (t + limit < presentation)) := by
  cases now <;> rfl

/-- No page is late and early. -/
theorem isEarly_of_isLate {limit other presentation : Nat} {now : Time} (late : isLate limit presentation now = true) :
    isEarly other presentation now = false := by
  cases now with
  | none => rfl
  | some t =>
    simp only [isLate, isEarly, decide_eq_true_eq, decide_eq_false_iff_not] at late ⊢
    omega

/-- A lane's counts of late and early pages behind a judgement. -/
def judgedCc (late early : Bool) (c : CcLane) : CcLane :=
  { c with late := c.late + (if late then 1 else 0), early := c.early + (if early then 1 else 0) }

/-- A segment's counts of late and early pages behind a judgement. -/
def judgedCaptions (late early : Bool) (k : CaptionCounters) : CaptionCounters :=
  { k with
    late := if late then min (k.late + 1) 4294967295 else k.late
    early := if early then min (k.early + 1) 4294967295 else k.early }

/-- The lane's counts and those of its open segment are judged. -/
def judged (l : LaneNo) (late early : Bool) (s : State) : State := { s with
  cc := s.cc.set l (judgedCc late early s.cc[l])
  st := s.st.set l (countedIn (judgedCaptions late early) s.st[l]) }

theorem judged_late (l : LaneNo) (s : State) :
    (s.modCc l (fun c => { c with late := c.late + 1 })).modCaptions l (fun k => { k with late := bumpSat k.late })
      = judged l true false s := by
  have counts : judgedCc true false s.cc[l] = { s.cc[l] with late := s.cc[l].late + 1 } := by simp [judgedCc]
  have pages : judgedCaptions true false = fun k => { k with late := bumpSat k.late } := by
    funext k
    rw [bumpSat_eq]
    rfl
  unfold judged
  rw [counts, pages]
  rfl

theorem judged_early (l : LaneNo) (s : State) :
    (s.modCc l (fun c => { c with early := c.early + 1 })).modCaptions l (fun k => { k with early := bumpSat k.early })
      = judged l false true s := by
  have counts : judgedCc false true s.cc[l] = { s.cc[l] with early := s.cc[l].early + 1 } := by simp [judgedCc]
  have pages : judgedCaptions false true = fun k => { k with early := bumpSat k.early } := by
    funext k
    rw [bumpSat_eq]
    rfl
  unfold judged
  rw [counts, pages]
  rfl

theorem judged_timely (l : LaneNo) (s : State) : judged l false false s = s := by
  have counts : judgedCc false false s.cc[l] = s.cc[l] := by simp [judgedCc]
  have segment : countedIn (judgedCaptions false false) s.st[l] = s.st[l] := countedIn_id _
  unfold judged
  rw [counts, segment, lane_set_same, lane_set_same]

/-- An accepted page is counted late, early or neither (R69). -/
theorem judgeTimeliness_eq (l : LaneNo) (p : CaptionPage) (s : State) : s.judgeTimeliness l p
    = judged l (isLate (s.laneSettings l).lateLimit p.presentation s.station)
        (isEarly (s.laneSettings l).earlyLimit p.presentation s.station) s := by
  unfold State.judgeTimeliness
  dsimp only
  split
  · next late => rw [judged_late, late, isEarly_of_isLate late]
  · next late =>
    split
    · next early => rw [judged_early, Bool.eq_false_iff.mpr late, early]
    · next early => rw [Bool.eq_false_iff.mpr late, Bool.eq_false_iff.mpr early, judged_timely]

/-! ### Acceptance (R64 to R68) -/

/-- The lane is LIVE, and a change to it raises the CAPTION notice (R68). -/
theorem setLive_true_eq (l : LaneNo) (s : State) : s.setLive l true = { s with
    cc := s.cc.set l { s.cc[l] with live := true }
    notices := if s.cc[l].live then s.notices else { s.notices with caption := s.notices.caption.set l true } } := by
  unfold State.setLive
  split
  · next live =>
    have same : { s.cc[l] with live := true } = s.cc[l] := by rw [← live]
    rw [same, lane_set_same]
  · rfl

/-- A lane's Caption Checker once it has accepted a page, before the page is judged. -/
def tookPage (p : CaptionPage) (now : Time) (expiry : Nat) (c : CcLane) : CcLane :=
  { c with
    live := true
    latest := some ⟨p, now⟩
    lastAcceptance := some now
    keepalive := some expiry
    accepted := c.accepted + 1 }

/-- The Caption Checker has accepted a page and judged it. -/
def accepted (l : LaneNo) (p : CaptionPage) (s : State) : State :=
  judged l (isLate (s.laneSettings l).lateLimit p.presentation s.station)
    (isEarly (s.laneSettings l).earlyLimit p.presentation s.station)
    { s with
      cc := s.cc.set l (tookPage p s.station (s.clock + (s.laneSettings l).keepalive) s.cc[l])
      notices := if s.cc[l].live then s.notices else { s.notices with caption := s.notices.caption.set l true } }

/-- An accepted page goes to the lane's archive stream (R64, R66, R69). -/
theorem acceptPage_eq (l : LaneNo) (p : CaptionPage) (payload : List Byte) (s : State) :
    s.acceptPage l p payload = (accepted l p s).archive l recCaption s.station payload := by
  unfold State.acceptPage
  dsimp only
  rw [judgeTimeliness_eq, setLive_true_eq]
  simp only [modCc_fields, lane_set_self, Vector.set_set]
  rfl

end Sys2Proof.CaptionChecking
end

section
/-! PROOFS. CAPTION cells: the page that a good cell carries, its record in the lane's archive stream, and the statement. -/

namespace Sys2Proof.CaptionChecking

open Sys2Proof.Machine Sys2Proof.Laws Sys2Proof.Lanes

/-! ### The exchange -/

theorem exec_captionCell (l : LaneNo) (bytes : List Byte) (s : State) (w : s.warm = none)
    (good : intakeCheck (s.laneEnabled l) l s.liu[l] (gather bytes) = none)
    (kind : (gather bytes).bytes.getD 1 0#8 = kindCaption) :
    exec (.inboundCell l bytes) s
      = .next (released l ((counted l bytes s).takeCaption l (cellPayload (gather bytes).bytes))) := by
  rw [exec_goodCell l bytes s w good]
  unfold State.routeCell
  dsimp only
  rw [modLiu_modLiu, kind, if_neg (by decide), if_pos rfl, ← kind]
  rfl

theorem takeCaption_passed {l : LaneNo} {payload : List Byte} {p : CaptionPage} {s : State}
    (page : parseCaption payload = some p) (passes : s.settings.filters[l].passes (BitVec.ofNat 16 p.pageId) = true) :
    s.takeCaption l payload = s.acceptPage l p payload := by
  unfold State.takeCaption
  rw [page]
  exact if_pos passes

theorem takeCaption_stopped {l : LaneNo} {payload : List Byte} {p : CaptionPage} {s : State}
    (page : parseCaption payload = some p) (stops : s.settings.filters[l].passes (BitVec.ofNat 16 p.pageId) = false) :
    s.takeCaption l payload = s.rejectPage l := by
  unfold State.takeCaption
  rw [page]
  exact if_neg (Bool.eq_false_iff.mp stops)

/-- The intake of a lane whose CAPTION cell was taken: the cell is counted, and the assembly buffer is free. -/
def captionTaken (x : Liu) : Liu :=
  { x with assembly := ⟨[], false⟩, counters := { x.counters with caption := x.counters.caption + 1 } }

/-- On a settled part the release of the assembly buffer is all that follows the routing. -/
theorem released_settled (l : LaneNo) {s : State} (settled : s.settled) :
    released l s = s.modLiu l (fun x => { x with assembly := ⟨[], false⟩ }) :=
  allocate_of_settled _ (settled_of_ac settled rfl rfl)

/-- A page that does not pass the filter changes nothing but its counts (R61, R62). -/
theorem exec_rejectedPage (l : LaneNo) (bytes : List Byte) (s : State) (p : CaptionPage) (w : s.warm = none)
    (settled : s.settled) (good : intakeCheck (s.laneEnabled l) l s.liu[l] (gather bytes) = none)
    (kind : (gather bytes).bytes.getD 1 0#8 = kindCaption)
    (page : parseCaption (cellPayload (gather bytes).bytes) = some p)
    (stops : s.settings.filters[l].passes (BitVec.ofNat 16 p.pageId) = false) :
    exec (.inboundCell l bytes) s = .next { s with
      emitted := []
      liu := s.liu.set l (captionTaken s.liu[l])
      cc := s.cc.set l { s.cc[l] with rejected := s.cc[l].rejected + 1 }
      st := s.st.set l (countedIn (fun k => { k with rejected := min (k.rejected + 1) 4294967295 }) s.st[l]) } := by
  have still : ((counted l bytes s).rejectPage l).settled := settled_of_ac settled rfl rfl
  have intake : ((counted l bytes s).modLiu l (fun x => { x with assembly := ⟨[], false⟩ })).liu
      = s.liu.set l (captionTaken s.liu[l]) := by
    unfold counted
    rw [modLiu_modLiu, kind]
    rfl
  rw [exec_captionCell l bytes s w good kind, takeCaption_stopped (s := counted l bytes s) page stops,
    released_settled l still, rejectPage_eq, ← intake]
  rfl

/-! ### A record that a routing ends with -/

/-- What the archive's side leaves of a part that handed it a record. -/
structure Recorded (l : LaneNo) (s t : State) : Prop where
  le : t.le = s.le
  cc : t.cc = s.cc
  st : t.st = s.st
  settings : t.settings = s.settings
  station : t.station = s.station
  verdicts : t.verdicts = s.verdicts
  captionNotice : t.notices.caption = s.notices.caption
  captionCount : t.liu[l].counters.caption = s.liu[l].counters.caption

theorem recorded_released (l : LaneNo) (kind : Byte) (time : Time) (content : List Byte) (s : State) :
    Recorded l s (released l (s.archive l kind time content)) := by
  have handed := (aside_archive l kind time content s).kept
  have freed := (released_spec l (s.archive l kind time content)).kept
  have first := (core_of_kept handed l).counters
  have last := (core_of_kept freed l).counters
  rw [modLiu_liu] at last
  obtain ⟨-, captions, -⟩ := IntakeCounters.mk.inj (last.trans first)
  exact ⟨freed.le.trans handed.le, freed.cc.trans handed.cc, freed.st.trans handed.st,
    freed.settings.trans handed.settings, freed.station.trans handed.station, freed.verdicts.trans handed.verdicts,
    (allocate_captionNotice _).trans (archive_captionNotice _ _ _ _ _), captions⟩

/-- A settled part stays so when one lane's archive stream changes and it still has no need of an extent. -/
theorem settled_of_lane {l : LaneNo} {s t : State} {x : AcLane} (settled : s.settled) (due : t.attemptDue = s.attemptDue)
    (ac : t.ac = s.ac.set l x) (content : x.alloc = .idle → x.holdsRecords = false) : t.settled := by
  refine ⟨due.trans settled.1, fun k => ?_⟩
  have before := settled.2 k
  rw [← Bool.not_eq_true, needsExtent_iff] at before ⊢
  rw [ac]
  by_cases e : k = l
  · subst e
    rw [lane_set_self]
    exact fun needs => Bool.noConfusion ((content needs.1).symm.trans needs.2)
  · rwa [lane_set_ne _ _ e]

/-- In a settled part a lane without an allocation state holds no record. -/
theorem empty_of_settled {s : State} (settled : s.settled) {l : LaneNo} (idle : s.ac[l].alloc = .idle) :
    s.ac[l].holdsRecords = false := by
  have needs := settled.2 l
  rw [← Bool.not_eq_true, needsExtent_iff, not_and] at needs
  exact Bool.eq_false_iff.mpr (needs idle)

/-- Behind a record that leaves the lane without need of an extent, the archive streams are as taking it made them. -/
theorem released_ac {l : LaneNo} {kind : Byte} {time : Time} {content : List Byte} {s : State} {x : AcLane}
    (settled : s.settled) (ac : (s.archive l kind time content).ac = s.ac.set l x)
    (holds : x.alloc = .idle → x.holdsRecords = false) :
    (released l (s.archive l kind time content)).ac = s.ac.set l x := by
  rw [released_settled l (settled_of_lane settled (archive_attemptDue l kind time content s) ac holds)]
  exact ac

section
variable {l : LaneNo} {kind : Byte} {content : List Byte} {s : State} (w : s.warm = none) (settled : s.settled)
include w settled

/-- A record that finds room in the FILLING buffer of a lane with an allocation state joins it (R138). -/
theorem released_joins {now : Nat} {i : Fin 4} (gaps : s.ac[l].gaps.any = false) (filling : s.ac[l].filling = some i)
    (room : s.ac[l].buffers[i].used + 9 + content.length ≤ 16381) (alloc : s.ac[l].alloc ≠ .idle) :
    (released l (s.archive l kind (some now) content)).ac = s.ac.set l { s.ac[l] with
      buffers := s.ac[l].buffers.set i { s.ac[l].buffers[i] with
        records := s.ac[l].buffers[i].records ++ [⟨kind, now, content⟩] } } := by
  have fits : s.ac[l].buffers[i].used + (⟨kind, now, content⟩ : Record).size ≤ 16381 := by
    unfold Record.size
    dsimp only
    omega
  refine released_ac settled ?_ fun idle => absurd idle alloc
  rw [archive_ac l kind (some now) content s w]
  dsimp only
  rw [take_placed gaps (place_room filling fits _), added_filling i _ _ (filling_some filling)]

/-- A record of unset time is counted (R139). -/
theorem released_untimed : (released l (s.archive l kind none content)).ac
    = s.ac.set l { s.ac[l] with gaps := s.ac[l].gaps.count kind none } :=
  released_ac settled (archive_ac l kind none content s w) fun idle => empty_of_settled settled idle

end

/-- A CAPTION record of unset time adds one to the count of its kind. -/
theorem count_caption (g : GapCounts) :
    g.count recCaption none = { g with caption := min (g.caption + 1) 4294967295 } := by
  rw [← bumpSat_eq]
  rfl

/-! ### An accepted page -/

theorem accepted_cc (l : LaneNo) (p : CaptionPage) (s : State) : (accepted l p s).cc = s.cc.set l
    (judgedCc (isLate (s.laneSettings l).lateLimit p.presentation s.station)
      (isEarly (s.laneSettings l).earlyLimit p.presentation s.station)
      (tookPage p s.station (s.clock + (s.laneSettings l).keepalive) s.cc[l])) := by
  unfold accepted judged
  dsimp only
  rw [lane_set_self, Vector.set_set]

theorem accepted_st (l : LaneNo) (p : CaptionPage) (s : State) : (accepted l p s).st = s.st.set l
    (countedIn (judgedCaptions (isLate (s.laneSettings l).lateLimit p.presentation s.station)
      (isEarly (s.laneSettings l).earlyLimit p.presentation s.station)) s.st[l]) := rfl

/-- The acceptance of a SILENT lane's page raises the CAPTION notice (R68). -/
theorem accepted_raises (l : LaneNo) (p : CaptionPage) (s : State) (silent : s.cc[l].live = false) :
    (accepted l p s).notices.caption[l] = true := by
  unfold accepted judged
  dsimp only
  rw [silent, if_neg Bool.false_ne_true]
  exact lane_set_self _ _ _

/-- The part behind the cell of an accepted page. -/
def acceptedBehind (l : LaneNo) (bytes : List Byte) (p : CaptionPage) (s : State) : State :=
  released l ((accepted l p (counted l bytes s)).archive l recCaption s.station (cellPayload (gather bytes).bytes))

/-- A page that passes the filter is accepted, judged and archived (R61, R64, R69). -/
theorem exec_acceptedPage (l : LaneNo) (bytes : List Byte) (s : State) (p : CaptionPage) (w : s.warm = none)
    (good : intakeCheck (s.laneEnabled l) l s.liu[l] (gather bytes) = none)
    (kind : (gather bytes).bytes.getD 1 0#8 = kindCaption)
    (page : parseCaption (cellPayload (gather bytes).bytes) = some p)
    (passes : s.settings.filters[l].passes (BitVec.ofNat 16 p.pageId) = true) :
    exec (.inboundCell l bytes) s = .next (acceptedBehind l bytes p s) := by
  rw [exec_captionCell l bytes s w good kind, takeCaption_passed (s := counted l bytes s) page passes, acceptPage_eq]
  rfl

/-- The cell of an accepted page is counted by its kind (R5). -/
theorem counted_caption (l : LaneNo) (bytes : List Byte) (s : State)
    (kind : (gather bytes).bytes.getD 1 0#8 = kindCaption) :
    (counted l bytes s).liu[l].counters.caption = s.liu[l].counters.caption + 1 := by
  rw [counted_liu, kind]
  rfl

/-- Settles O52: the exchange by the verdict of the filter; an accepted page leaves the Caption Checker as judged, and its
record to the archive. -/
theorem captionPageIsAcceptedOrRejected : Obligations.CaptionPageIsAcceptedOrRejected := by
  unfold Obligations.CaptionPageIsAcceptedOrRejected
  intro l bytes s p w settled good kind page
  refine ⟨exec_rejectedPage l bytes s p w settled good kind page, fun passes => ?_⟩
  have behind : Recorded l (accepted l p (counted l bytes s)) (acceptedBehind l bytes p s) := recorded_released _ _ _ _ _
  have still : (accepted l p (counted l bytes s)).settled := settled_of_ac settled rfl rfl
  have cc := behind.cc.trans (accepted_cc l p (counted l bytes s))
  have st := behind.st.trans (accepted_st l p (counted l bytes s))
  have own : (acceptedBehind l bytes p s).cc[l] = _ := (congrArg (fun v => v[l]) cc).trans (lane_set_self _ _ _)
  have ownSt : (acceptedBehind l bytes p s).st[l] = _ := (congrArg (fun v => v[l]) st).trans (lane_set_self _ _ _)
  rw [isLate_eq, isEarly_eq] at own ownSt
  refine ⟨acceptedBehind l bytes p s, exec_acceptedPage l bytes s p w good kind page passes, ?_, ?_, ?_, ?_, ?_, ?_, ?_, ?_,
    ownSt, fun now i time gaps filling room alloc => ?_, fun unset => ?_, fun silent => ?_,
    behind.captionCount.trans ?_, fun k other => ⟨?_, ?_⟩, behind.le, behind.settings, behind.station, behind.verdicts⟩
  iterate 8 · rw [own]; rfl
  · unfold acceptedBehind
    rw [time]
    exact released_joins (s := accepted l p (counted l bytes s)) w still gaps filling room alloc
  · unfold acceptedBehind
    rw [unset, ← count_caption]
    exact released_untimed (s := accepted l p (counted l bytes s)) w still
  · rw [behind.captionNotice]
    exact accepted_raises l p (counted l bytes s) silent
  · rw [← counted_caption l bytes s kind]
    rfl
  · rw [cc]
    exact lane_set_ne _ _ other
  · rw [st]
    exact lane_set_ne _ _ other

end Sys2Proof.CaptionChecking
end

section
/-! PROOFS. The invariants at reset: every lane's part holds nothing, so nothing is out of bounds, kept or owed. -/

namespace Sys2Proof.SegmentTracking

open Sys2Proof.Machine Sys2Proof.Laws Sys2Proof.Lanes

/-! ### The lanes of the part at reset -/

theorem reset_le (l : LaneNo) : State.reset.le[l] = .reset := by simp [State.reset]
theorem reset_liu (l : LaneNo) : State.reset.liu[l] = .reset := by simp [State.reset]
theorem reset_st (l : LaneNo) : State.reset.st[l] = .reset := by simp [State.reset]
theorem reset_cm (l : LaneNo) : State.reset.cm[l] = .reset := by simp [State.reset]
theorem reset_ac (l : LaneNo) : State.reset.ac[l] = .reset := by simp [State.reset]

/-- No buffer is FILLING. -/
theorem reset_buffer (i : Fin 4) : AcLane.reset.buffers[i] = .empty := by simp [AcLane.reset]

theorem reset_bounded : State.reset.bounded where
  verdicts := Nat.zero_le _
  findings := Nat.zero_le _
  increasing := .nil
  issued _ h := absurd h List.not_mem_nil
  holds := Nat.zero_le _
  marks l := by rw [reset_st]; exact Nat.zero_le _
  history l := by rw [reset_le]; exact Nat.zero_le _
  filling l i _ h := by
    rw [reset_ac, reset_buffer i] at h
    cases h
  ordered l := by rw [reset_st]; exact .nil
  awaited _ := rfl
  untimed _ := rfl
  tiles _ l := by
    rw [reset_le, reset_liu]
    exact ⟨rfl, fun _ lost => by cases lost⟩
  turn _ h := by cases h

theorem reset_statusesFollow : State.reset.statusesFollow where
  lanes l := by rw [reset_cm]; rfl
  device := rfl
  overall := by decide

theorem reset_settled : State.reset.settled :=
  ⟨rfl, fun l => by simp only [State.needsExtent, reset_ac]; rfl⟩

theorem reset_findingsOwned : State.reset.findingsOwned where
  lanes l f h := by
    rw [reset_cm] at h
    exact absurd h List.not_mem_nil
  device _ h := absurd h List.not_mem_nil

/-- Settles O8: nothing is logged, queued, kept or open at reset. -/
theorem invariantsHoldAtReset : Obligations.InvariantsHoldAtReset :=
  ⟨reset_bounded, reset_statusesFollow, reset_settled, reset_findingsOwned⟩

end Sys2Proof.SegmentTracking
end

section
/-! PROOFS. The five checks of a judged segment (R92 to R96), by the values that each reads. -/

namespace Sys2Proof.SegmentTracking

open Sys2Proof.Machine Sys2Proof.Laws Sys2Proof.Lanes

theorem failIf_fail (b : Bool) : failIf b = .fail ↔ b = true := by cases b <;> simp [failIf]

theorem failIf_pass (b : Bool) : failIf b = .pass ↔ b = false := by cases b <;> simp [failIf]

theorem failIf_ne_skipped (b : Bool) : failIf b ≠ .skipped := by cases b <;> simp [failIf]

/-- A check that compares a value with a bound: it FAILs beyond the bound and PASSes at it or below, in any linear order. -/
theorem failIf_lt {α : Type} [LinearOrder α] (bound v : α) :
    (failIf (decide (bound < v)) = .fail ↔ bound < v) ∧ (failIf (decide (bound < v)) = .pass ↔ v ≤ bound) := by
  rw [failIf_fail, failIf_pass, decide_eq_true_iff, decide_eq_false_iff_not, not_lt]
  exact ⟨.rfl, .rfl⟩

/-- Against the target, a loudness that is as far from it as the tolerance still passes (R92). -/
theorem checkTarget_spec (rule : RuleSet) (v : Int) :
    ((checkTarget rule (some v)).result = .fail ↔ rule.tolerance < ((v - rule.target).natAbs : Int)) ∧
    ((checkTarget rule (some v)).result = .pass ↔ ((v - rule.target).natAbs : Int) ≤ rule.tolerance) ∧
    (checkTarget rule (some v)).measured = v ∧ (checkTarget rule (some v)).limit = rule.target := by
  obtain ⟨fails, passes⟩ := failIf_lt rule.tolerance ((v - rule.target).natAbs : Int)
  exact ⟨fails, passes, rfl, rfl⟩

/-- Without a ceiling or without a peak nothing is compared (R93). -/
theorem checkPeak_skipped (rule : RuleSet) (peak : Option Int) :
    (checkPeak rule peak).result = .skipped ↔ rule.peakCeiling = none ∨ peak = none := by
  unfold checkPeak
  cases rule.peakCeiling <;> cases peak <;> simp [failIf_ne_skipped]

theorem checkPeak_spec (rule : RuleSet) (peak : Option Int) (c p : Int) (ceiling : rule.peakCeiling = some c)
    (measured : peak = some p) :
    ((checkPeak rule peak).result = .fail ↔ c < p) ∧ ((checkPeak rule peak).result = .pass ↔ p ≤ c) ∧
    (checkPeak rule peak).measured = p ∧ (checkPeak rule peak).limit = c := by
  obtain ⟨fails, passes⟩ := failIf_lt c p
  unfold checkPeak
  rw [ceiling, measured]
  exact ⟨fails, passes, rfl, rfl⟩

theorem isRelative_iff (kind : SegKind) : kind.isRelative = true ↔ kind = .commercial ∨ kind = .promotion := by
  cases kind <;> simp [SegKind.isRelative]

theorem isRelative_eq_false (kind : SegKind) : kind.isRelative = false ↔ kind = .programme ∨ kind = .junction := by
  cases kind <;> simp [SegKind.isRelative]

/-- Programmes and junctions are not judged against the programme reference (R94). -/
theorem checkRelative_skipped (rule : RuleSet) (kind : SegKind) (reference integrated : Option Int) :
    (checkRelative rule kind reference integrated).result = .skipped ↔
      kind = .programme ∨ kind = .junction ∨ rule.relativeCeiling = none ∨ reference = none ∨ integrated = none := by
  rw [← or_assoc, ← isRelative_eq_false]
  unfold checkRelative
  cases kind.isRelative with
  | false => simp
  | true =>
    cases rule.relativeCeiling with
    | none => simp
    | some c => cases reference <;> cases integrated <;> simp [failIf_ne_skipped]

theorem checkRelative_spec (rule : RuleSet) (kind : SegKind) (reference integrated : Option Int) (c r v : Int)
    (judged : kind = .commercial ∨ kind = .promotion) (ceiling : rule.relativeCeiling = some c)
    (referred : reference = some r) (measured : integrated = some v) :
    ((checkRelative rule kind reference integrated).result = .fail ↔ c < v - r) ∧
    ((checkRelative rule kind reference integrated).result = .pass ↔ v - r ≤ c) ∧
    (checkRelative rule kind reference integrated).measured = v ∧
    (checkRelative rule kind reference integrated).limit = r + c := by
  obtain ⟨fails, passes⟩ := failIf_lt (r + c) v
  unfold checkRelative
  rw [(isRelative_iff kind).mpr judged, ceiling, referred, measured]
  exact ⟨fails.trans (by omega), passes.trans (by omega), rfl, rfl⟩

/-- An EXEMPT segment has no duty tile to cover (R96). -/
theorem checkCoverage_skipped (rule : RuleSet) (duty : Duty) (coverage : Option Nat) :
    (checkCoverage rule duty coverage).result = .skipped ↔ duty = .exempt ∨ coverage = none := by
  unfold checkCoverage
  cases duty <;> cases coverage <;> simp [failIf_ne_skipped]

theorem checkCoverage_spec (rule : RuleSet) (duty : Duty) (coverage : Option Nat) (v : Nat) (required : duty = .required)
    (measured : coverage = some v) :
    ((checkCoverage rule duty coverage).result = .fail ↔ v < rule.minCoverage) ∧
    ((checkCoverage rule duty coverage).result = .pass ↔ rule.minCoverage ≤ v) ∧
    (checkCoverage rule duty coverage).measured = v ∧ (checkCoverage rule duty coverage).limit = rule.minCoverage := by
  obtain ⟨fails, passes⟩ := failIf_lt v rule.minCoverage
  unfold checkCoverage
  rw [required, measured]
  exact ⟨fails, passes, rfl, rfl⟩

/-- Settles O55, check by check. -/
theorem verdictChecksFollowTheirRules : Obligations.VerdictChecksFollowTheirRules := by
  unfold Obligations.VerdictChecksFollowTheirRules
  intro rule
  refine ⟨rfl, checkTarget_spec rule, fun peak => ⟨checkPeak_skipped rule peak, checkPeak_spec rule peak⟩,
    fun kind reference integrated => ⟨checkRelative_skipped rule kind reference integrated,
      checkRelative_spec rule kind reference integrated⟩,
    fun duty coverage => ⟨checkCoverage_skipped rule duty coverage, checkCoverage_spec rule duty coverage⟩,
    fun late early => ?_⟩
  obtain ⟨fails, passes⟩ := failIf_lt rule.lateLimit (late + early)
  exact ⟨fails, passes, rfl, rfl⟩

end Sys2Proof.SegmentTracking
end

section
/-! PROOFS. A finding enters the log (R106, R107, R117): the three cases of the log, the statuses behind an announcement, and the
finding of a failed verdict check. -/

namespace Sys2Proof.SegmentTracking

open Sys2Proof.Machine Sys2Proof.Laws Sys2Proof.Lanes

/-! ### The log (R117) -/

theorem removable_iff (f : Finding) : f.removable = true ↔ f.state = .withdrawn ∨ (f.state = .ended ∧ f.acked = true) := by
  simp [Finding.removable]

theorem enterFinding_of_log {f : Finding} {s : State} {log : List Finding} (takes : logWith s.dev.log f = some log) :
    s.enterFinding f = { s with dev := { s.dev with log := log } } := by
  unfold State.enterFinding
  rw [takes]

/-- A full log gives up its oldest removable record. -/
theorem logWith_replaces {f old : Finding} {before after : List Finding} (id : f.id ≠ 0)
    (full : 256 ≤ (before ++ old :: after).length) (stay : ∀ g ∈ before, g.removable = false) (goes : old.removable = true) :
    logWith (before ++ old :: after) f = some (before ++ after ++ [f]) := by
  have erased : (before ++ old :: after).eraseP Finding.removable = before ++ after := by
    rw [List.eraseP_append_right _ (fun g hg => by simp [stay g hg]), List.eraseP_cons_of_pos goes]
  unfold logWith
  rw [if_neg id, if_neg (Nat.not_lt.mpr full), if_pos (List.any_eq_true.mpr ⟨old, by simp, goes⟩), erased]

/-- A finding without an id, and one that no record makes room for, finds no place. -/
theorem logWith_refuses {f : Finding} {log : List Finding}
    (h : f.id = 0 ∨ (256 ≤ log.length ∧ ∀ g ∈ log, g.removable = false)) : logWith log f = none := by
  unfold logWith
  rcases h with id | ⟨full, stay⟩
  · rw [if_pos id]
  · have none_ : ¬ log.any Finding.removable = true := fun any => by
      obtain ⟨g, hg, goes⟩ := List.any_eq_true.mp any
      exact absurd ((stay g hg).symm.trans goes) (by decide)
    rw [if_neg (Nat.not_lt.mpr full), if_neg none_, ite_self]

theorem enterFinding_refused {f : Finding} {s : State} (refuses : logWith s.dev.log f = none) :
    s.enterFinding f = { s with notices := { s.notices with logFull := true } } := by
  unfold State.enterFinding
  rw [refuses]
  rfl

/-! ### The statuses behind an announcement (R120, R130) -/

/-- The line drive takes the overall status, and moves nothing but the alarm. -/
theorem driveLines_shape (s : State) : ∃ a : Alarm, s.driveLines = { s with alarm := a } ∧ a.overall = s.overallOf := by
  have paired : (Alarm.pairedChange s.clock s.alarm.overall s.overallOf { s.alarm with overall := s.overallOf }).overall
      = s.overallOf := by
    unfold Alarm.pairedChange Alarm.startPaired
    repeat' split
    all_goals rfl
  unfold State.driveLines
  dsimp only
  repeat' split
  · exact ⟨_, rfl, rfl⟩
  · exact ⟨_, rfl, rfl⟩
  · exact ⟨_, rfl, rfl⟩
  · exact ⟨_, rfl, paired⟩

/-- Re-evaluation leaves the statuses that the log gives. -/
theorem reassess_statusesFollow (s : State) : s.reassess.statusesFollow := by
  obtain ⟨a, shape, overall⟩ := driveLines_shape { s with
    cm := restated s.dev.log s.cm, dev := { s.dev with status := statusOf s.dev.log none } }
  rw [show s.reassess = _ from shape]
  exact ⟨fun l => congrArg CmLane.status (restated_lane s.dev.log s.cm l), rfl, overall⟩

theorem createFinding_statusesFollow (d : Draft) (ask : Option HoldAsk) (s : State) :
    (s.createFinding d ask).2.statusesFollow := by
  rw [(createFinding_eq d ask s).2]
  exact reassess_statusesFollow _

/-! ### The finding of a failed verdict check (R97, R116) -/

/-- A hold that is asked for a finding leaves what its draft says of it. -/
theorem createFinding_fst (d : Draft) (ask : Option HoldAsk) (s : State) : ∃ (hold : Option Nat) (unheld : Bool),
    (s.createFinding d ask).1 = { unheldOf d s.dev.nextId with holdId := hold, unheld := unheld } := by
  rw [(createFinding_eq d ask s).1]
  unfold State.holdFor
  split
  · split <;> exact ⟨_, _, rfl⟩
  · exact ⟨_, _, rfl⟩

/-- A finding that is created while ids and places are left stands at the newest end of the log. -/
theorem createFinding_log (d : Draft) (ask : Option HoldAsk) (s : State) (ids : s.dev.nextId ≠ 0)
    (room : s.dev.log.length < 256) : (s.createFinding d ask).2.dev.log = s.dev.log ++ [(s.createFinding d ask).1] := by
  have dev : ((issued s).holdFor ask (unheldOf d s.dev.nextId)).2.dev = (issued s).dev := holdFor_dev _ _ _
  have id := createFinding_id d ask s
  rw [(createFinding_eq d ask s).2, announce_dev, enterFinding_enters (by rw [id]; exact ids) (by rw [dev]; exact room), dev]
  rfl

/-- The draft of the finding of a failed check. -/
def failureDraft (l : LaneNo) (g : SegCtx) (time : Time) (c : Check) : Draft :=
  { singleDraft (some l) c.kind c.severity time with
    segId := some g.ident.segId, measured := some c.measured, limit := some c.limit }

theorem verdictFinding_eq (l : LaneNo) (g : SegCtx) (rule : RuleSet) (time : Time) (c : Check) (s : State) :
    s.verdictFinding l g rule time c = (s.createFinding (failureDraft l g time c)
      (verdictAsk c.severity rule.holdOnBreach rule.preRoll rule.postRoll g.openTime time)).2 := rfl

/-- Settles O60: the entry by the three cases of the log, and the finding of a check by what every creation does. -/
theorem findingEntersTheLog : Obligations.FindingEntersTheLog := by
  unfold Obligations.FindingEntersTheLog
  intro f s
  refine ⟨fun l g rule time c => ?_, enterFinding_enters, fun before after old id full log stay goes => ?_,
    fun refused => enterFinding_refused (logWith_refuses refused), removable_iff f⟩
  · dsimp only
    rw [verdictFinding_eq]
    refine ⟨createFinding_nextId _ _ s, createFinding_raises _ _ s l rfl, createFinding_statusesFollow _ _ s,
      fun ids room => ⟨_, createFinding_log _ _ s ids room, ?_⟩⟩
    obtain ⟨hold, unheld, is⟩ := createFinding_fst (failureDraft l g time c)
      (verdictAsk c.severity rule.holdOnBreach rule.preRoll rule.postRoll g.openTime time) s
    rw [is]
    exact ⟨rfl, rfl, rfl, rfl, rfl, rfl, rfl, rfl, rfl, rfl, rfl⟩
  · refine enterFinding_of_log ?_
    rw [log] at full ⊢
    exact logWith_replaces id full stay goes

end Sys2Proof.SegmentTracking
end

section
/-! PROOFS. What the lanes do one after another at a change of mode (R90): a step of some lanes leaves the Segment Trackers and
the watched segments of the others. -/

namespace Sys2Proof.SegmentTracking

open Sys2Proof.Machine Sys2Proof.Laws Sys2Proof.Lanes

/-! ### Steps of lanes -/

/-- A step of the Segment Trackers of the lanes `ls`, and of what is watched and reported for them. -/
structure ModeStep (ls : List LaneNo) (s t : State) : Prop where
  clock : t.clock = s.clock
  station : t.station = s.station
  settings : t.settings = s.settings
  le : t.le = s.le
  cc : t.cc = s.cc
  slots : t.slots = s.slots
  mode : t.alarm.mode = s.alarm.mode
  configTimer : t.alarm.configTimer = s.alarm.configTimer
  inForce : t.alarm.inForce = s.alarm.inForce
  st : ∀ k ∉ ls, t.st[k] = s.st[k]
  watched : ∀ k ∉ ls, t.cm[k].watched = s.cm[k].watched
  notice : s.notices.verdict = true → t.notices.verdict = true

theorem ModeStep.refl (ls : List LaneNo) (s : State) : ModeStep ls s s :=
  ⟨rfl, rfl, rfl, rfl, rfl, rfl, rfl, rfl, rfl, fun _ _ => rfl, fun _ _ => rfl, id⟩

/-- Steps of some lanes and of others are a step of both. -/
theorem ModeStep.append {ls ms : List LaneNo} {s t u : State} (a : ModeStep ls s t) (b : ModeStep ms t u) :
    ModeStep (ls ++ ms) s u where
  clock := b.clock.trans a.clock
  station := b.station.trans a.station
  settings := b.settings.trans a.settings
  le := b.le.trans a.le
  cc := b.cc.trans a.cc
  slots := b.slots.trans a.slots
  mode := b.mode.trans a.mode
  configTimer := b.configTimer.trans a.configTimer
  inForce := b.inForce.trans a.inForce
  st k h := by
    rw [List.mem_append, not_or] at h
    exact (b.st k h.2).trans (a.st k h.1)
  watched k h := by
    rw [List.mem_append, not_or] at h
    exact (b.watched k h.2).trans (a.watched k h.1)
  notice h := b.notice (a.notice h)

/-- A step of more lanes may leave some of them as they are. -/
theorem ModeStep.mono {ls ms : List LaneNo} {s t : State} (a : ModeStep ls s t) (h : ls ⊆ ms) : ModeStep ms s t :=
  { a with
    st := fun k other => a.st k fun mem => other (h mem)
    watched := fun k other => a.watched k fun mem => other (h mem) }

theorem ModeStep.trans {ls : List LaneNo} {s t u : State} (a : ModeStep ls s t) (b : ModeStep ls t u) : ModeStep ls s u :=
  (a.append b).mono (by simp)

/-- What lies aside touches no lane's segment. -/
theorem Aside.modeStep {s t : State} (h : Aside s t) (ls : List LaneNo) : ModeStep ls s t where
  clock := h.kept.clock
  station := h.kept.station
  settings := h.kept.settings
  le := h.kept.le
  cc := h.kept.cc
  slots := h.kept.slots
  mode := h.kept.mode
  configTimer := h.kept.configTimer
  inForce := h.kept.inForce
  st k _ := by rw [h.kept.st]
  watched k _ := h.beside.watched k
  notice := h.beside.notices.verdict

theorem modeStep_modSt (l : LaneNo) (f : StLane → StLane) (s : State) : ModeStep [l] s (s.modSt l f) :=
  { ModeStep.refl [l] s with st := fun _ other => lane_set_ne _ _ fun e => other (by simp [e]) }

theorem modeStep_modCm (l : LaneNo) (f : CmLane → CmLane) (s : State) : ModeStep [l] s (s.modCm l f) :=
  { ModeStep.refl [l] s with
    watched := fun _ other => congrArg CmLane.watched (lane_set_ne _ _ fun e => other (by simp [e])) }

/-! ### The eight lanes in turn -/

/-- The lanes `ls` in turn, each by a step of its own. -/
theorem modeStep_foldl {f : LaneNo → State → State} (h : ∀ l s, ModeStep [l] s (f l s)) :
    ∀ (ls : List LaneNo) (s : State), ModeStep ls s (ls.foldl (fun t l => f l t) s)
  | [], s => .refl [] s
  | l :: ls, s => (h l s).append (modeStep_foldl h ls (f l s))

/-- The lanes around one: those before it and those behind it, seven in all. -/
theorem allLanes_split (l : LaneNo) : ∃ before after : List LaneNo, allLanes = before ++ l :: after ∧ l ∉ before ∧
    l ∉ after ∧ after.length ≤ 7 := by
  obtain ⟨before, after, split⟩ := List.append_of_mem (mem_allLanes l)
  have distinct : (before ++ l :: after).Nodup := split ▸ (by decide : allLanes.Nodup)
  have eight : (before ++ l :: after).length = 8 := split ▸ (by decide : allLanes.length = 8)
  rw [List.nodup_middle, List.nodup_cons, List.mem_append, not_or] at distinct
  rw [List.length_append, List.length_cons] at eight
  exact ⟨before, after, split, distinct.1.1, distinct.1.2, by omega⟩

theorem forLanes_split (f : LaneNo → State → State) {before after : List LaneNo} {l : LaneNo}
    (split : allLanes = before ++ l :: after) (s : State) :
    forLanes f s = after.foldl (fun t k => f k t) (f l (before.foldl (fun t k => f k t) s)) := by
  unfold forLanes
  rw [split, List.foldl_append, List.foldl_cons]

end Sys2Proof.SegmentTracking
end

section
/-! PROOFS. The verdict log behind a verdict (R98, R99), and what the entry to CONFIG enters in it (R90, R91). -/

namespace Sys2Proof.SegmentTracking

open Sys2Proof.Machine Sys2Proof.Laws Sys2Proof.Lanes

/-! ### The newest verdicts -/

/-- A verdict is in the log, with at most `n` newer ones. -/
def Recent (v : Verdict) (n : Nat) (log : List Verdict) : Prop :=
  ∃ older newer, log = older ++ v :: newer ∧ newer.length ≤ n

theorem Recent.mem {v : Verdict} {n : Nat} {log : List Verdict} (h : Recent v n log) : v ∈ log := by
  obtain ⟨older, newer, rfl, -⟩ := h
  simp

theorem Recent.mono {v : Verdict} {m n : Nat} {log : List Verdict} (h : Recent v m log) (le : m ≤ n) : Recent v n log := by
  obtain ⟨older, newer, is, few⟩ := h
  exact ⟨older, newer, is, few.trans le⟩

/-- The verdict that is entered is the newest. -/
theorem recent_append_self (v : Verdict) (log : List Verdict) : Recent v 0 (appendVerdict log v) := by
  refine ⟨log.drop (log.length + 1 - 128), [], ?_, Nat.le_refl _⟩
  unfold appendVerdict
  rw [List.length_append, List.length_singleton, List.drop_append_of_le_length (by omega)]

/-- One of the newest 127 stays when another is entered. -/
theorem Recent.append {v : Verdict} {n : Nat} {log : List Verdict} (h : Recent v n log) (few : n < 127) (w : Verdict) :
    Recent v (n + 1) (appendVerdict log w) := by
  obtain ⟨older, newer, rfl, le⟩ := h
  refine ⟨older.drop ((older ++ v :: newer ++ [w]).length - 128), newer ++ [w], ?_, ?_⟩
  · unfold appendVerdict
    rw [List.append_assoc, List.cons_append, List.drop_append_of_le_length]
    simp only [List.length_append, List.length_cons, List.length_nil]
    omega
  · rw [List.length_append, List.length_singleton]
    omega

/-! ### A lane at the entry to CONFIG (R90) -/

theorem modeStep_unwatch (l : LaneNo) (closeTime : Time) (s : State) : ModeStep [l] s (s.unwatch l closeTime) := by
  unfold State.unwatch
  split
  · exact .refl [l] s
  · next w h =>
    have settles (post : Nat) := ((aside_settleOpen closeTime post w.deadAir.finding
      (s.modCm l (fun c => { c with watched := none }))).trans (aside_settleOpen closeTime post w.captionGap.finding _)).trans
      (aside_settleOpen closeTime post w.stCeiling.finding _)
    exact (modeStep_modCm l _ s).trans (Aside.modeStep (settles _) [l])

theorem modeStep_closeSegment (l : LaneNo) (cause : CloseCause) (s : State) : ModeStep [l] s (s.closeSegment l cause) := by
  cases h : s.st[l].seg with
  | none =>
    rw [closeSegment_none l cause s h]
    exact .refl [l] s
  | some g =>
    have enters (x : Verdicts) : ModeStep [l] s (withVerdicts x s) := { ModeStep.refl [l] s with notice := fun _ => rfl }
    have judges : ModeStep [l] s (judged l cause g s) :=
      (enters _).trans (Aside.modeStep (handVerdict_spec l g (closingVerdict l cause g s) _ _).1 [l])
    rw [closeSegment_eq l cause g s h]
    exact ((judges.trans (modeStep_modSt l _ _)).trans (modeStep_unwatch l _ _)).trans (Aside.modeStep (aside_allocate _) [l])

theorem laneToConfig_eq (l : LaneNo) (s : State) : s.laneToConfig l
    = (s.closeSegment l .configEntry).modSt l (fun x => { x with remembered := s.st[l].seg.map SegCtx.ident }) := rfl

theorem modeStep_laneToConfig (l : LaneNo) (s : State) : ModeStep [l] s (s.laneToConfig l) := by
  rw [laneToConfig_eq]
  exact (modeStep_closeSegment l .configEntry s).trans (modeStep_modSt l _ _)

/-- A lane without a segment remembers none. -/
theorem laneToConfig_idle (l : LaneNo) (s : State) (h : s.st[l].seg = none) :
    s.laneToConfig l = s.modSt l (fun x => { x with remembered := none }) := by
  rw [laneToConfig_eq, closeSegment_none l .configEntry s h, h]
  rfl

/-- A close for the entry to CONFIG is not judged (R88, R91). -/
theorem configEntry_judgement (l : LaneNo) (g : SegCtx) (s : State) : judgement l .configEntry g s = none := rfl

theorem configEntry_reference (kind : SegKind) (new old : Option Int) :
    referenceAfter .configEntry kind new old = old := by
  simp [referenceAfter, CloseCause.judges]

/-- A lane's Segment Tracker at the entry to CONFIG: no segment, its identity remembered, the reference as it was. -/
theorem laneToConfig_st (l : LaneNo) (s : State) :
    (s.laneToConfig l).st[l] = { s.st[l] with seg := none, remembered := s.st[l].seg.map SegCtx.ident } := by
  cases h : s.st[l].seg with
  | none =>
    rw [laneToConfig_idle l s h, modSt_st]
    generalize s.st[l] = x at h ⊢
    cases x
    cases h
    rfl
  | some g =>
    obtain ⟨-, st, -⟩ := closeSegment_some l .configEntry g s h
    rw [laneToConfig_eq, modSt_st, st, h, segmentClosed, configEntry_reference]

/-- The verdict log behind a lane's entry to CONFIG. -/
theorem laneToConfig_verdicts (l : LaneNo) (g : SegCtx) (s : State) (h : s.st[l].seg = some g) :
    (s.laneToConfig l).verdicts.log = appendVerdict s.verdicts.log (closingVerdict l .configEntry g s) ∧
    (s.laneToConfig l).verdicts.next = nextVerdictSeq s.verdicts.next ∧
    (s.laneToConfig l).notices.verdict = true ∧ (s.laneToConfig l).cm[l].watched = none := by
  obtain ⟨-, -, log, notice, watched, -⟩ := closeSegment_some l .configEntry g s h
  have verdicts : (s.laneToConfig l).verdicts = _ := log
  exact ⟨by rw [verdicts], by rw [verdicts], notice, watched⟩

/-- A verdict stays in the log while fewer than 127 lanes enter CONFIG behind it. -/
theorem recent_lanesToConfig {v : Verdict} : ∀ (ls : List LaneNo) (n : Nat) (s : State), n + ls.length ≤ 127 →
    Recent v n s.verdicts.log →
    Recent v (n + ls.length) (ls.foldl (fun (t : State) k => t.laneToConfig k) s).verdicts.log
  | [], _, _, _, h => h
  | l :: ls, n, s, few, h => by
    rw [List.length_cons] at few ⊢
    have one : Recent v (n + 1) (s.laneToConfig l).verdicts.log := by
      cases seg : s.st[l].seg with
      | none =>
        rw [laneToConfig_idle l s seg]
        exact h.mono (Nat.le_succ n)
      | some g =>
        rw [(laneToConfig_verdicts l g s seg).1]
        exact h.append (by omega) _
    rw [List.foldl_cons, show n + (ls.length + 1) = n + 1 + ls.length by omega]
    exact recent_lanesToConfig ls (n + 1) _ (by omega) one

/-- Lanes without a segment enter no verdict, and no lane's segment is touched. -/
theorem lanesToConfig_idle : ∀ (ls : List LaneNo) (s : State), (∀ k ∈ ls, s.st[k].seg = none) →
    let t := ls.foldl (fun (t : State) k => t.laneToConfig k) s
    t.verdicts = s.verdicts ∧ ∀ k : LaneNo, t.st[k].seg = s.st[k].seg
  | [], _, _ => ⟨rfl, fun _ => rfl⟩
  | l :: ls, s, idle => by
    have own := idle l List.mem_cons_self
    have segs (k : LaneNo) : (s.laneToConfig l).st[k].seg = s.st[k].seg := by
      by_cases e : k = l
      · rw [e, laneToConfig_st, own]
      · rw [(modeStep_laneToConfig l s).st k (by simpa using e)]
    obtain ⟨verdicts, rest⟩ := lanesToConfig_idle ls (s.laneToConfig l)
      (fun k hk => (segs k).trans (idle k (List.mem_cons_of_mem l hk)))
    refine ⟨verdicts.trans ?_, fun k => (rest k).trans (segs k)⟩
    rw [laneToConfig_idle l s own]
    rfl

/-! ### The eight lanes at the entry to CONFIG -/

/-- An UNJUDGED verdict of a segment that the entry to CONFIG at a time closes. -/
structure EntryVerdict (l : LaneNo) (g : SegCtx) (time : Time) (v : Verdict) : Prop where
  lane : v.lane = l
  ident : v.ident = g.ident
  cause : v.cause = .configEntry
  outcome : v.outcome = .unjudged
  checks : v.checks = none
  openTime : v.openTime = g.openTime
  closeTime : v.closeTime = time
  tiles : v.tiles = g.tiles

theorem closingVerdict_entry (l : LaneNo) (g : SegCtx) (s : State) :
    EntryVerdict l g s.station (closingVerdict l .configEntry g s) := by
  unfold closingVerdict
  rw [configEntry_judgement]
  exact ⟨rfl, rfl, rfl, rfl, rfl, rfl, rfl, rfl⟩

/-- What the entry to CONFIG at `s` has made of a lane in `t`. -/
structure LaneEntered (l : LaneNo) (s t : State) : Prop where
  st : t.st[l] = { s.st[l] with seg := none, remembered := s.st[l].seg.map SegCtx.ident }
  unwatched : s.st[l].seg.isSome → t.cm[l].watched = none
  verdict : ∀ g : SegCtx, s.st[l].seg = some g → t.notices.verdict = true ∧
    ∃ v ∈ t.verdicts.log, EntryVerdict l g s.station v ∧
      ((∀ k : LaneNo, k ≠ l → s.st[k].seg = none) →
        v.seq = s.verdicts.next ∧ t.verdicts.next = nextVerdictSeq s.verdicts.next)

/-- Each lane enters by its own step, which those of the lanes before it and behind it leave alone. -/
theorem lanesToConfig_lane (s : State) (l : LaneNo) : LaneEntered l s (forLanes State.laneToConfig s) := by
  obtain ⟨before, after, split, notBefore, notAfter, few⟩ := allLanes_split l
  rw [forLanes_split State.laneToConfig split s]
  have first := modeStep_foldl modeStep_laneToConfig before s
  have second := modeStep_foldl modeStep_laneToConfig after ((before.foldl (fun t k => t.laneToConfig k) s).laneToConfig l)
  have idle (alone : ∀ k : LaneNo, k ≠ l → s.st[k].seg = none) :=
    lanesToConfig_idle before s fun k hk => alone k fun e => notBefore (e ▸ hk)
  have own := first.st l notBefore
  generalize before.foldl (fun (t : State) k => t.laneToConfig k) s = u at first second idle own ⊢
  have st := laneToConfig_st l u
  rw [own] at st
  refine ⟨(second.st l notAfter).trans st, fun opened => ?_, fun g seg => ?_⟩
  · obtain ⟨g, seg⟩ := Option.isSome_iff_exists.mp opened
    exact (second.watched l notAfter).trans (laneToConfig_verdicts l g u (own ▸ seg)).2.2.2
  · obtain ⟨log, next, notice, -⟩ := laneToConfig_verdicts l g u (own ▸ seg)
    have newest : Recent (closingVerdict l .configEntry g u) 0 (u.laneToConfig l).verdicts.log := by
      rw [log]
      exact recent_append_self _ _
    refine ⟨second.notice notice, _, (recent_lanesToConfig after 0 _ (by omega) newest).mem,
      first.station ▸ closingVerdict_entry l g u, fun alone => ?_⟩
    obtain ⟨verdicts, segs⟩ := idle alone
    have behind (k : LaneNo) (hk : k ∈ after) : (u.laneToConfig l).st[k].seg = none := by
      have other : k ≠ l := fun e => notAfter (e ▸ hk)
      rw [(modeStep_laneToConfig l u).st k (by simpa using other)]
      exact (segs k).trans (alone k other)
    rw [(lanesToConfig_idle after _ behind).1, next, ← verdicts]
    exact ⟨rfl, rfl⟩

end Sys2Proof.SegmentTracking
end

section
/-! PROOFS. CONF (R90, R91, R123): the lines at the entry to CONFIG, and the statement. -/

namespace Sys2Proof.SegmentTracking

open Sys2Proof.Machine Sys2Proof.Laws Sys2Proof.Lanes Sys2Proof.LoudnessEngine

/-! ### The CONFIG pattern (R123 step 4) -/

theorem showConfigPattern_steady {s : State} (h : s.alarm.inForce = .steady) : s.showConfigPattern
    = { s with alarm := s.alarm.show (steadyLines s.alarm.overall (s.someLane .alert)) } := by
  unfold State.showConfigPattern
  dsimp only
  rw [h]

theorem showConfigPattern_paired {s : State} (h : s.alarm.inForce = .paired) : s.showConfigPattern
    = { s with alarm := { s.alarm.show (false, false) with swap := none } } := by
  unfold State.showConfigPattern
  dsimp only
  rw [h]

/-- Under either protocol only the lines and the swap timer are given their values. -/
theorem showConfigPattern_shape (s : State) : ∃ a : Alarm, s.showConfigPattern = { s with alarm := a } ∧
    a.mode = s.alarm.mode ∧ a.configTimer = s.alarm.configTimer := by
  cases h : s.alarm.inForce with
  | steady => exact ⟨_, showConfigPattern_steady h, rfl, rfl⟩
  | paired => exact ⟨_, showConfigPattern_paired h, rfl, rfl⟩

/-! ### The entry to CONFIG -/

/-- Steps 1 and 2 of the entry: CONFIG, with the config timer started. -/
def configBegun (s : State) : State :=
  { s with alarm := { s.alarm with
    mode := .config, configTimer := .running (s.clock + 1000 * s.settings.configTimeout) } }

theorem enterConfig_eq (s : State) :
    s.enterConfig = (forLanes State.laneToConfig (configBegun s)).showConfigPattern := rfl

/-- The part in CONFIG that it has just entered at `s`. -/
structure EnteredConfig (s t : State) : Prop where
  mode : t.alarm.mode = .config
  configTimer : t.alarm.configTimer = .running (s.clock + 1000 * s.settings.configTimeout)
  lanes : ∀ l : LaneNo, LaneEntered l s t
  paired : s.alarm.inForce = .paired → t.alarm.lineA = false ∧ t.alarm.lineB = false ∧ t.alarm.swap = none
  steady : s.alarm.inForce = .steady →
    (t.alarm.lineA, t.alarm.lineB) = steadyLines t.alarm.overall (t.someLane .alert)
  settings : t.settings = s.settings
  station : t.station = s.station
  le : t.le = s.le
  cc : t.cc = s.cc
  slots : t.slots = s.slots

theorem enterConfig_entered (s : State) : EnteredConfig s s.enterConfig := by
  have steps : ModeStep allLanes (configBegun s) (forLanes State.laneToConfig (configBegun s)) :=
    modeStep_foldl modeStep_laneToConfig allLanes (configBegun s)
  have lanes := lanesToConfig_lane (configBegun s)
  rw [enterConfig_eq]
  generalize forLanes State.laneToConfig (configBegun s) = u at steps lanes
  have paired (h : s.alarm.inForce = .paired) : u.showConfigPattern.alarm.lineA = false ∧
      u.showConfigPattern.alarm.lineB = false ∧ u.showConfigPattern.alarm.swap = none := by
    rw [showConfigPattern_paired (steps.inForce.trans h)]
    exact ⟨rfl, rfl, rfl⟩
  have steady (h : s.alarm.inForce = .steady) : (u.showConfigPattern.alarm.lineA, u.showConfigPattern.alarm.lineB)
      = steadyLines u.showConfigPattern.alarm.overall (u.showConfigPattern.someLane .alert) := by
    rw [showConfigPattern_steady (steps.inForce.trans h)]
    rfl
  obtain ⟨a, shape, mode, timer⟩ := showConfigPattern_shape u
  rw [shape] at paired steady ⊢
  exact ⟨mode.trans steps.mode, timer.trans steps.configTimer,
    fun l => ⟨(lanes l).st, (lanes l).unwatched, (lanes l).verdict⟩, paired, steady, steps.settings, steps.station, steps.le,
    steps.cc, steps.slots⟩

/-! ### The request (R123) -/

theorem handleConf_enters {s : State} (known : s.settingsKnown = true) (run : s.alarm.mode = .run) :
    handleConf s = (⟨.ok, s.enterConfig.configTimerBytes⟩, s.enterConfig) := by
  simp [handleConf, known, run]

theorem handleConf_again {s : State} (known : s.settingsKnown = true) (config : s.alarm.mode = .config) :
    handleConf s = (⟨.ok, s.configTimerBytes⟩, s) := by
  simp [handleConf, known, config]

theorem exec_conf (q : Byte) (s : State) : exec (.conf q) s = .next (s.begin.serve q .conf handleConf) := rfl

/-- Settles O22: in RUN by the steps of the entry, lane by lane; in CONFIG the handler only answers. -/
theorem confEntersConfig : Obligations.ConfEntersConfig := by
  unfold Obligations.ConfEntersConfig
  intro q s ready known
  rw [exec_conf]
  refine ⟨fun run => ?_, fun config => ?_⟩
  · have entered := enterConfig_entered (working q .conf s)
    rw [serve_ready q .conf _ s ready, handleConf_enters (s := working q .conf s) known run]
    generalize (working q .conf s).enterConfig = t at entered
    obtain ⟨mode, timer, lanes, paired, steady, settings, station, le, cc, slots⟩ := entered
    refine ⟨_, rfl, mode, timer, fun l => ?_, paired, steady, putReply_waits _ _ _ _, settings, station, le, cc, slots⟩
    obtain ⟨st, unwatched, verdict⟩ := lanes l
    refine ⟨congrArg StLane.seg st, congrArg StLane.remembered st, unwatched, (congrArg StLane.reference st :), fun g seg => ?_⟩
    obtain ⟨notice, v, logged, entry, alone⟩ := verdict g seg
    exact ⟨notice, v, logged, entry.lane, entry.ident, entry.cause, entry.outcome, entry.checks, entry.openTime,
      entry.closeTime, entry.tiles, alone⟩
  · rw [serve_answered ready (handleConf_again (s := working q .conf s) known config)]
    rfl

end Sys2Proof.SegmentTracking
end

section
/-! PROOFS. Notices beside those of findings: whatever findings are created, changed or settled, and whatever attempts the
boundary of an event makes, only FINDING notices and LOG_FULL are set (R107, R117, R192). -/

namespace Sys2Proof.SegmentTracking

open Sys2Proof.Machine Sys2Proof.Laws Sys2Proof.Lanes

/-- The notices that findings set are left out. -/
def besideFindings (n : Notices) : Notices :=
  { n with finding := Vector.replicate 8 false, deviceFinding := false, logFull := false }

/-! ### Records and findings -/

theorem archive_notices (l : LaneNo) (kind : Byte) (time : Time) (content : List Byte) (s : State) :
    (s.archive l kind time content).notices = s.notices := by
  have report (t : State) : (t.reportBuffers l).notices = t.notices := by
    unfold State.reportBuffers
    repeat' split
    all_goals rfl
  unfold State.archive
  split
  · rfl
  · split
    · rfl
    · exact report _

theorem announce_besideFindings (f : Finding) (time : Time) (s : State) :
    besideFindings (s.announce f time).notices = besideFindings s.notices := by
  have tail (t : State) : besideFindings (t.raiseFinding f.lane).reassess.notices = besideFindings t.notices := by
    obtain ⟨a, shape⟩ := reassess_shape (t.raiseFinding f.lane)
    rw [shape]
    cases f.lane <;> rfl
  unfold State.announce
  dsimp only
  split
  · rw [tail, archive_notices]
  · exact tail s

theorem enterFinding_besideFindings (f : Finding) (s : State) :
    besideFindings (s.enterFinding f).notices = besideFindings s.notices := by
  unfold State.enterFinding
  split <;> rfl

theorem createFinding_besideFindings (d : Draft) (ask : Option HoldAsk) (s : State) :
    besideFindings (s.createFinding d ask).2.notices = besideFindings s.notices := by
  obtain ⟨h, x, shape⟩ := holdFor_shape ask (unheldOf d s.dev.nextId) (issued s)
  rw [(createFinding_eq d ask s).2, announce_besideFindings, enterFinding_besideFindings, shape]
  rfl

theorem settleOpen_besideFindings (time : Time) (postRoll : Nat) (f : Option Finding) (s : State) :
    besideFindings (s.settleOpen time postRoll f).notices = besideFindings s.notices := by
  have change (f : Finding) (t : State) : besideFindings (t.changeFinding f time).notices = besideFindings t.notices := by
    unfold State.changeFinding
    rw [announce_besideFindings]
    split <;> rfl
  have ends (f : Finding) : (s.endHoldOf f time postRoll).notices = s.notices := by
    unfold State.endHoldOf State.setHoldEnd
    repeat' split
    all_goals rfl
  unfold State.settleOpen State.settleFinding
  split
  · split
    · exact change _ s
    · rw [change, ends]
    · rfl
    · rfl
  · rfl

/-! ### The boundary of an event -/

theorem besideFindings_steady (n : Notices) (l : LaneNo) : Steady l (fun s => besideFindings s.notices = n) where
  ac _ _ h := h
  rest _ _ _ _ _ _ h := h
  openStalled s h := by
    unfold State.openStalled
    split
    · exact h
    · exact (createFinding_besideFindings _ _ s).trans h
  endStalled _ h := (settleOpen_besideFindings _ _ _ _).trans h
  openShort s h := by
    unfold State.openShort
    split
    · exact h
    · exact (createFinding_besideFindings _ _ s).trans h
  endShort _ h := (settleOpen_besideFindings _ _ _ _).trans h

theorem allocate_besideFindings (s : State) : besideFindings s.allocate.notices = besideFindings s.notices :=
  steady_allocateN (I := fun t => besideFindings t.notices = besideFindings s.notices)
    (fun _ l _ _ => besideFindings_steady _ l) (fun _ _ _ h => h) 20 s rfl

end Sys2Proof.SegmentTracking
end

section
/-! PROOFS. A finding of ADVISORY leaves the monitor statuses and the lines (R106, R117, R120, R130): neither it nor the record
that makes room for it counts for a status. -/

namespace Sys2Proof.SegmentTracking

open Sys2Proof.Machine Sys2Proof.Laws Sys2Proof.Lanes

/-! ### The statuses of a log (R120) -/

/-- A record that can make room counts for no status. -/
theorem removable_counts_not {f : Finding} (h : f.removable = true) : f.breaches = false ∧ f.alerts = false := by
  rcases (removable_iff f).mp h with withdrawn | ⟨ended, acked⟩
  · simp [Finding.breaches, Finding.alerts, withdrawn]
  · simp [Finding.breaches, Finding.alerts, ended, acked]

/-- An ADVISORY finding counts for no status. -/
theorem advisory_counts_not {f : Finding} (h : f.severity = .advisory) : f.breaches = false ∧ f.alerts = false := by
  simp [Finding.breaches, Finding.alerts, h]

/-- What neither the erased record nor the new one has, the log has as before. -/
theorem any_logWith {q : Finding → Bool} {log log' : List Finding} {f : Finding} (takes : logWith log f = some log')
    (new : q f = false) (erased : ∀ g : Finding, g.removable = true → q g = false) : log'.any q = log.any q := by
  have erase : ∀ log : List Finding, (log.eraseP Finding.removable).any q = log.any q := fun log => by
    induction log with
    | nil => rfl
    | cons g rest ih =>
      by_cases goes : g.removable = true
      · rw [List.eraseP_cons_of_pos goes, List.any_cons, erased g goes, Bool.false_or]
      · rw [List.eraseP_cons_of_neg goes, List.any_cons, List.any_cons, ih]
  unfold logWith at takes
  split at takes
  · cases takes
  · split at takes
    · cases takes
      simp [new]
    · split at takes
      · cases takes
        simp [new, erase]
      · cases takes

theorem statusOf_logWith {log log' : List Finding} {f : Finding} (takes : logWith log f = some log')
    (advisory : f.severity = .advisory) (lane : Option LaneNo) : statusOf log' lane = statusOf log lane := by
  have counted (q : Finding → Bool) (new : q f = false) (erased : ∀ g : Finding, g.removable = true → q g = false) :
      (log'.filter (fun g => g.lane == lane)).any q = (log.filter (fun g => g.lane == lane)).any q := by
    rw [List.any_filter, List.any_filter]
    exact any_logWith takes (by simp [new]) (fun g goes => by simp [erased g goes])
  obtain ⟨breaches, alerts⟩ := advisory_counts_not advisory
  unfold statusOf
  dsimp only
  rw [counted Finding.breaches breaches fun g goes => (removable_counts_not goes).1,
    counted Finding.alerts alerts fun g goes => (removable_counts_not goes).2]

/-- An ADVISORY finding that enters the log, or does not, leaves the statuses those that the log gives. -/
theorem enterFinding_statusesFollow {f : Finding} {s : State} (h : s.statusesFollow) (advisory : f.severity = .advisory) :
    (s.enterFinding f).statusesFollow := by
  cases takes : logWith s.dev.log f with
  | none =>
    rw [enterFinding_refused takes]
    exact ⟨h.lanes, h.device, h.overall⟩
  | some log =>
    rw [enterFinding_of_log takes]
    have same := statusOf_logWith takes advisory
    exact ⟨fun l => (h.lanes l).trans (same (some l)).symm, h.device.trans (same none).symm, h.overall⟩

/-! ### Lines that show the statuses already -/

/-- Under STEADY the lines show the overall status. -/
def ShowsSteady (s : State) : Prop :=
  s.alarm.inForce = .steady → (s.alarm.lineA, s.alarm.lineB) = steadyLines s.alarm.overall (s.someLane .alert)

/-- An overall status that is delivered again moves no line. -/
theorem driveLines_same {s : State} (overall : s.alarm.overall = s.overallOf) (shows : ShowsSteady s) :
    s.driveLines = s := by
  have again : ({ s.alarm with overall := s.overallOf } : Alarm) = s.alarm := by rw [← overall]
  have still : s.alarm.pairedChange s.clock s.alarm.overall s.overallOf = s.alarm := if_pos overall
  unfold State.driveLines
  dsimp only
  rw [again]
  split
  · rfl
  · split
    · next steady =>
      rw [← overall, ← shows steady]
      rfl
    · split
      · rfl
      · rw [still]

/-- Statuses that follow from the log are the same when they are re-evaluated. -/
theorem reassess_same {s : State} (h : s.statusesFollow) (shows : ShowsSteady s) : s.reassess = s := by
  have lanes : restated s.dev.log s.cm = s.cm := by
    refine Vector.ext fun i hi => ?_
    have lane := restated_lane s.dev.log s.cm ⟨i, hi⟩
    rw [← h.lanes ⟨i, hi⟩] at lane
    exact lane
  have device : ({ s.dev with status := statusOf s.dev.log none } : CmDevice) = s.dev := by rw [← h.device]
  have evaluated : s.reassess = State.driveLines { s with
    cm := restated s.dev.log s.cm, dev := { s.dev with status := statusOf s.dev.log none } } := rfl
  rw [evaluated, lanes, device]
  exact driveLines_same h.overall shows

end Sys2Proof.SegmentTracking
end

section
/-! PROOFS. The exit from CONFIG (R90, R126): each remembered identity opens a continuation, and the lines take the RUN pattern. -/

namespace Sys2Proof.SegmentTracking

open Sys2Proof.Machine Sys2Proof.Laws Sys2Proof.Lanes

/-! ### A lane at the exit (R90) -/

theorem laneToRun_none {l : LaneNo} {s : State} (h : s.st[l].remembered = none) : s.laneToRun l = s := by
  unfold State.laneToRun
  rw [h]

theorem laneToRun_some {l : LaneNo} {s : State} {ident : Identity} (h : s.st[l].remembered = some ident) :
    s.laneToRun l = (s.openSegment l ident true).modSt l (fun x => { x with remembered := none }) := by
  unfold State.laneToRun
  rw [h]

theorem modeStep_openSegment (l : LaneNo) (ident : Identity) (continuation : Bool) (s : State) :
    ModeStep [l] s (s.openSegment l ident continuation) := by
  unfold State.openSegment State.watch
  exact (modeStep_modSt l _ s).trans (modeStep_modCm l _ _)

theorem modeStep_laneToRun (l : LaneNo) (s : State) : ModeStep [l] s (s.laneToRun l) := by
  cases h : s.st[l].remembered with
  | none =>
    rw [laneToRun_none h]
    exact .refl [l] s
  | some ident =>
    rw [laneToRun_some h]
    exact (modeStep_openSegment l ident true s).trans (modeStep_modSt l _ _)

/-- What the exit from CONFIG at `s` has made of a lane in `t`. -/
structure LaneLeft (l : LaneNo) (s t : State) : Prop where
  opened : ∀ ident : Identity, s.st[l].remembered = some ident →
    t.st[l].seg = some (.opened ident (s.settings.ruleMap[l].entry ident.kind) true s.station) ∧
    t.cm[l].watched = some ⟨ident, s.settings.ruleMap[l].entry ident.kind, .fresh, .fresh, .fresh⟩
  forgotten : t.st[l].remembered = none
  idle : s.st[l].remembered = none → t.st[l] = s.st[l] ∧ t.cm[l].watched = s.cm[l].watched

/-- What lies aside of the exit leaves its lanes as they are. -/
theorem LaneLeft.aside {l : LaneNo} {s t u : State} (h : LaneLeft l s t) (a : Aside t u) : LaneLeft l s u := by
  obtain ⟨opened, forgotten, idle⟩ := h
  rw [← a.kept.st] at opened forgotten idle
  rw [← a.beside.watched l] at opened idle
  exact ⟨opened, forgotten, idle⟩

theorem laneToRun_left (l : LaneNo) (s : State) : LaneLeft l s (s.laneToRun l) := by
  cases h : s.st[l].remembered with
  | none =>
    rw [laneToRun_none h]
    exact ⟨fun _ some_ => (nomatch h.symm.trans some_), h, fun _ => ⟨rfl, rfl⟩⟩
  | some ident =>
    obtain ⟨-, st, watched, -⟩ := openSegment_spec l ident true s
    have own := modSt_st l (fun x => { x with remembered := none }) (s.openSegment l ident true)
    rw [laneToRun_some h]
    refine ⟨fun other same => ?_, congrArg StLane.remembered own, fun none_ => (nomatch h.symm.trans none_)⟩
    obtain rfl : ident = other := Option.some.inj (h.symm.trans same)
    exact ⟨(congrArg StLane.seg own).trans (congrArg StLane.seg st), watched⟩

/-- Each lane leaves by its own step. -/
theorem lanesToRun_lane (s : State) (l : LaneNo) : LaneLeft l s (forLanes State.laneToRun s) := by
  obtain ⟨before, after, split, notBefore, notAfter, -⟩ := allLanes_split l
  rw [forLanes_split State.laneToRun split s]
  have first := modeStep_foldl modeStep_laneToRun before s
  generalize before.foldl (fun (t : State) k => t.laneToRun k) s = u at first ⊢
  have second := modeStep_foldl modeStep_laneToRun after (u.laneToRun l)
  generalize after.foldl (fun (t : State) k => t.laneToRun k) (u.laneToRun l) = t at second ⊢
  have own := laneToRun_left l u
  have st := first.st l notBefore
  have watched := first.watched l notBefore
  obtain ⟨opened, forgotten, idle⟩ := own
  rw [st, first.settings, first.station] at opened
  rw [st, watched] at idle
  have st := second.st l notAfter
  have watched := second.watched l notAfter
  rw [← st, ← watched] at opened idle
  rw [← st] at forgotten
  exact ⟨opened, forgotten, idle⟩

/-! ### The part at the exit -/

/-- Two conditions of the lanes that show the same statuses. -/
def SameStatuses (before after : Vector CmLane 8) : Prop := ∀ k : LaneNo, after[k].status = before[k].status

theorem sameStatuses_set (cm : Vector CmLane 8) (l : LaneNo) {x : CmLane} (h : x.status = cm[l].status) :
    SameStatuses cm (cm.set l x) := by
  intro k
  by_cases e : k = l
  · rw [e, lane_set_self, h]
  · rw [lane_set_ne _ _ e]

/-- The Segment Trackers and the watched segments, of the same statuses, are all that the lanes change. -/
theorem laneToRun_shape (l : LaneNo) (s : State) : ∃ (st : Vector StLane 8) (cm : Vector CmLane 8),
    s.laneToRun l = { s with st := st, cm := cm } ∧ SameStatuses s.cm cm := by
  cases h : s.st[l].remembered with
  | none => exact ⟨s.st, s.cm, laneToRun_none h, fun _ => rfl⟩
  | some ident => exact ⟨_, _, laneToRun_some h, sameStatuses_set s.cm l rfl⟩

theorem lanesToRun_shape : ∀ (ls : List LaneNo) (s : State), ∃ (st : Vector StLane 8) (cm : Vector CmLane 8),
    ls.foldl (fun (t : State) l => t.laneToRun l) s = { s with st := st, cm := cm } ∧ SameStatuses s.cm cm
  | [], s => ⟨s.st, s.cm, rfl, fun _ => rfl⟩
  | l :: ls, s => by
    obtain ⟨st, cm, one, same⟩ := laneToRun_shape l s
    obtain ⟨st', cm', rest, same'⟩ := lanesToRun_shape ls (s.laneToRun l)
    rw [one] at rest same'
    exact ⟨st', cm', by rw [List.foldl_cons, one, rest], fun k => (same' k).trans (same k)⟩

/-- What is asked of the statuses of the lanes is the same. -/
theorem someLane_same {s t : State} (h : SameStatuses s.cm t.cm) (x : Status) : t.someLane x = s.someLane x := by
  unfold State.someLane
  simp only [h _]

theorem overallOf_same {s t : State} (h : SameStatuses s.cm t.cm) (device : t.dev.status = s.dev.status) :
    t.overallOf = s.overallOf := by
  unfold State.overallOf
  rw [device, someLane_same h, someLane_same h]

/-- The lines show the RUN pattern of a protocol for an overall status, started at a time (R126 step 4, R131). -/
structure RunPattern (p : Protocol) (clock : Nat) (overall : Status) (laneAlert : Bool) (a : Alarm) : Prop where
  steady : p = .steady → (a.lineA, a.lineB) = steadyLines overall laneAlert ∧ a.swap = none
  pair : p = .paired → overall ≠ .breach →
    a.lineA = true ∧ a.lineB = false ∧ a.phase = .aHigh ∧ a.swap = some (clock + swapPeriod overall)
  breach : p = .paired → overall = .breach → a.lineA = true ∧ a.lineB = true ∧ a.swap = none

theorem startPaired_pattern (clock : Nat) (overall : Status) (laneAlert : Bool) (a : Alarm) :
    RunPattern .paired clock overall laneAlert (a.startPaired clock overall) := by
  cases overall with
  | normal => exact ⟨nofun, fun _ _ => ⟨rfl, rfl, rfl, rfl⟩, nofun⟩
  | alert => exact ⟨nofun, fun _ _ => ⟨rfl, rfl, rfl, rfl⟩, nofun⟩
  | breach => exact ⟨nofun, fun _ other => absurd rfl other, fun _ _ => ⟨rfl, rfl, rfl⟩⟩

theorem startPaired_keeps (clock : Nat) (overall : Status) (a : Alarm) :
    (a.startPaired clock overall).mode = a.mode ∧ (a.startPaired clock overall).configTimer = a.configTimer ∧
    (a.startPaired clock overall).inForce = a.inForce ∧ (a.startPaired clock overall).overall = a.overall := by
  cases overall <;> exact ⟨rfl, rfl, rfl, rfl⟩

/-- The lines take their RUN pattern, and the rest of the alarm stays. -/
theorem showRunPattern_pattern (s : State) : ∃ a : Alarm, s.showRunPattern = { s with alarm := a } ∧
    a.mode = s.alarm.mode ∧ a.configTimer = s.alarm.configTimer ∧ a.inForce = s.alarm.inForce ∧
    a.overall = s.alarm.overall ∧ RunPattern s.alarm.inForce s.clock s.alarm.overall (s.someLane .alert) a := by
  unfold State.showRunPattern
  dsimp only
  cases h : s.alarm.inForce with
  | steady => exact ⟨_, rfl, rfl, rfl, h, rfl, fun _ => ⟨rfl, rfl⟩, nofun, nofun⟩
  | paired =>
    have pattern := startPaired_pattern s.clock s.alarm.overall (s.someLane .alert) s.alarm
    obtain ⟨mode, timer, force, overall⟩ := startPaired_keeps s.clock s.alarm.overall s.alarm
    exact ⟨_, rfl, mode, timer, force.trans h, overall, pattern⟩

/-- The alarm in RUN, which has just been entered at `s`. -/
structure RunAlarm (s : State) (a : Alarm) : Prop where
  mode : a.mode = .run
  configTimer : a.configTimer = .stopped
  inForce : a.inForce = s.settings.protocolSet
  overall : a.overall = s.alarm.overall
  pattern : RunPattern s.settings.protocolSet s.clock s.alarm.overall (s.someLane .alert) a

/-- A RUN pattern under STEADY shows the statuses. -/
theorem RunAlarm.shows {s t : State} (h : RunAlarm s t.alarm) (same : SameStatuses s.cm t.cm) : ShowsSteady t := by
  intro steady
  rw [h.overall, someLane_same same]
  exact (h.pattern.steady (h.inForce.symm.trans steady)).1

/-- The part in RUN, which it has just entered at `s`. -/
structure LeftConfig (s t : State) : Prop where
  run : RunAlarm s t.alarm
  lanes : ∀ l : LaneNo, LaneLeft l s t
  statuses : SameStatuses s.cm t.cm
  dev : t.dev = s.dev
  ac : t.ac = s.ac
  attemptDue : t.attemptDue = s.attemptDue
  le : t.le = s.le
  cc : t.cc = s.cc
  settings : t.settings = s.settings
  verdicts : t.verdicts = s.verdicts

theorem leaveConfig_left (s : State) : LeftConfig s s.leaveConfig := by
  obtain ⟨st, cm, lanes, same⟩ := lanesToRun_shape allLanes s.toRun
  have left := lanesToRun_lane s.toRun
  have is : s.leaveConfig = (forLanes State.laneToRun s.toRun).showRunPattern := rfl
  rw [show forLanes State.laneToRun s.toRun = _ from lanes] at is left
  obtain ⟨a, shown, mode, timer, force, overall, pattern⟩ :=
    showRunPattern_pattern { s.toRun with st := st, cm := cm }
  rw [someLane_same (s := s) (t := { s.toRun with st := st, cm := cm }) same] at pattern
  rw [is, shown]
  exact
    { run := ⟨mode, timer, force, overall, pattern⟩
      lanes := fun l => ⟨(left l).opened, (left l).forgotten, (left l).idle⟩
      statuses := same
      dev := rfl
      ac := rfl
      attemptDue := rfl
      le := rfl
      cc := rfl
      settings := rfl
      verdicts := rfl }

/-- The exit leaves statuses that follow from the log, and lines that show them. -/
theorem LeftConfig.follows {s t : State} (h : LeftConfig s t) (before : s.statusesFollow) :
    t.statusesFollow ∧ ShowsSteady t := by
  refine ⟨⟨fun l => ?_, ?_, ?_⟩, h.run.shows h.statuses⟩
  · rw [h.dev]
    exact (h.statuses l).trans (before.lanes l)
  · rw [h.dev]
    exact before.device
  · rw [overallOf_same h.statuses (congrArg CmDevice.status h.dev)]
    exact h.run.overall.trans before.overall

end Sys2Proof.SegmentTracking
end

section
/-! PROOFS. The config timer's expiry (R127): the exit from CONFIG, CONFIG_TIMEOUT and its notice, and the statement. -/

namespace Sys2Proof.SegmentTracking

open Sys2Proof.Machine Sys2Proof.Laws Sys2Proof.Lanes

/-! ### CONFIG_TIMEOUT (R115) -/

theorem enterFinding_shape (f : Finding) (s : State) : ∃ (d : CmDevice) (n : Notices),
    s.enterFinding f = { s with dev := d, notices := n } := by
  unfold State.enterFinding
  split <;> exact ⟨_, _, rfl⟩

/-- CONFIG_TIMEOUT under the next id. -/
def configTimeout (s : State) : Finding := unheldOf (singleDraft none .configTimeout .advisory s.station) s.dev.nextId

theorem configTimeoutFinding_eq (s : State) :
    s.configTimeoutFinding = ((issued s).enterFinding (configTimeout s)).announce (configTimeout s) s.station := rfl

/-- A finding of DEVICE touches the log, the statuses, the lines and the notices. -/
theorem configTimeoutFinding_shape (s : State) : ∃ (cm : Vector CmLane 8) (d : CmDevice) (a : Alarm) (n : Notices),
    s.configTimeoutFinding = { s with cm := cm, dev := d, alarm := a, notices := n } ∧ n.deviceFinding = true := by
  obtain ⟨a, told⟩ := announce_device (f := configTimeout s) rfl s.station ((issued s).enterFinding (configTimeout s))
  obtain ⟨d, n, entered⟩ := enterFinding_shape (configTimeout s) (issued s)
  rw [configTimeoutFinding_eq, told, entered]
  exact ⟨_, _, _, _, rfl, rfl⟩

/-- CONFIG_TIMEOUT is ADVISORY: statuses that follow from the log stay, and so do lines that show them. -/
theorem configTimeoutFinding_alarm {s : State} (h : s.statusesFollow) (shows : ShowsSteady s) :
    s.configTimeoutFinding.alarm = s.alarm := by
  have follows : ((issued s).enterFinding (configTimeout s)).statusesFollow :=
    enterFinding_statusesFollow (s := issued s) ⟨h.lanes, h.device, h.overall⟩ rfl
  have told : s.configTimeoutFinding = (((issued s).enterFinding (configTimeout s)).raiseFinding none).reassess := rfl
  obtain ⟨d, n, entered⟩ := enterFinding_shape (configTimeout s) (issued s)
  rw [entered] at told follows
  have still := reassess_same (s := State.raiseFinding none { issued s with dev := d, notices := n })
    ⟨follows.lanes, follows.device, follows.overall⟩ shows
  rw [told, still]
  rfl

/-! ### The expiry (R127) -/

/-- The report of the expiry: CONFIG_TIMEOUT, and its notice. -/
def reported (s : State) : State := s.configTimeoutFinding.raiseConfigTimeout

theorem exec_configTimerExpiry_due {s : State} (due : s.alarm.configTimer.due s.clock = true) :
    exec .configTimerExpiry s = .next (reported s.begin.leaveConfig).allocate := by
  show Host.Outcome.next (if s.alarm.configTimer.due s.clock then s.begin.configExpired else s.begin) = _
  rw [if_pos due]
  rfl

theorem exec_configTimerExpiry_early {s : State} (early : s.alarm.configTimer.due s.clock = false) :
    exec .configTimerExpiry s = .next s.begin := by
  show Host.Outcome.next (if s.alarm.configTimer.due s.clock then s.begin.configExpired else s.begin) = _
  rw [if_neg (by rw [early]; exact Bool.false_ne_true)]

theorem reported_aside (s : State) : Aside s (reported s) := by
  have finding : Aside s s.configTimeoutFinding := aside_createFinding _ none s
  exact finding.trans ⟨kept_notices _ _, beside_of_louder ⟨fun _ => id, fun _ => id, id, id⟩ rfl rfl⟩

/-- Both notices are set, and stay so at the boundary of the event. -/
theorem reported_notices (s : State) :
    (reported s).allocate.notices.configTimeout = true ∧ (reported s).allocate.notices.deviceFinding = true := by
  obtain ⟨cm, d, a, n, shape, device⟩ := configTimeoutFinding_shape s
  have raised : (reported s).notices = { n with configTimeout := true } := by
    unfold reported
    rw [shape]
    rfl
  have stays : (reported s).allocate.notices.configTimeout = (reported s).notices.configTimeout :=
    (congrArg Notices.configTimeout (allocate_besideFindings (reported s)) :)
  refine ⟨?_, (aside_allocate _).beside.notices.device ?_⟩
  · rw [stays, raised]
  · rw [raised]
    exact device

/-- The report asks for no attempt. -/
theorem reported_settled {s : State} (h : s.settled) : (reported s).settled := by
  obtain ⟨cm, d, a, n, shape, -⟩ := configTimeoutFinding_shape s
  unfold reported
  rw [shape]
  exact settled_of_ac h rfl rfl

theorem reported_nextId (s : State) : (reported s).dev.nextId = nextFindingId s.dev.nextId :=
  createFinding_nextId _ none s

theorem reported_alarm {s : State} (h : s.statusesFollow) (shows : ShowsSteady s) : (reported s).alarm = s.alarm :=
  configTimeoutFinding_alarm h shows

/-- Settles O33: the exit from CONFIG, which neither the report nor the boundary of the event undoes. -/
theorem configTimerExpiryLeavesConfig : Obligations.ConfigTimerExpiryLeavesConfig := by
  unfold Obligations.ConfigTimerExpiryLeavesConfig
  refine fun s => ⟨fun due => ?_, fun early => exec_configTimerExpiry_early early⟩
  have left := leaveConfig_left s.begin
  rw [exec_configTimerExpiry_due due]
  generalize s.begin.leaveConfig = u at left ⊢
  have behind := (reported_aside u).trans (aside_allocate (reported u))
  have still (h : s.settled) : (reported u).allocate = reported u :=
    allocate_of_settled _ (reported_settled (settled_of_ac h left.attemptDue left.ac))
  have lane (l : LaneNo) := (left.lanes l).aside behind
  obtain ⟨timeout, device⟩ := reported_notices u
  refine ⟨_, rfl, behind.kept.mode.trans left.run.mode, behind.kept.configTimer.trans left.run.configTimer,
    behind.kept.inForce.trans left.run.inForce, timeout, device, fun l ident remembered => ?_,
    fun l => ⟨(lane l).forgotten, fun none_ => ?_⟩, fun h => ?_, fun h follows => ?_, behind.kept.le.trans left.le,
    behind.kept.cc.trans left.cc, behind.kept.settings.trans left.settings, behind.kept.verdicts.trans left.verdicts⟩
  · obtain ⟨seg, watched⟩ := (lane l).opened ident remembered
    exact ⟨seg, fun _ => watched⟩
  · obtain ⟨same, watched⟩ := (lane l).idle none_
    exact ⟨same, fun _ => watched⟩
  · rw [still h, reported_nextId, left.dev]
    rfl
  · obtain ⟨statuses, shows⟩ := left.follows ⟨follows.lanes, follows.device, follows.overall⟩
    rw [still h, reported_alarm statuses shows]
    exact ⟨left.run.overall, left.run.pattern.steady, left.run.pattern.pair, left.run.pattern.breach⟩

end Sys2Proof.SegmentTracking
end

section
/-! PROOFS. What keeps the two invariants of the Compliance Monitor, the statuses that the finding log gives (R120, R130) and
the owner of every kept finding (R108, R114, R115): whatever leaves the monitor alone, and each operation on findings, lane
conditions and attempts. -/

namespace Sys2Proof.Findings

open Sys2Proof.Machine Sys2Proof.Laws Sys2Proof.Lanes Sys2Proof.SegmentTracking

/-! ### The relation -/

/-- `t` meets what `s` meets of the two invariants of the Compliance Monitor. -/
structure Keeps (s t : State) : Prop where
  statuses : s.statusesFollow → t.statusesFollow
  owned : s.findingsOwned → t.findingsOwned

theorem Keeps.refl (s : State) : Keeps s s := ⟨id, id⟩

theorem Keeps.trans {s t u : State} (a : Keeps s t) (b : Keeps t u) : Keeps s u :=
  ⟨b.statuses ∘ a.statuses, b.owned ∘ a.owned⟩

theorem Keeps.foldl {α : Type} (f : State → α → State) (h : ∀ s x, Keeps s (f s x)) :
    ∀ (xs : List α) (s : State), Keeps s (xs.foldl f s)
  | [], s => .refl s
  | x :: xs, s => (h s x).trans (Keeps.foldl f h xs (f s x))

theorem keeps_forLanes (f : LaneNo → State → State) (h : ∀ l s, Keeps s (f l s)) (s : State) : Keeps s (forLanes f s) :=
  Keeps.foldl _ (fun s l => h l s) allLanes s

/-- Whichever way a condition goes. -/
theorem keeps_ite {p : Prop} [Decidable p] {s t u : State} (yes : Keeps s t) (no : Keeps s u) :
    Keeps s (if p then t else u) := by
  split
  · exact yes
  · exact no

/-- The statuses follow from a log that gives the same ones. -/
theorem statusesFollow_of_same {s t : State} (h : s.statusesFollow) (lanes : SameStatuses s.cm t.cm)
    (device : t.dev.status = s.dev.status) (log : ∀ lane, statusOf t.dev.log lane = statusOf s.dev.log lane)
    (overall : t.alarm.overall = s.alarm.overall) : t.statusesFollow where
  lanes l := by rw [lanes l, log, h.lanes l]
  device := by rw [device, log, h.device]
  overall := by rw [overall, overallOf_same lanes device, h.overall]

/-- What leaves the monitor's part of the state keeps both invariants. -/
theorem keeps_of_same {s t : State} (cm : t.cm = s.cm) (dev : t.dev = s.dev)
    (overall : t.alarm.overall = s.alarm.overall) : Keeps s t where
  statuses h := statusesFollow_of_same h (fun l => by rw [cm]) (by rw [dev]) (fun _ => by rw [dev]) overall
  owned h := ⟨fun l => by rw [cm]; exact h.lanes l, by rw [dev]; exact h.device⟩

theorem keeps_inEitherOrder {f g : State → State} (hf : ∀ s, Keeps s (f s)) (hg : ∀ s, Keeps s (g s)) (s : State) :
    Keeps s (inEitherOrder f g s) := by
  have free : Keeps s s.advanceFree := keeps_of_same rfl rfl rfl
  unfold inEitherOrder
  split
  · exact (free.trans (hf _)).trans (hg _)
  · exact (free.trans (hg _)).trans (hf _)

/-! ### Lines, hold-off, records and holds -/

theorem keeps_showRunPattern (s : State) : Keeps s s.showRunPattern := by
  obtain ⟨a, shape, -, overall⟩ := showRunPattern_shape s
  rw [shape]
  exact keeps_of_same rfl rfl overall

theorem keeps_showConfigPattern (s : State) : Keeps s s.showConfigPattern := by
  unfold State.showConfigPattern
  dsimp only
  split <;> exact keeps_of_same rfl rfl rfl

theorem keeps_reportBuffers (l : LaneNo) (s : State) : Keeps s (s.reportBuffers l) := by
  unfold State.reportBuffers
  repeat' split
  all_goals exact keeps_of_same rfl rfl rfl

theorem keeps_archive (l : LaneNo) (kind : Byte) (time : Time) (content : List Byte) (s : State) :
    Keeps s (s.archive l kind time content) := by
  unfold State.archive
  split
  · exact .refl s
  · split
    · exact keeps_of_same rfl rfl rfl
    · refine Keeps.trans ?_ (keeps_reportBuffers l _)
      exact keeps_of_same rfl rfl rfl

theorem keeps_closeOpenEnds (which : Hold → Bool) (s : State) : Keeps s (s.closeOpenEnds which) := by
  unfold State.closeOpenEnds
  dsimp only
  split <;> exact keeps_of_same rfl rfl rfl

theorem keeps_endHoldOf (f : Finding) (time : Time) (postRoll : Nat) (s : State) :
    Keeps s (s.endHoldOf f time postRoll) := by
  unfold State.endHoldOf State.setHoldEnd
  split
  · split <;> exact keeps_of_same rfl rfl rfl
  · exact .refl s

/-! ### Findings -/

theorem keeps_createFinding (d : Draft) (ask : Option HoldAsk) (s : State) : Keeps s (s.createFinding d ask).2 :=
  ⟨fun _ => createFinding_statusesFollow d ask s, (sameKept_createFinding d ask s).owned⟩

/-- Whatever a change of state does to the log, the statuses are evaluated behind it. -/
theorem changeFinding_statusesFollow (f : Finding) (time : Time) (s : State) : (s.changeFinding f time).statusesFollow :=
  reassess_statusesFollow _

theorem keeps_changeFinding (f : Finding) (time : Time) (s : State) : Keeps s (s.changeFinding f time) :=
  ⟨fun _ => changeFinding_statusesFollow f time s, (sameKept_changeFinding f time s).owned⟩

/-- A status does not look at measured values. -/
theorem statusOf_measured (which : Finding → Prop) [DecidablePred which] (m : Option Int) (log : List Finding)
    (lane : Option LaneNo) :
    statusOf (log.map (fun g => if which g then { g with measured := m } else g)) lane = statusOf log lane := by
  have same (q : Finding → Bool) (blind : ∀ g, q { g with measured := m } = q g) :
      (log.map (fun g => if which g then { g with measured := m } else g)).any q = log.any q := by
    rw [List.any_map]
    refine congrArg log.any (funext fun g => ?_)
    show q (if which g then _ else g) = q g
    split
    · exact blind g
    · rfl
  unfold statusOf
  simp only [List.any_filter]
  rw [same _ fun g => rfl, same _ fun g => rfl]

theorem keeps_refreshFinding (f : Finding) (s : State) : Keeps s (s.refreshFinding f) := by
  refine ⟨fun h => ?_, (sameKept_refreshFinding f s).owned⟩
  unfold State.refreshFinding
  split
  · exact statusesFollow_of_same h (fun _ => rfl) rfl (statusOf_measured _ _ _) rfl
  · exact h

theorem keeps_activateFinding (time : Time) (ask : Option HoldAsk) (f : Finding) (s : State) :
    Keeps s (s.activateFinding time ask f).2 :=
  ⟨fun _ => changeFinding_statusesFollow _ _ _, (sameKept_activateFinding time ask f s).owned⟩

theorem keeps_settleOpen (time : Time) (postRoll : Nat) (f : Option Finding) (s : State) :
    Keeps s (s.settleOpen time postRoll f) := by
  unfold State.settleOpen State.settleFinding
  split
  · split
    · exact keeps_changeFinding _ _ s
    · exact (keeps_endHoldOf _ _ _ s).trans (keeps_changeFinding _ _ _)
    · exact .refl s
    · exact .refl s
  · exact .refl s

theorem keeps_acknowledge (which : Finding → Bool) (s : State) : Keeps s (s.acknowledge which) := by
  refine ⟨fun _ => reassess_statusesFollow _, SameKept.owned ?_⟩
  unfold State.acknowledge
  refine SameKept.trans ?_ (sameKept_reassess _)
  exact ⟨fun _ => rfl, rfl⟩

/-! ### Lane conditions and reports -/

/-- A lane's conditions change without its status. -/
theorem modCm_follows {l : LaneNo} {f : CmLane → CmLane} {s : State} (status : (f s.cm[l]).status = s.cm[l].status)
    (h : s.statusesFollow) : (s.modCm l f).statusesFollow :=
  statusesFollow_of_same h (sameStatuses_set s.cm l status) rfl (fun _ => rfl) rfl

theorem withCond_status (c : CmLane) (w : LaneCondition) (x : LaneCond) : (c.withCond w x).status = c.status := by
  cases w <;> rfl

theorem keeps_openLaneCondition (l : LaneNo) (w : LaneCondition) (s : State) : Keeps s (s.openLaneCondition l w) := by
  refine ⟨fun h => ?_, owned_openLaneCondition l w s⟩
  unfold State.openLaneCondition
  split
  · exact h
  · exact modCm_follows (withCond_status _ _ _) (createFinding_statusesFollow _ _ s)

theorem keeps_settleLaneCondition (l : LaneNo) (w : LaneCondition) (s : State) :
    Keeps s (s.settleLaneCondition l w) :=
  ⟨fun h => (keeps_settleOpen _ _ _ _).statuses (modCm_follows (withCond_status _ _ _) h),
    owned_settleLaneCondition l w s⟩

theorem keeps_settleLaneConditions (l : LaneNo) (s : State) : Keeps s (s.settleLaneConditions l) :=
  (keeps_settleLaneCondition l .lost s).trans (keeps_settleLaneCondition l .drift _)

theorem keeps_cmCarriage (l : LaneNo) (new : Carriage) (s : State) : Keeps s (s.cmCarriage l new) := by
  unfold State.cmCarriage
  cases new with
  | lost => exact keeps_openLaneCondition l .lost s
  | drift => exact keeps_openLaneCondition l .drift s
  | present => exact keeps_settleLaneConditions l s
  | absent => exact keeps_settleLaneConditions l s
  | acquiring => exact .refl s

theorem keeps_graceExpired (l : LaneNo) (w : LaneCondition) (s : State) : Keeps s (s.graceExpired l w) := by
  refine ⟨fun h => ?_, owned_graceExpired l w s⟩
  unfold State.graceExpired
  split
  · exact modCm_follows (withCond_status _ _ _) h
  · exact modCm_follows (withCond_status _ _ _) (changeFinding_statusesFollow _ _ _)

theorem keeps_openStalled (l : LaneNo) (s : State) : Keeps s (s.openStalled l) := by
  refine ⟨fun h => ?_, owned_openStalled l s⟩
  unfold State.openStalled
  split
  · exact h
  · exact modCm_follows rfl (createFinding_statusesFollow _ _ s)

theorem keeps_endStalled (l : LaneNo) (s : State) : Keeps s (s.endStalled l) :=
  ⟨fun h => (keeps_settleOpen _ _ _ _).statuses (modCm_follows rfl h), owned_endStalled l s⟩

theorem keeps_openShort (l : LaneNo) (s : State) : Keeps s (s.openShort l) := by
  refine ⟨fun h => ?_, owned_openShort l s⟩
  unfold State.openShort
  split
  · exact h
  · exact modCm_follows rfl (createFinding_statusesFollow _ _ s)

theorem keeps_endShort (l : LaneNo) (s : State) : Keeps s (s.endShort l) :=
  ⟨fun h => (keeps_settleOpen _ _ _ _).statuses (modCm_follows rfl h), owned_endShort l s⟩

/-- The finding kept for STORE_LOST counts for no status. -/
theorem storeLost_follows {s : State} (f : Option Finding) (h : s.statusesFollow) :
    ({ s with dev := { s.dev with storeLost := f } } : State).statusesFollow :=
  ⟨h.lanes, h.device, h.overall⟩

theorem keeps_openStoreLost (s : State) : Keeps s s.openStoreLost := by
  refine ⟨fun h => ?_, owned_openStoreLost s⟩
  unfold State.openStoreLost
  split
  · exact h
  · have created := createFinding_statusesFollow
      (conditionDraft none .storeLost s.settings.severities.storeLost true s.station) none s
    exact storeLost_follows _ created

theorem keeps_endStoreLost (s : State) : Keeps s s.endStoreLost :=
  ⟨fun h => (keeps_settleOpen _ _ _ _).statuses (storeLost_follows none h), owned_endStoreLost s⟩

/-! ### Extents and the boundary of an event -/

/-- What an attempt does, its reports included, keeps the statuses. -/
theorem statusesFollow_steady (l : LaneNo) : Steady l State.statusesFollow where
  ac s f := (keeps_of_same rfl rfl rfl : Keeps s (s.modAc l f)).statuses
  rest s x e r n d := (keeps_of_same rfl rfl rfl : Keeps s (withRest x e r n d s)).statuses
  openStalled s := (keeps_openStalled l s).statuses
  endStalled s := (keeps_endStalled l s).statuses
  openShort s := (keeps_openShort l s).statuses
  endShort s := (keeps_endShort l s).statuses

theorem keeps_allocate (s : State) : Keeps s s.allocate :=
  ⟨steady_allocateN (fun _ l _ _ => statusesFollow_steady l)
    (fun s n d => (keeps_of_same rfl rfl rfl : Keeps s { s with freeCount := n, attemptDue := d }).statuses) 20 s,
    owned_allocate s⟩

theorem keeps_setAlloc (l : LaneNo) (x : AllocState) (s : State) : Keeps s (s.setAlloc l x) :=
  ⟨(statusesFollow_steady l).setAlloc x s, (sameKept_setAlloc l x s).owned⟩

theorem keeps_leaveExtent (l : LaneNo) (s : State) : Keeps s (s.leaveExtent l) := by
  unfold State.leaveExtent
  split
  · exact .refl s
  · exact keeps_setAlloc l _ s

theorem keeps_sealExtent (l : LaneNo) (ext : Nat) (s : State) : Keeps s (s.sealExtent l ext) := by
  unfold State.sealExtent
  refine Keeps.trans ?_ (keeps_leaveExtent l _)
  split
  · split <;> exact keeps_of_same rfl rfl rfl
  · exact .refl s

end Sys2Proof.Findings
end

section
/-! PROOFS. The two invariants of the Compliance Monitor through the checks of a watched segment, captions, segments, tiles,
carriage and the intake of cells. -/

namespace Sys2Proof.Findings

open Sys2Proof.Machine Sys2Proof.Laws Sys2Proof.Lanes Sys2Proof.SegmentTracking

/-! ### The checks of a watched segment (R108 to R113) -/

theorem holdCondition_follows (rule : RuleSet) (start closeTime : Time) (measured : Int) (grace : Nat) (f : Finding)
    {s : State} (h : s.statusesFollow) :
    (s.holdCondition rule start closeTime measured grace f).2.statusesFollow := by
  unfold State.holdCondition
  dsimp only
  split
  · split
    · exact (keeps_activateFinding _ _ _ s).statuses h
    · exact (keeps_refreshFinding _ s).statuses h
  · exact (keeps_refreshFinding _ s).statuses h

theorem runHolds_follows (l : LaneNo) (kind : FindingKind) (severity : Severity) (limit : Nat) (rule : RuleSet)
    (segId : Nat) (closeTime : Time) (c : RunCond) {s : State} (h : s.statusesFollow) :
    (s.runHolds l kind severity limit rule segId closeTime c).2.statusesFollow := by
  unfold State.runHolds
  dsimp only
  split
  · exact holdCondition_follows _ _ _ _ _ _ h
  · split
    · exact createFinding_statusesFollow _ _ s
    · exact h

theorem deadAirTile_follows (l : LaneNo) (rule : RuleSet) (segId : Nat) (r : TileRecord) (c : RunCond) {s : State}
    (h : s.statusesFollow) : (s.deadAirTile l rule segId r c).2.statusesFollow := by
  unfold State.deadAirTile
  split
  · exact h
  · split
    · exact runHolds_follows l _ _ _ rule segId _ c h
    · exact (keeps_settleOpen _ _ _ s).statuses h

theorem captionGapTile_follows (l : LaneNo) (rule : RuleSet) (duty : Duty) (segId : Nat) (r : TileRecord) (c : RunCond)
    {s : State} (h : s.statusesFollow) : (s.captionGapTile l rule duty segId r c).2.statusesFollow := by
  unfold State.captionGapTile
  split
  · exact h
  · split
    · exact (keeps_settleOpen _ _ _ s).statuses h
    · exact runHolds_follows l _ _ _ rule segId _ c h

theorem shortTermTile_follows (l : LaneNo) (rule : RuleSet) (segId : Nat) (r : TileRecord) (c : OverCond) {s : State}
    (h : s.statusesFollow) : (s.shortTermTile l rule segId r c).2.statusesFollow := by
  unfold State.shortTermTile
  split
  · exact h
  · split
    · exact h
    · split
      · split
        · split
          · exact holdCondition_follows _ _ _ _ _ _ h
          · exact h
        · exact createFinding_statusesFollow _ _ s
      · exact (keeps_settleOpen _ _ _ s).statuses h

theorem keeps_cmTile (l : LaneNo) (r : TileRecord) (s : State) : Keeps s (s.cmTile l r) := by
  refine ⟨fun h => ?_, owned_cmTile l r s⟩
  unfold State.cmTile
  split
  · exact h
  · exact modCm_follows rfl (shortTermTile_follows l _ _ r _ (captionGapTile_follows l _ _ _ r _
      (deadAirTile_follows l _ _ r _ h)))

theorem keeps_watch (l : LaneNo) (ident : Identity) (ruleSet : Option (Fin 16)) (s : State) :
    Keeps s (s.watch l ident ruleSet) :=
  ⟨modCm_follows rfl, owned_watch l ident ruleSet s⟩

theorem keeps_unwatch (l : LaneNo) (closeTime : Time) (s : State) : Keeps s (s.unwatch l closeTime) := by
  refine ⟨fun h => ?_, owned_unwatch l closeTime s⟩
  unfold State.unwatch
  split
  · exact h
  · exact (((keeps_settleOpen _ _ _ _).trans (keeps_settleOpen _ _ _ _)).trans (keeps_settleOpen _ _ _ _)).statuses
      (modCm_follows rfl h)

/-! ### Captions (R59 to R78) -/

theorem keeps_setLive (l : LaneNo) (live : Bool) (s : State) : Keeps s (s.setLive l live) := by
  unfold State.setLive
  split
  · exact .refl s
  · exact keeps_of_same rfl rfl rfl

theorem keeps_judgeTimeliness (l : LaneNo) (p : CaptionPage) (s : State) : Keeps s (s.judgeTimeliness l p) := by
  unfold State.judgeTimeliness
  dsimp only
  repeat' split
  all_goals exact keeps_of_same rfl rfl rfl

theorem keeps_acceptPage (l : LaneNo) (p : CaptionPage) (payload : List Byte) (s : State) :
    Keeps s (s.acceptPage l p payload) := by
  unfold State.acceptPage
  refine Keeps.trans ?_ (keeps_archive _ _ _ _ _)
  refine Keeps.trans ?_ (keeps_judgeTimeliness l p _)
  refine Keeps.trans ?_ (keeps_setLive l true _)
  exact keeps_of_same rfl rfl rfl

theorem keeps_takeCaption (l : LaneNo) (payload : List Byte) (s : State) : Keeps s (s.takeCaption l payload) := by
  unfold State.takeCaption
  split
  · exact .refl s
  · split
    · exact keeps_acceptPage l _ payload s
    · exact keeps_of_same rfl rfl rfl

theorem keeps_keepaliveExpired (l : LaneNo) (s : State) : Keeps s (s.keepaliveExpired l) := by
  refine Keeps.trans ?_ (keeps_setLive l false _)
  exact keeps_of_same rfl rfl rfl

theorem keeps_resetCaptions (l : LaneNo) (s : State) : Keeps s (s.resetCaptions l) :=
  (keeps_setLive l false s).trans (keeps_of_same rfl rfl rfl)

/-! ### Marks and segments (R79 to R101) -/

theorem keeps_modSt (l : LaneNo) (f : StLane → StLane) (s : State) : Keeps s (s.modSt l f) := keeps_of_same rfl rfl rfl

theorem keeps_queueMark (l : LaneNo) (m : Mark) (s : State) : Keeps s (s.queueMark l m) := by
  unfold State.queueMark
  dsimp only
  split
  · exact keeps_modSt l _ s
  · split
    · exact keeps_modSt l _ s
    · exact keeps_createFinding _ _ s

theorem keeps_takeValidMark (l : LaneNo) (m : Mark) (s : State) : Keeps s (s.takeValidMark l m) := by
  unfold State.takeValidMark
  split
  · split
    · refine Keeps.trans ?_ (keeps_queueMark l _ _)
      exact keeps_createFinding _ _ s
    · exact keeps_queueMark l m s
  · exact keeps_queueMark l m s

theorem keeps_takeMark (l : LaneNo) (payload : List Byte) (s : State) : Keeps s (s.takeMark l payload) := by
  unfold State.takeMark
  refine ((keeps_archive l recMark s.station payload s).trans (keeps_allocate _)).trans ?_
  dsimp only
  split
  · exact keeps_modSt l _ _
  · exact keeps_takeValidMark l _ _

theorem keeps_openSegment (l : LaneNo) (ident : Identity) (continuation : Bool) (s : State) :
    Keeps s (s.openSegment l ident continuation) :=
  (keeps_modSt l _ s).trans (keeps_watch l _ _ _)

theorem keeps_stTile (l : LaneNo) (r : TileRecord) (s : State) : Keeps s (s.stTile l r) := by
  unfold State.stTile
  split
  · split
    · exact keeps_modSt l _ s
    · exact .refl s
  · exact .refl s

theorem keeps_verdictFindings (l : LaneNo) (g : SegCtx) (rule : RuleSet) (closeTime : Time) (fails : List Check)
    (s : State) : Keeps s (s.verdictFindings l g rule closeTime fails) :=
  Keeps.foldl _ (fun s _ => keeps_createFinding _ _ s) fails s

theorem keeps_handVerdict (l : LaneNo) (g : SegCtx) (v : Verdict) (judged : Option (RuleSet × List Check)) (s : State) :
    Keeps s (s.handVerdict l g v judged) := by
  have record (t : State) := keeps_archive l recVerdict v.closeTime v.bytes t
  have findings (rule : RuleSet) (xs : List Check) (t : State) := keeps_verdictFindings l g rule v.closeTime xs t
  have free : Keeps s s.advanceFree := keeps_of_same rfl rfl rfl
  unfold State.handVerdict
  dsimp only
  split
  · exact (record s).trans (keeps_allocate _)
  · split
    · exact (record s).trans (keeps_allocate _)
    · exact (((free.trans (findings _ _ _)).trans (record _)).trans (findings _ _ _)).trans (keeps_allocate _)

theorem keeps_withVerdicts (x : Verdicts) (s : State) : Keeps s (withVerdicts x s) := keeps_of_same rfl rfl rfl

theorem keeps_enterVerdict (v : Verdict) (s : State) : Keeps s (s.enterVerdict v) := by
  rw [enterVerdict_eq]
  exact keeps_withVerdicts _ s

theorem keeps_closeSegment (l : LaneNo) (cause : CloseCause) (s : State) : Keeps s (s.closeSegment l cause) := by
  cases h : s.st[l].seg with
  | none =>
    rw [closeSegment_none l cause s h]
    exact .refl s
  | some g =>
    have verdict : Keeps s (Lanes.judged l cause g s) := (keeps_enterVerdict _ s).trans (keeps_handVerdict l g _ _ _)
    rw [closeSegment_eq l cause g s h]
    exact ((verdict.trans (keeps_modSt l _ _)).trans (keeps_unwatch l _ _)).trans (keeps_allocate _)

theorem keeps_applyMark (l : LaneNo) (m : Mark) (s : State) : Keeps s (s.applyMark l m) := by
  unfold State.applyMark
  split
  · exact (keeps_closeSegment l _ s).trans (keeps_openSegment l _ _ _)
  · exact keeps_closeSegment l _ s

theorem keeps_continueLong (l : LaneNo) (s : State) : Keeps s (s.continueLong l) := by
  unfold State.continueLong
  split
  · split
    · exact (keeps_closeSegment l _ s).trans (keeps_openSegment l _ _ _)
    · exact .refl s
  · exact .refl s

theorem keeps_stOpening (l : LaneNo) (i : Nat) (s : State) : Keeps s (s.stOpening l i) := by
  unfold State.stOpening
  dsimp only
  split
  · split
    · exact (keeps_modSt l _ s).trans (keeps_continueLong l _)
    · exact keeps_modSt l _ s
  · split
    · exact (keeps_modSt l _ s).trans (keeps_applyMark l _ _)
    · exact (keeps_modSt l _ s).trans (keeps_modSt l _ _)

theorem keeps_resetSegments (l : LaneNo) (s : State) : Keeps s (s.resetSegments l) :=
  (keeps_closeSegment l .laneReset s).trans (keeps_of_same rfl rfl rfl)

/-! ### Tiles (R12 to R15, R36 to R39) -/

theorem keeps_modLiu (l : LaneNo) (f : Liu → Liu) (s : State) : Keeps s (s.modLiu l f) := keeps_of_same rfl rfl rfl

theorem keeps_modLe (l : LaneNo) (f : LeLane → LeLane) (s : State) : Keeps s (s.modLe l f) := keeps_of_same rfl rfl rfl

theorem keeps_handTile (l : LaneNo) (r : TileRecord) (s : State) : Keeps s (s.handTile l r) := by
  have record (t : State) : Keeps t (t.archive l recTile r.closeTime (tileContent l r)).allocate :=
    (keeps_archive _ _ _ _ t).trans (keeps_allocate _)
  have checks (t : State) : Keeps t (t.cmTile l r).allocate := (keeps_cmTile l r t).trans (keeps_allocate _)
  unfold State.handTile
  refine (keeps_stTile l r s).trans ?_
  dsimp only
  split
  · exact (keeps_cmTile l r _).trans (record _)
  · exact keeps_inEitherOrder record checks _

theorem keeps_closeTile (l : LaneNo) (s : State) : Keeps s (s.closeTile l) := by
  unfold State.closeTile
  refine (keeps_modLiu l (fun x => { x with openTile := none }) s).trans ?_
  dsimp only
  split
  · exact .refl _
  · refine Keeps.trans ?_ (keeps_handTile l _ _)
    exact keeps_of_same rfl rfl rfl

theorem keeps_closeOpenTile (l : LaneNo) (s : State) : Keeps s (s.closeOpenTile l) := by
  unfold State.closeOpenTile
  split
  · exact keeps_closeTile l s
  · exact .refl s

theorem keeps_openTileAt (l : LaneNo) (i : Nat) (s : State) : Keeps s (s.openTileAt l i) :=
  ((keeps_stOpening l i s).trans (keeps_modLe l _ _)).trans (keeps_modLiu l _ _)

theorem keeps_voidTiles (l : LaneNo) (start i : Nat) (s : State) : Keeps s (s.voidTiles l start i) :=
  Keeps.foldl _ (fun s i => (keeps_openTileAt l i s).trans (keeps_closeTile l _)) _ s

theorem keeps_trackTile (l : LaneNo) (i : Nat) (p : Place) (s : State) : Keeps s (s.trackTile l i p) := by
  cases p with
  | first => exact keeps_openTileAt l i s
  | join => exact .refl s
  | after o => exact ((keeps_closeTile l s).trans (keeps_voidTiles l o i _)).trans (keeps_openTileAt l i _)
  | afterLoss t => exact ((keeps_voidTiles l t i s).trans (keeps_modLiu l _ _)).trans (keeps_openTileAt l i _)
  | discontinuity => exact .refl s

/-! ### Carriage (R7 to R11) -/

theorem keeps_setCarriage (l : LaneNo) (new : Carriage) (s : State) : Keeps s (s.setCarriage l new) := by
  unfold State.setCarriage
  split
  · exact .refl s
  · refine Keeps.trans ?_ (keeps_allocate _)
    refine Keeps.trans ?_ (keeps_cmCarriage l new _)
    split <;> exact keeps_of_same rfl rfl rfl

theorem keeps_startRun (l : LaneNo) (count : Nat) (s : State) : Keeps s (s.startRun l count) :=
  (keeps_modLiu l _ s).trans (keeps_setCarriage l _ _)

theorem keeps_enterPresent (l : LaneNo) (s : State) : Keeps s (s.enterPresent l) :=
  ((keeps_modLiu l _ s).trans (keeps_modLiu l _ _)).trans (keeps_setCarriage l _ _)

theorem keeps_advanceRun (l : LaneNo) (count : Nat) (s : State) : Keeps s (s.advanceRun l count) := by
  unfold State.advanceRun
  exact keeps_ite ((keeps_modLiu l _ s).trans (keeps_enterPresent l _)) (keeps_modLiu l _ s)

theorem keeps_trackCarriage (l : LaneNo) (count : Nat) (s : State) : Keeps s (s.trackCarriage l count) := by
  unfold State.trackCarriage
  refine Keeps.trans ?_ (keeps_modLiu l _ _)
  cases s.liu[l].carriage with
  | absent => exact keeps_startRun l count s
  | lost => exact keeps_startRun l count s
  | acquiring => exact keeps_advanceRun l count s
  | present => exact keeps_modLiu l _ s
  | drift => exact keeps_modLiu l _ s

theorem keeps_discontinuity (l : LaneNo) (i count : Nat) (s : State) : Keeps s (s.discontinuity l i count) := by
  unfold State.discontinuity
  refine (keeps_closeOpenTile l s).trans ?_
  refine (keeps_modLiu l (fun x => { x with lossTile := none, window := none }) _).trans ?_
  refine (keeps_modLe l (fun e => { e.clearWindows with filters := .zero }) _).trans ?_
  exact (((keeps_startRun l count _).trans (keeps_modLiu l _ _)).trans (keeps_openTileAt l i _)).trans (keeps_modLiu l _ _)

/-! ### Cells (R1 to R6) -/

theorem keeps_takeAudio (l : LaneNo) (bytes : List Byte) (s : State) : Keeps s (s.takeAudio l bytes) := by
  have tracked (t : State) (i count : Nat) (p : Place) :
      Keeps t (if p = .discontinuity then t.discontinuity l i count else (t.trackCarriage l count).trackTile l i p) :=
    keeps_ite (keeps_discontinuity l i count t) ((keeps_trackCarriage l count t).trans (keeps_trackTile l i p _))
  unfold State.takeAudio
  dsimp only
  cases cellLayout bytes with
  | none => exact (keeps_modLiu l _ s).trans (tracked _ _ _ _)
  | some y => exact ((keeps_modLiu l _ s).trans (tracked _ _ _ _)).trans (keeps_modLe l _ _)

theorem keeps_routeCell (l : LaneNo) (bytes : List Byte) (s : State) : Keeps s (s.routeCell l bytes) := by
  unfold State.routeCell
  refine (keeps_modLiu l (fun x => { x with counters := x.counters.good (bytes.getD 1 0#8) }) s).trans ?_
  dsimp only
  split
  · exact keeps_takeAudio l bytes _
  · split
    · exact keeps_takeCaption l _ _
    · split
      · exact keeps_archive l _ _ _ _
      · exact keeps_takeMark l _ _

theorem keeps_inboundCell (l : LaneNo) (bytes : List Byte) (s : State) : Keeps s (s.inboundCell l bytes) := by
  unfold State.inboundCell
  refine (keeps_modLiu l (fun x => { x with assembly := gather bytes }) s).trans ?_
  refine Keeps.trans ?_ (keeps_allocate _)
  refine Keeps.trans ?_ (keeps_modLiu l _ _)
  split
  · exact keeps_modLiu l _ _
  · exact keeps_routeCell l _ _

/-! ### Timers, settings and the reset of a lane's intake -/

theorem keeps_gapExpired (l : LaneNo) (s : State) : Keeps s (s.gapExpired l) := by
  unfold State.gapExpired
  refine (keeps_modLiu l (fun x => { x with run := 0, gapTimer := none, window := none, lastCount := none }) s).trans ?_
  refine ((keeps_setCarriage l .lost _).trans (keeps_closeOpenTile l _)).trans ?_
  dsimp only
  split
  · exact keeps_modLiu l _ _
  · exact .refl _

theorem keeps_windowCompleted (l : LaneNo) (count : Nat) (s : State) : Keeps s (s.windowCompleted l count) := by
  unfold State.windowCompleted
  refine Keeps.trans (t := s.startWindow l) (keeps_modLiu l _ s) ?_
  dsimp only
  cases (s.startWindow l).liu[l].carriage with
  | present =>
    dsimp only
    split
    · exact .refl _
    · exact keeps_setCarriage l _ _
  | drift =>
    dsimp only
    split
    · exact keeps_setCarriage l _ _
    · exact .refl _
  | absent => exact .refl _
  | acquiring => exact .refl _
  | lost => exact .refl _

theorem keeps_resendHold (l : LaneNo) (s : State) : Keeps s (s.resendHold l) := by
  unfold State.resendHold
  dsimp only
  split <;> exact keeps_of_same rfl rfl rfl

theorem keeps_disableLane (l : LaneNo) (s : State) : Keeps s (s.disableLane l) := by
  unfold State.disableLane
  refine ((keeps_closeOpenTile l s).trans (keeps_setCarriage l .absent _)).trans ?_
  generalize (s.closeOpenTile l).setCarriage l .absent = t
  dsimp only
  split <;> exact keeps_of_same rfl rfl rfl

theorem keeps_resetIntake (l : LaneNo) (s : State) : Keeps s (s.resetIntake l) :=
  (keeps_modLiu l _ s).trans (keeps_setCarriage l .absent _)

end Sys2Proof.Findings
end

section
/-! PROOFS. The two invariants of the Compliance Monitor through recalls and the export link, the scan, the Store Port and
its completions, the changes of mode and the resets. -/

namespace Sys2Proof.Findings

open Sys2Proof.Machine Sys2Proof.Laws Sys2Proof.Lanes Sys2Proof.SegmentTracking

/-! ### Recalls and the export link (R175 to R182) -/

theorem keeps_modSlot (k : SlotNo) (f : Slot → Slot) (s : State) : Keeps s (s.modSlot k f) := keeps_of_same rfl rfl rfl

theorem keeps_endDone (k : SlotNo) (s : State) : Keeps s (s.endDone k) := keeps_of_same rfl rfl rfl

theorem keeps_abortRecall (k : SlotNo) (cause : EndCause) (s : State) : Keeps s (s.abortRecall k cause) :=
  keeps_ite (keeps_of_same rfl rfl rfl) (.refl s)

theorem keeps_abortLane (l : LaneNo) (s : State) : Keeps s (s.abortLane l) := by
  have aborts (k : SlotNo) (t : State) :
      Keeps t (if (t.slots[k].request.map RecallRequest.lane) = some l then t.abortRecall k .laneReset else t) :=
    keeps_ite (keeps_abortRecall k _ t) (.refl t)
  exact (aborts 0 s).trans (aborts 1 _)

theorem keeps_releaseSlot (k : SlotNo) (s : State) : Keeps s (s.releaseSlot k) :=
  keeps_ite (keeps_of_same rfl rfl rfl) (.refl s)

theorem keeps_finishExtent (k : SlotNo) (e : Extent) (s : State) : Keeps s (s.finishExtent k e) :=
  keeps_of_same rfl rfl rfl

theorem keeps_chooseExtentN (k : SlotNo) : ∀ (n : Nat) (s : State), Keeps s (s.chooseExtentN k n)
  | 0, s => keeps_endDone k s
  | n + 1, s => by
    unfold State.chooseExtentN
    split
    · exact keeps_endDone k s
    · exact keeps_ite ((keeps_finishExtent k _ s).trans (keeps_ite (keeps_endDone k _) (keeps_chooseExtentN k n _)))
        (keeps_modSlot k _ s)

theorem keeps_chooseExtent (k : SlotNo) (s : State) : Keeps s (s.chooseExtent k) := keeps_chooseExtentN k _ s

theorem keeps_slotPageSent (k : SlotNo) (s : State) : Keeps s (s.slotPageSent k) := by
  unfold State.slotPageSent
  dsimp only
  split
  · split
    · exact .refl s
    · exact keeps_chooseExtent k s
    · exact keeps_endDone k s
  · exact .refl s

theorem keeps_pageDone (k : SlotNo) (ext page : Nat) (s : State) : Keeps s (s.pageDone k ext page) := by
  unfold State.pageDone
  split
  · exact keeps_modSlot k _ s
  · exact keeps_ite (keeps_finishExtent k _ s) (keeps_modSlot k _ s)

theorem keeps_takeRecords (k : SlotNo) (ext page : Nat) (records : List Record) (s : State) :
    Keeps s (s.takeRecords k ext page records) := by
  unfold State.takeRecords
  split
  · exact .refl s
  · have taken (f : Slot → Slot) : Keeps s ((s.modSlot k f).pageDone k ext page) :=
      (keeps_modSlot k f s).trans (keeps_pageDone k ext page _)
    exact keeps_ite ((taken _).trans (keeps_modSlot k _ _)) (taken _)

theorem keeps_recallRead (k : SlotNo) (ext page : Nat) (result : ReadResult) (s : State) :
    Keeps s (s.recallRead k ext page result) := by
  unfold State.recallRead
  refine Keeps.trans ?_ (keeps_slotPageSent k _)
  cases result with
  | ok bytes => exact keeps_takeRecords k ext page _ s
  | erased => exact (keeps_modSlot k _ s).trans (keeps_pageDone k ext page _)
  | fail => exact (keeps_modSlot k _ s).trans (keeps_pageDone k ext page _)

theorem keeps_exportTurn (s : State) : Keeps s s.exportTurn.2 := by
  unfold State.exportTurn
  repeat' split
  all_goals exact keeps_of_same rfl rfl rfl

theorem keeps_startExport (s : State) : Keeps s s.startExport := by
  unfold State.startExport
  refine keeps_ite (.refl s) ?_
  have turn := keeps_exportTurn s
  generalize s.exportTurn = x at turn ⊢
  obtain ⟨_ | k, t⟩ := x
  · exact turn
  · refine turn.trans ?_
    dsimp only
    split
    · exact .refl t
    · exact keeps_of_same rfl rfl rfl

theorem keeps_cellSent (c : Sending) (s : State) : Keeps s (s.cellSent c) := by
  have sent : Keeps s { s with exportLink := { s.exportLink with sending := none } } := keeps_of_same rfl rfl rfl
  unfold State.cellSent
  refine keeps_ite sent (keeps_ite ?_ ?_)
  · exact (sent.trans (keeps_modSlot _ _ _)).trans (keeps_releaseSlot _ _)
  · exact (sent.trans (keeps_modSlot _ _ _)).trans (keeps_slotPageSent _ _)

theorem keeps_exportHoldCell (bytes : List Byte) (s : State) : Keeps s (s.exportHoldCell bytes) := by
  unfold State.exportHoldCell
  split <;> exact keeps_of_same rfl rfl rfl

theorem keeps_startRecall (k : SlotNo) (lane : LaneNo) (t0 t1 : Nat) (s : State) :
    Keeps s (s.startRecall k lane t0 t1) := by
  unfold State.startRecall
  refine Keeps.trans ?_ (keeps_chooseExtent k _)
  exact keeps_of_same rfl rfl rfl

/-! ### The scan (R146, R147) -/

theorem keeps_endFirstPhase (append : Option Nat) (f : Found) (s : State) : Keeps s (s.endFirstPhase append f) := by
  unfold State.endFirstPhase
  refine Keeps.trans ?_ (keeps_showRunPattern _)
  exact keeps_of_same rfl rfl rfl

theorem keeps_systemRead (page : Nat) (f : Found) (result : ReadResult) (s : State) :
    Keeps s (s.systemRead page f result) :=
  keeps_ite (keeps_endFirstPhase _ _ s) (keeps_ite (keeps_of_same rfl rfl rfl) (keeps_endFirstPhase _ _ s))

theorem keeps_endScan (defaulted : Bool) (s : State) : Keeps s (s.endScan defaulted) := by
  have scanned : Keeps s { s with scan := .done } := keeps_of_same rfl rfl rfl
  have due (t : State) : Keeps t { t with attemptDue := true } := keeps_of_same rfl rfl rfl
  have released (t : State) : Keeps t (State.raiseScanDone { t with
    holds := { t.holds with table := t.holds.table.map (fun (h : Hold) => { h with restored := false }) } }) :=
    keeps_of_same rfl rfl rfl
  unfold State.endScan
  exact (((scanned.trans (keeps_closeOpenEnds _ _)).trans (released _)).trans
    (keeps_ite (keeps_createFinding _ _ _) (.refl _))).trans (due _)

theorem keeps_nextScanExtent (ext : Nat) (defaulted : Bool) (s : State) : Keeps s (s.nextScanExtent ext defaulted) :=
  keeps_ite (keeps_of_same rfl rfl rfl) (keeps_endScan defaulted s)

theorem keeps_scanSealed (ext : Nat) (tag : LaneNo) (first last pages : Nat) (faulty : Bool) (s : State) :
    Keeps s (s.scanSealed ext tag first last pages faulty) := keeps_of_same rfl rfl rfl

theorem keeps_scanStopped (ext : Nat) (tag : LaneNo) (first page last : Nat) (faulty defaulted : Bool) (s : State) :
    Keeps s (s.scanStopped ext tag first page last faulty defaulted) :=
  (keeps_ite (.refl s) (keeps_scanSealed _ _ _ _ _ _ s)).trans (keeps_nextScanExtent ext defaulted _)

theorem keeps_scanAt (x : Scan) (s : State) : Keeps s { s with scan := x } := keeps_of_same rfl rfl rfl

theorem keeps_contentRead (ext : Nat) (tag : LaneNo) (first page last : Nat) (defaulted : Bool) (bytes : List Byte)
    (s : State) : Keeps s (s.contentRead ext tag first page last defaulted bytes) := by
  unfold State.contentRead
  split
  · exact (keeps_scanSealed _ _ _ _ _ _ s).trans (keeps_nextScanExtent ext defaulted _)
  · exact keeps_ite (keeps_scanAt _ s) (keeps_scanStopped _ _ _ _ _ _ _ s)

theorem keeps_extentRead (ext : Nat) (stage : ScanStage) (defaulted : Bool) (result : ReadResult) (s : State) :
    Keeps s (s.extentRead ext stage defaulted result) := by
  unfold State.extentRead
  split
  · split
    · exact keeps_scanAt _ s
    · exact keeps_nextScanExtent ext defaulted s
  · exact keeps_nextScanExtent ext defaulted s
  · exact keeps_nextScanExtent ext defaulted s
  · split
    · exact (keeps_scanSealed _ _ _ _ _ _ s).trans (keeps_nextScanExtent ext defaulted _)
    · exact keeps_scanAt _ s
  · exact keeps_scanAt _ s
  · exact keeps_scanAt _ s
  · exact keeps_contentRead ext _ _ _ _ defaulted _ s
  · exact keeps_scanStopped ext _ _ _ _ _ defaulted s
  · exact keeps_scanStopped ext _ _ _ _ _ defaulted s

theorem keeps_scanRead (result : ReadResult) (s : State) : Keeps s (s.scanRead result) := by
  unfold State.scanRead
  split
  · exact .refl s
  · exact keeps_systemRead _ _ result s
  · exact keeps_extentRead _ _ _ result s
  · exact .refl s

/-! ### Issue and the store state (R134 to R136) -/

theorem keeps_takeOffer (l : LaneNo) (o : Offer) (s : State) : Keeps s (s.takeOffer l o) := by
  unfold State.takeOffer
  split <;> exact keeps_of_same rfl rfl rfl

theorem keeps_recallTurn (s : State) : Keeps s s.recallTurn.2 := by
  unfold State.recallTurn
  repeat' split
  all_goals exact keeps_of_same rfl rfl rfl

theorem keeps_nextSystem {s : State} {x : StoreOp × State} (h : s.nextSystem = some x) : Keeps s x.2 := by
  unfold State.nextSystem at h
  split at h
  · cases h
  · split at h <;> cases h <;> exact keeps_of_same rfl rfl rfl

theorem keeps_nextErase {s : State} {x : StoreOp × State} (h : s.nextErase = some x) : Keeps s x.2 := by
  unfold State.nextErase at h
  split at h <;> cases h
  exact keeps_of_same rfl rfl rfl

theorem keeps_nextRecall {s : State} {x : StoreOp × State} (h : s.nextRecall = some x) : Keeps s x.2 := by
  have turn := keeps_recallTurn s
  unfold State.nextRecall at h
  generalize s.recallTurn = y at turn h
  obtain ⟨_ | k, t⟩ := y
  · cases h
  · dsimp only at h
    split at h <;> cases h
    exact turn.trans (keeps_of_same rfl rfl rfl)

/-- What leaves its place to be issued belongs to the archive, the scan or a recall. -/
theorem keeps_nextOp {s : State} {x : StoreOp × State} (h : s.nextOp = some x) : Keeps s x.2 := by
  unfold State.nextOp at h
  split at h
  · next system =>
    cases h
    exact keeps_nextSystem system
  · split at h
    · cases h
      exact .refl s
    · split at h
      · cases h
        exact keeps_takeOffer _ _ s
      · split at h
        · next erase =>
          cases h
          exact keeps_nextErase erase
        · exact keeps_nextRecall h

theorem keeps_issue (j : StoreJob) (s : State) : Keeps s (s.issue j) := keeps_of_same rfl rfl rfl

theorem keeps_withStore (x : StorePort) (s : State) : Keeps s { s with store := x } := keeps_of_same rfl rfl rfl

theorem keeps_attemptDue (b : Bool) (s : State) : Keeps s { s with attemptDue := b } := keeps_of_same rfl rfl rfl

theorem keeps_issueNext (s : State) : Keeps s s.issueNext := by
  unfold State.issueNext
  refine keeps_ite (.refl s) ?_
  split
  · exact (keeps_withStore _ s).trans (keeps_issue _ _)
  · split
    · next next_ => exact (keeps_nextOp next_).trans (keeps_issue _ _)
    · exact .refl s

theorem keeps_storeDown (s : State) : Keeps s s.storeDown := by
  unfold State.storeDown
  refine Keeps.trans ?_ (keeps_openStoreLost _)
  exact keeps_of_same rfl rfl rfl

theorem keeps_storeUp (s : State) : Keeps s s.storeUp :=
  ((keeps_withStore _ s).trans (keeps_endStoreLost _)).trans (keeps_attemptDue true _)

theorem keeps_timedOut (f : InFlight) (s : State) : Keeps s (s.timedOut f) :=
  keeps_ite (((keeps_withStore _ s).trans (keeps_withStore _ _)).trans (keeps_storeDown _)) (keeps_withStore _ s)

theorem keeps_retryIdentify (s : State) : Keeps s s.retryIdentify :=
  keeps_ite (.refl s) ((keeps_withStore _ s).trans (keeps_issue _ _))

theorem keeps_landed (s : State) : Keeps s s.landed := keeps_withStore _ s

theorem keeps_identifyFailed (s : State) : Keeps s s.identifyFailed := keeps_ite (keeps_storeDown s) (.refl s)

theorem keeps_beginScan (count : Nat) (s : State) : Keeps s (s.beginScan count) := keeps_of_same rfl rfl rfl

theorem keeps_identified (n : Nat) (s : State) : Keeps s (s.identified n) := by
  have raised (t : State) : Keeps t (if t.store.up then t else t.storeUp) := keeps_ite (.refl t) (keeps_storeUp t)
  unfold State.identified
  refine Keeps.trans (keeps_withStore { s.store with returned := some n } s) ?_
  generalize ({ s with store := { s.store with returned := some n } } : State) = t
  dsimp only
  split
  · exact (keeps_ite (keeps_withStore _ t) ((keeps_withStore _ t).trans (keeps_storeUp _))).trans (keeps_beginScan n _)
  · exact keeps_ite (raised _) (.refl _)

theorem keeps_identifyCompleted (r : IdentifyResult) (s : State) : Keeps s (s.identifyCompleted r) := by
  cases r with
  | ok n => exact keeps_ite (keeps_identified n s) (keeps_identifyFailed s)
  | fail => exact keeps_identifyFailed s

/-! ### Completions (R138 to R149, R162) -/

theorem keeps_storeFault (lane : Option LaneNo) (s : State) : Keeps s (s.storeFault lane) := keeps_createFinding _ _ s

theorem keeps_modExtent (n : Nat) (f : Extent → Extent) (s : State) : Keeps s (s.modExtent n f) :=
  keeps_of_same rfl rfl rfl

theorem keeps_modAc (l : LaneNo) (f : AcLane → AcLane) (s : State) : Keeps s (s.modAc l f) := keeps_of_same rfl rfl rfl

theorem keeps_headerDone (l : LaneNo) (ext : Nat) (ok : Bool) (s : State) : Keeps s (s.headerDone l ext ok) :=
  keeps_ite (keeps_modAc l _ s)
    (((keeps_modExtent ext _ s).trans (keeps_leaveExtent l _)).trans (keeps_storeFault _ _))

theorem keeps_contentDone (l : LaneNo) (i : Fin 4) (ext page : Nat) (s : State) :
    Keeps s (s.contentDone l i ext page) := by
  have done := ((keeps_modExtent ext (fun x => { x with
    pages := x.pages + 1, last := some (latestTime (x.last.getD 0) s.ac[l].buffers[i].records) }) s).trans
    (keeps_modAc l (fun a => a.setBuffer i .empty) _)).trans (keeps_reportBuffers l _)
  exact keeps_ite (done.trans (keeps_sealExtent l ext _)) done

theorem keeps_contentFailed (l : LaneNo) (i : Fin 4) (ext : Nat) (s : State) : Keeps s (s.contentFailed l i ext) :=
  (((keeps_modAc l _ s).trans (keeps_modExtent ext _ _)).trans (keeps_leaveExtent l _)).trans (keeps_storeFault _ _)

theorem keeps_sealFailed (l : LaneNo) (ext : Nat) (s : State) : Keeps s (s.sealFailed l ext) :=
  (keeps_modExtent ext _ s).trans (keeps_storeFault _ _)

theorem keeps_laneProgrammed (l : LaneNo) (what : LanePage) (ext page : Nat) (ok : Bool) (s : State) :
    Keeps s (s.laneProgrammed l what ext page ok) := by
  cases what with
  | header _ _ _ => exact keeps_headerDone l ext ok s
  | content i => exact keeps_ite (keeps_contentDone l i ext page s) (keeps_contentFailed l i ext s)
  | sealPage _ => exact keeps_ite (.refl s) (keeps_sealFailed l ext s)

theorem keeps_saveDone (ok : Bool) (s : State) : Keeps s (s.saveDone ok) := keeps_of_same rfl rfl rfl

theorem keeps_withSys (x : SysExtent) (s : State) : Keeps s { s with sys := x } := keeps_of_same rfl rfl rfl

theorem keeps_systemProgrammed (w : SysWrite) (ok : Bool) (s : State) : Keeps s (s.systemProgrammed w ok) := by
  unfold State.systemProgrammed
  refine keeps_ite ?_ (keeps_withSys _ s)
  split
  · exact keeps_ite ((keeps_withSys _ s).trans (keeps_saveDone true _)) (keeps_withSys _ s)
  · exact .refl s

theorem keeps_systemErased (s : State) : Keeps s s.systemErased := keeps_withSys _ s

theorem keeps_systemEraseFailed (s : State) : Keeps s s.systemEraseFailed := by
  have failed := (keeps_withSys { s.sys with queue := [] } s).trans (keeps_storeFault none _)
  exact keeps_ite (failed.trans (keeps_saveDone false _)) failed

theorem keeps_openExtent (l : LaneNo) (ext : Nat) (s : State) : Keeps s (s.openExtent l ext) := by
  have stamp : Keeps s s.takeStamp.2 := keeps_of_same rfl rfl rfl
  exact (stamp.trans (keeps_modExtent ext _ _)).trans (keeps_setAlloc l _ _)

theorem keeps_laneErased (l : LaneNo) (ext : Nat) (ok : Bool) (s : State) : Keeps s (s.laneErased l ext ok) :=
  (keeps_ite (keeps_openExtent l ext s)
    (((keeps_modExtent ext _ s).trans (keeps_leaveExtent l _)).trans (keeps_storeFault _ _))).trans (keeps_attemptDue true _)

theorem keeps_resumeConfigTimer (s : State) : Keeps s s.resumeConfigTimer := by
  unfold State.resumeConfigTimer
  split <;> exact keeps_of_same rfl rfl rfl

theorem keeps_withFormat (x : Option Nat) (s : State) : Keeps s { s with format := x } := keeps_of_same rfl rfl rfl

theorem keeps_raiseFormatDone (s : State) : Keeps s s.raiseFormatDone := keeps_of_same rfl rfl rfl

theorem keeps_formatErased (ext : Nat) (ok : Bool) (s : State) : Keeps s (s.formatErased ext ok) := by
  have erased : Keeps s (if ok then s.modExtent ext (Extent.wiped .free)
      else (s.modExtent ext (Extent.cleared .retired)).storeFault none) :=
    keeps_ite (keeps_modExtent ext _ s) ((keeps_modExtent ext _ s).trans (keeps_storeFault none _))
  have counted (t : State) (left : Nat) : Keeps t (if left = 0 then
      (State.raiseFormatDone { t with format := none }).resumeConfigTimer else { t with format := some left }) :=
    keeps_ite (((keeps_withFormat none t).trans (keeps_raiseFormatDone _)).trans (keeps_resumeConfigTimer _))
      (keeps_withFormat _ t)
  exact (erased.trans (counted _ _)).trans (keeps_attemptDue true _)

theorem keeps_beginFormat (s : State) : Keeps s s.beginFormat := by
  have lanes (t : State) := keeps_forLanes (fun l t => (t.modAc l AcLane.underFormat).leaveExtent l)
    (fun l t => (keeps_modAc l _ t).trans (keeps_leaveExtent l _)) t
  unfold State.beginFormat
  dsimp only
  generalize eq : forLanes (fun l t => (t.modAc l AcLane.underFormat).leaveExtent l) _ = u
  have begun : Keeps s u := by
    rw [← eq]
    refine Keeps.trans ?_ (lanes _)
    exact keeps_of_same rfl rfl rfl
  split
  · exact begun.trans (keeps_of_same rfl rfl rfl)
  · exact begun
  · exact begun

/-! ### Changes of mode (R123, R126 to R128) -/

theorem keeps_laneToConfig (l : LaneNo) (s : State) : Keeps s (s.laneToConfig l) := by
  rw [laneToConfig_eq]
  exact (keeps_closeSegment l .configEntry s).trans (keeps_modSt l _ _)

theorem keeps_enterConfig (s : State) : Keeps s s.enterConfig := by
  unfold State.enterConfig
  refine Keeps.trans (Keeps.trans ?_ (keeps_forLanes _ keeps_laneToConfig _)) (keeps_showConfigPattern _)
  exact keeps_of_same rfl rfl rfl

theorem keeps_toRun (s : State) : Keeps s s.toRun := keeps_of_same rfl rfl rfl

theorem keeps_laneToRun (l : LaneNo) (s : State) : Keeps s (s.laneToRun l) := by
  cases h : s.st[l].remembered with
  | none =>
    rw [laneToRun_none h]
    exact .refl s
  | some ident =>
    rw [laneToRun_some h]
    exact (keeps_openSegment l ident true s).trans (keeps_modSt l _ _)

theorem keeps_leaveConfig (s : State) : Keeps s s.leaveConfig :=
  ((keeps_toRun s).trans (keeps_forLanes _ keeps_laneToRun _)).trans (keeps_showRunPattern _)

theorem keeps_configExpired (s : State) : Keeps s s.configExpired := by
  have finding (t : State) : Keeps t t.configTimeoutFinding := keeps_createFinding _ _ t
  have notice (t : State) : Keeps t t.raiseConfigTimeout := keeps_of_same rfl rfl rfl
  exact (((keeps_leaveConfig s).trans (finding _)).trans (notice _)).trans (keeps_allocate _)

/-! ### Resets (R150 to R152, R196, R197) -/

theorem keeps_sealAfterFlush (l : LaneNo) (s : State) : Keeps s (s.sealAfterFlush l) := by
  unfold State.sealAfterFlush
  split
  · exact keeps_modAc l _ s
  · split
    · exact keeps_sealExtent l _ s
    · exact .refl s

theorem keeps_flushLane (l : LaneNo) (s : State) : Keeps s (s.flushLane l) := by
  have stamps : Keeps s s.takeStamp.2.takeStamp.2 := keeps_of_same rfl rfl rfl
  exact ((stamps.trans (keeps_modAc l _ _)).trans (keeps_sealAfterFlush l _)).trans (keeps_reportBuffers l _)

theorem keeps_laneReset (l : LaneNo) (s : State) : Keeps s (s.laneReset l) := by
  have engine (t : State) : Keeps t (t.setLe l .reset) := keeps_of_same rfl rfl rfl
  have lane := ((keeps_resetIntake l s).trans (engine _)).trans (keeps_resetCaptions l _)
  have closed := (lane.trans (keeps_resetSegments l _)).trans (keeps_allocate _)
  exact (((closed.trans (keeps_flushLane l _)).trans (keeps_abortLane l _)).trans (keeps_allocate _)).trans
    (keeps_startExport _)

theorem keeps_beginWarm (s : State) : Keeps s s.beginWarm := by
  have run : Keeps s (LoudnessEngine.inRun s) := keeps_ite ((keeps_toRun s).trans (keeps_showRunPattern _)) (.refl s)
  have flushes (t : State) : Keeps t { t.discardTiles with warm := some ⟨t.liu.map Liu.holdOff, !t.store.up⟩ } :=
    keeps_of_same rfl rfl rfl
  have aborted := ((run.trans (flushes _)).trans (keeps_abortRecall 0 .warmReset _)).trans
    (keeps_abortRecall 1 .warmReset _)
  exact ((aborted.trans (keeps_forLanes _ keeps_flushLane _)).trans (keeps_allocate _)).trans (keeps_startExport _)

/-- The monitor's part of a state is that of a reset. -/
theorem keeps_of_reset {s t : State} (cm : t.cm = State.reset.cm) (dev : t.dev = .reset) (overall : t.alarm.overall = .normal) :
    Keeps s t :=
  have same : Keeps State.reset t := keeps_of_same cm dev overall
  ⟨fun _ => same.statuses reset_statusesFollow, fun _ => same.owned reset_findingsOwned⟩

theorem keeps_reportAfresh (s : State) : Keeps s s.reportAfresh :=
  (keeps_ite (.refl s) (keeps_openStoreLost s)).trans
    (keeps_forLanes _ (fun l t => keeps_ite (keeps_openShort l t) (.refl t)) _)

theorem keeps_cleared (w : Warm) (s : State) : Keeps s (cleared w s) := keeps_of_reset rfl rfl rfl

theorem keeps_completeWarm (w : Warm) (s : State) : Keeps s (s.completeWarm w) := by
  have quiet : Keeps s (afresh w s) := (((keeps_cleared w s).trans (keeps_showRunPattern _)).trans
    (keeps_closeOpenEnds (fun _ => true) _)).trans (keeps_attemptDue false _)
  rw [completeWarm_eq]
  exact (quiet.trans (keeps_reportAfresh _)).trans (keeps_allocate _)

theorem keeps_coldReset (s : State) : Keeps s s.coldReset := keeps_of_reset rfl rfl rfl

end Sys2Proof.Findings
end

section
/-! PROOFS. Every request's work, every exchange and every event keeps the two invariants of the Compliance Monitor, and so does
every step. -/

namespace Sys2Proof.Findings

open Sys2Proof.Machine Sys2Proof.Laws Sys2Proof.Lanes Sys2Proof.SegmentTracking

/-! ### Requests (R186) -/

/-- A request's work keeps both invariants, whatever it answers. -/
def HandlerKeeps (h : Handler) : Prop := ∀ s : State, Keeps s (h s).2

theorem handlerKeeps_refuse (r : Result) : HandlerKeeps (refuse r) := fun s => .refl s

theorem handlerKeeps_answer (body : State → List Byte) : HandlerKeeps (answer body) := fun s => .refl s

theorem keeps_refuse (r : Result) (s : State) : Keeps s (refuse r s).2 := .refl s

/-- An answer with a state behind it keeps what that state keeps. -/
theorem keeps_reply {s t : State} (x : Reply) (h : Keeps s t) : Keeps s (x, t).2 := h

/-- Of two things that a request may do, each keeps. -/
theorem keeps_reply_ite {p : Prop} [Decidable p] {s : State} {x y : Reply × State} (yes : Keeps s x.2) (no : Keeps s y.2) :
    Keeps s (if p then x else y).2 := by
  split
  · exact yes
  · exact no

theorem handlerKeeps_inConfig {h : Handler} (keeps : HandlerKeeps h) : HandlerKeeps (inConfig h) :=
  fun s => keeps_reply_ite (.refl s) (keeps s)

theorem handlerKeeps_afterScan {h : Handler} (keeps : HandlerKeeps h) : HandlerKeeps (afterScan h) :=
  fun s => keeps_reply_ite (.refl s) (keeps s)

theorem handlerKeeps_withLane (n : Nat) {h : LaneNo → Handler} (keeps : ∀ l, HandlerKeeps (h l)) :
    HandlerKeeps (withLane n h) := by
  unfold withLane
  split
  · exact keeps _
  · exact handlerKeeps_refuse _

/-! ### Mode and time -/

theorem handlerKeeps_conf : HandlerKeeps handleConf := fun s => by
  unfold handleConf
  exact keeps_reply_ite (keeps_refuse _ s) (keeps_reply_ite (keeps_reply _ (.refl s)) (keeps_reply _ (keeps_enterConfig s)))

theorem handlerKeeps_runm : HandlerKeeps handleRunm :=
  handlerKeeps_inConfig fun s => by
    exact keeps_reply_ite (keeps_refuse _ s) (keeps_reply _ (keeps_leaveConfig s))

theorem keeps_setTime (t : Nat) (s : State) : Keeps s (s.setTime t) := by
  have windows (x : State) := keeps_forLanes (fun l x => if x.liu[l].carriage = .present ∨ x.liu[l].carriage = .drift then
    x.startWindow l else x) (fun l x => keeps_ite (keeps_modLiu l _ x) (.refl x)) x
  unfold State.setTime
  refine Keeps.trans (Keeps.trans ?_ (windows _)) (keeps_allocate _)
  exact keeps_of_same rfl rfl rfl

theorem handlerKeeps_timeAbsolute (t : Nat) : HandlerKeeps (handleTimeAbsolute t) := by
  intro s
  unfold handleTimeAbsolute
  split
  · exact keeps_reply_ite (keeps_refuse _ s) (keeps_reply_ite (keeps_refuse _ s) (keeps_reply _ (keeps_setTime t s)))
  · exact keeps_reply_ite (keeps_refuse _ s) (keeps_reply_ite (keeps_refuse _ s) (keeps_reply _ (keeps_setTime t s)))

theorem handlerKeeps_timeStep (d : Nat) : HandlerKeeps (handleTimeStep d) := by
  intro s
  unfold handleTimeStep
  split
  · exact keeps_reply_ite (keeps_refuse _ s) (keeps_refuse _ s)
  · exact keeps_reply_ite (keeps_refuse _ s) (keeps_reply _ (keeps_setTime _ s))

/-! ### Settings -/

theorem keeps_withSettings (x : Settings) (s : State) : Keeps s { s with settings := x } := keeps_of_same rfl rfl rfl

theorem keeps_applyLane (l : LaneNo) (x : LaneSettings) (s : State) : Keeps s (s.applyLane l x) := by
  have set := keeps_withSettings { s.settings with lanes := s.settings.lanes.set l x } s
  exact keeps_ite (set.trans (keeps_reportBuffers l _))
    (keeps_ite ((set.trans (keeps_disableLane l _)).trans (keeps_allocate _)) set)

theorem handlerKeeps_lane (f : LaneFields) : HandlerKeeps (handleLane f) :=
  handlerKeeps_inConfig <| handlerKeeps_withLane _ fun l s => keeps_reply _ (keeps_applyLane l _ s)

theorem handlerKeeps_filtEntry (f : FilterEntryFields) : HandlerKeeps (handleFiltEntry f) :=
  handlerKeeps_inConfig <| handlerKeeps_withLane _ fun l s => by
    dsimp only
    split
    · exact keeps_withSettings _ s
    · exact .refl s

theorem handlerKeeps_filtPassAll (lane value : Nat) : HandlerKeeps (handleFiltPassAll lane value) :=
  handlerKeeps_inConfig <| handlerKeeps_withLane _ fun _ s => keeps_withSettings _ s

theorem handlerKeeps_rule (f : RuleFields) : HandlerKeeps (handleRule f) :=
  handlerKeeps_inConfig fun s => by
    dsimp only
    split
    · exact .refl s
    · exact keeps_withSettings _ s

theorem handlerKeeps_rmap (lane kind set : Nat) : HandlerKeeps (handleRmap lane kind set) :=
  handlerKeeps_inConfig <| handlerKeeps_withLane _ fun _ s => by
    dsimp only
    split
    · exact keeps_withSettings _ s
    · exact .refl s

theorem keeps_setMap (m : ExtentMap) (s : State) : Keeps s (s.setMap m) := by
  unfold State.setMap
  refine Keeps.trans ?_ (keeps_allocate _)
  exact keeps_of_same rfl rfl rfl

theorem handlerKeeps_xmapDistributed (lo hi : Nat) : HandlerKeeps (handleXmapDistributed lo hi) :=
  handlerKeeps_inConfig fun s => keeps_setMap _ s

theorem handlerKeeps_xmapDirected (number : Nat) (range : Option DirectedFields) :
    HandlerKeeps (handleXmapDirected number range) :=
  handlerKeeps_inConfig fun s => by
    dsimp only
    split
    · split
      · exact keeps_setMap _ s
      · split
        · exact keeps_setMap _ s
        · exact .refl s
    · exact .refl s

theorem handlerKeeps_xmapPooling (lane target : Nat) : HandlerKeeps (handleXmapPooling lane target) :=
  handlerKeeps_inConfig <| handlerKeeps_withLane _ fun _ s => by
    dsimp only
    split
    · exact .refl s
    · exact keeps_setMap _ s

theorem handlerKeeps_dsev (f : SeverityFields) : HandlerKeeps (handleDsev f) :=
  handlerKeeps_inConfig fun s => keeps_withSettings _ s

theorem handlerKeeps_alrm (protocol timeout : Nat) : HandlerKeeps (handleAlrm protocol timeout) :=
  handlerKeeps_inConfig fun s => keeps_withSettings _ s

theorem handlerKeeps_setr (group index : Nat) : HandlerKeeps (handleSetr group index) := by
  intro s
  refine keeps_reply_ite (.refl s) ?_
  split
  · exact handlerKeeps_withLane index (fun _ => handlerKeeps_answer _) s
  · exact handlerKeeps_withLane index (fun _ => handlerKeeps_answer _) s
  · split <;> exact .refl s
  all_goals exact .refl s

theorem handlerKeeps_save : HandlerKeeps handleSave :=
  handlerKeeps_inConfig fun s => by
    split
    · exact .refl s
    · exact keeps_of_same rfl rfl rfl

/-! ### Format and resets -/

theorem handlerKeeps_fmat : HandlerKeeps handleFmat :=
  handlerKeeps_inConfig fun s => by
    have formats := (keeps_beginFormat s).trans (keeps_allocate _)
    exact keeps_reply_ite (keeps_refuse _ s) <| keeps_reply_ite (keeps_refuse _ s) <|
      keeps_reply_ite (keeps_refuse _ s) <| keeps_reply_ite (keeps_refuse _ s) (keeps_reply _ formats)

theorem handlerKeeps_rsta : HandlerKeeps handleRsta :=
  handlerKeeps_afterScan fun s => by
    exact keeps_reply_ite (keeps_refuse _ s) (keeps_reply _ (keeps_beginWarm s))

theorem handlerKeeps_lrst (lane : Nat) : HandlerKeeps (handleLrst lane) :=
  handlerKeeps_withLane _ fun l s => keeps_reply _ (keeps_laneReset l s)

/-! ### Queries and notices -/

theorem handlerKeeps_stat (target : Nat) : HandlerKeeps (handleStat target) := by
  unfold handleStat
  split
  · exact handlerKeeps_answer _
  · exact handlerKeeps_withLane _ fun _ => handlerKeeps_answer _

theorem handlerKeeps_extnByNumber (number : Nat) : HandlerKeeps (handleExtnByNumber number) :=
  handlerKeeps_afterScan fun s => by
    split <;> exact .refl s

theorem handlerKeeps_extnByLaneTime (lane time : Nat) : HandlerKeeps (handleExtnByLaneTime lane time) :=
  handlerKeeps_afterScan <| handlerKeeps_withLane _ fun _ s => by
    split <;> exact .refl s

theorem keeps_noticeReturned (k : SlotNo) (s : State) : Keeps s (s.noticeReturned k) :=
  keeps_ite ((keeps_modSlot k _ s).trans (keeps_releaseSlot k _)) (.refl s)

theorem handlerKeeps_note : HandlerKeeps handleNote := fun s => by
  have emptied (t : State) : Keeps t { t with notices := .empty } := keeps_of_same rfl rfl rfl
  exact ((keeps_noticeReturned 0 s).trans (keeps_noticeReturned 1 _)).trans (emptied _)

/-! ### Findings, holds and recalls -/

theorem handlerKeeps_ackfSingle (id : Nat) : HandlerKeeps (handleAckfSingle id) :=
  fun s => keeps_reply_ite (keeps_reply _ (keeps_acknowledge _ s)) (keeps_refuse _ s)

theorem handlerKeeps_ackfAllUpTo (id : Nat) : HandlerKeeps (handleAckfAllUpTo id) := fun s =>
  keeps_reply _ (keeps_acknowledge _ s)

theorem handlerKeeps_hold (lane start : Nat) (stop : Option Nat) : HandlerKeeps (handleHold lane start stop) :=
  handlerKeeps_afterScan <| handlerKeeps_withLane _ fun _ s => keeps_reply_ite (.refl s) (keeps_of_same rfl rfl rfl)

theorem handlerKeeps_hrel (id : Nat) : HandlerKeeps (handleHrel id) := fun s => by
  have released : Keeps s (s.releaseHold id) := keeps_of_same rfl rfl rfl
  exact keeps_reply_ite (keeps_refuse _ s)
    (keeps_reply_ite (keeps_reply _ (released.trans (keeps_allocate _))) (keeps_refuse _ s))

theorem handlerKeeps_rcal (lane t1 t0 slot : Nat) : HandlerKeeps (handleRcal lane t1 t0 slot) :=
  handlerKeeps_afterScan fun s => by
    refine keeps_reply_ite (keeps_refuse _ s) ?_
    split
    · exact keeps_reply_ite (keeps_reply _ (((keeps_startRecall _ _ _ _ s).trans (keeps_allocate _)).trans
        (keeps_startExport _))) (keeps_refuse _ s)
    · exact keeps_refuse _ s

theorem handlerKeeps_rstp (slot : Nat) : HandlerKeeps (handleRstp slot) := by
  intro s
  unfold handleRstp
  split
  · exact keeps_reply_ite (keeps_reply _ (((keeps_abortRecall _ _ s).trans (keeps_allocate _)).trans
      (keeps_startExport _))) (keeps_refuse _ s)
  · exact keeps_refuse _ s

/-- The work of every request keeps both invariants. -/
theorem handlerKeeps_handle (r : Request) : HandlerKeeps (handle r) := by
  cases r with
  | conf => exact handlerKeeps_conf
  | runm => exact handlerKeeps_runm
  | timeAbsolute t => exact handlerKeeps_timeAbsolute t
  | timeStep d => exact handlerKeeps_timeStep d
  | save => exact handlerKeeps_save
  | fmat => exact handlerKeeps_fmat
  | rsta => exact handlerKeeps_rsta
  | lrst l => exact handlerKeeps_lrst l
  | lane f => exact handlerKeeps_lane f
  | filtEntry f => exact handlerKeeps_filtEntry f
  | filtPassAll l v => exact handlerKeeps_filtPassAll l v
  | rule f => exact handlerKeeps_rule f
  | rmap l k n => exact handlerKeeps_rmap l k n
  | xmapDistributed lo hi => exact handlerKeeps_xmapDistributed lo hi
  | xmapDirected n r => exact handlerKeeps_xmapDirected n r
  | xmapPooling l t => exact handlerKeeps_xmapPooling l t
  | dsev f => exact handlerKeeps_dsev f
  | alrm p t => exact handlerKeeps_alrm p t
  | setr g i => exact handlerKeeps_setr g i
  | stat t => exact handlerKeeps_stat t
  | metr l => exact handlerKeeps_withLane l fun _ => handlerKeeps_answer _
  | verd n => exact handlerKeeps_answer _
  | find n => exact handlerKeeps_answer _
  | note => exact handlerKeeps_note
  | capt l => exact handlerKeeps_withLane l fun _ => handlerKeeps_answer _
  | extnByNumber n => exact handlerKeeps_extnByNumber n
  | extnByLaneTime l t => exact handlerKeeps_extnByLaneTime l t
  | hlst n => exact handlerKeeps_answer _
  | ackfSingle n => exact handlerKeeps_ackfSingle n
  | ackfAllUpTo n => exact handlerKeeps_ackfAllUpTo n
  | hold l a b => exact handlerKeeps_hold l a b
  | hrel n => exact handlerKeeps_hrel n
  | rcal l t1 t0 n => exact handlerKeeps_rcal l t1 t0 n
  | rstp n => exact handlerKeeps_rstp n

/-! ### Exchanges (R183 to R187) -/

theorem keeps_begin (s : State) : Keeps s s.begin := keeps_of_same rfl rfl rfl

theorem keeps_withLink (x : Link) (s : State) : Keeps s { s with link := x } := keeps_of_same rfl rfl rfl

theorem keeps_emit (e : Emission) (s : State) : Keeps s (s.emit e) := keeps_of_same rfl rfl rfl

theorem keeps_dispatch (seq : Byte) (tag frame : List Byte) {h : Handler} (keeps : HandlerKeeps h) (s : State) :
    Keeps s (s.dispatch seq tag frame h) :=
  ((keeps_withLink { s.link with state := .working, request := frame } s).trans (keeps _)).trans (keeps_withLink _ _)

theorem keeps_serve (seq : Byte) (r : Request) {h : Handler} (keeps : HandlerKeeps h) (s : State) :
    Keeps s (s.serve seq r h) :=
  keeps_ite ((keeps_emit _ s).trans (keeps_dispatch seq _ _ keeps _)) ((keeps_emit _ s).trans (keeps_withLink _ _))

theorem keeps_reject (seq : Byte) (tag : List Byte) (r : Result) (s : State) : Keeps s (s.reject seq tag r) :=
  (keeps_withLink _ s).trans (keeps_withLink _ _)

theorem keeps_checkFrame (bytes : List Byte) (s : State) : Keeps s (s.checkFrame bytes) := by
  unfold State.checkFrame
  refine keeps_ite (keeps_reject _ _ _ s) (keeps_ite (keeps_reject _ _ _ s) ?_)
  split
  · exact keeps_reject _ _ _ s
  · split
    · exact keeps_reject _ _ _ s
    · exact keeps_dispatch _ _ _ (handlerKeeps_handle _) s

theorem keeps_takeFrame (bytes : List Byte) (s : State) : Keeps s (s.takeFrame bytes) := by
  have shown : Keeps s (s.showStatus bytes.length) := keeps_emit _ s
  exact keeps_ite (shown.trans (keeps_withLink _ _))
    (keeps_ite (shown.trans (keeps_withLink _ _)) (shown.trans (keeps_checkFrame bytes _)))

theorem keeps_collect (clocked : Nat) (s : State) : Keeps s (s.collect clocked) :=
  keeps_ite (keeps_ite ((keeps_emit _ s).trans (keeps_withLink _ _)) (keeps_emit _ s)) (keeps_emit _ s)

theorem keeps_exchange (bytes : List Byte) (s : State) : Keeps s (s.exchange bytes) := by
  cases bytes with
  | nil => exact .refl s
  | cons first rest => exact keeps_ite (keeps_takeFrame rest s) (keeps_ite (keeps_collect _ s) (keeps_emit _ s))

/-! ### Events -/

/-- A command ends in a next state that keeps both invariants. -/
def RunKeeps (s : State) (o : Host.Outcome State Fault Refusal) : Prop := ∃ t, o = .next t ∧ Keeps s t

theorem runKeeps_next {s t : State} (h : Keeps s.begin t) : RunKeeps s (.next t) := ⟨t, rfl, (keeps_begin s).trans h⟩

/-- An event that is the case keeps, and one that is not changes nothing. -/
theorem runKeeps_when {p : Prop} [Decidable p] {s t : State} (h : Keeps s.begin t) :
    RunKeeps s (.next (if p then t else s.begin)) :=
  runKeeps_next (keeps_ite h (.refl _))

/-- A completion whose result is discarded lands all the same. -/
theorem keeps_unless_discarded {p : Prop} [Decidable p] {s t : State} (h : Keeps s.landed t) :
    Keeps s (if p then s.landed else t) :=
  keeps_ite (keeps_landed s) ((keeps_landed s).trans h)

theorem runKeeps_exportCellSent (s : State) : RunKeeps s (exec .exportCellSent s) := by
  show RunKeeps s (execExportCellSent s)
  unfold execExportCellSent
  split
  · exact runKeeps_next (((keeps_cellSent _ _).trans (keeps_allocate _)).trans (keeps_startExport _))
  · exact runKeeps_next (.refl _)

theorem runKeeps_rateWindowCompletion (l : LaneNo) (s : State) : RunKeeps s (exec (.rateWindowCompletion l) s) := by
  show RunKeeps s (execRateWindowCompletion l s)
  unfold execRateWindowCompletion
  split
  · exact runKeeps_when ((keeps_windowCompleted l _ _).trans (keeps_allocate _))
  · exact runKeeps_next (.refl _)

theorem runKeeps_exportHoldExpiry (s : State) : RunKeeps s (exec .exportHoldExpiry s) := by
  have off : Keeps s.begin s.begin.exportHoldOff := keeps_of_same rfl rfl rfl
  exact runKeeps_when (off.trans (keeps_startExport _))

theorem runKeeps_swapTimerExpiry (s : State) : RunKeeps s (exec .swapTimerExpiry s) := by
  have swapped : Keeps s.begin { s.begin with alarm := s.alarm.swapped s.clock } := keeps_of_same rfl rfl rfl
  exact runKeeps_when swapped

theorem runKeeps_retryTimerExpiry (s : State) : RunKeeps s (exec .retryTimerExpiry s) := by
  have due : Keeps s.begin { s.begin with retry := some (s.clock + 1000), attemptDue := true } := keeps_of_same rfl rfl rfl
  exact runKeeps_when (due.trans (keeps_allocate _))

theorem runKeeps_storeTimeout (s : State) : RunKeeps s (exec .storeTimeout s) := by
  show RunKeeps s (execStoreTimeout s)
  unfold execStoreTimeout
  split
  · exact runKeeps_when ((keeps_timedOut _ _).trans (keeps_allocate _))
  · exact runKeeps_next (.refl _)

theorem runKeeps_identifyCompletion (r : IdentifyResult) (s : State) : RunKeeps s (exec (.identifyCompletion r) s) := by
  show RunKeeps s (execIdentifyCompletion r s)
  unfold execIdentifyCompletion
  split
  · exact runKeeps_next (((keeps_landed _).trans (keeps_identifyCompleted r _)).trans (keeps_allocate _))
  · exact runKeeps_next (.refl _)

theorem runKeeps_laneProgramCompletion (ok : Bool) (s : State) : RunKeeps s (exec (.laneProgramCompletion ok) s) := by
  show RunKeeps s (execLaneProgramCompletion ok s)
  unfold execLaneProgramCompletion
  split
  · exact runKeeps_next (keeps_unless_discarded ((keeps_laneProgrammed _ _ _ _ ok _).trans (keeps_allocate _)))
  · exact runKeeps_next (.refl _)

theorem runKeeps_systemProgramCompletion (ok : Bool) (s : State) : RunKeeps s (exec (.systemProgramCompletion ok) s) := by
  show RunKeeps s (execSystemProgramCompletion ok s)
  unfold execSystemProgramCompletion
  split
  · exact runKeeps_next ((keeps_landed _).trans (keeps_systemProgrammed _ ok _))
  · exact runKeeps_next (.refl _)

theorem runKeeps_systemEraseCompletion (ok : Bool) (s : State) : RunKeeps s (exec (.systemEraseCompletion ok) s) := by
  show RunKeeps s (execSystemEraseCompletion ok s)
  unfold execSystemEraseCompletion
  split
  · exact runKeeps_next (keeps_ite ((keeps_landed _).trans (keeps_systemErased _))
      ((keeps_landed _).trans (keeps_systemEraseFailed _)))
  · exact runKeeps_next (.refl _)

theorem runKeeps_laneEraseCompletion (ok : Bool) (s : State) : RunKeeps s (exec (.laneEraseCompletion ok) s) := by
  show RunKeeps s (execLaneEraseCompletion ok s)
  unfold execLaneEraseCompletion
  split
  · exact runKeeps_next (keeps_unless_discarded ((keeps_laneErased _ _ ok _).trans (keeps_allocate _)))
  · exact runKeeps_next (.refl _)

theorem runKeeps_formatEraseCompletion (ok : Bool) (s : State) : RunKeeps s (exec (.formatEraseCompletion ok) s) := by
  show RunKeeps s (execFormatEraseCompletion ok s)
  unfold execFormatEraseCompletion
  split
  · exact runKeeps_next (((keeps_landed _).trans (keeps_formatErased _ ok _)).trans (keeps_allocate _))
  · exact runKeeps_next (.refl _)

theorem runKeeps_scanReadCompletion (r : ReadResult) (s : State) : RunKeeps s (exec (.scanReadCompletion r) s) := by
  show RunKeeps s (execScanReadCompletion r s)
  unfold execScanReadCompletion
  split
  · exact runKeeps_next (((keeps_landed _).trans (keeps_scanRead r _)).trans (keeps_allocate _))
  · exact runKeeps_next (.refl _)

theorem runKeeps_recallReadCompletion (r : ReadResult) (s : State) : RunKeeps s (exec (.recallReadCompletion r) s) := by
  show RunKeeps s (execRecallReadCompletion r s)
  unfold execRecallReadCompletion
  split
  · exact runKeeps_next (keeps_unless_discarded (((keeps_recallRead _ _ _ r _).trans (keeps_allocate _)).trans
      (keeps_startExport _)))
  · exact runKeeps_next (.refl _)

theorem runKeeps_warmResetComplete (s : State) : RunKeeps s (exec .warmResetComplete s) := by
  show RunKeeps s (execWarmResetComplete s)
  unfold execWarmResetComplete
  split
  · exact runKeeps_when (keeps_completeWarm _ _)
  · exact runKeeps_next (.refl _)

/-- A request row serves the request that it names. -/
theorem exec_request (i : Instr) (s : State) (seq : Byte) (r : Request) (names : i.request = some (seq, r)) :
    exec i s = .next (s.begin.serve seq r (handle r)) := by
  cases i <;> cases names <;> rfl

/-- Every row that is no request: a cell, a timer, a completion, a reset or an exchange of any bytes. -/
theorem runKeeps_event (i : Instr) (s : State) (none_ : i.request = none) : RunKeeps s (exec i s) := by
  cases i
  case inboundCell l bytes => exact runKeeps_next (keeps_ite (.refl _) (keeps_inboundCell l bytes _))
  case exportHoldCell bytes => exact runKeeps_next ((keeps_exportHoldCell bytes _).trans (keeps_startExport _))
  case exportHoldExpiry => exact runKeeps_exportHoldExpiry s
  case exportCellSent => exact runKeeps_exportCellSent s
  case gapTimerExpiry l => exact runKeeps_when ((keeps_gapExpired l _).trans (keeps_allocate _))
  case rateWindowCompletion l => exact runKeeps_rateWindowCompletion l s
  case holdOffResend l => exact runKeeps_when (keeps_resendHold l _)
  case keepaliveExpiry l => exact runKeeps_when (keeps_keepaliveExpired l _)
  case laneGraceExpiry l w => exact runKeeps_when ((keeps_graceExpired l w _).trans (keeps_allocate _))
  case configTimerExpiry => exact runKeeps_when (keeps_configExpired _)
  case swapTimerExpiry => exact runKeeps_swapTimerExpiry s
  case retryTimerExpiry => exact runKeeps_retryTimerExpiry s
  case storeIssue => exact runKeeps_next (keeps_issueNext _)
  case storeTimeout => exact runKeeps_storeTimeout s
  case identifyRetry => exact runKeeps_when (keeps_retryIdentify _)
  case identifyCompletion r => exact runKeeps_identifyCompletion r s
  case laneProgramCompletion ok => exact runKeeps_laneProgramCompletion ok s
  case systemProgramCompletion ok => exact runKeeps_systemProgramCompletion ok s
  case systemEraseCompletion ok => exact runKeeps_systemEraseCompletion ok s
  case laneEraseCompletion ok => exact runKeeps_laneEraseCompletion ok s
  case formatEraseCompletion ok => exact runKeeps_formatEraseCompletion ok s
  case scanReadCompletion r => exact runKeeps_scanReadCompletion r s
  case recallReadCompletion r => exact runKeeps_recallReadCompletion r s
  case coldReset => exact ⟨_, rfl, keeps_coldReset s⟩
  case warmResetComplete => exact runKeeps_warmResetComplete s
  case incompleteFrame bytes => exact runKeeps_next (keeps_exchange bytes _)
  case droppedFrame bytes => exact runKeeps_next (keeps_exchange bytes _)
  case rejectReply bytes => exact runKeeps_next (keeps_exchange bytes _)
  case unknownTag bytes => exact runKeeps_next (keeps_exchange bytes _)
  case collect clocked => exact runKeeps_next (keeps_collect clocked _)
  all_goals cases none_

/-! ### Steps -/

theorem runKeeps_exec (i : Instr) (s : State) : RunKeeps s (exec i s) := by
  cases names : i.request with
  | none => exact runKeeps_event i s names
  | some asked =>
    obtain ⟨seq, r⟩ := asked
    rw [exec_request i s seq r names]
    exact runKeeps_next (keeps_serve _ _ (handlerKeeps_handle _) _)

theorem keeps_draw {α : Type} (xs : List α) (s : State) : Keeps s (s.draw xs).2 := by
  unfold State.draw
  split <;> exact keeps_of_same rfl rfl rfl

theorem keeps_withPending (xs : List Instr) (s : State) : Keeps s { s with pending := xs } := keeps_of_same rfl rfl rfl

theorem keeps_tick (s : State) : Keeps s s.tick := by
  have passed : Keeps s { s with emitted := [], clock := s.clock + 1, station := stationAfter s.station } :=
    keeps_of_same rfl rfl rfl
  exact (passed.trans (keeps_draw _ _)).trans (keeps_withPending _ _)

/-- A step runs the command in front, or lets a millisecond pass. -/
theorem keeps_step (s t : State) (h : step s = .next t) : Keeps s t := by
  unfold step at h
  split at h
  · next i rest _ =>
    obtain ⟨u, ran, keeps⟩ := runKeeps_exec i { s with pending := rest }
    rw [ran] at h
    cases h
    exact (keeps_withPending rest s).trans keeps
  · cases h
    exact keeps_tick s

/-- Settles O6: every command keeps both invariants, and so does the tick. -/
theorem stepKeepsStatuses : Obligations.StepKeepsStatuses := by
  unfold Obligations.StepKeepsStatuses
  exact ⟨fun s t follows h => (keeps_step s t h).statuses follows, fun s t owned h => (keeps_step s t h).owned owned⟩

end Sys2Proof.Findings
end

section
/-! PROOFS. ACKF: what an acknowledgement makes of the log and leaves alone (R119, R120), and the statement. -/

namespace Sys2Proof.Findings

open Sys2Proof.Machine Sys2Proof.Laws Sys2Proof.Lanes Sys2Proof.SegmentTracking

/-! ### Acknowledging (R119) -/

theorem ackable_iff (f : Finding) : f.ackable = true ↔ f.state = .active ∨ f.state = .ended := by
  simp [Finding.ackable]

/-- The log with the acknowledged flag set in the ACTIVE and ENDED records that are named. -/
def ackedLog (which : Finding → Bool) (log : List Finding) : List Finding :=
  log.map (fun f => if which f ∧ (f.state = .active ∨ f.state = .ended) then { f with acked := true } else f)

/-- An acknowledgement touches the log, the statuses and the lines. -/
theorem acknowledge_shape (which : Finding → Bool) (s : State) : ∃ (cm : Vector CmLane 8) (x : Status) (a : Alarm),
    s.acknowledge which
      = { s with cm := cm, dev := { s.dev with log := ackedLog which s.dev.log, status := x }, alarm := a } := by
  have named : (s.dev.log.map fun f => if which f && f.ackable then { f with acked := true } else f)
      = ackedLog which s.dev.log :=
    List.map_congr_left fun f _ => if_congr (by rw [Bool.and_eq_true, ackable_iff]) rfl rfl
  obtain ⟨a, shape⟩ := reassess_shape { s with dev := { s.dev with log := ackedLog which s.dev.log } }
  unfold State.acknowledge
  rw [named, shape]
  exact ⟨_, _, a, rfl⟩

theorem acknowledge_statusesFollow (which : Finding → Bool) (s : State) : (s.acknowledge which).statusesFollow :=
  reassess_statusesFollow _

/-! ### The exchange -/

/-- What an event leaves alone stays so behind one reply. -/
theorem leavesOthers_putReply {s t : State} (h : State.leavesOthers s t) (frame : List Byte) :
    State.leavesOthers (s.putReply frame) (t.putReply frame) where
  pending := h.pending
  clock := h.clock
  station := h.station
  le := h.le
  cc := h.cc
  st := h.st
  verdicts := h.verdicts
  settings := h.settings
  mode := h.mode
  configTimer := h.configTimer
  inForce := h.inForce
  slots := h.slots
  exportLink := h.exportLink
  warm := h.warm
  link := by
    show ({ t.link with state := .replying, request := [], reply := frame } : Link)
      = { s.link with state := .replying, request := [], reply := frame }
    rw [h.link]
  saveInFlight := h.saveInFlight

/-- A request that acknowledges and answers OK sets the flags it names and leaves the rest but for the statuses. -/
theorem serve_acknowledges {q : Byte} {r : Request} {h : Handler} {which : Finding → Bool} {body : List Byte} {s : State}
    (ready : s.readyToTake = true)
    (does : h (working q r s) = (⟨.ok, body⟩, (working q r s).acknowledge which)) :
    let t := s.begin.serve q r h
    t.dev.log = ackedLog which s.dev.log ∧ t.statusesFollow ∧ t.dev.nextId = s.dev.nextId ∧ t.holds = s.holds ∧
      t.ac = s.ac ∧ t.extents = s.extents ∧ t.notices = s.notices ∧
      State.leavesOthers (s.answered q r ⟨.ok, body⟩) t := by
  have follows := acknowledge_statusesFollow which (working q r s)
  have others := leavesOthers_of_kept (kept_acknowledge which (working q r s))
  obtain ⟨cm, x, a, shape⟩ := acknowledge_shape which (working q r s)
  dsimp only
  rw [serve_ready q r h s ready, does, ← answered_eq]
  refine ⟨?_, (keeps_withLink _ _).statuses follows, ?_, ?_, ?_, ?_, ?_, leavesOthers_putReply others _⟩
  all_goals
    rw [shape]
    rfl

/-- ACKF of one id acknowledges when a record it names is ACTIVE or ENDED. -/
theorem handleAckfSingle_some {id : Nat} {s : State} (named : s.dev.log.any (fun f => f.id == id && f.ackable) = true) :
    handleAckfSingle id s = (⟨.ok, []⟩, s.acknowledge (fun f => f.id == id)) := if_pos named

theorem handleAckfSingle_none {id : Nat} {s : State} (none_ : s.dev.log.any (fun f => f.id == id && f.ackable) = false) :
    handleAckfSingle id s = (.refuse .noSuch, s) := if_neg (by rw [none_]; exact Bool.false_ne_true)

/-- Settles O29: both forms acknowledge, and a single id that names no such record is refused. -/
theorem ackfAcknowledges : Obligations.AckfAcknowledges := by
  unfold Obligations.AckfAcknowledges
  intro q id s ready
  refine ⟨fun named => ?_, fun none_ => ?_, ?_⟩
  · exact ⟨_, rfl, serve_acknowledges ready (handleAckfSingle_some (s := working q (.ackfSingle id) s) named)⟩
  · exact congrArg _ (LoudnessEngine.serve_answered ready
      (handleAckfSingle_none (s := working q (.ackfSingle id) s) none_))
  · exact ⟨_, rfl, serve_acknowledges ready rfl⟩

end Sys2Proof.Findings
end

section
/-! PROOFS. Condition findings: the settling of open findings in the log (R112 to R114), and what the checks of a watched
segment make of a tile (R108 to R112). -/

namespace Sys2Proof.Findings

open Sys2Proof.Machine Sys2Proof.Laws Sys2Proof.Lanes Sys2Proof.SegmentTracking

/-! ### Changes of state in the log (R107) -/

/-- A record of the log behind a replacement is an old one of another id, or the new one with the flag of the old. -/
theorem mem_replaceLogged {x g : Finding} {log : List Finding} (h : x ∈ replaceLogged g log) :
    (x.id ≠ g.id ∧ x ∈ log) ∨ ∃ acked : Bool, x = { g with acked := acked } := by
  obtain ⟨y, mem, rfl⟩ := List.mem_map.mp h
  split
  · exact Or.inr ⟨_, rfl⟩
  · next other => exact Or.inl ⟨other, mem⟩

theorem replaceLogged_ids (g : Finding) (log : List Finding) :
    (replaceLogged g log).map Finding.id = log.map Finding.id := by
  unfold replaceLogged
  rw [List.map_map]
  refine List.map_congr_left fun x _ => ?_
  show Finding.id (if x.id = g.id then _ else x) = x.id
  split
  · next same => exact same.symm
  · rfl

/-- A replacement of an id that no record has changes nothing. -/
theorem replaceLogged_absent {g : Finding} {log : List Finding} (absent : ∀ x ∈ log, x.id ≠ g.id) :
    replaceLogged g log = log := by
  unfold replaceLogged
  conv_rhs => rw [← List.map_id log]
  exact List.map_congr_left fun x mem => if_neg (absent x mem)

/-- A change of state leaves the next id, and of the log all but the record of the finding's id. -/
theorem changeFinding_dev (g : Finding) (time : Time) (s : State) :
    (s.changeFinding g time).dev.nextId = s.dev.nextId ∧
    (s.changeFinding g time).dev.log = if g.id = 0 then s.dev.log else replaceLogged g s.dev.log := by
  unfold State.changeFinding
  rw [announce_dev]
  split
  · next found =>
    have id : g.id ≠ 0 := fun zero => by simp [State.logged, zero] at found
    exact ⟨rfl, (if_neg id).symm⟩
  · next missing =>
    refine ⟨rfl, ?_⟩
    split
    · rfl
    · next id =>
      simp only [State.logged, if_neg id, List.find?_eq_none, beq_iff_eq] at missing
      exact (replaceLogged_absent missing).symm

theorem changeFinding_ids (g : Finding) (time : Time) (s : State) :
    (s.changeFinding g time).dev.log.map Finding.id = s.dev.log.map Finding.id := by
  rw [(changeFinding_dev g time s).2]
  split
  · rfl
  · exact replaceLogged_ids g _

/-! ### Settling (R112 to R114) -/

theorem settledIn_of_log {f : Finding} {time : Time} {s t : State} (h : f.settledIn time s) (log : t.dev.log = s.dev.log) :
    f.settledIn time t := by
  unfold Finding.settledIn
  rw [log]
  exact h

/-- A change of state settles a finding when the new record of its id does, and leaves one of another id settled. -/
theorem changeFinding_settles {f g : Finding} {time now : Time} {s : State}
    (own : g.id = f.id → (f.state = .pending → g.state = .withdrawn ∧ g.ended = some time) ∧
      (f.state = .active → g.state = .ended ∧ g.ended = some time))
    (before : g.id ≠ f.id → f.settledIn time s) : f.settledIn time (s.changeFinding g now) := by
  intro x mem id same
  rw [(changeFinding_dev g now s).2] at mem
  split at mem
  · next zero => exact before (fun e => id (e.symm.trans zero)) x mem id same
  · rcases mem_replaceLogged mem with ⟨other, old⟩ | ⟨acked, rfl⟩
    · exact before (fun e => other (same.trans e.symm)) x old id same
    · exact own same

theorem endHoldOf_dev (f : Finding) (time : Time) (postRoll : Nat) (s : State) :
    (s.endHoldOf f time postRoll).dev = s.dev := by
  unfold State.endHoldOf State.setHoldEnd
  repeat' split
  all_goals rfl

/-- Settling an open finding settles it in the log, and leaves settled whatever was so. -/
theorem settleOpen_settles {f : Finding} {time : Time} {postRoll : Nat} {o : Option Finding} {s : State}
    (alone : ∀ g, o = some g → g.id = f.id → g = f) (before : o ≠ some f → f.settledIn time s) :
    f.settledIn time (s.settleOpen time postRoll o) := by
  cases o with
  | none => exact before (by simp)
  | some g =>
    have other (ne : g.id ≠ f.id) : f.settledIn time s := before fun e => ne (by rw [Option.some.inj e])
    have closed (still : g.state ≠ .pending ∧ g.state ≠ .active) : f.settledIn time s := by
      by_cases e : g = f
      · subst e
        exact fun _ _ _ _ => ⟨fun p => absurd p still.1, fun a => absurd a still.2⟩
      · exact before fun h => e (Option.some.inj h)
    show f.settledIn time (s.settleFinding time postRoll g)
    unfold State.settleFinding
    split
    · next pending =>
      refine changeFinding_settles (fun same => ?_) other
      rw [← alone g rfl same]
      exact ⟨fun _ => ⟨rfl, rfl⟩, fun active => absurd (pending.symm.trans active) (by decide)⟩
    · next active =>
      refine changeFinding_settles (fun same => ?_) fun ne => settledIn_of_log (other ne) (by rw [endHoldOf_dev])
      rw [← alone g rfl same]
      exact ⟨fun pending => absurd (active.symm.trans pending) (by decide), fun _ => ⟨rfl, rfl⟩⟩
    · next ended => exact closed (by rw [ended]; decide)
    · next withdrawn => exact closed (by rw [withdrawn]; decide)

/-- Settling leaves the ids of the log and the next one. -/
theorem settleOpen_ids (time : Time) (postRoll : Nat) (o : Option Finding) (s : State) :
    (s.settleOpen time postRoll o).dev.log.map Finding.id = s.dev.log.map Finding.id ∧
      (s.settleOpen time postRoll o).dev.nextId = s.dev.nextId := by
  cases o with
  | none => exact ⟨rfl, rfl⟩
  | some f =>
    show (s.settleFinding time postRoll f).dev.log.map Finding.id = _ ∧ (s.settleFinding time postRoll f).dev.nextId = _
    unfold State.settleFinding
    split
    · exact ⟨changeFinding_ids _ _ s, (changeFinding_dev _ _ s).1⟩
    · have dev := endHoldOf_dev { f with state := .ended, ended := some time } time postRoll s
      exact ⟨(changeFinding_ids _ _ _).trans (by rw [dev]), (changeFinding_dev _ _ _).1.trans (by rw [dev])⟩
    · exact ⟨rfl, rfl⟩
    · exact ⟨rfl, rfl⟩

/-- A check's open finding, if there is one, has been settled at a time; nothing else of the log's ids changed. -/
def Settles (time : Time) (f : Option Finding) (s t : State) : Prop :=
  (∀ x, f = some x → x.settledIn time t) ∧ (f = none → t = s) ∧
  t.dev.log.map Finding.id = s.dev.log.map Finding.id ∧ t.dev.nextId = s.dev.nextId

theorem settleOpen_spec (time : Time) (postRoll : Nat) (f : Option Finding) (s : State) :
    Settles time f s (s.settleOpen time postRoll f) := by
  refine ⟨fun x e => ?_, fun e => by rw [e]; rfl, settleOpen_ids time postRoll f s⟩
  refine settleOpen_settles (fun g h _ => Option.some.inj (h.symm.trans e)) fun ne => absurd e ne

/-! ### Activation (R107, R121) -/

/-- The answer to a request for a hold is all that it changes of the finding. -/
theorem holdFor_fst (ask : Option HoldAsk) (f : Finding) (s : State) : ∃ (hold : Option Nat) (unheld : Bool),
    (s.holdFor ask f).1 = { f with holdId := hold, unheld := unheld } := by
  unfold State.holdFor
  split
  · split <;> exact ⟨_, _, rfl⟩
  · exact ⟨f.holdId, f.unheld, rfl⟩

theorem activateFinding_fst (time : Time) (ask : Option HoldAsk) (f : Finding) (s : State) :
    ∃ (hold : Option Nat) (unheld : Bool), (s.activateFinding time ask f).1
      = { f with state := .active, activated := some time, holdId := hold, unheld := unheld } :=
  holdFor_fst ask { f with state := .active, activated := some time } s

/-! ### A tile that opens, holds or ends a condition (R108 to R112) -/

/-- A check opens its finding at a tile: under the next id, for the lane and the segment, PENDING when the rule set has a grace,
and announced. -/
def Opens (l : LaneNo) (rule : RuleSet) (segId : Nat) (time : Time) (kind : FindingKind) (severity : Severity)
    (measured limit : Int) (x : Option Finding) (s t : State) : Prop :=
  ∃ f, x = some f ∧ f.id = s.dev.nextId ∧ f.lane = some l ∧ f.kind = kind ∧ f.severity = severity ∧
    f.state = (if rule.grace = 0 then .active else .pending) ∧ f.segId = some segId ∧ f.opened = time ∧
    f.measured = some measured ∧ f.limit = some limit ∧ t.dev.nextId = nextFindingId s.dev.nextId ∧
    t.notices.finding[l] = true

theorem openCondition_opens (l : LaneNo) (kind : FindingKind) (severity : Severity) (rule : RuleSet) (segId : Nat)
    (start closeTime : Time) (measured limit : Int) (s : State) :
    Opens l rule segId closeTime kind severity measured limit
      (some (s.openCondition l kind severity rule segId start closeTime measured limit).1) s
      (s.openCondition l kind severity rule segId start closeTime measured limit).2 := by
  unfold State.openCondition
  dsimp only
  obtain ⟨hold, unheld, f⟩ := createFinding_fst { conditionDraft (some l) kind severity (decide (rule.grace = 0)) closeTime
    with segId := some segId, measured := some measured, limit := some limit }
    (if decide (rule.grace = 0) then openEndedAsk severity rule.holdOnBreach rule.preRoll start else none) s
  rw [f]
  refine ⟨_, rfl, rfl, rfl, rfl, rfl, ?_, rfl, rfl, rfl, rfl, createFinding_nextId _ _ s, createFinding_raises _ _ s l rfl⟩
  exact if_congr decide_eq_true_iff rfl rfl

/-- A later tile holds the condition of an open finding: its measured value is kept current, and while PENDING its grace is
counted until it is met. -/
def Holds (rule : RuleSet) (time : Time) (f : Finding) (measured : Int) (grace grace' : Nat) (x : Option Finding) : Prop :=
  ∃ g, x = some g ∧ g.id = f.id ∧ g.kind = f.kind ∧ g.opened = f.opened ∧ g.measured = some measured ∧
    (f.state = .pending → grace' = grace + 1 ∧
      (grace + 1 < rule.grace → g.state = .pending) ∧
      (rule.grace ≤ grace + 1 → g.state = .active ∧ g.activated = some time)) ∧
    (f.state ≠ .pending → grace' = grace ∧ g.state = f.state ∧ g.activated = f.activated)

theorem holdCondition_holds (rule : RuleSet) (start closeTime : Time) (measured : Int) (grace : Nat) (f : Finding)
    (s : State) :
    Holds rule closeTime f measured grace (s.holdCondition rule start closeTime measured grace f).1.1
      (some (s.holdCondition rule start closeTime measured grace f).1.2) := by
  unfold State.holdCondition
  dsimp only
  split
  · next pending =>
    split
    · next met =>
      obtain ⟨hold, unheld, g⟩ := activateFinding_fst closeTime
        (openEndedAsk f.severity rule.holdOnBreach rule.preRoll start) { f with measured := some measured } s
      refine ⟨_, rfl, ?_⟩
      rw [g]
      exact ⟨rfl, rfl, rfl, rfl, fun _ => ⟨rfl, fun early => absurd met (Nat.not_le.mpr early), fun _ => ⟨rfl, rfl⟩⟩,
        fun no => absurd pending no⟩
    · next unmet =>
      exact ⟨_, rfl, rfl, rfl, rfl, rfl, fun _ => ⟨rfl, fun _ => pending, fun met => absurd met unmet⟩,
        fun no => absurd pending no⟩
  · next no => exact ⟨_, rfl, rfl, rfl, rfl, rfl, fun pending => absurd pending no, fun _ => ⟨rfl, rfl, rfl⟩⟩

/-- A tile counts for a run: the run is longer by one, opens a finding when it reaches the limit, and holds an open one. -/
def Counts (l : LaneNo) (rule : RuleSet) (segId : Nat) (time : Time) (kind : FindingKind) (severity : Severity) (limit : Nat)
    (c : RunCond) (s : State) (x : RunCond × State) : Prop :=
  x.1.run = c.run + 1 ∧ x.1.start = (if c.run = 0 then time else c.start) ∧
  (c.finding = none → c.run + 1 < limit → x.1.finding = none ∧ x.1.grace = c.grace ∧ x.2 = s) ∧
  (c.finding = none → limit ≤ c.run + 1 →
    Opens l rule segId time kind severity ((c.run + 1 : Nat) : Int) limit x.1.finding s x.2 ∧ x.1.grace = 0) ∧
  (∀ f, c.finding = some f → Holds rule time f ((c.run + 1 : Nat) : Int) c.grace x.1.grace x.1.finding)

theorem runHolds_counts (l : LaneNo) (kind : FindingKind) (severity : Severity) (limit : Nat) (rule : RuleSet)
    (segId : Nat) (closeTime : Time) (c : RunCond) (s : State) :
    Counts l rule segId closeTime kind severity limit c s (s.runHolds l kind severity limit rule segId closeTime c) := by
  unfold State.runHolds
  dsimp only
  split
  · next f open_ =>
    refine ⟨rfl, rfl, fun none_ => ?_, fun none_ => ?_, fun g some_ => ?_⟩
    · rw [open_] at none_; cases none_
    · rw [open_] at none_; cases none_
    · rw [← Option.some.inj (open_.symm.trans some_)]
      exact holdCondition_holds _ _ _ _ _ _ _
  · next none_ =>
    have no (f : Finding) : c.finding ≠ some f := fun some_ => by rw [none_] at some_; cases some_
    split
    · next reached =>
      exact ⟨rfl, rfl, fun _ short => absurd reached (Nat.not_le.mpr short),
        fun _ _ => ⟨openCondition_opens _ _ _ _ _ _ _ _ _ _, rfl⟩, fun f some_ => absurd some_ (no f)⟩
    · next short =>
      exact ⟨rfl, rfl, fun _ _ => ⟨rfl, rfl, rfl⟩, fun _ reached => absurd reached short,
        fun f some_ => absurd some_ (no f)⟩

/-- A tile that ends a run settles its finding, and the check is fresh from it on. -/
theorem runEnds_settles (rule : RuleSet) (closeTime : Time) (c : RunCond) (s : State) :
    (s.runEnds rule closeTime c).1 = ⟨0, none, 0, none⟩ ∧ Settles closeTime c.finding s (s.runEnds rule closeTime c).2 :=
  ⟨rfl, settleOpen_spec _ _ _ s⟩

/-! ### The three checks (R109 to R111) -/

theorem deadAirTile_void {l : LaneNo} {rule : RuleSet} {segId : Nat} {r : TileRecord} (c : RunCond) (s : State)
    (void : r.void = true) : s.deadAirTile l rule segId r c = (c, s) := if_pos void

theorem deadAirTile_silent {l : LaneNo} {rule : RuleSet} {segId : Nat} {r : TileRecord} (c : RunCond) (s : State)
    (solid : r.void = false) (silent : r.silent = true) : s.deadAirTile l rule segId r c
      = s.runHolds l .deadAir rule.severities.deadAir rule.deadAirLimit rule segId r.closeTime c := by
  simp only [State.deadAirTile, solid, silent, Bool.false_eq_true, if_false, if_true]

theorem deadAirTile_sounding {l : LaneNo} {rule : RuleSet} {segId : Nat} {r : TileRecord} (c : RunCond) (s : State)
    (solid : r.void = false) (sounding : r.silent = false) :
    s.deadAirTile l rule segId r c = s.runEnds rule r.closeTime c := by
  simp only [State.deadAirTile, solid, sounding, Bool.false_eq_true, if_false]

theorem captionGapTile_exempt {l : LaneNo} {rule : RuleSet} {duty : Duty} {segId : Nat} {r : TileRecord} (c : RunCond)
    (s : State) (exempt : duty = .exempt ∨ r.void = true) : s.captionGapTile l rule duty segId r c = (c, s) :=
  if_pos exempt

theorem captionGapTile_silent {l : LaneNo} {rule : RuleSet} {duty : Duty} {segId : Nat} {r : TileRecord} (c : RunCond)
    (s : State) (required : duty = .required) (solid : r.void = false) (silent : r.alive = false) :
    s.captionGapTile l rule duty segId r c
      = s.runHolds l .captionGap rule.severities.captionGap rule.gapLimit rule segId r.closeTime c := by
  simp [State.captionGapTile, required, solid, silent]

theorem captionGapTile_alive {l : LaneNo} {rule : RuleSet} {duty : Duty} {segId : Nat} {r : TileRecord} (c : RunCond)
    (s : State) (required : duty = .required) (solid : r.void = false) (alive : r.alive = true) :
    s.captionGapTile l rule duty segId r c = s.runEnds rule r.closeTime c := by
  simp [State.captionGapTile, required, solid, alive]

theorem shortTermTile_skipped {l : LaneNo} {rule : RuleSet} {segId : Nat} {r : TileRecord} (c : OverCond) (s : State)
    (skipped : rule.shortCeiling = none ∨ r.void = true ∨ r.shortTerm.stale = true) :
    s.shortTermTile l rule segId r c = (c, s) := by
  unfold State.shortTermTile
  split
  · rfl
  · next ceiling =>
    rcases skipped with none_ | void | stale
    · rw [none_] at ceiling; cases ceiling
    · exact if_pos (by rw [void]; rfl)
    · exact if_pos (by rw [stale, Bool.or_true])

section
variable {l : LaneNo} {rule : RuleSet} {segId : Nat} {r : TileRecord} {ceiling : Int}
  (set : rule.shortCeiling = some ceiling) (solid : r.void = false) (current : r.shortTerm.stale = false)
include set solid current

theorem shortTermTile_below (c : OverCond) (s : State) (below : r.shortTerm.value ≤ ceiling) :
    s.shortTermTile l rule segId r c = (.fresh, s.settleOpen r.closeTime rule.postRoll c.finding) := by
  simp [State.shortTermTile, set, solid, current, Int.not_lt.mpr below]

theorem shortTermTile_opens (c : OverCond) (s : State) (above : ceiling < r.shortTerm.value) (new : c.isOver = false) :
    let x := s.openCondition l .stCeiling rule.severities.stCeiling rule segId r.closeTime r.closeTime r.shortTerm.value ceiling
    s.shortTermTile l rule segId r c = (⟨true, r.closeTime, 0, some x.1⟩, x.2) := by
  simp [State.shortTermTile, set, solid, current, above, new]

theorem shortTermTile_holds (c : OverCond) (s : State) (above : ceiling < r.shortTerm.value) (over_ : c.isOver = true)
    {f : Finding} (open_ : c.finding = some f) {top : Int} (measured : f.measured = some top) :
    let x := s.holdCondition rule c.start r.closeTime (max r.shortTerm.value top) c.grace f
    s.shortTermTile l rule segId r c = (⟨true, c.start, x.1.1, some x.1.2⟩, x.2) := by
  simp [State.shortTermTile, set, solid, current, above, over_, open_, measured]

end

end Sys2Proof.Findings
end

section
/-! PROOFS. Condition findings at a grace timer's expiry and at the close of a watched segment (R113, R114), and the statement. -/

namespace Sys2Proof.Findings

open Sys2Proof.Machine Sys2Proof.Laws Sys2Proof.Lanes Sys2Proof.SegmentTracking

/-! ### The grace timer (R114) -/

theorem cond_withCond (c : CmLane) (w : LaneCondition) (x : LaneCond) : (c.withCond w x).cond w = x := by
  cases w <;> rfl

/-- What is quiet leaves a lane's carriage conditions. -/
theorem cond_of_quiet {s t : State} (h : Quiet s t) (l : LaneNo) (w : LaneCondition) : t.cm[l].cond w = s.cm[l].cond w := by
  cases w with
  | lost => exact h.lost l
  | drift => exact h.drift l

/-- The expiry activates the finding that the condition keeps, and stops the timer. -/
theorem graceExpired_some {l : LaneNo} {w : LaneCondition} {s : State} {f : Finding} (open_ : (s.cm[l].cond w).finding = some f) :
    let x := s.activateFinding s.station (s.laneAsk l f.severity f.opened) f
    s.graceExpired l w = x.2.modCm l (fun c => c.withCond w ⟨some x.1, none⟩) := by
  unfold State.graceExpired
  rw [open_]

theorem exec_laneGraceExpiry_due {l : LaneNo} {w : LaneCondition} {s : State}
    (due : timerDue (s.cm[l].cond w).grace s.clock = true) :
    exec (.laneGraceExpiry l w) s = .next (s.begin.graceExpired l w).allocate :=
  congrArg Host.Outcome.next (if_pos due)

theorem graceExpired_cond {l : LaneNo} {w : LaneCondition} {s : State} {f : Finding}
    (open_ : (s.cm[l].cond w).finding = some f) : ∃ (hold : Option Nat) (unheld : Bool),
    (s.graceExpired l w).cm[l].cond w
      = ⟨some { f with state := .active, activated := some s.station, holdId := hold, unheld := unheld }, none⟩ := by
  obtain ⟨hold, unheld, g⟩ := activateFinding_fst s.station (s.laneAsk l f.severity f.opened) f s
  refine ⟨hold, unheld, ?_⟩
  rw [graceExpired_some open_, ← g]
  exact (congrArg (CmLane.cond · w) (lane_set_self _ _ _)).trans (cond_withCond _ _ _)

/-! ### The close of a watched segment (R113) -/

theorem unwatch_settles {l : LaneNo} {time : Time} {s : State} {w : Watched} (watched : s.cm[l].watched = some w) :
    ∃ post : Nat, s.unwatch l time = (((s.modCm l (fun c => { c with watched := none })).settleOpen time post
      w.deadAir.finding).settleOpen time post w.captionGap.finding).settleOpen time post w.stCeiling.finding := by
  unfold State.unwatch
  rw [watched]
  exact ⟨_, rfl⟩

theorem unwatch_ids (l : LaneNo) (time : Time) (s : State) :
    (s.unwatch l time).dev.log.map Finding.id = s.dev.log.map Finding.id := by
  cases watched : s.cm[l].watched with
  | none =>
    unfold State.unwatch
    rw [watched]
  | some w =>
    obtain ⟨post, shape⟩ := unwatch_settles (time := time) watched
    rw [shape, (settleOpen_ids _ _ _ _).1, (settleOpen_ids _ _ _ _).1, (settleOpen_ids _ _ _ _).1]
    rfl

/-- The close settles each finding that the segment's conditions keep, if no other of them has its id. -/
theorem unwatch_settledIn {l : LaneNo} {time : Time} {s : State} {w : Watched} (watched : s.cm[l].watched = some w)
    {f : Finding} (mem : f ∈ w.kept) (alone : ∀ g ∈ w.kept, g.id = f.id → g = f) :
    f.settledIn time (s.unwatch l time) := by
  simp only [Watched.kept, List.mem_append, Option.mem_toList] at mem alone
  obtain ⟨post, shape⟩ := unwatch_settles (time := time) watched
  rw [shape]
  refine settleOpen_settles (fun g h => alone g (Or.inr h)) fun notC => ?_
  refine settleOpen_settles (fun g h => alone g (Or.inl (Or.inr h))) fun notB => ?_
  refine settleOpen_settles (fun g h => alone g (Or.inl (Or.inl h))) fun notA => ?_
  exact absurd mem (by tauto)

/-! ### The statement -/

/-- Settles O37: the expiry by the finding it activates, each check by its cases at a tile, and the close by its three settlings. -/
theorem graceExpiryActivatesTheFinding : Obligations.GraceExpiryActivatesTheFinding := by
  unfold Obligations.GraceExpiryActivatesTheFinding
  refine ⟨fun s l w f due open_ => ?_, fun s l rule segId duty r => ⟨fun c => ⟨?_, ?_, ?_⟩, fun c => ⟨?_, ?_, ?_⟩,
    fun c => ⟨?_, fun ceiling set solid current => ⟨?_, ?_, ?_⟩⟩⟩, fun s l w time watched => ?_⟩
  · have aside := aside_allocate (s.begin.graceExpired l w)
    obtain ⟨hold, unheld, expired⟩ := graceExpired_cond (s := s.begin) open_
    have begun : State.leavesOthers s s.begin := by constructor <;> rfl
    exact ⟨_, _, exec_laneGraceExpiry_due due, (cond_of_quiet aside.beside.toQuiet l w).trans expired, rfl, rfl, rfl, rfl, rfl,
      rfl, leavesOthers_trans begun (leavesOthers_of_kept ((kept_graceExpired l w _).trans aside.kept))⟩
  · exact deadAirTile_void c s
  · intro solid silent
    rw [deadAirTile_silent c s solid silent]
    exact runHolds_counts l _ _ _ rule segId _ c s
  · intro solid sounding
    rw [deadAirTile_sounding c s solid sounding]
    exact runEnds_settles rule _ c s
  · exact captionGapTile_exempt c s
  · intro required solid silent
    rw [captionGapTile_silent c s required solid silent]
    exact runHolds_counts l _ _ _ rule segId _ c s
  · intro required solid alive
    rw [captionGapTile_alive c s required solid alive]
    exact runEnds_settles rule _ c s
  · exact shortTermTile_skipped c s
  · intro below
    rw [shortTermTile_below set solid current c s below]
    exact ⟨rfl, settleOpen_spec _ _ _ s⟩
  · intro above new
    rw [shortTermTile_opens set solid current c s above new]
    exact ⟨rfl, rfl, rfl, openCondition_opens _ _ _ _ _ _ _ _ _ s⟩
  · intro f top above over_ open_ measured
    rw [shortTermTile_holds set solid current c s above over_ open_ measured]
    exact ⟨rfl, rfl, holdCondition_holds _ _ _ _ _ _ s⟩
  · exact ⟨(unwatch_spec l time s).2, unwatch_ids l time s, fun f mem alone => unwatch_settledIn watched mem alone⟩

end Sys2Proof.Findings
end

section
/-! PROOFS. Requests that are refused: the checks of mode, name and scan that stand before a request's work (R124, R189 to
R191), and the statement. -/

namespace Sys2Proof.MonitorMode

open Sys2Proof.Machine Sys2Proof.Laws Sys2Proof.Lanes Sys2Proof.LoudnessEngine Sys2Proof.CaptionChecking Sys2Proof.Findings

/-! ### The checks that refuse -/

/-- In RUN a request that is taken in CONFIG only does nothing of its own (R124). -/
theorem inConfig_refuses {h : Handler} {s : State} (run : s.alarm.mode = .run) : inConfig h s = refuse .notInConfig s :=
  if_pos run

theorem laneOf_outside {n : Nat} (outside : 8 ≤ n) : laneOf n = none := dif_neg (by omega)

/-- A lane number is refused if it names no lane, or one for which the request is refused. -/
theorem withLane_refuses {n : Nat} {h : LaneNo → Handler} {s : State}
    (refuses : ∀ l : LaneNo, n = l.val → h l s = refuse .noSuch s) : withLane n h s = refuse .noSuch s := by
  by_cases small : n < 8
  · exact (congrFun (withLane_val ⟨n, small⟩ h) s).trans (refuses ⟨n, small⟩ rfl)
  · unfold withLane
    rw [laneOf_outside (by omega)]

theorem withLane_outside {n : Nat} (outside : 8 ≤ n) (h : LaneNo → Handler) (s : State) :
    withLane n h s = refuse .noSuch s :=
  withLane_refuses fun l names => absurd l.isLt (by omega)

theorem afterScan_refuses {h : Handler} {s : State} (scanning : s.scanning = true) : afterScan h s = refuse .scanning s :=
  if_pos scanning

/-! ### Names outside their tables -/

theorem setOf_outside {n : Nat} (outside : 16 ≤ n) : Machine.setOf n = none := dif_neg (by omega)

theorem segKindOf_outside {n : Nat} (outside : n = 0 ∨ 4 < n) : segKindOf n = none := by
  unfold segKindOf
  split
  any_goals omega
  rfl

theorem ruleEntryOf_outside {n : Nat} (outside : 16 ≤ n) (named : n ≠ 255) : ruleEntryOf n = none := by
  unfold ruleEntryOf
  rw [if_neg named, setOf_outside outside]
  rfl

theorem poolTargetOf_outside {n : Nat} (outside : 8 ≤ n) (named : n ≠ 255) : poolTargetOf n = none := by
  unfold poolTargetOf
  rw [if_neg named, laneOf_outside outside]
  rfl

/-! ### Requests that are refused -/

/-- The requests that Table 7-3 takes in CONFIG only check the mode before anything else. -/
theorem handle_configOnly {r : Request} (only : configOnly r = true) : ∃ h : Handler, handle r = inConfig h := by
  cases r with
  | runm | save | fmat | lane | filtEntry | filtPassAll | rule | rmap | xmapDistributed | xmapDirected | xmapPooling | dsev
  | alrm => exact ⟨_, rfl⟩
  | _ => cases only

theorem handleStat_outside {n : Nat} (outside : 8 ≤ n) (lane : n ≠ 255) (s : State) :
    handleStat n s = refuse .noSuch s := by
  unfold handleStat
  rw [if_neg lane, withLane_outside outside]

theorem handleSetr_outside {g i : Nat} {s : State} (known : s.settingsKnown = true)
    (outside : g = 0 ∨ 7 < g ∨ ((g = 1 ∨ g = 2) ∧ 8 ≤ i) ∨ (g = 3 ∧ 16 ≤ i)) : handleSetr g i s = refuse .noSuch s := by
  have taken : ¬ (!s.settingsKnown) = true := by simp [known]
  unfold handleSetr
  rw [if_neg taken]
  split
  · exact withLane_outside (by omega) _ s
  · exact withLane_outside (by omega) _ s
  · rw [setOf_outside (by omega)]
  any_goals omega
  rfl

theorem handleSetr_early {g i : Nat} {s : State} (unknown : s.settingsKnown = false) :
    handleSetr g i s = refuse .scanning s := by
  unfold handleSetr
  rw [unknown]
  rfl

theorem handleConf_early {s : State} (unknown : s.settingsKnown = false) : handleConf s = refuse .scanning s := by
  unfold handleConf
  rw [unknown]
  rfl

theorem handleHrel_early {i : Nat} {s : State} (unknown : s.settingsKnown = false) :
    handleHrel i s = refuse .scanning s := by
  unfold handleHrel
  rw [unknown]
  rfl

section
variable {q : Byte} {s : State} (ready : s.readyToTake = true)
include ready

/-- A request whose handler refuses it changes nothing but the link. -/
theorem exec_refused {i : Instr} {r : Request} {x : Result} (names : i.request = some (q, r))
    (refuses : handle r (working q r s) = refuse x (working q r s)) : exec i s = .next (s.answered q r (.refuse x)) := by
  rw [exec_request i s q r names, serve_answered ready refuses]

theorem exec_refused_inRun {i : Instr} {r : Request} (names : i.request = some (q, r)) (only : configOnly r = true)
    (run : s.alarm.mode = .run) : exec i s = .next (s.answered q r (.refuse .notInConfig)) := by
  obtain ⟨h, checks⟩ := handle_configOnly only
  refine exec_refused ready names ?_
  rw [checks]
  exact inConfig_refuses run

/-- While the scan runs a request that waits for its end is refused (R191, R196). -/
theorem exec_refused_scanning {i : Instr} {r : Request} {h : Handler} (names : i.request = some (q, r))
    (checks : handle r = afterScan h) (scanning : s.scanning = true) :
    exec i s = .next (s.answered q r (.refuse .scanning)) := by
  refine exec_refused ready names ?_
  rw [checks]
  exact afterScan_refuses scanning

/-- In CONFIG a request that is taken there only is refused by its own work. -/
theorem exec_refused_inConfig (config : s.alarm.mode = .config) {i : Instr} {r : Request} {x : Result} {h : Handler}
    (names : i.request = some (q, r)) (checks : handle r = inConfig h)
    (refuses : h (working q r s) = refuse x (working q r s)) : exec i s = .next (s.answered q r (.refuse x)) := by
  refine exec_refused ready names ?_
  rw [checks, inConfig_working h q r config, refuses]

section
variable (config : s.alarm.mode = .config)
include config

theorem exec_filtEntry_refused (f : FilterEntryFields) (outside : 8 ≤ f.lane ∨ 8 ≤ f.entry) :
    exec (.filtEntry q f) s = .next (s.answered q (.filtEntry f) (.refuse .noSuch)) := by
  refine exec_refused_inConfig ready config rfl rfl (withLane_refuses fun l lane => ?_)
  have := l.isLt
  exact dif_neg (by omega)

theorem exec_rule_refused (f : RuleFields) (outside : 16 ≤ f.set) :
    exec (.rule q f) s = .next (s.answered q (.rule f) (.refuse .noSuch)) := by
  refine exec_refused_inConfig ready config rfl rfl ?_
  dsimp only
  rw [setOf_outside outside]

theorem exec_rmap_refused (lane kind set : Nat) (outside : 8 ≤ lane ∨ kind = 0 ∨ 4 < kind ∨ (16 ≤ set ∧ set ≠ 255)) :
    exec (.rmap q lane kind set) s = .next (s.answered q (.rmap lane kind set) (.refuse .noSuch)) := by
  refine exec_refused_inConfig ready config rfl rfl (withLane_refuses fun l names => ?_)
  have := l.isLt
  dsimp only
  by_cases noKind : kind = 0 ∨ 4 < kind
  · rw [segKindOf_outside noKind]
  · rw [ruleEntryOf_outside (n := set) (by omega) (by omega)]
    cases segKindOf kind <;> rfl

theorem exec_xmapDirected_refused (n : Nat) (d : Option DirectedFields) (outside : 4 ≤ n ∨ ∃ x, d = some x ∧ 8 ≤ x.lane) :
    exec (.xmapDirected q n d) s = .next (s.answered q (.xmapDirected n d) (.refuse .noSuch)) := by
  refine exec_refused_inConfig ready config rfl rfl ?_
  by_cases small : n < 4
  · obtain large | ⟨x, rfl, lane⟩ := outside
    · omega
    · dsimp only
      rw [dif_pos small, laneOf_outside lane]
  · exact dif_neg small

theorem exec_xmapPooling_refused (lane target : Nat) (outside : 8 ≤ lane ∨ (8 ≤ target ∧ target ≠ 255)) :
    exec (.xmapPooling q lane target) s = .next (s.answered q (.xmapPooling lane target) (.refuse .noSuch)) := by
  refine exec_refused_inConfig ready config rfl rfl (withLane_refuses fun l names => ?_)
  have := l.isLt
  dsimp only
  rw [poolTargetOf_outside (n := target) (by omega) (by omega)]

end

end

/-- Settles O17: each refusal by the check that makes it, which leaves the state to the exchange. -/
theorem refusedRequestsChangeOnlyTheLink : Obligations.RefusedRequestsChangeOnlyTheLink := by
  unfold Obligations.RefusedRequestsChangeOnlyTheLink
  intro q s ready refused
  refine ⟨fun i r names only run => exec_refused_inRun ready names only run, fun n outside => ⟨fun lane => ?_, ?_, ?_, ?_⟩,
    fun config => ⟨fun f outside => ?_, exec_filtEntry_refused ready config, fun lane v outside => ?_,
      exec_rule_refused ready config, exec_rmap_refused ready config, exec_xmapDirected_refused ready config,
      exec_xmapPooling_refused ready config⟩,
    fun unknown g i => ⟨?_, ?_, ?_⟩, fun known g i outside => ?_, fun scanning n => ⟨?_, ?_⟩⟩
  · exact exec_refused ready rfl (handleStat_outside outside lane _)
  · exact exec_refused ready rfl (withLane_outside outside _ _)
  · exact exec_refused ready rfl (withLane_outside outside _ _)
  · exact exec_refused ready rfl (withLane_outside outside _ _)
  · exact exec_refused_inConfig ready config rfl rfl (withLane_outside outside _ _)
  · exact exec_refused_inConfig ready config rfl rfl (withLane_outside outside _ _)
  · exact exec_refused ready rfl (handleSetr_early unknown)
  · exact exec_refused ready rfl (handleConf_early unknown)
  · exact exec_refused ready rfl (handleHrel_early unknown)
  · exact exec_refused ready rfl (handleSetr_outside known outside)
  · exact exec_refused_scanning ready rfl rfl scanning
  · exact exec_refused_scanning ready rfl rfl scanning

end Sys2Proof.MonitorMode
end

section
/-! PROOFS. RUNM (R90, R126, R131): what leaving CONFIG keeps of the part, and the statement. -/

namespace Sys2Proof.MonitorMode

open Sys2Proof.Machine Sys2Proof.Laws Sys2Proof.Lanes Sys2Proof.LoudnessEngine Sys2Proof.CaptionChecking
  Sys2Proof.SegmentTracking

/-! ### What the exit from CONFIG keeps (R90) -/

/-- A lane that remembers no segment stays as it is, whichever lane leaves CONFIG. -/
theorem laneToRun_idle (l : LaneNo) {k : LaneNo} {s : State} (idle : s.st[k].remembered = none) :
    (s.laneToRun l).st[k] = s.st[k] ∧ (s.laneToRun l).cm[k] = s.cm[k] := by
  by_cases own : k = l
  · rw [← own, laneToRun_none idle]
    exact ⟨rfl, rfl⟩
  · refine ⟨(modeStep_laneToRun l s).st k (by simpa using own), ?_⟩
    cases remembered : s.st[l].remembered with
    | none => rw [laneToRun_none remembered]
    | some ident =>
      rw [laneToRun_some remembered]
      exact lane_set_ne s.cm _ own

theorem lanesToRun_idle {k : LaneNo} {s : State} (idle : s.st[k].remembered = none) :
    (forLanes State.laneToRun s).cm[k] = s.cm[k] := by
  have kept : (forLanes State.laneToRun s).st[k] = s.st[k] ∧ (forLanes State.laneToRun s).cm[k] = s.cm[k] :=
    steady_foldl (I := fun t => t.st[k] = s.st[k] ∧ t.cm[k] = s.cm[k]) (fun t l => t.laneToRun l) allLanes
      (fun t l _ ⟨st, cm⟩ => by
        obtain ⟨st', cm'⟩ := laneToRun_idle (k := k) (s := t) l (by rw [st, idle])
        exact ⟨st'.trans st, cm'.trans cm⟩) s ⟨rfl, rfl⟩
  exact kept.2

/-- What the exit from CONFIG at `s` has left alone in `t`, beside what `LeftConfig` says. -/
structure ExitKeeps (s t : State) : Prop where
  station : t.station = s.station
  liu : t.liu = s.liu
  idle : ∀ k : LaneNo, s.st[k].remembered = none → t.cm[k] = s.cm[k]

theorem leaveConfig_keeps (s : State) : ExitKeeps s s.leaveConfig := by
  obtain ⟨st, cm, lanes, -⟩ := lanesToRun_shape allLanes s.toRun
  have lanes : forLanes State.laneToRun s.toRun = { s.toRun with st := st, cm := cm } := lanes
  obtain ⟨a, shown, -⟩ := showRunPattern_frame (forLanes State.laneToRun s.toRun)
  have left : s.leaveConfig = { forLanes State.laneToRun s.toRun with alarm := a } := shown
  have idle (k : LaneNo) (none_ : s.st[k].remembered = none) : (forLanes State.laneToRun s.toRun).cm[k] = s.cm[k] :=
    lanesToRun_idle (s := s.toRun) none_
  rw [left]
  rw [lanes] at idle ⊢
  exact ⟨rfl, rfl, idle⟩

/-! ### The request (R126) -/

theorem exec_runm (q : Byte) (s : State) : exec (.runm q) s = .next (s.begin.serve q .runm handleRunm) := rfl

section
variable {q : Byte} {s : State} (config : s.alarm.mode = .config)
include config

theorem handleRunm_leaves (idle : s.format = none) :
    handleRunm (working q .runm s) = (⟨.ok, []⟩, (working q .runm s).leaveConfig) := by
  have free : ¬ (working q .runm s).formatting = true := by
    show ¬ s.format.isSome = true
    rw [idle]
    exact Bool.false_ne_true
  rw [handleRunm, inConfig_working _ q .runm config, if_neg free]

theorem handleRunm_formatting (busy : s.format ≠ none) :
    handleRunm (working q .runm s) = (.refuse .formatting, working q .runm s) := by
  have formatting : (working q .runm s).formatting = true := Option.isSome_iff_ne_none.mpr busy
  rw [handleRunm, inConfig_working _ q .runm config, if_pos formatting]
  rfl

end

/-- Settles O23: the exit from CONFIG lane by lane and line by line, and the refusal while a format is in flight. -/
theorem runmLeavesConfig : Obligations.RunmLeavesConfig := by
  unfold Obligations.RunmLeavesConfig
  intro q s ready config
  rw [exec_runm]
  refine ⟨fun idle => ?_, fun busy => ?_⟩
  · have left := leaveConfig_left (working q .runm s)
    have keeps := leaveConfig_keeps (working q .runm s)
    rw [serve_ready q .runm _ s ready, handleRunm_leaves config idle]
    generalize (working q .runm s).leaveConfig = t at left keeps
    obtain ⟨steady, pair, breach⟩ := left.run.pattern
    refine ⟨_, rfl, left.run.mode, left.run.configTimer, left.run.inForce, fun l => (left.lanes l).opened,
      fun l => ⟨(left.lanes l).forgotten, fun none_ => ⟨((left.lanes l).idle none_).1, keeps.idle l none_⟩⟩,
      steady, pair, breach, putReply_waits _ _ _ _, left.settings, keeps.station, keeps.liu, left.le, left.cc, left.ac,
      left.dev, left.verdicts⟩
  · rw [serve_answered ready (handleRunm_formatting config busy)]

end Sys2Proof.MonitorMode
end

section
/-! PROOFS. What the boundary of an event makes of the extents: a choice retires SEALED ones and takes one that is FREE or
SEALED (R160 to R165), and no report touches them. -/

namespace Sys2Proof.MonitorMode

open Sys2Proof.Machine Sys2Proof.Laws Sys2Proof.Lanes Sys2Proof.SegmentTracking

/-! ### Reports leave the extents -/

@[simp] theorem reportBuffers_extents (l : LaneNo) (s : State) : (s.reportBuffers l).extents = s.extents := by
  unfold State.reportBuffers
  repeat' split
  all_goals rfl

@[simp] theorem archive_extents (l : LaneNo) (kind : Byte) (time : Time) (content : List Byte) (s : State) :
    (s.archive l kind time content).extents = s.extents := by
  unfold State.archive
  split
  · rfl
  · split
    · rfl
    · exact reportBuffers_extents l _

@[simp] theorem announce_extents (f : Finding) (time : Time) (s : State) : (s.announce f time).extents = s.extents := by
  have tail (t : State) : (t.raiseFinding f.lane).reassess.extents = t.extents := by
    obtain ⟨a, shape⟩ := reassess_shape (t.raiseFinding f.lane)
    rw [shape, raiseFinding_eq]
  unfold State.announce
  dsimp only
  split
  · rw [tail, archive_extents]
  · exact tail s

@[simp] theorem createFinding_extents (d : Draft) (ask : Option HoldAsk) (s : State) :
    (s.createFinding d ask).2.extents = s.extents := by
  obtain ⟨h, x, held⟩ := holdFor_shape ask (unheldOf d s.dev.nextId) (issued s)
  obtain ⟨v, n, entered⟩ := enterFinding_shape (s.createFinding d ask).1 { issued s with holds := h, sys := x }
  rw [(createFinding_eq d ask s).2, announce_extents, held, entered]
  rfl

@[simp] theorem settleOpen_extents (time : Time) (postRoll : Nat) (f : Option Finding) (s : State) :
    (s.settleOpen time postRoll f).extents = s.extents := by
  have change (f : Finding) (t : State) : (t.changeFinding f time).extents = t.extents := by
    unfold State.changeFinding
    rw [announce_extents]
    split <;> rfl
  have ends (f : Finding) : (s.endHoldOf f time postRoll).extents = s.extents := by
    unfold State.endHoldOf State.setHoldEnd
    repeat' split
    all_goals rfl
  unfold State.settleOpen State.settleFinding
  split
  · split
    · exact change _ s
    · rw [change, ends]
    · rfl
    · rfl
  · rfl

@[simp] theorem openStalled_extents (l : LaneNo) (s : State) : (s.openStalled l).extents = s.extents := by
  unfold State.openStalled
  split
  · rfl
  · exact createFinding_extents _ _ s

@[simp] theorem openShort_extents (l : LaneNo) (s : State) : (s.openShort l).extents = s.extents := by
  unfold State.openShort
  split
  · rfl
  · exact createFinding_extents _ _ s

@[simp] theorem endStalled_extents (l : LaneNo) (s : State) : (s.endStalled l).extents = s.extents :=
  settleOpen_extents _ _ _ _

@[simp] theorem endShort_extents (l : LaneNo) (s : State) : (s.endShort l).extents = s.extents :=
  settleOpen_extents _ _ _ _

@[simp] theorem setAlloc_extents (l : LaneNo) (x : AllocState) (s : State) : (s.setAlloc l x).extents = s.extents := by
  simp [State.setAlloc]

@[simp] theorem reportChoice_extents (l : LaneNo) (short : Bool) (s : State) :
    (s.reportChoice l short).extents = s.extents := by
  unfold State.reportChoice inEitherOrder
  dsimp only
  repeat' split
  all_goals simp

/-! ### A choice (R160) -/

/-- A search that at each place keeps its best or takes what stands there finds a member, if it begins with none. -/
theorem mem_of_search {α : Type} {f : Option α → α → Option α} (one : ∀ best y, f best y = best ∨ f best y = some y)
    {x : α} : ∀ (ys : List α) (best : Option α), ys.foldl f best = some x → best = some x ∨ x ∈ ys
  | [], _, found => Or.inl found
  | y :: ys, best, found => by
    rcases mem_of_search one ys (f best y) found with here | later
    · rcases one best y with same | new
      · exact Or.inl (same ▸ here)
      · exact Or.inr (Option.some.inj (new.symm.trans here) ▸ List.mem_cons_self)
    · exact Or.inr (List.mem_cons_of_mem y later)

theorem oldestOf_mem {xs : List Extent} {x : Extent} (oldest : oldestOf xs = some x) : x ∈ xs := by
  refine (mem_of_search (fun best y => ?_) xs none oldest).resolve_left nofun
  cases best with
  | none => exact Or.inr rfl
  | some b =>
    dsimp only
    split
    · exact Or.inr rfl
    · exact Or.inl rfl

/-- What a choice over candidates may do to the extents: it retires SEALED ones, and takes one that is FREE or SEALED. -/
structure Chooses (xs : List Extent) (retired : List Nat) (c : Choice × List Nat) : Prop where
  retires : ∀ n ∈ c.2, n ∈ retired ∨ ∃ x ∈ xs, x.no = n ∧ x.state = .sealed
  free : ∀ x, c.1 = .free x → x ∈ xs ∧ x.state = .free
  sealed_ : ∀ x, c.1 = .sealed x → x ∈ xs ∧ x.state = .sealed

theorem choose_chooses (protected_ : Extent → Bool) : ∀ (k : Nat) (xs : List Extent) (retired : List Nat),
    Chooses xs retired (choose protected_ k xs retired)
  | 0, _, _ => ⟨fun _ mem => Or.inl mem, nofun, nofun⟩
  | k + 1, xs, retired => by
    unfold choose
    split
    · next x found =>
      have state := List.find?_some found
      refine ⟨fun _ mem => Or.inl mem, fun y is => ?_, nofun⟩
      cases is
      exact ⟨List.mem_of_find?_eq_some found, by simpa using state⟩
    · split
      · exact ⟨fun _ mem => Or.inl mem, nofun, nofun⟩
      · next x oldest =>
        obtain ⟨mem, unprotected⟩ := List.mem_filter.mp (oldestOf_mem oldest)
        rw [Bool.and_eq_true, beq_iff_eq] at unprotected
        split
        · obtain ⟨retires, free, sealed_⟩ :=
            choose_chooses protected_ k (xs.filter (fun y => y.no != x.no)) (x.no :: retired)
          refine ⟨fun n out => ?_, fun y is => ?_, fun y is => ?_⟩
          · rcases retires n out with before | ⟨y, inside, named⟩
            · rcases List.mem_cons.mp before with rfl | before
              · exact Or.inr ⟨x, mem, rfl, unprotected.1⟩
              · exact Or.inl before
            · exact Or.inr ⟨y, List.mem_of_mem_filter inside, named⟩
          · exact ⟨List.mem_of_mem_filter (free y is).1, (free y is).2⟩
          · exact ⟨List.mem_of_mem_filter (sealed_ y is).1, (sealed_ y is).2⟩
        · refine ⟨fun _ out => Or.inl out, nofun, fun y is => ?_⟩
          cases is
          exact ⟨mem, unprotected.1⟩

/-! ### Attempts and the boundary -/

/-- What retiring the SEALED and taking the FREE and SEALED extents keeps, is kept of the extents by an attempt. -/
theorem attempt_extents {P : List Extent → Prop} (l : LaneNo) (s : State)
    (retire : ∀ xs, ∀ x ∈ s.extents, x.state = .sealed → P xs → P (modExtentIn x.no (Extent.cleared .retired) xs))
    (take : ∀ xs, ∀ x ∈ s.extents, x.state = .free ∨ x.state = .sealed → P xs →
      P (modExtentIn x.no (Extent.wiped .erasing) xs))
    (h : P s.extents) : P (s.attempt l).extents := by
  unfold State.attempt
  split
  · have candidate {x : Extent} (mem : x ∈ s.candidates l) : x ∈ s.extents := List.mem_of_mem_filter mem
    obtain ⟨retires, free, sealed_⟩ := choose_chooses s.protects ((s.candidates l).length + 1) (s.candidates l) []
    dsimp only
    generalize choose s.protects ((s.candidates l).length + 1) (s.candidates l) [] = c at retires free sealed_ ⊢
    have kept : P (c.2.foldl (fun (t : State) n => t.modExtent n (Extent.cleared .retired)) s).extents := by
      refine List.foldlRecOn (motive := fun (t : State) => P t.extents) c.2 _ h fun t ht n out => ?_
      rcases retires n out with none_ | ⟨x, mem, rfl, state⟩
      · cases none_
      · exact retire _ x (candidate mem) state ht
    generalize c.2.foldl (fun (t : State) n => t.modExtent n (Extent.cleared .retired)) s = t at kept ⊢
    have taken (x : Extent) (short : Bool) (mem : x ∈ s.extents) (state : x.state = .free ∨ x.state = .sealed) :
        P (t.takeChoice l x short).extents := by
      unfold State.takeChoice
      dsimp only
      rw [reportChoice_extents, setAlloc_extents]
      exact take _ x mem state kept
    split
    · next x is =>
      obtain ⟨mem, state⟩ := free x is
      exact taken x _ (candidate mem) (Or.inl state)
    · next x is =>
      obtain ⟨mem, state⟩ := sealed_ x is
      exact taken x _ (candidate mem) (Or.inr state)
    · unfold State.noCandidate
      repeat' split
      all_goals simpa using kept
  · exact h

/-- What every attempt keeps of the extents is kept by the boundary of an event. -/
theorem allocate_extents {P : List Extent → Prop}
    (attempt : ∀ (s : State) (l : LaneNo), P s.extents → P (s.attempt l).extents) (s : State) (h : P s.extents) :
    P s.allocate.extents := by
  have rounds : ∀ (n : Nat) (s : State), P s.extents → P (s.allocateN n).extents := by
    intro n
    induction n with
    | zero => exact fun _ h => h
    | succ n ih =>
      intro s h
      have enter : P (entered s).extents :=
        steady_foldl (I := fun t => P t.extents) (fun t l => t.setAlloc l .wanted) (allLanes.filter s.needsExtent)
          (fun t l _ ht => by simpa using ht) s h
      rw [allocateN_succ]
      split
      · exact enter
      · exact ih _ (steady_foldl (I := fun t => P t.extents) _ _ (fun t l _ ht => attempt t l ht) _ (by simpa using enter))
  exact rounds 20 s h

end Sys2Proof.MonitorMode
end

section
/-! PROOFS. The completion of a format's erase (R125, R149): the extent it frees or retires, the attempts behind it, and the
statement. -/

namespace Sys2Proof.MonitorMode

open Sys2Proof.Machine Sys2Proof.Laws Sys2Proof.Lanes Sys2Proof.SegmentTracking

/-! ### The boundary where lanes are at most WANTED already -/

/-- No lane enters WANTED where the archive streams are those of a settled part. -/
theorem needless_of_ac {s t : State} (settled : s.settled) (ac : t.ac = s.ac) (l : LaneNo) : t.needsExtent l = false := by
  unfold State.needsExtent
  rw [ac]
  exact settled.2 l

theorem anyWanted_of_ac {s t : State} (ac : t.ac = s.ac) : t.anyWanted = s.anyWanted := by
  unfold State.anyWanted
  rw [ac]

theorem draw_shape {α : Type} (xs : List α) (s : State) : ∃ n : Nat, (s.draw xs).2 = { s with freeCount := n } := by
  unfold State.draw
  split <;> exact ⟨_, rfl⟩

section
variable {s : State} (needless : ∀ l : LaneNo, s.needsExtent l = false)
include needless

theorem entered_needless : entered s = { s with attemptDue := false } := by
  have none_ : allLanes.filter s.needsExtent = [] := List.filter_eq_nil_iff.mpr fun l _ => by simp [needless l]
  unfold entered
  rw [none_]
  rfl

/-- With the gate closed the boundary at most draws an order for attempts that are not made (R158). -/
theorem allocate_closed (closed : s.gateOpen = false) :
    ∃ n : Nat, s.allocate = { s with freeCount := n, attemptDue := false } := by
  rw [show s.allocate = s.allocateN (19 + 1) from rfl, allocateN_succ, entered_needless needless]
  split
  · exact ⟨s.freeCount, rfl⟩
  · obtain ⟨n, drawn⟩ := draw_shape (dueLanes s) { s with attemptDue := false }
    have settled : ({ s with freeCount := n, attemptDue := false } : State).settled := ⟨rfl, needless⟩
    rw [drawn, attempts_closed { s with freeCount := n, attemptDue := false } closed]
    exact ⟨n, allocateN_of_settled 18 _ settled⟩

/-- With no lane WANTED there is nothing to attempt (R159). -/
theorem allocate_unwanted (unwanted : s.anyWanted = false) : s.allocate = { s with attemptDue := false } := by
  have none_ : dueLanes s = [] := List.eq_nil_iff_forall_not_mem.mpr fun l due => by
    rcases waits_of_due s l due with needs | wanted
    · exact Bool.noConfusion ((needless l).symm.trans needs)
    · exact List.any_eq_false.mp unwanted l (mem_allLanes l) wanted
  rw [show s.allocate = s.allocateN (19 + 1) from rfl, allocateN_succ, none_]
  exact entered_needless needless

end

/-! ### STORE_FAULT of the DEVICE (R115) -/

/-- A STORE_FAULT of the DEVICE touches the log, the statuses, the lines and the notices. -/
theorem storeFault_shape (s : State) : ∃ (cm : Vector CmLane 8) (d : CmDevice) (a : Alarm) (n : Notices),
    s.storeFault none = { s with cm := cm, dev := d, alarm := a, notices := n } ∧ n.deviceFinding = true := by
  have lane := createFinding_lane (singleDraft none .storeFault .advisory s.station) none s
  obtain ⟨d, n, entered⟩ :=
    enterFinding_shape (s.createFinding (singleDraft none .storeFault .advisory s.station) none).1 (issued s)
  obtain ⟨a, told⟩ := announce_device lane s.station
    ((issued s).enterFinding (s.createFinding (singleDraft none .storeFault .advisory s.station) none).1)
  have made : s.storeFault none = _ := told
  rw [entered] at made
  exact ⟨_, _, _, _, made, rfl⟩

theorem storeFault_nextId (s : State) : (s.storeFault none).dev.nextId = nextFindingId s.dev.nextId :=
  createFinding_nextId _ none s

/-! ### The erase itself (R149) -/

/-- An extent behind the format's erase of it: FREE at OK, RETIRED at FAIL. -/
def formatted (ok : Bool) (x : Extent) : Extent :=
  { x with
    state := if ok then .free else .retired, tag := none, first := none, last := none, pages := 0
    faulty := if ok then false else x.faulty }

/-- The extent takes its new state, and a FAIL is reported. -/
def extentFormatted (ext : Nat) (ok : Bool) (s : State) : State :=
  if ok then s.modExtent ext (Extent.wiped .free) else (s.modExtent ext (Extent.cleared .retired)).storeFault none

/-- What the completion at `s` has made of the extent and its report in `t`. -/
structure Formatted (ext : Nat) (ok : Bool) (s t : State) : Prop where
  kept : Kept s t
  extents : t.extents = modExtentIn ext (formatted ok) s.extents
  ac : t.ac = s.ac
  fault : ok = false → t.notices.deviceFinding = true ∧ t.dev.nextId = nextFindingId s.dev.nextId

theorem extentFormatted_spec (ext : Nat) (ok : Bool) (s : State) : Formatted ext ok s (extentFormatted ext ok s) := by
  cases ok with
  | true => exact ⟨kept_modExtent _ _ s, rfl, rfl, nofun⟩
  | false =>
    have faulted : extentFormatted ext false s = (s.modExtent ext (Extent.cleared .retired)).storeFault none := rfl
    obtain ⟨cm, d, a, n, shape, told⟩ := storeFault_shape (s.modExtent ext (Extent.cleared .retired))
    have issued := storeFault_nextId (s.modExtent ext (Extent.cleared .retired))
    have kept := (kept_modExtent ext (Extent.cleared .retired) s).trans (kept_storeFault none _)
    rw [faulted]
    rw [shape] at kept issued ⊢
    exact ⟨kept, rfl, rfl, fun _ => ⟨told, issued⟩⟩

/-! ### The format goes on, or is complete (R149) -/

theorem formatErased_eq (ext : Nat) (ok : Bool) (s : State) :
    let t := extentFormatted ext ok s
    let left := t.format.getD 1 - 1
    s.formatErased ext ok = { (if left = 0 then (State.raiseFormatDone { t with format := none }).resumeConfigTimer
      else { t with format := some left }) with attemptDue := true } := rfl

/-- The part with no format in flight any more, its notice set and its alarm as given, and attempts owed. -/
def formatCompleted (a : Alarm) (s : State) : State :=
  { s with format := none, notices := { s.notices with formatDone := true }, alarm := a, attemptDue := true }

theorem resumeConfigTimer_shape (s : State) : ∃ a : Alarm, s.resumeConfigTimer = { s with alarm := a } ∧
    ∀ r : Nat, s.alarm.configTimer = .paused r → a.configTimer = .running (s.clock + r) := by
  unfold State.resumeConfigTimer
  cases timer : s.alarm.configTimer with
  | paused r => exact ⟨_, rfl, fun _ same => by cases same; rfl⟩
  | stopped => exact ⟨s.alarm, rfl, nofun⟩
  | running expiry => exact ⟨s.alarm, rfl, nofun⟩

section
variable {left : Nat} {s : State} (format : s.format = some left) (ext : Nat) (ok : Bool)
include format

theorem extentFormatted_left : (extentFormatted ext ok s).format.getD 1 - 1 = left - 1 := by
  rw [(extentFormatted_spec ext ok s).kept.format, format]
  rfl

theorem formatErased_more (more : 1 < left) :
    s.formatErased ext ok = { extentFormatted ext ok s with format := some (left - 1), attemptDue := true } := by
  rw [formatErased_eq, extentFormatted_left format, if_neg (by omega)]

/-- The last erase: the format is complete, its notice is set, and the config timer runs again (R125). -/
theorem formatErased_last (last : left ≤ 1) : ∃ a : Alarm,
    s.formatErased ext ok = formatCompleted a (extentFormatted ext ok s) ∧
    ∀ r : Nat, s.alarm.configTimer = .paused r → a.configTimer = .running (s.clock + r) := by
  have kept := (extentFormatted_spec ext ok s).kept
  rw [formatErased_eq, extentFormatted_left format, if_pos (by omega), ← kept.configTimer, ← kept.clock]
  obtain ⟨a, shape, resumed⟩ := resumeConfigTimer_shape
    (State.raiseFormatDone { extentFormatted ext ok s with format := none })
  rw [shape]
  exact ⟨a, rfl, resumed⟩

end

/-! ### The erased extent behind the attempts -/

/-- An extent that the format has erased, which a lane may have chosen since if it is FREE. -/
structure AfterErase (ok : Bool) (x : Extent) : Prop where
  tag : x.tag = none
  first : x.first = none
  last : x.last = none
  freed : ok = true → (x.state = .free ∨ x.state = .erasing) ∧ x.faulty = false
  retired : ok = false → x.state = .retired

theorem formatted_afterErase (ok : Bool) (x : Extent) : AfterErase ok (formatted ok x) := by
  cases ok with
  | true => exact ⟨rfl, rfl, rfl, fun _ => ⟨Or.inl rfl, rfl⟩, nofun⟩
  | false => exact ⟨rfl, rfl, rfl, nofun, fun _ => rfl⟩

theorem AfterErase.unsealed {ok : Bool} {x : Extent} (h : AfterErase ok x) : x.state ≠ .sealed := by
  intro state
  cases ok with
  | true =>
    rcases (h.freed rfl).1 with free | erasing
    · exact ExtentState.noConfusion (free.symm.trans state)
    · exact ExtentState.noConfusion (erasing.symm.trans state)
  | false => exact ExtentState.noConfusion ((h.retired rfl).symm.trans state)

/-- Only a FREE one can be chosen. -/
theorem AfterErase.ok_of_free {ok : Bool} {x : Extent} (h : AfterErase ok x) (state : x.state = .free) : ok = true := by
  cases ok with
  | true => rfl
  | false => exact ExtentState.noConfusion ((h.retired rfl).symm.trans state)

theorem mem_modExtentIn {n : Nat} {f : Extent → Extent} {xs : List Extent} {y : Extent} (mem : y ∈ modExtentIn n f xs) :
    (∃ x ∈ xs, x.no = n ∧ y = f x) ∨ y ∈ xs ∧ y.no ≠ n := by
  obtain ⟨x, inside, rfl⟩ := List.mem_map.mp mem
  by_cases named : x.no = n
  · exact Or.inl ⟨x, inside, named, if_pos named⟩
  · rw [if_neg named]
    exact Or.inr ⟨inside, named⟩

/-- The extents of a number are such as the format's erase leaves them. -/
def AllAfterErase (ext : Nat) (ok : Bool) (xs : List Extent) : Prop := ∀ x ∈ xs, x.no = ext → AfterErase ok x

theorem formatted_allAfterErase (ext : Nat) (ok : Bool) (xs : List Extent) :
    AllAfterErase ext ok (modExtentIn ext (formatted ok) xs) := by
  intro y mem named
  rcases mem_modExtentIn mem with ⟨x, -, -, rfl⟩ | ⟨-, other⟩
  · exact formatted_afterErase ok x
  · exact absurd named other

/-- An attempt retires none of them, being SEALED none, and takes one only that is FREE. -/
theorem attempt_allAfterErase {ext : Nat} {ok : Bool} (s : State) (l : LaneNo) (h : AllAfterErase ext ok s.extents) :
    AllAfterErase ext ok (s.attempt l).extents := by
  refine attempt_extents l s (fun xs x inside state all y mem named => ?_) (fun xs x inside state all y mem named => ?_) h
  · rcases mem_modExtentIn mem with ⟨z, -, same, rfl⟩ | ⟨mem, -⟩
    · exact absurd state (h x inside (same.symm.trans named)).unsealed
    · exact all y mem named
  · rcases mem_modExtentIn mem with ⟨z, -, same, rfl⟩ | ⟨mem, -⟩
    · have erased := h x inside (same.symm.trans named)
      have free := erased.ok_of_free (state.resolve_right erased.unsealed)
      exact ⟨rfl, rfl, rfl, fun _ => ⟨Or.inr rfl, rfl⟩, fun fail => Bool.noConfusion (free.symm.trans fail)⟩
    · exact all y mem named

/-! ### The statement -/

theorem exec_formatEraseCompletion {s : State} {ext at_ : Nat} {d : Bool}
    (flight : s.store.inFlight = some ⟨⟨.formatErase ext, d⟩, at_⟩) (ok : Bool) :
    exec (.formatEraseCompletion ok) s = .next (s.begin.landed.formatErased ext ok).allocate := by
  have op : s.flightOp = some (.formatErase ext) := by
    unfold State.flightOp
    rw [flight]
    rfl
  show execFormatEraseCompletion ok s = _
  unfold execFormatEraseCompletion
  rw [op]

/-- While erases are left the gate stays closed, and the boundary makes no attempt. -/
theorem exec_formatErase_more {s : State} {ext left at_ : Nat} {d : Bool}
    (flight : s.store.inFlight = some ⟨⟨.formatErase ext, d⟩, at_⟩) (format : s.format = some left) (settled : s.settled)
    (more : 1 < left) (ok : Bool) : ∃ n : Nat, exec (.formatEraseCompletion ok) s
      = .next { extentFormatted ext ok s.begin.landed with
        format := some (left - 1), freeCount := n, attemptDue := s.attemptDue } := by
  have done := extentFormatted_spec ext ok s.begin.landed
  rw [exec_formatEraseCompletion flight, formatErased_more (s := s.begin.landed) format ext ok more]
  generalize extentFormatted ext ok s.begin.landed = t at done ⊢
  have closed : ({ t with format := some (left - 1), attemptDue := true } : State).gateOpen = false := by
    simp [State.gateOpen, State.formatting]
  obtain ⟨n, still⟩ := allocate_closed
    (s := { t with format := some (left - 1), attemptDue := true }) (needless_of_ac settled done.ac) closed
  rw [still, settled.1]
  exact ⟨n, rfl⟩

/-- Settles O44: while erases are left only the extent, its report and the count change; the last one completes the format,
and what its attempts choose of the erased extents is FREE. -/
theorem formatEraseCompletes : Obligations.FormatEraseCompletes := by
  unfold Obligations.FormatEraseCompletes
  intro s ext left at_ d flight format settled
  refine ⟨fun more => ?_, fun more => ?_, fun ok last => ?_⟩
  · obtain ⟨n, done⟩ := exec_formatErase_more flight format settled more true
    rw [done]
    exact ⟨n, rfl⟩
  · obtain ⟨n, done⟩ := exec_formatErase_more flight format settled more false
    obtain ⟨kept, extents, -, fault⟩ := extentFormatted_spec ext false s.begin.landed
    obtain ⟨told, issued⟩ := fault rfl
    have others := leavesOthers_trans (by constructor <;> rfl : State.leavesOthers s s.begin.landed)
      (leavesOthers_of_kept kept)
    rw [done]
    refine ⟨_, rfl, rfl, fun x mem named => ?_, told, issued, ?_⟩
    · rw [extents] at mem
      exact (formatted_allAfterErase ext false _ x mem named).retired rfl
    · exact leavesOthers_trans others (by constructor <;> rfl)
  · have done := extentFormatted_spec ext ok s.begin.landed
    obtain ⟨a, ended, resumed⟩ := formatErased_last (s := s.begin.landed) format ext ok last
    rw [exec_formatEraseCompletion flight, ended]
    generalize extentFormatted ext ok s.begin.landed = t at done ⊢
    obtain ⟨kept, extents, ac, fault⟩ := done
    have behind := aside_allocate (formatCompleted a t)
    have unwanted (none_ : s.anyWanted = false) :
        (formatCompleted a t).allocate = { formatCompleted a t with attemptDue := false } :=
      allocate_unwanted (needless_of_ac settled ac) ((anyWanted_of_ac ac).trans none_)
    have notice : (formatCompleted a t).allocate.notices.formatDone = (formatCompleted a t).notices.formatDone :=
      (congrArg Notices.formatDone (allocate_besideFindings (formatCompleted a t)) :)
    have erased : AllAfterErase ext ok t.extents := by
      rw [extents]
      exact formatted_allAfterErase ext ok _
    have stays : AllAfterErase ext ok (formatCompleted a t).allocate.extents :=
      allocate_extents attempt_allAfterErase _ erased
    refine ⟨_, rfl, behind.kept.format, notice, fun r paused => behind.kept.configTimer.trans (resumed r paused),
      fun x mem named => ?_, fun none_ => ?_, fun fail => ⟨behind.beside.notices.device (fault fail).1, fun none_ => ?_⟩,
      behind.kept.settings.trans kept.settings, behind.kept.st.trans kept.st, behind.kept.le.trans kept.le,
      behind.kept.cc.trans kept.cc⟩
    · obtain ⟨tag, first, last, freed, retired⟩ := stays x mem named
      exact ⟨tag, first, last, freed, retired⟩
    · rw [unwanted none_]
      exact extents
    · rw [unwanted none_]
      exact (fault fail).2

end Sys2Proof.MonitorMode
end
